-- ==== Sys2Proof/Word.lean ====
section
/-!
DEFINITION. The word types of the HX-12 (00 R12): bytes, 32-bit register words, 64-bit instruction words and
addresses, and the plainest arithmetic on bits used everywhere.
-/
namespace Sys2Proof

/-- A byte of memory. -/
abbrev Byte := BitVec 8
/-- The content of one lane of a vector register (R264). -/
abbrev Word := BitVec 32
/-- A 64-bit quantity: an instruction word, an address, a register pair. -/
abbrev DWord := BitVec 64

/-- The 64-bit value of a pair, the low word first (R69). -/
def pairOf (lo hi : Word) : DWord := hi ++ lo

/-- The low word of a pair. -/
def loWord (d : DWord) : Word := BitVec.ofNat 32 d.toNat
/-- The high word of a pair. -/
def hiWord (d : DWord) : Word := BitVec.ofNat 32 (d.toNat / 2 ^ 32)

end Sys2Proof
end

