-- ==== Sys2Proof/Syntax/Forms.lean ====
section
/-!
DEFINITION. The operand forms and function codes of the instruction words: guard and lookahead (R40, R41), the
lane-permutation modifier (R46), and the shared codes of R70 and R72.
-/
namespace Sys2Proof

/-- The guard and the lookahead count of a full word (R40, R41). -/
structure Hd where
  neg  : Bool
  pred : Nat
  la   : Nat
  deriving DecidableEq, Repr, Inhabited

/-- The three classes of the lane-permutation modifier (R46). -/
inductive ModKind where
  | rotate | butterfly | broadcast
  deriving DecidableEq, Repr, Inhabited

/-- A modifier (R46): its class, whether it applies to source A, log2 of the segment size (1 to 5), its argument. -/
structure LaneMod where
  kind : ModKind
  onA  : Bool
  seg  : Nat
  arg  : Nat
  deriving DecidableEq, Repr, Inhabited

/-- Integer types (R70, IT). -/
inductive IT where
  | s8 | s16 | s32 | s64 | z8 | z16 | z32 | z64
  deriving DecidableEq, Repr, Inhabited

/-- Conversion types (R70, TY). -/
inductive TY where
  | int (t : IT) | f32 | f64 | bf16
  deriving DecidableEq, Repr, Inhabited

/-- Memory types (R70, MT). -/
inductive MT where
  | z8 | s8 | z16 | s16 | b32 | b64 | b128
  deriving DecidableEq, Repr, Inhabited

/-- Rounding modes (R83). -/
inductive RM where
  | rn | rz | rp | rm
  deriving DecidableEq, Repr, Inhabited

/-- Scopes (R70, R287). -/
inductive Scope where
  | thread | wave | workgroup | cluster | device | system
  deriving DecidableEq, Repr, Inhabited

/-- Comparisons (R70, CC). -/
inductive CC where
  | eq | ne | lt | le | gt | ge | unord | ord
  deriving DecidableEq, Repr, Inhabited

/-- Watch comparisons (R70, CM; R311). -/
inductive CM where
  | eq | ne | lt | le | gt | ge | ltu | leu | gtu | geu | anyBits | allBits
  deriving DecidableEq, Repr, Inhabited

/-- Atomic operations (R70, AO; R338). -/
inductive AO where
  | add | min | max | and | or | xor | exch | cas | inc | dec | addF32
  deriving DecidableEq, Repr, Inhabited

/-- Atomic types (R70). -/
inductive AT where
  | s32 | z32 | s64 | z64
  deriving DecidableEq, Repr, Inhabited

/-- Orders of atomics (R72, AO). -/
inductive Order where
  | relaxed | acquire | release | acqRel
  deriving DecidableEq, Repr, Inhabited

/-- Orders of fences (R72, FE). -/
inductive FenceOrder where
  | acquire | release | acqRel | seqCst
  deriving DecidableEq, Repr, Inhabited

/-- Cache hints (R72, MT). -/
inductive Hint where
  | default | stream | keep
  deriving DecidableEq, Repr, Inhabited

/-- BX formats (R72, BX). -/
inductive BxFmt where
  | bx3 | bx5 | bx8
  deriving DecidableEq, Repr, Inhabited

/-- Counters read by CLKRD (R72, CK). -/
inductive Counter where
  | cyc | time | cls (c : Nat)
  deriving DecidableEq, Repr, Inhabited

/-- Modes of LGET (R72, XS). -/
inductive LgetMode where
  | atLane | below | above | flip
  deriving DecidableEq, Repr, Inhabited

/-- Kinds of PQRY (R72, XV). -/
inductive PqryKind where
  | every | some | same | mask
  deriving DecidableEq, Repr, Inhabited

/-- Value types of LFOLD and SCAN (R72, XR). -/
inductive FoldTy where
  | s32 | z32 | s64 | z64 | f32
  deriving DecidableEq, Repr, Inhabited

/-- Operations of LFOLD, in AO order (R72, XR). -/
inductive FoldOp where
  | add | min | max | and | or | xor
  deriving DecidableEq, Repr, Inhabited

/-- Modes of a core SRAM bank (R72, BK; R272). -/
inductive BankMode where
  | cache | scratch | fifo
  deriving DecidableEq, Repr, Inhabited

/-- Actions of CCTL (R337). -/
inductive CctlOp where
  | wb | inv | wbinv
  deriving DecidableEq, Repr, Inhabited

/-- Extents of TLBINV (R449). -/
inductive TlbExtent where
  | page | ctx | all
  deriving DecidableEq, Repr, Inhabited

/-- Targets of a drain (R72, TD). -/
inductive DrainTarget where
  | registers | scratch | memory
  deriving DecidableEq, Repr, Inhabited

/-- Output formats of a drain (R219). -/
inductive OutFmt where
  | s8 | z8 | s16 | z16 | s32 | z32 | f32 | bf16 | f64 | mxint8 | bx3 | bx5 | bx8
  deriving DecidableEq, Repr, Inhabited

/-- Direction of KMOV (R240). -/
inductive KmovDir where
  | kk | kv | vk
  deriving DecidableEq, Repr, Inhabited

/-- The order, scope, hint and type of a load or store (R331). -/
structure MemForm where
  hint    : Hint
  ordered : Bool
  scope   : Scope
  mt      : MT
  deriving DecidableEq, Repr, Inhabited

/-- Half-form operations of a dual word (R74). `u` is true for `.z32`. -/
inductive HalfOp where
  | nop
  | iadd (sat u : Bool) | isub (sat u : Bool) | imin (u : Bool) | imax (u : Bool)
  | and | or | xor | andn | shl | shr | sar | mov
  | imul (u : Bool)
  | fadd (r : RM) | fmul (r : RM) | fmin | fmax | hadd2 (r : RM) | hmul2 (r : RM)
  | ld (t : MT) | st (t : MT) | lds (t : MT) | sts (t : MT)
  deriving DecidableEq, Repr, Inhabited

/-- One half of a dual word (R56). -/
structure Half where
  op   : HalfOp
  dst  : Nat
  src  : Nat
  pred : Nat
  deriving DecidableEq, Repr, Inhabited

/-- A request that a fabric peer sends to this device (21 R461): what it does at offset `off` of the first tier. -/
inductive FabricOp where
  | load (off n : Nat)
  | store (off : Nat) (bytes : List (Nat × Byte))
  | atomic (off : Nat) (op : AO) (ty : AT) (b c : DWord)
  deriving DecidableEq, Repr, Inhabited

/-- The width of an integer type in bits. -/
def IT.width : IT → Nat
  | .s8 | .z8 => 8 | .s16 | .z16 => 16 | .s32 | .z32 => 32 | .s64 | .z64 => 64
def IT.signed : IT → Bool
  | .s8 | .s16 | .s32 | .s64 => true
  | _ => false
/-- True for the types that occupy a register pair (R69). -/
def IT.wide (t : IT) : Bool := t.width == 64
def TY.wide : TY → Bool
  | .int t => t.wide | .f64 => true | _ => false
/-- Bytes moved by a memory type (R329). -/
def MT.bytes : MT → Nat
  | .z8 | .s8 => 1 | .z16 | .s16 => 2 | .b32 => 4 | .b64 => 8 | .b128 => 16
/-- Registers moved by a memory type (R332). -/
def MT.regs : MT → Nat
  | .b64 => 2 | .b128 => 4 | _ => 1
def AT.wide : AT → Bool | .s64 | .z64 => true | _ => false
def AT.signed : AT → Bool | .s32 | .s64 => true | _ => false
def AT.bytes (t : AT) : Nat := if t.wide then 8 else 4
def Order.acq : Order → Bool | .acquire | .acqRel => true | _ => false
def Order.rel : Order → Bool | .release | .acqRel => true | _ => false
/-- Mantissa width p of a BX format (R93). -/
def BxFmt.p : BxFmt → Nat | .bx3 => 2 | .bx5 => 4 | .bx8 => 7
def FoldTy.wide : FoldTy → Bool | .s64 | .z64 => true | _ => false

end Sys2Proof
end

