-- ==== Sys2Proof/Syntax.lean ====
section
/-!
DEFINITION. The instructions and the steps of the HX-12: one constructor per row of spec/opcode_table.json. The
constructors up to `dualWord` are the instructions of the map (R71, R74); those after it are the machine's own
steps and what the outside world does to it (95), which no instruction word encodes.
Common arguments: `h` guard and lookahead, `m` the lane-permutation modifier, `d` destination, `a`, `b`, `c` source
registers, `k` a mask number, `p` a predicate, `w` the W bit (a 64-bit operand).
-/
namespace Sys2Proof

inductive Instr where
  /-- MOVI: R111. -/
  | movi (h : Hd) (d : Nat) (imm : Int)
  /-- MOVH: R111. -/
  | movh (h : Hd) (d imm : Nat)
  /-- IADD_IMM: R116. -/
  | iaddImm (h : Hd) (d a : Nat) (imm : Int)
  /-- IMUL_IMM: R116. -/
  | imulImm (h : Hd) (d a : Nat) (imm : Int)
  /-- AND_IMM: R116. -/
  | andImm (h : Hd) (d a : Nat) (imm : Int)
  /-- OR_IMM: R116. -/
  | orImm (h : Hd) (d a : Nat) (imm : Int)
  /-- XOR_IMM: R116. -/
  | xorImm (h : Hd) (d a : Nat) (imm : Int)
  /-- SHL_IMM: R116, R118. -/
  | shlImm (h : Hd) (d a n : Nat)
  /-- SHR_IMM: R116, R118. -/
  | shrImm (h : Hd) (d a n : Nat)
  /-- SAR_IMM: R116, R118. -/
  | sarImm (h : Hd) (d a n : Nat)
  /-- IADD: R112. -/
  | iadd (h : Hd) (m : Option LaneMod) (d a b : Nat) (sat : Bool) (t : IT)
  /-- ISUB: R112. -/
  | isub (h : Hd) (m : Option LaneMod) (d a b : Nat) (sat : Bool) (t : IT)
  /-- IMIN: R112. -/
  | imin (h : Hd) (m : Option LaneMod) (d a b : Nat) (t : IT)
  /-- IMAX: R112. -/
  | imax (h : Hd) (m : Option LaneMod) (d a b : Nat) (t : IT)
  /-- IABS: R112. -/
  | iabs (h : Hd) (m : Option LaneMod) (d a : Nat) (sat : Bool) (t : IT)
  /-- INEG: R112. -/
  | ineg (h : Hd) (m : Option LaneMod) (d a : Nat) (sat : Bool) (t : IT)
  /-- IMUL: R112. -/
  | imul (h : Hd) (m : Option LaneMod) (d a b : Nat) (t : IT)
  /-- IMULH: R112. -/
  | imulh (h : Hd) (m : Option LaneMod) (d a b : Nat) (t : IT)
  /-- ISUM: R114. -/
  | isum (h : Hd) (m : Option LaneMod) (d a b c : Nat) (t : IT)
  /-- IMAD: R114. -/
  | imad (h : Hd) (m : Option LaneMod) (d a b c : Nat) (t : IT)
  /-- ISAD: R114. -/
  | isad (h : Hd) (m : Option LaneMod) (d a b c : Nat) (t : IT)
  /-- IDIV: R113. -/
  | idiv (h : Hd) (m : Option LaneMod) (d a b : Nat) (t : IT)
  /-- IREM: R113. -/
  | irem (h : Hd) (m : Option LaneMod) (d a b : Nat) (t : IT)
  /-- LEA: R115. -/
  | lea (h : Hd) (m : Option LaneMod) (d a b sh : Nat) (w : Bool)
  /-- ISET: R117. -/
  | iset (h : Hd) (m : Option LaneMod) (d a b : Nat) (cc : CC) (t : IT)
  /-- SEL: R117. -/
  | sel (h : Hd) (m : Option LaneMod) (d a b : Nat) (w neg : Bool) (p : Nat)
  /-- AND: R118. -/
  | and (h : Hd) (m : Option LaneMod) (d a b : Nat) (w : Bool)
  /-- OR: R118. -/
  | or (h : Hd) (m : Option LaneMod) (d a b : Nat) (w : Bool)
  /-- XOR: R118. -/
  | xor (h : Hd) (m : Option LaneMod) (d a b : Nat) (w : Bool)
  /-- ANDN: R118. -/
  | andn (h : Hd) (m : Option LaneMod) (d a b : Nat) (w : Bool)
  /-- NOT: R118. -/
  | not (h : Hd) (m : Option LaneMod) (d a : Nat) (w : Bool)
  /-- SHL: R118. -/
  | shl (h : Hd) (m : Option LaneMod) (d a b : Nat) (w : Bool)
  /-- SHR: R118. -/
  | shr (h : Hd) (m : Option LaneMod) (d a b : Nat) (w : Bool)
  /-- SAR: R118. -/
  | sar (h : Hd) (m : Option LaneMod) (d a b : Nat) (w : Bool)
  /-- ROL: R118. -/
  | rol (h : Hd) (m : Option LaneMod) (d a b : Nat) (w : Bool)
  /-- POPC: R118. -/
  | popc (h : Hd) (m : Option LaneMod) (d a : Nat) (w : Bool)
  /-- CLZ: R118. -/
  | clz (h : Hd) (m : Option LaneMod) (d a : Nat) (w : Bool)
  /-- BREV: R118. -/
  | brev (h : Hd) (m : Option LaneMod) (d a : Nat) (w : Bool)
  /-- BFE: R119. -/
  | bfe (h : Hd) (m : Option LaneMod) (d a b : Nat) (t : IT)
  /-- BFI: R119. -/
  | bfi (h : Hd) (m : Option LaneMod) (d a b c : Nat) (w : Bool)
  /-- MOV: R111. -/
  | mov (h : Hd) (m : Option LaneMod) (d a : Nat) (w : Bool)
  /-- PSET: R120. -/
  | pset (h : Hd) (m : Option LaneMod) (p a b : Nat) (cc : CC) (t : IT)
  /-- PAND: R120. -/
  | pand (h : Hd) (p a b : Nat) (negA negB : Bool)
  /-- POR: R120. -/
  | por (h : Hd) (p a b : Nat) (negA negB : Bool)
  /-- PXOR: R120. -/
  | pxor (h : Hd) (p a b : Nat) (negA negB : Bool)
  /-- PNOT: R120. -/
  | pnot (h : Hd) (p a : Nat) (negA : Bool)
  /-- FADD: R121. -/
  | fadd (h : Hd) (m : Option LaneMod) (d a b : Nat) (r : RM)
  /-- FSUB: R121. -/
  | fsub (h : Hd) (m : Option LaneMod) (d a b : Nat) (r : RM)
  /-- FMUL: R121. -/
  | fmul (h : Hd) (m : Option LaneMod) (d a b : Nat) (r : RM)
  /-- FFMA: R121, R86. -/
  | ffma (h : Hd) (m : Option LaneMod) (d a b c : Nat) (r : RM)
  /-- FMIN: R125, R87. -/
  | fmin (h : Hd) (m : Option LaneMod) (d a b : Nat)
  /-- FMAX: R125, R87. -/
  | fmax (h : Hd) (m : Option LaneMod) (d a b : Nat)
  /-- FSET: R126. -/
  | fset (h : Hd) (m : Option LaneMod) (p a b : Nat) (cc : CC)
  /-- FRND: R124. -/
  | frnd (h : Hd) (m : Option LaneMod) (d a : Nat) (r : RM)
  /-- FCLASS: R127. -/
  | fclass (h : Hd) (m : Option LaneMod) (d a : Nat)
  /-- FDIV: R121, R123. -/
  | fdiv (h : Hd) (m : Option LaneMod) (d a b : Nat) (r : RM)
  /-- FRCP: R121, R123. -/
  | frcp (h : Hd) (m : Option LaneMod) (d a : Nat) (r : RM)
  /-- FRSQ: R121, R123. -/
  | frsq (h : Hd) (m : Option LaneMod) (d a : Nat) (r : RM)
  /-- FSQRT: R121, R123. -/
  | fsqrt (h : Hd) (m : Option LaneMod) (d a : Nat) (r : RM)
  /-- FEXP2: R122, R123. -/
  | fexp2 (h : Hd) (m : Option LaneMod) (d a : Nat)
  /-- FLOG2: R122, R123. -/
  | flog2 (h : Hd) (m : Option LaneMod) (d a : Nat)
  /-- FSIN: R122, R123. -/
  | fsin (h : Hd) (m : Option LaneMod) (d a : Nat)
  /-- FCOS: R122, R123. -/
  | fcos (h : Hd) (m : Option LaneMod) (d a : Nat)
  /-- HADD2: R128, R88. -/
  | hadd2 (h : Hd) (m : Option LaneMod) (d a b : Nat) (r : RM)
  /-- HMUL2: R128, R88. -/
  | hmul2 (h : Hd) (m : Option LaneMod) (d a b : Nat) (r : RM)
  /-- HFMA2: R128, R88. -/
  | hfma2 (h : Hd) (m : Option LaneMod) (d a b c : Nat) (r : RM)
  /-- HMAX2: R128, R87. -/
  | hmax2 (h : Hd) (m : Option LaneMod) (d a b : Nat)
  /-- DADD: R129. -/
  | dadd (h : Hd) (m : Option LaneMod) (d a b : Nat) (r : RM)
  /-- DMUL: R129. -/
  | dmul (h : Hd) (m : Option LaneMod) (d a b : Nat) (r : RM)
  /-- DFMA: R129. -/
  | dfma (h : Hd) (m : Option LaneMod) (d a b c : Nat) (r : RM)
  /-- DSET: R129. -/
  | dset (h : Hd) (m : Option LaneMod) (p a b : Nat) (cc : CC)
  /-- CVT: R130. -/
  | cvt (h : Hd) (d a : Nat) (dty sty : TY) (r : RM)
  /-- CVTBX: R131. -/
  | cvtbx (h : Hd) (d a k : Nat) (f : BxFmt) (r : RM)
  /-- CVTRES: R133. -/
  | cvtres (h : Hd) (d a ch : Nat) (signed : Bool)
  /-- CVTMX_ENC: R132. -/
  | cvtmxEnc (h : Hd) (d a b k : Nat) (r : RM)
  /-- CVTMX_DEC: R132. -/
  | cvtmxDec (h : Hd) (d a b : Nat) (r : RM)
  /-- RNGSEED: R135. -/
  | rngseed (h : Hd) (a : Nat)
  /-- RNG: R135. -/
  | rng (h : Hd) (d : Nat)
  /-- RNGF: R135. -/
  | rngf (h : Hd) (d : Nat)
  /-- RNGSKIP: R135. -/
  | rngskip (h : Hd) (a : Nat)
  /-- CLKRD: R137. -/
  | clkrd (h : Hd) (d : Nat) (c : Counter)
  /-- TSTAMP: R138. -/
  | tstamp (h : Hd) (d : Nat)
  /-- LGET: R153. -/
  | lget (h : Hd) (d a b k : Nat) (mode : LgetMode) (pv : Nat)
  /-- PQRY: R154. -/
  | pqry (h : Hd) (d p k : Nat) (kind : PqryKind)
  /-- PEERS: R155. -/
  | peers (h : Hd) (d a k : Nat) (w : Bool)
  /-- LFOLD: R156. -/
  | lfold (h : Hd) (d a k : Nat) (op : FoldOp) (t : FoldTy)
  /-- SCAN: R157. -/
  | scan (h : Hd) (d a k : Nat) (max excl : Bool) (t : FoldTy)
  /-- XLP: R158. -/
  | xlp (h : Hd) (d a k e : Nat)
  /-- XLPL: R159. -/
  | xlpl (h : Hd) (a e : Nat)
  /-- XPOSE: R160; size 0, 1, 2 for 8, 16, 32 bits. -/
  | xpose (h : Hd) (d a k size : Nat)
  /-- UNPK: R161; size 0 to 3 for 2, 4, 8, 16 bits. -/
  | unpk (h : Hd) (d a k size : Nat) (signed : Bool)
  /-- PACKX: R162. -/
  | packx (h : Hd) (d a k size : Nat)
  /-- LD: R332. -/
  | ld (h : Hd) (d a : Nat) (off : Int) (f : MemForm)
  /-- ST: R333; `d` is the data register. -/
  | st (h : Hd) (d a : Nat) (off : Int) (f : MemForm)
  /-- LDS: R332, R356. -/
  | lds (h : Hd) (d a : Nat) (off : Int) (f : MemForm)
  /-- STS: R333, R356. -/
  | sts (h : Hd) (d a : Nat) (off : Int) (f : MemForm)
  /-- LDC: R335. -/
  | ldc (h : Hd) (d a : Nat) (off : Int) (hint : Hint) (t : MT)
  /-- PREF: R336. -/
  | pref (h : Hd) (a : Nat) (off : Int) (hint : Hint) (t : MT)
  /-- CCTL: R337. -/
  | cctl (h : Hd) (a : Nat) (off : Int) (op : CctlOp)
  /-- ATOM: R338. -/
  | atom (h : Hd) (d a b : Nat) (off : Int) (op : AO) (ord : Order) (sc : Scope) (t : AT)
  /-- RED: R338. -/
  | red (h : Hd) (a b : Nat) (off : Int) (op : AO) (ord : Order) (sc : Scope) (t : AT)
  /-- FENCE: R340. -/
  | fence (h : Hd) (ord : FenceOrder) (sc : Scope)
  /-- QFENCE: R341. -/
  | qfence (h : Hd) (mask : Nat)
  /-- BAR_ARRIVE: R345. -/
  | barArrive (h : Hd) (a bar : Nat)
  /-- BAR_WAIT: R346. -/
  | barWait (h : Hd) (bar pr : Nat)
  /-- BAR_ARRWAIT: R346. -/
  | barArrwait (h : Hd) (a bar pr : Nat)
  /-- BARINIT: R344. -/
  | barinit (h : Hd) (a bar : Nat)
  /-- WAITU: R350, R351. -/
  | waitu (h : Hd) (d a b : Nat) (off : Int) (cm : CM) (w : Bool) (ps : Nat)
  /-- FPUSH: R352. -/
  | fpush (h : Hd) (a bank : Nat) (w : Bool)
  /-- FPOP: R352. -/
  | fpop (h : Hd) (d bank : Nat) (w : Bool)
  /-- BANKCFG: R353. -/
  | bankcfg (h : Hd) (bank : Nat) (mode : BankMode)
  /-- KPASS: R354. -/
  | kpass (h : Hd)
  /-- TCFG: R212. -/
  | tcfg (h : Hd) (tc a : Nat)
  /-- TCFGRD: R212. -/
  | tcfgrd (h : Hd) (d tc : Nat)
  /-- TLD: R213. -/
  | tld (h : Hd) (t a : Nat) (smem : Bool)
  /-- TLDW: R214. -/
  | tldw (h : Hd) (t a b : Nat) (smem : Bool)
  /-- TST: R213. -/
  | tst (h : Hd) (a t : Nat) (smem : Bool)
  /-- TZERO: R215. -/
  | tzero (h : Hd) (n : Nat) (acc : Bool)
  /-- TPROF: R216. -/
  | tprof (h : Hd) (a : Nat)
  /-- TMMA: R217. -/
  | tmma (h : Hd) (acc ta tb k : Nat) (sa sb : Bool)
  /-- TMMAS: R217. -/
  | tmmas (h : Hd) (acc ta tb k : Nat) (sa sb : Bool)
  /-- TROWSUM: R218. -/
  | trowsum (h : Hd) (acc ta k : Nat) (sa : Bool)
  /-- TCOLSUM: R218. -/
  | tcolsum (h : Hd) (acc ta k : Nat) (sa : Bool)
  /-- TDRAIN: R219, R220. -/
  | tdrain (h : Hd) (d acc a k : Nat) (f : OutFmt) (target : DrainTarget)
  /-- TDRAINA: R221. -/
  | tdraina (h : Hd) (acc a k : Nat) (f : OutFmt) (smem : Bool)
  /-- TACCSV: R222. -/
  | taccsv (h : Hd) (acc a : Nat) (smem : Bool)
  /-- TACCLD: R222. -/
  | taccld (h : Hd) (acc a : Nat)
  /-- TCHK: R223. -/
  | tchk (h : Hd) (d acc : Nat)
  /-- BRA: R247. -/
  | bra (h : Hd) (off : Int)
  /-- BRX: R248. -/
  | brx (h : Hd) (a : Nat)
  /-- CALL: R250. -/
  | call (h : Hd) (off : Int)
  /-- CALLX: R250, R248. -/
  | callx (h : Hd) (a : Nat)
  /-- RET: R250 to R252. -/
  | ret (h : Hd)
  /-- REFORM: R253. -/
  | reform (h : Hd)
  /-- JOIN: R239. -/
  | join (h : Hd) (k : Nat)
  /-- LEAVE: R239, R241. -/
  | leave (h : Hd) (k : Nat)
  /-- WAITM: R242. -/
  | waitm (h : Hd) (p k timeout : Nat)
  /-- KMOV: R240. -/
  | kmov (h : Hd) (d a : Nat) (dir : KmovDir)
  /-- KAND: R240. -/
  | kand (h : Hd) (d a b : Nat)
  /-- KOR: R240. -/
  | kor (h : Hd) (d a b : Nat)
  /-- KANDN: R240. -/
  | kandn (h : Hd) (d a b : Nat)
  /-- KPOP: R240. -/
  | kpop (h : Hd) (d a : Nat)
  /-- LOOP: R254. -/
  | loop (h : Hd) (a : Nat) (off : Int)
  /-- LEND: R255. -/
  | lend (h : Hd) (off : Int)
  /-- EXIT: R258. -/
  | exit (h : Hd)
  /-- TRAP: R259. -/
  | trap (h : Hd) (code : Nat)
  /-- BKPT: R259, R500. -/
  | bkpt (h : Hd)
  /-- NOP: R260. -/
  | nop (h : Hd)
  /-- SRD: R448. -/
  | srd (h : Hd) (d reg : Nat) (w : Bool)
  /-- SWR: R448. -/
  | swr (h : Hd) (reg a : Nat) (w : Bool)
  /-- ECALL: R449. -/
  | ecall (h : Hd) (service : Nat)
  /-- TRET: R433. -/
  | tret (h : Hd)
  /-- IFENCE: R449. -/
  | ifence (h : Hd)
  /-- TLBINV: R449. -/
  | tlbinv (h : Hd) (a : Nat) (ext : TlbExtent)
  /-- BBMARK: R449. -/
  | bbmark (h : Hd) (a : Nat)
  /-- HALT: R449. -/
  | halt (h : Hd)
  /-- DUAL_WORD: R55 to R58. -/
  | dualWord (h1 h2 : Half)
  /-- CORE_CYCLE: R22, R26, R28 to R31, R235, R236. -/
  | coreCycle (core : Nat)
  /-- TILE_OPERATION_COMPLETE: R171, R224. -/
  | tileOperationComplete (core part op : Nat)
  /-- EMERGENCY_END: R424. -/
  | emergencyEnd
  /-- LONG_LATENCY_COMMIT: R51, R266: the results that have arrived for closed windows of the partition commit. -/
  | longLatencyCommit (core part : Nat)
  /-- BUNDLE_AGE_OVERRIDE: R30 rule 1. -/
  | bundleAgeOverride (core : Nat)
  /-- BIN_AGE_FORM: R235. -/
  | binAgeForm (core part bin : Nat)
  /-- FILING_EVICTION: R237. -/
  | filingEviction (core part : Nat)
  /-- DROOP_ALARM: R32, R33: one supply sample of the core's four islands, in mV. -/
  | droopAlarm (core mv0 mv1 mv2 mv3 : Nat)
  /-- STRETCH_END: R33. -/
  | stretchEnd (core : Nat)
  /-- HALF_END: R33. -/
  | halfEnd (core : Nat)
  /-- DRPCFG_WRITE: R36. -/
  | drpcfgWrite (core : Nat) (v : Word)
  /-- DRPSTAT_CLR: R37. -/
  | drpstatClr (core : Nat)
  /-- WTSTAT_CLR: R327. -/
  | wtstatClr (tag : Nat)
  /-- REGISTER_WRITE: R15, R448. -/
  | registerWrite (core part reg : Nat) (v : DWord) (w : Bool)
  /-- SIGN_TIMEOUT: R146. -/
  | signTimeout (core part session : Nat)
  /-- WAITM_TIMEOUT: R242. -/
  | waitmTimeout (core part slot lane : Nat)
  /-- BARRIER_RETRY_TIMEOUT: R348. -/
  | barrierRetryTimeout (core part slot lane : Nat)
  /-- WATCH_DEADLINE: R319. -/
  | watchDeadline (slice entry : Nat)
  /-- SPILL_DEADLINE_SCAN: R322. -/
  | spillDeadlineScan (slice : Nat)
  /-- WATCH_WAKE: R318. -/
  | watchWake (slice entry : Nat)
  /-- SCHEDULER_WATCH_ARM: R326. -/
  | schedulerWatchArm
  /-- SCHEDULER_WATCH: R400. -/
  | schedulerWatch (tag rcb : Nat)
  /-- FAULT_RESPONSE: R445. -/
  | faultResponse (tag entry : Nat)
  /-- PROFILE_CHECK: R170. -/
  | profileCheck (tag : Nat)
  /-- PROFILE_READY: R171. -/
  | profileReady (tag : Nat)
  /-- TACCLD_HEADER: R202. -/
  | taccldHeader (core part op : Nat)
  /-- TILE_OPERATION_START: R208. -/
  | tileOperationStart (core part op : Nat)
  /-- DRAIN_COMPLETE: R192. -/
  | drainComplete (core part op : Nat)
  /-- LINE_LANDED: R280. -/
  | lineLanded (core bank line : Nat)
  /-- BANK_SWITCH_DONE: R274. -/
  | bankSwitchDone (core bank : Nat)
  /-- ECMD_STORE: R355. -/
  | ecmdStore (core part slot n : Nat) (v : DWord)
  /-- EGO: R358. -/
  | ego (core part slot lane : Nat) (v : DWord)
  /-- COPY: R369: the command at the head of queue `q`. -/
  | copy (core q : Nat)
  /-- COPY2D: R369: the command at the head of queue `q`. -/
  | copy2d (core q : Nat)
  /-- GATHER2D: R369: the command at the head of queue `q`. -/
  | gather2d (core q : Nat)
  /-- SCATTER2D: R369: the command at the head of queue `q`. -/
  | scatter2d (core q : Nat)
  /-- FILL: R369: the command at the head of queue `q`. -/
  | fill (core q : Nat)
  /-- CONVRES: R371: the command at the head of queue `q`. -/
  | convres (core q : Nat)
  /-- CONVBIN: R372: the command at the head of queue `q`. -/
  | convbin (core q : Nat)
  /-- DECJPEG: R374, R375: the command at the head of queue `q`. -/
  | decjpeg (core q : Nat)
  /-- DECG4: R376: the command at the head of queue `q`. -/
  | decg4 (core q : Nat)
  /-- ZCOMP: R380: the command at the head of queue `q`. -/
  | zcomp (core q : Nat)
  /-- ZEXP: R381: the command at the head of queue `q`. -/
  | zexp (core q : Nat)
  /-- ZBOOK: R383: the command at the head of queue `q`. -/
  | zbook (core q : Nat)
  /-- NREDUCE: R463: the members' buffers as (leaf, endpoint, bytes), this device's own for its leaf alone; `problem` is the NETWORK detail the fabric reports, 0 for none. -/
  | nreduce (core q : Nat) (members : List (Nat × Nat × List Byte)) (problem : Nat)
  /-- NMCAST: R464; `problem` as for NREDUCE. -/
  | nmcast (core q problem : Nat)
  /-- WCB_AGE_DRAIN: R459. -/
  | wcbAgeDrain (core peer line : Nat)
  /-- FABRIC_REQUEST: R461. -/
  | fabricRequest (src seq cumAck : Nat) (op : FabricOp)
  /-- FABRIC_REPLY: R461. -/
  | fabricReply (dst seq : Nat) (data : List Byte)
  /-- FABRIC_REPLAY: R461. -/
  | fabricReplay (dst seq : Nat)
  /-- LINK_FAILURE: R456. -/
  | linkFailure (port link : Nat)
  /-- FABRIC_TIME_SYNC: R466: the offset that the exchange finds. -/
  | fabricTimeSync (f : DWord)
  /-- HOST_WRITE: R452. -/
  | hostWrite (pa : Nat) (bytes : List Byte)
  /-- HOST_READ: R452. -/
  | hostRead (pa n : Nat)
  /-- CREATE: R454, R427. -/
  | create (desc : Nat)
  /-- DESTROY: R426. -/
  | destroy (tag : Nat)
  /-- REGROOT: R398, R454. -/
  | regroot (tag root : Nat)
  /-- PREEMPT: R434, R454. -/
  | preempt (tag launch index : Nat)
  /-- KILL: R454. -/
  | kill (tag launch : Nat)
  /-- PREEMPTION_HALT: R434; `wg` is the workgroup's number in the model's table. -/
  | preemptionHalt (wg : Nat)
  /-- SHADOW_SAVE: R435; `wg` is the workgroup's number in the model's table. -/
  | shadowSave (wg : Nat)
  /-- SLOW_SAVE: R436; `wg` is the workgroup's number in the model's table. -/
  | slowSave (wg : Nat)
  /-- SHADOW_RESTORE: R435; `wg` is the workgroup's number in the model's table. -/
  | shadowRestore (wg : Nat)
  /-- RESTORE: R439; `wg` is the workgroup's number in the model's table. -/
  | restore (wg : Nat)
  /-- ADMISSION: R406, R410: one admission choice. -/
  | admission
  /-- WAVE_DRAIN_END: R258. -/
  | waveDrainEnd (core part slot : Nat)
  /-- WORKGROUP_FINISH: R408. -/
  | workgroupFinish (wg : Nat)
  /-- CORE_GROUP_SLEW: R417. -/
  | coreGroupSlew (group oc : Nat)
  /-- SLEW_SETTLED: R417. -/
  | slewSettled (group : Nat)
  /-- CONTROL_INTERVAL_END: R421: (workgroup, mE, mI). -/
  | controlIntervalEnd (meas : List (Nat × Nat × Nat))
  /-- TRIM_APPLY: R423. -/
  | trimApply (core : Nat) (trim : Int)
  /-- POWER_EMERGENCY: R424. -/
  | powerEmergency (watts : Nat)
  /-- POWER_KILL: R424. -/
  | powerKill (watts : Nat)
  /-- PATROL_SCRUB: R477. -/
  | patrolScrub (slice : Nat)
  /-- ERRSUM_CLR: R479. -/
  | errsumClr
  /-- THERMAL_SAMPLE: R490 to R493; units of 0.125 degrees. -/
  | thermalSample (island : Nat) (reading : Int)
  /-- BBRCTL_FREEZE: R487. -/
  | bbrctlFreeze
  /-- COLD_RESET: R496, R481. -/
  | coldReset
  /-- POWER_LOSS: R501. -/
  | powerLoss
  /-- ENTER_IDLE: R501. -/
  | enterIdle
  /-- STATUS: R504. -/
  | status (seq : Nat) (payload : List Byte)
  /-- TELEM: R504. -/
  | telem (seq : Nat) (payload : List Byte)
  /-- BBR_READ: R504. -/
  | bbrRead (seq : Nat) (payload : List Byte)
  /-- EXPORT_BEGIN: R489. -/
  | exportBegin (seq : Nat) (payload : List Byte)
  /-- EXPORT_READ: R504. -/
  | exportRead (seq : Nat) (payload : List Byte)
  /-- EXPORT_ACK: R489. -/
  | exportAck (seq : Nat) (payload : List Byte)
  /-- ATTEST: R498. -/
  | attest (seq : Nat) (payload : List Byte)
  /-- CHALLENGE: R504. -/
  | challenge (seq : Nat) (payload : List Byte)
  /-- LIFECYCLE: R499. -/
  | lifecycle (seq : Nat) (payload : List Byte)
  /-- DEBUG: R500, R502. -/
  | debug (seq : Nat) (payload : List Byte)
  /-- POWER: R501. -/
  | power (seq : Nat) (payload : List Byte)
  /-- BUDGET: R504, R418. -/
  | budget (seq : Nat) (payload : List Byte)
  /-- MAPOUT: R480. -/
  | mapout (seq : Nat) (payload : List Byte)
  /-- THERM: R494. -/
  | therm (seq : Nat) (payload : List Byte)
  /-- FWLOAD: R506. -/
  | fwload (seq : Nat) (payload : List Byte)
  /-- DBGREG: R500. -/
  | dbgreg (seq : Nat) (payload : List Byte)
  /-- RESUME: R500. -/
  | resume (seq : Nat) (payload : List Byte)
  /-- DUSIA_UNKNOWN: R504. -/
  | dusiaUnknown (cmd seq : Nat) (payload : List Byte)
  /-- HOST_LINK_CHANGE: R450. -/
  | hostLinkChange (up : Bool)
  /-- CWCMD_BADARG: R454. -/
  | cwcmdBadarg (v : DWord)
  deriving DecidableEq, Repr, Inhabited

end Sys2Proof
end

