-- ==== Sys2Proof/WellFormed.lean ====
section
/-!
DEFINITION. The well-formed instructions: the ranges of the operand fields (R42, R43, R69, R72, R73, R151, R152,
R350), the timing class and latency of every opcode (R71, R74), and the check of one instruction against the
declared counts of its kernel.
-/
namespace Sys2Proof

/-- The counts that a kernel declares (R43, R69), and whether the thread is in handler mode (R69). -/
structure Counts where
  regs    : Nat
  tiles   : Nat
  accs    : Nat
  handler : Bool
  deriving DecidableEq, Repr, Inhabited

/-- The largest counts a header can declare (R66). -/
def Counts.max : Counts := { regs := 255, tiles := 16, accs := 4, handler := false }

/-- A vector register the kernel declares; never v255 (R43, R69). -/
def Counts.member (c : Counts) (n : Nat) : Bool := n < 255 && (n < c.regs || (c.handler && n < 4))
/-- A legal single vector register (R43). -/
def Counts.vec (c : Counts) (n : Nat) : Bool := n == 255 || c.member n
/-- A legal pair (R69). -/
def Counts.pair (c : Counts) (n : Nat) : Bool := n % 2 == 0 && c.member n && c.member (n + 1)
/-- A legal quadruple (R69). -/
def Counts.quad (c : Counts) (n : Nat) : Bool :=
  n % 4 == 0 && c.member n && c.member (n + 1) && c.member (n + 2) && c.member (n + 3)
/-- A register of width W (R69). -/
def Counts.wreg (c : Counts) (w : Bool) (n : Nat) : Bool := if w then c.pair n else c.vec n
/-- The data register of a memory type (R332). -/
def Counts.mreg (c : Counts) (t : MT) (n : Nat) : Bool :=
  match t.regs with
  | 1 => c.vec n
  | 2 => c.pair n
  | _ => c.quad n
/-- A tile register, also a tile control register (R42, R69). -/
def Counts.tile (c : Counts) (n : Nat) : Bool := n < 16 && n < c.tiles
/-- An accumulator (R42, R69). -/
def Counts.acc (c : Counts) (n : Nat) : Bool := n < 4 && n < c.accs
/-- Source B of ATOM and RED (R338). -/
def Counts.atomSrc (c : Counts) (op : AO) (t : AT) (n : Nat) : Bool :=
  if op == .cas then (if t.wide then c.quad n else c.pair n) else c.wreg t.wide n
/-- A predicate (R42). -/
def predOk (n : Nat) : Bool := n < 8
/-- A lane mask (R42, R72). -/
def maskOk (n : Nat) : Bool := n < 12

/-- When a dependent instruction can issue after this one (R71): the next cycle, after a fixed latency, after at
least a latency, or only when the thread's own condition is met. -/
inductive Latency where
  | short
  | fixed (n : Nat)
  | atLeast (n : Nat)
  | blocking
  deriving DecidableEq, Repr, Inhabited

/-- A long-latency opcode (R50). -/
def Latency.long : Latency → Bool
  | .fixed _ => true
  | .atLeast _ => true
  | _ => false

/-- The timing class and the latency of an opcode (R71); the machine's own steps have none. -/
def Instr.timing : Instr → Nat × Latency
  | .imulImm .. | .imul .. | .imulh .. | .imad .. => (1, .fixed 4)
  | .idiv _ _ _ _ _ t | .irem _ _ _ _ _ t => (3, .fixed (if t.wide then 40 else 24))
  | .fadd .. | .fsub .. | .fmul .. | .ffma .. | .fmin .. | .fmax .. | .fset .. | .frnd .. | .fclass .. =>
    (1, .fixed 4)
  | .fdiv .. => (3, .fixed 20)
  | .frcp .. | .frsq .. => (3, .fixed 12)
  | .fsqrt .. => (3, .fixed 16)
  | .fexp2 .. | .flog2 .. | .fsin .. | .fcos .. => (3, .fixed 12)
  | .hadd2 .. | .hmul2 .. | .hfma2 .. | .hmax2 .. => (1, .fixed 4)
  | .dadd .. | .dmul .. | .dfma .. | .dset .. => (2, .fixed 6)
  | .cvt .. | .cvtres .. => (1, .fixed 4)
  | .cvtbx .. | .cvtmxEnc .. | .cvtmxDec .. | .rng .. | .rngf .. => (2, .fixed 6)
  | .rngseed .. | .rngskip .. | .xlpl .. => (2, .short)
  | .lget .. | .pqry .. | .peers .. | .lfold .. | .scan .. | .xlp .. | .xpose .. | .unpk .. | .packx .. =>
    (2, .fixed 6)
  | .ld .. => (0, .atLeast 28)
  | .lds .. => (0, .atLeast 8)
  | .ldc .. => (0, .atLeast 6)
  | .atom .. => (0, .atLeast 32)
  | .barWait .. | .barArrwait .. | .waitu .. | .fpop .. | .tprof .. | .tchk .. | .waitm .. => (0, .blocking)
  | .tdrain _ _ _ _ _ _ .registers => (0, .atLeast 40)
  | _ => (0, .short)

/-- The timing class and the latency of a half-form opcode (R74). -/
def HalfOp.timing : HalfOp → Nat × Latency
  | .imul _ | .fadd _ | .fmul _ | .fmin | .fmax | .hadd2 _ | .hmul2 _ => (1, .fixed 4)
  | .ld _ => (0, .atLeast 28)
  | .lds _ => (0, .atLeast 8)
  | _ => (0, .short)

/-- The guard and lookahead of a full word; none for a dual word and for the machine's own steps. -/
def Instr.hd? : Instr → Option Hd
  | .movi h .. | .movh h .. | .iaddImm h .. | .imulImm h .. | .andImm h .. | .orImm h .. | .xorImm h ..
  | .shlImm h .. | .shrImm h .. | .sarImm h .. | .iadd h .. | .isub h .. | .imin h .. | .imax h .. | .iabs h ..
  | .ineg h .. | .imul h .. | .imulh h .. | .isum h .. | .imad h .. | .isad h .. | .idiv h .. | .irem h ..
  | .lea h .. | .iset h .. | .sel h .. | .and h .. | .or h .. | .xor h .. | .andn h .. | .not h .. | .shl h ..
  | .shr h .. | .sar h .. | .rol h .. | .popc h .. | .clz h .. | .brev h .. | .bfe h .. | .bfi h .. | .mov h ..
  | .pset h .. | .pand h .. | .por h .. | .pxor h .. | .pnot h .. | .fadd h .. | .fsub h .. | .fmul h ..
  | .ffma h .. | .fmin h .. | .fmax h .. | .fset h .. | .frnd h .. | .fclass h .. | .fdiv h .. | .frcp h ..
  | .frsq h .. | .fsqrt h .. | .fexp2 h .. | .flog2 h .. | .fsin h .. | .fcos h .. | .hadd2 h .. | .hmul2 h ..
  | .hfma2 h .. | .hmax2 h .. | .dadd h .. | .dmul h .. | .dfma h .. | .dset h .. | .cvt h .. | .cvtbx h ..
  | .cvtres h .. | .cvtmxEnc h .. | .cvtmxDec h .. | .rngseed h .. | .rng h .. | .rngf h .. | .rngskip h ..
  | .clkrd h .. | .tstamp h .. | .lget h .. | .pqry h .. | .peers h .. | .lfold h .. | .scan h .. | .xlp h ..
  | .xlpl h .. | .xpose h .. | .unpk h .. | .packx h .. | .ld h .. | .st h .. | .lds h .. | .sts h ..
  | .ldc h .. | .pref h .. | .cctl h .. | .atom h .. | .red h .. | .fence h .. | .qfence h .. | .barArrive h ..
  | .barWait h .. | .barArrwait h .. | .barinit h .. | .waitu h .. | .fpush h .. | .fpop h .. | .bankcfg h ..
  | .kpass h | .tcfg h .. | .tcfgrd h .. | .tld h .. | .tldw h .. | .tst h .. | .tzero h .. | .tprof h ..
  | .tmma h .. | .tmmas h .. | .trowsum h .. | .tcolsum h .. | .tdrain h .. | .tdraina h .. | .taccsv h ..
  | .taccld h .. | .tchk h .. | .bra h .. | .brx h .. | .call h .. | .callx h .. | .ret h | .reform h
  | .join h .. | .leave h .. | .waitm h .. | .kmov h .. | .kand h .. | .kor h .. | .kandn h .. | .kpop h ..
  | .loop h .. | .lend h .. | .exit h | .trap h .. | .bkpt h | .nop h | .srd h .. | .swr h .. | .ecall h ..
  | .tret h | .ifence h | .tlbinv h .. | .bbmark h .. | .halt h => some h
  | _ => none

/-- The modifier of an instruction (R46), and whether the opcode reads a vector source B. -/
def Instr.modifier? : Instr → Option LaneMod × Bool
  | .iadd _ m .. | .isub _ m .. | .imin _ m .. | .imax _ m .. | .imul _ m .. | .imulh _ m .. | .isum _ m ..
  | .imad _ m .. | .isad _ m .. | .idiv _ m .. | .irem _ m .. | .lea _ m .. | .iset _ m .. | .sel _ m ..
  | .and _ m .. | .or _ m .. | .xor _ m .. | .andn _ m .. | .shl _ m .. | .shr _ m .. | .sar _ m .. | .rol _ m ..
  | .bfe _ m .. | .bfi _ m .. | .pset _ m .. | .fadd _ m .. | .fsub _ m .. | .fmul _ m .. | .ffma _ m ..
  | .fmin _ m .. | .fmax _ m .. | .fset _ m .. | .fdiv _ m .. | .hadd2 _ m .. | .hmul2 _ m .. | .hfma2 _ m ..
  | .hmax2 _ m .. | .dadd _ m .. | .dmul _ m .. | .dfma _ m .. | .dset _ m .. => (m, true)
  | .iabs _ m .. | .ineg _ m .. | .not _ m .. | .popc _ m .. | .clz _ m .. | .brev _ m .. | .mov _ m ..
  | .frnd _ m .. | .fclass _ m .. | .frcp _ m .. | .frsq _ m .. | .fsqrt _ m .. | .fexp2 _ m .. | .flog2 _ m ..
  | .fsin _ m .. | .fcos _ m .. => (m, false)
  | _ => (none, false)

/-- True for the steps that no instruction word encodes. -/
def Instr.isEvent : Instr → Bool
  | .longLatencyCommit .. | .bundleAgeOverride .. | .binAgeForm .. | .filingEviction .. | .droopAlarm ..
  | .stretchEnd .. | .halfEnd .. | .drpcfgWrite .. | .drpstatClr .. | .wtstatClr .. | .registerWrite ..
  | .signTimeout .. | .waitmTimeout .. | .barrierRetryTimeout .. | .watchDeadline .. | .spillDeadlineScan ..
  | .watchWake .. | .schedulerWatchArm | .schedulerWatch .. | .faultResponse .. | .profileCheck ..
  | .profileReady .. | .taccldHeader .. | .tileOperationStart .. | .drainComplete .. | .lineLanded ..
  | .bankSwitchDone .. | .ecmdStore .. | .ego .. | .copy .. | .copy2d .. | .gather2d .. | .scatter2d ..
  | .fill .. | .convres .. | .convbin .. | .decjpeg .. | .decg4 .. | .zcomp .. | .zexp .. | .zbook ..
  | .nreduce .. | .nmcast .. | .wcbAgeDrain .. | .fabricRequest .. | .fabricReply .. | .fabricReplay ..
  | .linkFailure .. | .fabricTimeSync .. | .hostWrite .. | .hostRead .. | .create .. | .destroy .. | .regroot ..
  | .preempt .. | .kill .. | .preemptionHalt .. | .shadowSave .. | .slowSave .. | .shadowRestore ..
  | .restore .. | .admission | .waveDrainEnd .. | .workgroupFinish .. | .coreGroupSlew .. | .slewSettled ..
  | .controlIntervalEnd .. | .trimApply .. | .powerEmergency .. | .powerKill .. | .patrolScrub .. | .errsumClr
  | .thermalSample .. | .bbrctlFreeze | .coldReset | .powerLoss | .enterIdle | .status .. | .telem ..
  | .bbrRead .. | .exportBegin .. | .exportRead .. | .exportAck .. | .attest .. | .challenge .. | .lifecycle ..
  | .debug .. | .power .. | .budget .. | .mapout .. | .therm .. | .fwload .. | .dbgreg .. | .resume ..
  | .dusiaUnknown .. | .coreCycle .. | .tileOperationComplete .. | .emergencyEnd | .hostLinkChange ..
  | .cwcmdBadarg .. => true
  | _ => false

/-- The numbers of the special and system registers (R447). -/
def sysRegOk (n : Nat) : Bool :=
  n ≤ 0x05 || (0x08 ≤ n && n ≤ 0x0F) || (0x10 ≤ n && n ≤ 0x15) || (0x40 ≤ n && n ≤ 0x4A) ||
    (0x50 ≤ n && n ≤ 0x5B) || (0x60 ≤ n && n ≤ 0x67)

/-- The registers that a half reads, an address pair as two (R74, R334). -/
def Half.reads (h : Half) : List Nat :=
  match h.op with
  | .nop => []
  | .mov => [h.src]
  | .ld _ => [h.src, h.src + 1]
  | .lds _ => [h.src]
  | .st _ => [h.dst, h.dst + 1, h.src]
  | .sts _ => [h.dst, h.src]
  | _ => [h.dst, h.src]

/-- The registers that a half writes (R74). -/
def Half.writes (h : Half) : List Nat :=
  match h.op with
  | .nop | .st _ | .sts _ => []
  | _ => [h.dst]

/-- A memory operation (R57). -/
def Half.isMem (h : Half) : Bool :=
  match h.op with
  | .ld _ | .st _ | .lds _ | .sts _ => true
  | _ => false

/-- The registers of a half lie in their ranges (R57, R334). -/
def Half.regsOk (c : Counts) (h : Half) : Bool :=
  match h.op with
  | .nop => h.dst == 0 && h.src == 0
  | .ld _ => c.vec h.dst && c.pair h.src
  | .st _ => c.pair h.dst && c.vec h.src
  | _ => c.vec h.dst && c.vec h.src

/-- The FN5 types that a half-form opcode takes (R74), and its predicate field. -/
def Half.fieldsOk (h : Half) : Bool :=
  h.pred < 8 &&
  match h.op with
  | .ld t | .lds t => t.regs == 1
  | .st t | .sts t => t == .z8 || t == .z16 || t == .b32
  | _ => true

/-- At most two of `reads` fall in any one bank; v255 does not count (R57). -/
def portsOk (reads : List Nat) : Bool :=
  (List.range 4).all fun b => (reads.filter fun r => r != 255 && r % 4 == b).length ≤ 2

/-- The pairing rules of a dual word (R57). -/
def pairingOk (h1 h2 : Half) : Bool :=
  (h1.writes.all fun a => h2.writes.all fun b => a % 4 != b % 4) &&
  portsOk (h1.reads ++ h2.reads) &&
  (h1.reads.all fun r => !h2.writes.contains r) && (h2.reads.all fun r => !h1.writes.contains r) &&
  !(h1.isMem && h2.isMem)

/-- Check 5 of R59: every register lies in its class and below the declared count; mask numbers are below 12. -/
def Instr.regsOk (c : Counts) : Instr → Bool
  | .movi _ d _ | .movh _ d _ => c.vec d
  | .iaddImm _ d a _ | .imulImm _ d a _ | .andImm _ d a _ | .orImm _ d a _ | .xorImm _ d a _
  | .shlImm _ d a _ | .shrImm _ d a _ | .sarImm _ d a _ => c.vec d && c.vec a
  | .iadd _ _ d a b _ t | .isub _ _ d a b _ t => c.wreg t.wide d && c.wreg t.wide a && c.wreg t.wide b
  | .imin _ _ d a b t | .imax _ _ d a b t | .imul _ _ d a b t | .imulh _ _ d a b t | .idiv _ _ d a b t
  | .irem _ _ d a b t => c.wreg t.wide d && c.wreg t.wide a && c.wreg t.wide b
  | .iabs _ _ d a _ t | .ineg _ _ d a _ t => c.wreg t.wide d && c.wreg t.wide a
  | .isum _ _ d a b e t | .imad _ _ d a b e t | .isad _ _ d a b e t =>
    c.wreg t.wide d && c.wreg t.wide a && c.wreg t.wide b && c.wreg t.wide e
  | .lea _ _ d a b _ w => c.wreg w d && c.wreg w a && c.wreg w b
  | .iset _ _ d a b _ t => c.wreg t.wide d && c.wreg t.wide a && c.wreg t.wide b
  | .sel _ _ d a b w _ _ => c.wreg w d && c.wreg w a && c.wreg w b
  | .and _ _ d a b w | .or _ _ d a b w | .xor _ _ d a b w | .andn _ _ d a b w =>
    c.wreg w d && c.wreg w a && c.wreg w b
  | .shl _ _ d a b w | .shr _ _ d a b w | .sar _ _ d a b w | .rol _ _ d a b w =>
    c.wreg w d && c.wreg w a && c.vec b
  | .not _ _ d a w | .brev _ _ d a w | .mov _ _ d a w => c.wreg w d && c.wreg w a
  | .popc _ _ d a w | .clz _ _ d a w => c.vec d && c.wreg w a
  | .bfe _ _ d a b t => c.wreg t.wide d && c.wreg t.wide a && c.vec b
  | .bfi _ _ d a b e w => c.wreg w d && c.wreg w a && c.vec b && c.wreg w e
  | .pset _ _ p a b _ t => predOk p && c.wreg t.wide a && c.wreg t.wide b
  | .pand _ p a b _ _ | .por _ p a b _ _ | .pxor _ p a b _ _ => predOk p && predOk a && predOk b
  | .pnot _ p a _ => predOk p && predOk a
  | .fadd _ _ d a b _ | .fsub _ _ d a b _ | .fmul _ _ d a b _ | .fdiv _ _ d a b _ | .hadd2 _ _ d a b _
  | .hmul2 _ _ d a b _ => c.vec d && c.vec a && c.vec b
  | .ffma _ _ d a b e _ | .hfma2 _ _ d a b e _ => c.vec d && c.vec a && c.vec b && c.vec e
  | .fmin _ _ d a b | .fmax _ _ d a b | .hmax2 _ _ d a b => c.vec d && c.vec a && c.vec b
  | .fset _ _ p a b _ => predOk p && c.vec a && c.vec b
  | .frnd _ _ d a _ | .frcp _ _ d a _ | .frsq _ _ d a _ | .fsqrt _ _ d a _ => c.vec d && c.vec a
  | .fclass _ _ d a | .fexp2 _ _ d a | .flog2 _ _ d a | .fsin _ _ d a | .fcos _ _ d a => c.vec d && c.vec a
  | .dadd _ _ d a b _ | .dmul _ _ d a b _ => c.pair d && c.pair a && c.pair b
  | .dfma _ _ d a b e _ => c.pair d && c.pair a && c.pair b && c.pair e
  | .dset _ _ p a b _ => predOk p && c.pair a && c.pair b
  | .cvt _ d a dty sty _ => c.wreg dty.wide d && c.wreg sty.wide a
  | .cvtbx _ d a k _ _ => c.vec d && c.vec a && maskOk k
  | .cvtres _ d a _ _ => c.vec d && c.vec a
  | .cvtmxEnc _ d a b k _ => c.vec d && c.vec a && c.vec b && maskOk k
  | .cvtmxDec _ d a b _ => c.vec d && c.vec a && c.vec b
  | .rngseed _ a | .rngskip _ a => c.pair a
  | .rng _ d | .rngf _ d => c.vec d
  | .clkrd _ d _ | .tstamp _ d => c.pair d
  | .lget _ d a b k _ _ => c.vec d && c.vec a && c.vec b && maskOk k
  | .pqry _ d p k kind => (if kind == .mask then c.vec d else predOk d) && predOk p && maskOk k
  | .peers _ d a k w => c.vec d && c.wreg w a && maskOk k
  | .lfold _ d a k _ t => c.wreg t.wide d && c.wreg t.wide a && maskOk k
  | .scan _ d a k _ _ t => c.wreg t.wide d && c.wreg t.wide a && maskOk k
  | .xlp _ d a k _ => c.vec d && c.vec a && maskOk k
  | .xlpl _ a _ => c.vec a
  | .xpose _ d a k _ | .packx _ d a k _ => c.vec d && c.vec a && maskOk k
  | .unpk _ d a k _ _ => c.vec d && c.vec a && maskOk k
  | .ld _ d a _ f | .st _ d a _ f => c.mreg f.mt d && c.pair a
  | .lds _ d a _ f | .sts _ d a _ f => c.mreg f.mt d && c.vec a
  | .ldc _ d a _ _ t => c.mreg t d && c.pair a
  | .pref _ a _ _ _ | .cctl _ a _ _ => c.pair a
  | .atom _ d a b _ op _ _ t => c.wreg t.wide d && c.pair a && c.atomSrc op t b
  | .red _ a b _ op _ _ t => c.pair a && c.atomSrc op t b
  | .fence _ _ _ | .qfence _ _ | .kpass _ => true
  | .barArrive _ a _ | .barArrwait _ a _ _ | .barinit _ a _ => c.vec a
  | .barWait _ _ _ => true
  | .waitu _ d a b _ _ w _ =>
    c.wreg w d && c.pair a &&
      (if w then b % 4 == 0 && c.member b && c.member (b + 1) && c.member (b + 2) else c.pair b)
  | .fpush _ a _ w => c.wreg w a
  | .fpop _ d _ w => c.wreg w d
  | .bankcfg _ _ _ => true
  | .tcfg _ tc a => c.tile tc && c.vec a
  | .tcfgrd _ d tc => c.vec d && c.tile tc
  | .tld _ t a _ | .tst _ a t _ => c.tile t && c.pair a
  | .tldw _ t a b _ => c.tile t && c.pair a && c.quad b
  | .tzero _ n isAcc => if isAcc then c.acc n else c.tile n
  | .tprof _ a => c.pair a
  | .tmma _ acc ta tb k _ _ | .tmmas _ acc ta tb k _ _ => c.acc acc && c.tile ta && c.tile tb && maskOk k
  | .trowsum _ acc ta k _ | .tcolsum _ acc ta k _ => c.acc acc && c.tile ta && maskOk k
  | .tdrain _ d acc a k _ target =>
    (if target == .registers then c.vec d else c.pair a) && c.acc acc && maskOk k
  | .tdraina _ acc a k _ _ => c.acc acc && c.pair a && maskOk k
  | .taccsv _ acc a _ | .taccld _ acc a => c.acc acc && c.pair a
  | .tchk _ d acc => c.vec d && c.acc acc
  | .bra _ _ | .call _ _ | .ret _ | .reform _ | .lend _ _ | .exit _ | .trap _ _ | .bkpt _ | .nop _ => true
  | .brx _ a | .callx _ a => c.vec a
  | .join _ k | .leave _ k => maskOk k
  | .waitm _ p k _ => predOk p && maskOk k
  | .kmov _ d a dir => (if dir == .vk then c.vec d else maskOk d) && (if dir == .kv then c.vec a else maskOk a)
  | .kand _ d a b | .kor _ d a b | .kandn _ d a b => maskOk d && maskOk a && maskOk b
  | .kpop _ d a => c.vec d && maskOk a
  | .loop _ a _ => c.vec a
  | .srd _ d reg w => c.wreg w d && sysRegOk reg
  | .swr _ reg a w => sysRegOk reg && c.wreg w a
  | .ecall _ _ | .tret _ | .ifence _ | .halt _ => true
  | .tlbinv _ a ext => if ext == .page then c.pair a else true
  | .bbmark _ a => c.vec a
  | .dualWord h1 h2 => h1.regsOk c && h2.regsOk c
  | _ => true

/-- The 31-bit immediate (R44). -/
def imm31Ok (i : Int) : Bool := -1073741824 ≤ i && i < 1073741824
/-- The 12-bit byte offset (R68). -/
def offOk (i : Int) : Bool := -2048 ≤ i && i < 2048
/-- Order and scope of a load or store: a plain access has SC = 0 (R331). -/
def MemForm.ok (f : MemForm) : Bool := f.ordered || f.scope == .thread
/-- The types a store takes (R333). -/
def MT.storeOk (t : MT) : Bool := t != .s8 && t != .s16
/-- The ranges of the fields that are no register: immediates, sizes, and the codes FN defines (R72, R73, R152). -/
def Instr.fieldsOk : Instr → Bool
  | .movi _ _ imm => imm31Ok imm
  | .movh _ _ imm => imm < 65536
  | .iaddImm _ _ _ imm | .imulImm _ _ _ imm | .andImm _ _ _ imm | .orImm _ _ _ imm | .xorImm _ _ _ imm =>
    imm31Ok imm
  | .shlImm _ _ _ n | .shrImm _ _ _ n | .sarImm _ _ _ n => n < 32
  | .iabs _ _ _ _ _ t | .ineg _ _ _ _ _ t => t.signed
  | .lea _ _ _ _ _ sh _ => sh < 32
  | .iset _ _ _ _ _ cc _ | .pset _ _ _ _ _ cc _ => cc != .unord && cc != .ord
  | .sel _ _ _ _ _ _ _ p => p < 8
  | .bfe _ _ _ _ _ t => t.width == 32 || t.width == 64
  | .cvt _ _ _ dty sty _ => dty != sty
  | .cvtres _ _ _ ch _ => ch < 12
  | .clkrd _ _ (.cls n) => n < 4
  | .lget _ _ _ _ _ _ pv => pv < 8
  | .lfold _ _ _ _ op t => t != .f32 || op == .add || op == .min || op == .max
  | .xlp _ _ _ _ e | .xlpl _ _ e => e < 16
  | .xpose _ _ _ _ size => size < 3
  | .unpk _ _ _ _ size _ | .packx _ _ _ _ size => size < 4
  | .ld _ _ _ off f | .lds _ _ _ off f => offOk off && f.ok
  | .st _ _ _ off f | .sts _ _ _ off f => offOk off && f.ok && f.mt.storeOk
  | .ldc _ _ _ off _ _ | .pref _ _ off _ _ | .cctl _ _ off _ => offOk off
  | .atom _ _ _ _ off op _ _ t => offOk off && (op != .addF32 || t == .s32)
  | .red _ _ _ off op ord _ t =>
    offOk off && (op != .addF32 || t == .s32) && op != .exch && op != .cas && (ord == .relaxed || ord == .release)
  | .qfence _ m => 0 < m && m < 256
  | .barArrive _ _ bar | .barinit _ _ bar => bar < 32
  | .barWait _ bar pr | .barArrwait _ _ bar pr => bar < 32 && pr < 8
  | .waitu _ _ _ _ off _ _ ps => offOk off && ps < 8
  | .fpush _ _ bank _ | .fpop _ _ bank _ | .bankcfg _ bank _ => bank < 32
  | .bra _ off | .call _ off | .lend _ off | .loop _ _ off => imm31Ok off
  | .waitm _ _ _ t => 0 < t && t < 1073741824
  | .trap _ code => code < 256
  | .ecall _ n => n < 65536
  | .tdrain _ d _ a _ _ target => if target == .registers then a == 0 else d == 0
  | .tlbinv _ a ext => ext == .page || a == 0
  | .dualWord h1 h2 => h1.fieldsOk && h2.fieldsOk
  | _ => true

/-- A guard that is an instruction (R41) and a lookahead count that fits and that the opcode takes (R50). -/
def Hd.ok (h : Hd) (long : Bool) : Bool :=
  h.pred < 8 && !(h.neg && h.pred == 0) && h.la < 16 && (long || h.la == 0)

/-- A legal modifier (R46) on a source that the opcode reads (R49). -/
def LaneMod.ok (m : LaneMod) (readsB : Bool) : Bool :=
  (m.onA || readsB) && 1 ≤ m.seg && m.seg ≤ 5 && m.arg < 2 ^ m.seg

/-- Checks 1 to 9 of R59 as far as the word and the declared counts decide them. -/
def Instr.wf (c : Counts) (i : Instr) : Bool :=
  !i.isEvent && i.regsOk c && i.fieldsOk &&
  (match i.hd? with
   | some h => h.ok i.timing.2.long
   | none => true) &&
  (match i.modifier? with
   | (some m, rb) => m.ok rb
   | (none, _) => true) &&
  (match i with
   | .dualWord h1 h2 => pairingOk h1 h2
   | .cvtmxEnc _ d _ b _ _ => d != b
   | _ => true)

end Sys2Proof
end

