-- ==== Sys2Proof/Decode.lean ====
section
/-!
DEFINITION. Decoding (R39 to R49, R55 to R59, R68 to R76) of the 64-bit words, total, with the cause of each refusal,
and after it the encoder, written from the same layouts.
-/
namespace Sys2Proof

/-- Bits `[lo + n - 1 : lo]` of `w` (R12). -/
def fld (w lo n : Nat) : Nat := w / 2 ^ lo % 2 ^ n

/-- Bit `k` of `w`. -/
def bitAt (w k : Nat) : Bool := w / 2 ^ k % 2 == 1

/-- A flag as a bit value. -/
def b2n (b : Bool) : Nat := if b then 1 else 0

/-- `n` low bits of `w` read as two's complement. -/
def signedOf (n w : Nat) : Int :=
  let u := w % 2 ^ n
  if u < 2 ^ (n - 1) then (u : Int) else (u : Int) - (2 ^ n : Nat)

/-- The residue of `x` in `0 .. 2^n - 1` (R78). -/
def wrapNat (n : Nat) (x : Int) : Nat := (x % ((2 ^ n : Nat) : Int)).toNat


/-! The shared codes of R70 and R72. -/

def IT.ofCode : Nat → IT
  | 0 => .s8 | 1 => .s16 | 2 => .s32 | 3 => .s64 | 4 => .z8 | 5 => .z16 | 6 => .z32 | _ => .z64
def IT.code : IT → Nat
  | .s8 => 0 | .s16 => 1 | .s32 => 2 | .s64 => 3 | .z8 => 4 | .z16 => 5 | .z32 => 6 | .z64 => 7
def TY.ofCode : Nat → TY
  | 8 => .f32 | 9 => .f64 | 10 => .bf16 | n => .int (IT.ofCode n)
def TY.code : TY → Nat
  | .int t => t.code | .f32 => 8 | .f64 => 9 | .bf16 => 10
def MT.ofCode : Nat → MT
  | 0 => .z8 | 1 => .s8 | 2 => .z16 | 3 => .s16 | 4 => .b32 | 5 => .b64 | _ => .b128
def MT.code : MT → Nat
  | .z8 => 0 | .s8 => 1 | .z16 => 2 | .s16 => 3 | .b32 => 4 | .b64 => 5 | .b128 => 6
def RM.ofCode : Nat → RM | 0 => .rn | 1 => .rz | 2 => .rp | _ => .rm
def RM.code : RM → Nat | .rn => 0 | .rz => 1 | .rp => 2 | .rm => 3
def Scope.ofCode : Nat → Scope
  | 0 => .thread | 1 => .wave | 2 => .workgroup | 3 => .cluster | 4 => .device | _ => .system
def Scope.code : Scope → Nat
  | .thread => 0 | .wave => 1 | .workgroup => 2 | .cluster => 3 | .device => 4 | .system => 5
def CC.ofCode : Nat → CC
  | 0 => .eq | 1 => .ne | 2 => .lt | 3 => .le | 4 => .gt | 5 => .ge | 6 => .unord | _ => .ord
def CC.code : CC → Nat
  | .eq => 0 | .ne => 1 | .lt => 2 | .le => 3 | .gt => 4 | .ge => 5 | .unord => 6 | .ord => 7
def CM.ofCode : Nat → CM
  | 0 => .eq | 1 => .ne | 2 => .lt | 3 => .le | 4 => .gt | 5 => .ge | 6 => .ltu | 7 => .leu | 8 => .gtu
  | 9 => .geu | 10 => .anyBits | _ => .allBits
def CM.code : CM → Nat
  | .eq => 0 | .ne => 1 | .lt => 2 | .le => 3 | .gt => 4 | .ge => 5 | .ltu => 6 | .leu => 7 | .gtu => 8
  | .geu => 9 | .anyBits => 10 | .allBits => 11
def AO.ofCode : Nat → AO
  | 0 => .add | 1 => .min | 2 => .max | 3 => .and | 4 => .or | 5 => .xor | 6 => .exch | 7 => .cas | 8 => .inc
  | 9 => .dec | _ => .addF32
def AO.code : AO → Nat
  | .add => 0 | .min => 1 | .max => 2 | .and => 3 | .or => 4 | .xor => 5 | .exch => 6 | .cas => 7 | .inc => 8
  | .dec => 9 | .addF32 => 10
def AT.ofCode : Nat → AT | 0 => .s32 | 1 => .z32 | 2 => .s64 | _ => .z64
def AT.code : AT → Nat | .s32 => 0 | .z32 => 1 | .s64 => 2 | .z64 => 3
def Order.ofCode : Nat → Order | 0 => .relaxed | 1 => .acquire | 2 => .release | _ => .acqRel
def Order.code : Order → Nat | .relaxed => 0 | .acquire => 1 | .release => 2 | .acqRel => 3
def FenceOrder.ofCode : Nat → FenceOrder | 0 => .acquire | 1 => .release | 2 => .acqRel | _ => .seqCst
def FenceOrder.code : FenceOrder → Nat | .acquire => 0 | .release => 1 | .acqRel => 2 | .seqCst => 3
def Hint.ofCode : Nat → Hint | 0 => .default | 1 => .stream | _ => .keep
def Hint.code : Hint → Nat | .default => 0 | .stream => 1 | .keep => 2
def BxFmt.ofCode : Nat → BxFmt | 0 => .bx3 | 1 => .bx5 | _ => .bx8
def BxFmt.code : BxFmt → Nat | .bx3 => 0 | .bx5 => 1 | .bx8 => 2
def Counter.ofCode : Nat → Counter | 0 => .cyc | 1 => .time | n => .cls (n - 2)
def Counter.code : Counter → Nat | .cyc => 0 | .time => 1 | .cls c => c + 2
def LgetMode.ofCode : Nat → LgetMode | 0 => .atLane | 1 => .below | 2 => .above | _ => .flip
def LgetMode.code : LgetMode → Nat | .atLane => 0 | .below => 1 | .above => 2 | .flip => 3
def PqryKind.ofCode : Nat → PqryKind | 0 => .every | 1 => .some | 2 => .same | _ => .mask
def PqryKind.code : PqryKind → Nat | .every => 0 | .some => 1 | .same => 2 | .mask => 3
def FoldTy.ofCode : Nat → FoldTy | 0 => .s32 | 1 => .z32 | 2 => .s64 | 3 => .z64 | _ => .f32
def FoldTy.code : FoldTy → Nat | .s32 => 0 | .z32 => 1 | .s64 => 2 | .z64 => 3 | .f32 => 4
def FoldOp.ofCode : Nat → FoldOp
  | 0 => .add | 1 => .min | 2 => .max | 3 => .and | 4 => .or | _ => .xor
def FoldOp.code : FoldOp → Nat
  | .add => 0 | .min => 1 | .max => 2 | .and => 3 | .or => 4 | .xor => 5
def BankMode.ofCode : Nat → BankMode | 0 => .cache | 1 => .scratch | _ => .fifo
def BankMode.code : BankMode → Nat | .cache => 0 | .scratch => 1 | .fifo => 2
def CctlOp.ofCode : Nat → CctlOp | 0 => .wb | 1 => .inv | _ => .wbinv
def CctlOp.code : CctlOp → Nat | .wb => 0 | .inv => 1 | .wbinv => 2
def TlbExtent.ofCode : Nat → TlbExtent | 0 => .page | 1 => .ctx | _ => .all
def TlbExtent.code : TlbExtent → Nat | .page => 0 | .ctx => 1 | .all => 2
def DrainTarget.ofCode : Nat → DrainTarget | 0 => .registers | 1 => .scratch | _ => .memory
def DrainTarget.code : DrainTarget → Nat | .registers => 0 | .scratch => 1 | .memory => 2
def OutFmt.ofCode : Nat → OutFmt
  | 0 => .s8 | 1 => .z8 | 2 => .s16 | 3 => .z16 | 4 => .s32 | 5 => .z32 | 6 => .f32 | 7 => .bf16 | 8 => .f64
  | 9 => .mxint8 | 10 => .bx3 | 11 => .bx5 | _ => .bx8
def OutFmt.code : OutFmt → Nat
  | .s8 => 0 | .z8 => 1 | .s16 => 2 | .z16 => 3 | .s32 => 4 | .z32 => 5 | .f32 => 6 | .bf16 => 7 | .f64 => 8
  | .mxint8 => 9 | .bx3 => 10 | .bx5 => 11 | .bx8 => 12
def KmovDir.ofCode : Nat → KmovDir | 0 => .kk | 1 => .kv | _ => .vk
def KmovDir.code : KmovDir → Nat | .kk => 0 | .kv => 1 | .vk => 2

/-- A full word cut into its fields (R40): `low` holds bits [30:0], the part that the layouts of R68 divide. -/
structure Raw where
  op  : Nat
  la  : Nat
  pg  : Nat
  dst : Nat
  sa  : Nat
  low : Nat
  deriving DecidableEq, Repr, Inhabited

def Raw.ofWord (w : Nat) : Raw :=
  { op := fld w 55 8, la := fld w 51 4, pg := fld w 47 4, dst := fld w 39 8, sa := fld w 31 8, low := fld w 0 31 }
def Raw.word (r : Raw) : Nat :=
  r.op * 2 ^ 55 + r.la * 2 ^ 51 + r.pg * 2 ^ 47 + r.dst * 2 ^ 39 + r.sa * 2 ^ 31 + r.low
def Raw.sb (r : Raw) : Nat := fld r.low 23 8
def Raw.mod (r : Raw) : Nat := fld r.low 11 12
def Raw.fn (r : Raw) : Nat := fld r.low 0 11
/-- The immediate of the imm layout, sign-extended (R44). -/
def Raw.imm (r : Raw) : Int := signedOf 31 r.low
/-- The offset of the addr layout (R68). -/
def Raw.off (r : Raw) : Int := signedOf 12 r.mod
def Raw.hd (r : Raw) : Hd := { neg := bitAt r.pg 3, pred := r.pg % 8, la := r.la }

/-- The modifier that MOD names (R46); none when its class is 0b00. -/
def laneModOf (mod : Nat) : Option LaneMod :=
  let arg := fld mod 1 5
  let seg := fld mod 6 3 + 1
  let onA := bitAt mod 9
  match fld mod 10 2 with
  | 0 => none
  | 1 => some { kind := .rotate, onA := onA, seg := seg, arg := arg }
  | 2 => some { kind := .butterfly, onA := onA, seg := seg, arg := arg }
  | _ => some { kind := .broadcast, onA := onA, seg := seg, arg := arg }

def Raw.m (r : Raw) : Option LaneMod := laneModOf r.mod

/-- `x` where the FN (or the restricted immediate) is one that the opcode defines (R72, R73). -/
def onlyIf (b : Bool) (x : Instr) : Option Instr := if b then some x else none

/-- OP 0x00 to 0x0F of R71. -/
def buildImm (r : Raw) : Option Instr :=
  match r.op with
  | 0x01 => some (.movi r.hd r.dst r.imm)
  | 0x02 => onlyIf (r.low < 65536) (.movh r.hd r.dst r.low)
  | 0x03 => some (.iaddImm r.hd r.dst r.sa r.imm)
  | 0x04 => some (.imulImm r.hd r.dst r.sa r.imm)
  | 0x05 => some (.andImm r.hd r.dst r.sa r.imm)
  | 0x06 => some (.orImm r.hd r.dst r.sa r.imm)
  | 0x07 => some (.xorImm r.hd r.dst r.sa r.imm)
  | 0x08 => onlyIf (r.low < 32) (.shlImm r.hd r.dst r.sa r.low)
  | 0x09 => onlyIf (r.low < 32) (.shrImm r.hd r.dst r.sa r.low)
  | 0x0A => onlyIf (r.low < 32) (.sarImm r.hd r.dst r.sa r.low)
  | _ => none

/-- OP 0x10 to 0x1F of R71: the families IA, I3, LE, CP and SE of R72. -/
def buildInt (r : Raw) : Option Instr :=
  let fn := r.fn
  let t := IT.ofCode (fn % 8)
  let c := fn / 8
  match r.op with
  | 0x10 => onlyIf (fn < 16) (.iadd r.hd r.m r.dst r.sa r.sb (bitAt fn 3) t)
  | 0x11 => onlyIf (fn < 16) (.isub r.hd r.m r.dst r.sa r.sb (bitAt fn 3) t)
  | 0x12 => onlyIf (fn < 8) (.imin r.hd r.m r.dst r.sa r.sb t)
  | 0x13 => onlyIf (fn < 8) (.imax r.hd r.m r.dst r.sa r.sb t)
  | 0x14 => onlyIf (fn < 16 && t.signed) (.iabs r.hd r.m r.dst r.sa (bitAt fn 3) t)
  | 0x15 => onlyIf (fn < 16 && t.signed) (.ineg r.hd r.m r.dst r.sa (bitAt fn 3) t)
  | 0x16 => onlyIf (fn < 8) (.imul r.hd r.m r.dst r.sa r.sb t)
  | 0x17 => onlyIf (fn < 8) (.imulh r.hd r.m r.dst r.sa r.sb t)
  | 0x18 => some (.isum r.hd r.m r.dst r.sa r.sb c t)
  | 0x19 => some (.imad r.hd r.m r.dst r.sa r.sb c t)
  | 0x1A => some (.isad r.hd r.m r.dst r.sa r.sb c t)
  | 0x1B => onlyIf (fn < 8) (.idiv r.hd r.m r.dst r.sa r.sb t)
  | 0x1C => onlyIf (fn < 8) (.irem r.hd r.m r.dst r.sa r.sb t)
  | 0x1D => onlyIf (fn < 64) (.lea r.hd r.m r.dst r.sa r.sb (fn % 32) (bitAt fn 5))
  | 0x1E => onlyIf (c < 6) (.iset r.hd r.m r.dst r.sa r.sb (CC.ofCode c) t)
  | 0x1F => onlyIf (fn < 32) (.sel r.hd r.m r.dst r.sa r.sb (bitAt fn 4) (bitAt fn 3) (fn % 8))
  | _ => none

/-- OP 0x20 to 0x3F of R71: logic, bit fields and predicates. -/
def buildLogic (r : Raw) : Option Instr :=
  let fn := r.fn
  let t := IT.ofCode (fn % 8)
  let w := bitAt fn 0
  match r.op with
  | 0x20 => onlyIf (fn < 2) (.and r.hd r.m r.dst r.sa r.sb w)
  | 0x21 => onlyIf (fn < 2) (.or r.hd r.m r.dst r.sa r.sb w)
  | 0x22 => onlyIf (fn < 2) (.xor r.hd r.m r.dst r.sa r.sb w)
  | 0x23 => onlyIf (fn < 2) (.andn r.hd r.m r.dst r.sa r.sb w)
  | 0x24 => onlyIf (fn < 2) (.not r.hd r.m r.dst r.sa w)
  | 0x25 => onlyIf (fn < 2) (.shl r.hd r.m r.dst r.sa r.sb w)
  | 0x26 => onlyIf (fn < 2) (.shr r.hd r.m r.dst r.sa r.sb w)
  | 0x27 => onlyIf (fn < 2) (.sar r.hd r.m r.dst r.sa r.sb w)
  | 0x28 => onlyIf (fn < 2) (.rol r.hd r.m r.dst r.sa r.sb w)
  | 0x29 => onlyIf (fn < 2) (.popc r.hd r.m r.dst r.sa w)
  | 0x2A => onlyIf (fn < 2) (.clz r.hd r.m r.dst r.sa w)
  | 0x2B => onlyIf (fn < 2) (.brev r.hd r.m r.dst r.sa w)
  | 0x2C => onlyIf (fn < 8 && (t.width == 32 || t.width == 64)) (.bfe r.hd r.m r.dst r.sa r.sb t)
  | 0x2D => onlyIf (fn % 8 < 2) (.bfi r.hd r.m r.dst r.sa r.sb (fn / 8) w)
  | 0x2E => onlyIf (fn < 2) (.mov r.hd r.m r.dst r.sa w)
  | 0x30 => onlyIf (fn / 8 < 6) (.pset r.hd r.m r.dst r.sa r.sb (CC.ofCode (fn / 8)) t)
  | 0x31 => onlyIf (fn < 4) (.pand r.hd r.dst r.sa r.sb w (bitAt fn 1))
  | 0x32 => onlyIf (fn < 4) (.por r.hd r.dst r.sa r.sb w (bitAt fn 1))
  | 0x33 => onlyIf (fn < 4) (.pxor r.hd r.dst r.sa r.sb w (bitAt fn 1))
  | 0x34 => onlyIf (fn < 2) (.pnot r.hd r.dst r.sa w)
  | _ => none

/-- OP 0x40 to 0x5F of R71: binary32, packed BF16 and binary64 arithmetic. -/
def buildFloat (r : Raw) : Option Instr :=
  let fn := r.fn
  let rnd := RM.ofCode (fn % 4)
  match r.op with
  | 0x40 => onlyIf (fn < 4) (.fadd r.hd r.m r.dst r.sa r.sb rnd)
  | 0x41 => onlyIf (fn < 4) (.fsub r.hd r.m r.dst r.sa r.sb rnd)
  | 0x42 => onlyIf (fn < 4) (.fmul r.hd r.m r.dst r.sa r.sb rnd)
  | 0x43 => onlyIf (fn % 8 < 4) (.ffma r.hd r.m r.dst r.sa r.sb (fn / 8) rnd)
  | 0x44 => onlyIf (fn == 0) (.fmin r.hd r.m r.dst r.sa r.sb)
  | 0x45 => onlyIf (fn == 0) (.fmax r.hd r.m r.dst r.sa r.sb)
  | 0x46 => onlyIf (fn < 8) (.fset r.hd r.m r.dst r.sa r.sb (CC.ofCode fn))
  | 0x47 => onlyIf (fn < 4) (.frnd r.hd r.m r.dst r.sa rnd)
  | 0x48 => onlyIf (fn == 0) (.fclass r.hd r.m r.dst r.sa)
  | 0x49 => onlyIf (fn < 4) (.fdiv r.hd r.m r.dst r.sa r.sb rnd)
  | 0x4A => onlyIf (fn < 4) (.frcp r.hd r.m r.dst r.sa rnd)
  | 0x4B => onlyIf (fn < 4) (.frsq r.hd r.m r.dst r.sa rnd)
  | 0x4C => onlyIf (fn < 4) (.fsqrt r.hd r.m r.dst r.sa rnd)
  | 0x4D => onlyIf (fn == 0) (.fexp2 r.hd r.m r.dst r.sa)
  | 0x4E => onlyIf (fn == 0) (.flog2 r.hd r.m r.dst r.sa)
  | 0x4F => onlyIf (fn == 0) (.fsin r.hd r.m r.dst r.sa)
  | 0x50 => onlyIf (fn == 0) (.fcos r.hd r.m r.dst r.sa)
  | 0x51 => onlyIf (fn < 4) (.hadd2 r.hd r.m r.dst r.sa r.sb rnd)
  | 0x52 => onlyIf (fn < 4) (.hmul2 r.hd r.m r.dst r.sa r.sb rnd)
  | 0x53 => onlyIf (fn % 8 < 4) (.hfma2 r.hd r.m r.dst r.sa r.sb (fn / 8) rnd)
  | 0x54 => onlyIf (fn == 0) (.hmax2 r.hd r.m r.dst r.sa r.sb)
  | 0x55 => onlyIf (fn < 4) (.dadd r.hd r.m r.dst r.sa r.sb rnd)
  | 0x56 => onlyIf (fn < 4) (.dmul r.hd r.m r.dst r.sa r.sb rnd)
  | 0x57 => onlyIf (fn % 8 < 4) (.dfma r.hd r.m r.dst r.sa r.sb (fn / 8) rnd)
  | 0x58 => onlyIf (fn < 8) (.dset r.hd r.m r.dst r.sa r.sb (CC.ofCode fn))
  | _ => none

/-- OP 0x60 to 0x7F of R71: conversions, random numbers, clocks and the cross-lane instructions. -/
def buildConv (r : Raw) : Option Instr :=
  let fn := r.fn
  let k := fld fn 3 4
  match r.op with
  | 0x60 => onlyIf (fn < 1024 && fn % 16 < 11 && fld fn 4 4 < 11 && fn % 16 != fld fn 4 4)
      (.cvt r.hd r.dst r.sa (TY.ofCode (fn % 16)) (TY.ofCode (fld fn 4 4)) (RM.ofCode (fld fn 8 2)))
  | 0x61 => onlyIf (fn < 256 && fn % 4 != 3)
      (.cvtbx r.hd r.dst r.sa (fld fn 4 4) (BxFmt.ofCode (fn % 4)) (RM.ofCode (fld fn 2 2)))
  | 0x62 => onlyIf (fn < 32 && fn % 16 < 12) (.cvtres r.hd r.dst r.sa (fn % 16) (bitAt fn 4))
  | 0x63 => if bitAt fn 0
      then onlyIf (fn < 8) (.cvtmxDec r.hd r.dst r.sa r.sb (RM.ofCode (fld fn 1 2)))
      else onlyIf (fn < 128) (.cvtmxEnc r.hd r.dst r.sa r.sb k (RM.ofCode (fld fn 1 2)))
  | 0x64 => onlyIf (fn == 0) (.rngseed r.hd r.sa)
  | 0x65 => onlyIf (fn == 0) (.rng r.hd r.dst)
  | 0x66 => onlyIf (fn == 0) (.rngf r.hd r.dst)
  | 0x67 => onlyIf (fn == 0) (.rngskip r.hd r.sa)
  | 0x68 => onlyIf (fn < 6) (.clkrd r.hd r.dst (Counter.ofCode fn))
  | 0x69 => onlyIf (fn == 0) (.tstamp r.hd r.dst)
  | 0x70 => onlyIf (fn < 1024 && !bitAt fn 2)
      (.lget r.hd r.dst r.sa r.sb k (LgetMode.ofCode (fn % 4)) (fld fn 7 3))
  | 0x71 => onlyIf (fn < 128 && !bitAt fn 2) (.pqry r.hd r.dst r.sa k (PqryKind.ofCode (fn % 4)))
  | 0x72 => onlyIf (fn < 128 && (fn % 8 == 2 || fn % 8 == 3)) (.peers r.hd r.dst r.sa k (bitAt fn 0))
  | 0x73 => onlyIf (fn < 640 && fn % 8 < 6 && (fn < 512 || fn % 8 < 3))
      (.lfold r.hd r.dst r.sa k (FoldOp.ofCode (fn % 8)) (FoldTy.ofCode (fn / 128)))
  | 0x74 => onlyIf (fn < 640 && !bitAt fn 2)
      (.scan r.hd r.dst r.sa k (bitAt fn 1) (bitAt fn 0) (FoldTy.ofCode (fn / 128)))
  | 0x75 => onlyIf (fn < 256) (.xlp r.hd r.dst r.sa (fld fn 4 4) (fn % 16))
  | 0x76 => onlyIf (fn < 16) (.xlpl r.hd r.sa fn)
  | 0x77 => onlyIf (fn < 128 && fn % 8 < 3) (.xpose r.hd r.dst r.sa k (fn % 8))
  | 0x78 => onlyIf (fn < 256 && fn % 8 < 4) (.unpk r.hd r.dst r.sa k (fn % 8) (bitAt fn 7))
  | 0x79 => onlyIf (fn < 128 && fn % 8 < 4) (.packx r.hd r.dst r.sa k (fn % 8))
  | _ => none

/-- The MT family (R72). -/
def memFormOf (fn : Nat) : MemForm :=
  { hint := Hint.ofCode (fld fn 8 2), ordered := bitAt fn 3, scope := Scope.ofCode (fld fn 5 3)
    mt := MT.ofCode (fn % 8) }

/-- An MT field that R72 defines: the hint, the order with its scope, and the type. -/
def memFnOk (fn : Nat) : Bool :=
  fn < 768 && !bitAt fn 4 && fld fn 5 3 < 6 && fn % 8 < 7 && (bitAt fn 3 || fld fn 5 3 == 0)

/-- The types a store takes (R72, R333). -/
def storeFnOk (fn : Nat) : Bool := memFnOk fn && (MT.ofCode (fn % 8)).storeOk

/-- The AO family (R72, R338). -/
def atomFnOk (fn : Nat) : Bool :=
  fld fn 6 3 < 6 && fn % 16 < 11 && (fn % 16 != 10 || fld fn 4 2 == 0)

/-- OP 0x80 to 0x9F of R71: memory, atomics and synchronisation. -/
def buildMem (r : Raw) : Option Instr :=
  let fn := r.fn
  let f := memFormOf fn
  let ao := AO.ofCode (fn % 16)
  let at_ := AT.ofCode (fld fn 4 2)
  let sc := Scope.ofCode (fld fn 6 3)
  let ord := Order.ofCode (fld fn 9 2)
  match r.op with
  | 0x80 => onlyIf (memFnOk fn) (.ld r.hd r.dst r.sa r.off f)
  | 0x81 => onlyIf (storeFnOk fn) (.st r.hd r.dst r.sa r.off f)
  | 0x82 => onlyIf (memFnOk fn) (.lds r.hd r.dst r.sa r.off f)
  | 0x83 => onlyIf (storeFnOk fn) (.sts r.hd r.dst r.sa r.off f)
  | 0x84 => onlyIf (memFnOk fn && !f.ordered) (.ldc r.hd r.dst r.sa r.off f.hint f.mt)
  | 0x85 => onlyIf (memFnOk fn && !f.ordered) (.pref r.hd r.sa r.off f.hint f.mt)
  | 0x86 => onlyIf (fn < 3) (.cctl r.hd r.sa r.off (CctlOp.ofCode fn))
  | 0x87 => onlyIf (atomFnOk fn) (.atom r.hd r.dst r.sa r.sb r.off ao ord sc at_)
  | 0x88 => onlyIf (atomFnOk fn && ao != .exch && ao != .cas && !bitAt fn 9)
      (.red r.hd r.sa r.sb r.off ao ord sc at_)
  | 0x89 => onlyIf (fn < 32 && fn % 8 < 6) (.fence r.hd (FenceOrder.ofCode (fld fn 3 2)) (Scope.ofCode (fn % 8)))
  | 0x8A => onlyIf (0 < fn && fn < 256) (.qfence r.hd fn)
  | 0x8B =>
    match fn % 8 with
    | 0 => onlyIf (fn < 256) (.barArrive r.hd r.sa (fld fn 3 5))
    | 1 => some (.barWait r.hd (fld fn 3 5) (fld fn 8 3))
    | 2 => some (.barArrwait r.hd r.sa (fld fn 3 5) (fld fn 8 3))
    | _ => none
  | 0x8C => onlyIf (fn < 256 && fn % 8 == 0) (.barinit r.hd r.sa (fld fn 3 5))
  | 0x8D => onlyIf (fld fn 5 3 == 0 && fn % 16 < 12)
      (.waitu r.hd r.dst r.sa r.sb r.off (CM.ofCode (fn % 16)) (bitAt fn 4) (fld fn 8 3))
  | 0x8E => onlyIf (fn < 64) (.fpush r.hd r.sa (fn % 32) (bitAt fn 5))
  | 0x8F => onlyIf (fn < 64) (.fpop r.hd r.dst (fn % 32) (bitAt fn 5))
  | 0x90 => onlyIf (fn < 96) (.bankcfg r.hd (fn % 32) (BankMode.ofCode (fld fn 5 2)))
  | 0x91 => onlyIf (fn == 0) (.kpass r.hd)
  | _ => none

/-- OP 0xA0 to 0xBF of R71: tiles and accumulators. -/
def buildTile (r : Raw) : Option Instr :=
  let fn := r.fn
  let s := bitAt fn 0
  match r.op with
  | 0xA0 => onlyIf (fn == 0) (.tcfg r.hd r.dst r.sa)
  | 0xA1 => onlyIf (fn == 0) (.tcfgrd r.hd r.dst r.sa)
  | 0xA2 => onlyIf (fn < 2) (.tld r.hd r.dst r.sa s)
  | 0xA3 => onlyIf (fn < 2) (.tldw r.hd r.dst r.sa r.sb s)
  | 0xA4 => onlyIf (fn < 2) (.tst r.hd r.sa r.sb s)
  | 0xA5 => onlyIf (fn < 2) (.tzero r.hd r.dst s)
  | 0xA6 => onlyIf (fn == 0) (.tprof r.hd r.sa)
  | 0xA7 => onlyIf (fn < 64) (.tmma r.hd r.dst r.sa r.sb (fn % 16) (bitAt fn 4) (bitAt fn 5))
  | 0xA8 => onlyIf (fn < 64) (.tmmas r.hd r.dst r.sa r.sb (fn % 16) (bitAt fn 4) (bitAt fn 5))
  | 0xA9 => onlyIf (fn < 32) (.trowsum r.hd r.dst r.sa (fn % 16) (bitAt fn 4))
  | 0xAA => onlyIf (fn < 32) (.tcolsum r.hd r.dst r.sa (fn % 16) (bitAt fn 4))
  | 0xAB => onlyIf (fn < 1024 && fn % 4 != 3 && fld fn 2 4 < 13)
      (.tdrain r.hd r.dst r.sa r.sb (fld fn 6 4) (OutFmt.ofCode (fld fn 2 4)) (DrainTarget.ofCode (fn % 4)))
  | 0xAC => onlyIf (fn < 1024 && (fn % 4 == 1 || fn % 4 == 2) && fld fn 2 4 < 13)
      (.tdraina r.hd r.sa r.sb (fld fn 6 4) (OutFmt.ofCode (fld fn 2 4)) (fn % 4 == 1))
  | 0xAD => onlyIf (fn < 2) (.taccsv r.hd r.sa r.sb s)
  | 0xAE => onlyIf (fn == 0) (.taccld r.hd r.dst r.sa)
  | 0xAF => onlyIf (fn == 0) (.tchk r.hd r.dst r.sa)
  | _ => none

/-- OP 0xC0 to 0xFF of R71: control, masks and the system instructions. -/
def buildCtl (r : Raw) : Option Instr :=
  let fn := r.fn
  match r.op with
  | 0xC0 => some (.bra r.hd r.imm)
  | 0xC1 => onlyIf (fn == 0) (.brx r.hd r.sa)
  | 0xC2 => some (.call r.hd r.imm)
  | 0xC3 => onlyIf (fn == 0) (.callx r.hd r.sa)
  | 0xC4 => onlyIf (fn == 0) (.ret r.hd)
  | 0xC5 => onlyIf (fn == 0) (.reform r.hd)
  | 0xC6 => onlyIf (fn == 0) (.join r.hd r.dst)
  | 0xC7 => onlyIf (fn == 0) (.leave r.hd r.dst)
  | 0xC8 => onlyIf (0 < r.low && r.low < 1073741824) (.waitm r.hd r.dst r.sa r.low)
  | 0xC9 => onlyIf (fn < 3) (.kmov r.hd r.dst r.sa (KmovDir.ofCode fn))
  | 0xCA => onlyIf (fn == 0) (.kand r.hd r.dst r.sa r.sb)
  | 0xCB => onlyIf (fn == 0) (.kor r.hd r.dst r.sa r.sb)
  | 0xCC => onlyIf (fn == 0) (.kandn r.hd r.dst r.sa r.sb)
  | 0xCD => onlyIf (fn == 0) (.kpop r.hd r.dst r.sa)
  | 0xCE => some (.loop r.hd r.sa r.imm)
  | 0xCF => some (.lend r.hd r.imm)
  | 0xD0 => onlyIf (fn == 0) (.exit r.hd)
  | 0xD1 => onlyIf (r.low < 256) (.trap r.hd r.low)
  | 0xD2 => onlyIf (fn == 0) (.bkpt r.hd)
  | 0xD3 => onlyIf (fn == 0) (.nop r.hd)
  | 0xE0 => onlyIf (fn < 2) (.srd r.hd r.dst r.sa (bitAt fn 0))
  | 0xE1 => onlyIf (fn < 2) (.swr r.hd r.dst r.sa (bitAt fn 0))
  | 0xE2 => onlyIf (r.low < 65536) (.ecall r.hd r.low)
  | 0xE3 => onlyIf (fn == 0) (.tret r.hd)
  | 0xE4 => onlyIf (fn == 0) (.ifence r.hd)
  | 0xE5 => onlyIf (fn < 3) (.tlbinv r.hd r.sa (TlbExtent.ofCode fn))
  | 0xE6 => onlyIf (fn == 0) (.bbmark r.hd r.sa)
  | 0xE7 => onlyIf (fn == 0) (.halt r.hd)
  | _ => none

/-- The instruction that a full word's fields name, none where FN is undefined for the opcode (check 3). -/
def Raw.build (r : Raw) : Option Instr :=
  if r.op < 0x10 then buildImm r
  else if r.op < 0x20 then buildInt r
  else if r.op < 0x40 then buildLogic r
  else if r.op < 0x60 then buildFloat r
  else if r.op < 0x80 then buildConv r
  else if r.op < 0xA0 then buildMem r
  else if r.op < 0xC0 then buildTile r
  else buildCtl r

/-- The allocated opcodes (R71): every value outside the eleven unallocated ranges. -/
def opAllocated (op : Nat) : Bool :=
  !(op == 0 || (0x0B ≤ op && op ≤ 0x0F) || op == 0x2F || (0x35 ≤ op && op ≤ 0x3F) || (0x59 ≤ op && op ≤ 0x5F) ||
    (0x6A ≤ op && op ≤ 0x6F) || (0x7A ≤ op && op ≤ 0x7F) || (0x92 ≤ op && op ≤ 0x9F) ||
    (0xB0 ≤ op && op ≤ 0xBF) || (0xD4 ≤ op && op ≤ 0xDF) || 0xE8 ≤ op)

/-- The opcodes of the imm layout (R68, R71). -/
def opImm (op : Nat) : Bool :=
  op < 0x10 || op == 0xC0 || op == 0xC2 || op == 0xC8 || op == 0xCE || op == 0xCF || op == 0xD1 || op == 0xE2
/-- The opcodes of the addr layout (R68, R71). -/
def opAddr (op : Nat) : Bool := (0x80 ≤ op && op ≤ 0x88) || op == 0x8D
/-- The modifier-capable opcodes (R71, column M). -/
def opModifier (op : Nat) : Bool := 0x10 ≤ op && op ≤ 0x58 && !(0x31 ≤ op && op ≤ 0x34)

/-- The fields that the instruction does not use: DST, SA and SB (R42, R71, R343). An imm opcode has no SB. -/
def unusedFields (i : Instr) : Bool × Bool × Bool :=
  match i with
  | .movi .. | .movh .. => (false, true, false)
  | .iabs .. | .ineg .. | .not .. | .popc .. | .clz .. | .brev .. | .mov .. | .pnot .. | .frnd .. | .fclass ..
  | .frcp .. | .frsq .. | .fsqrt .. | .fexp2 .. | .flog2 .. | .fsin .. | .fcos .. | .cvt .. | .cvtbx ..
  | .cvtres .. | .pqry .. | .peers .. | .lfold .. | .scan .. | .xlp .. | .xpose .. | .unpk .. | .packx ..
  | .ld .. | .st .. | .lds .. | .sts .. | .ldc .. | .tcfg .. | .tcfgrd .. | .tld .. | .trowsum .. | .tcolsum ..
  | .taccld .. | .tchk .. | .kmov .. | .kpop .. | .srd .. | .swr .. => (false, false, true)
  | .rngseed .. | .rngskip .. | .xlpl .. | .pref .. | .cctl .. | .barArrive .. | .barArrwait .. | .barinit ..
  | .fpush .. | .tprof .. | .brx .. | .callx .. | .bbmark .. => (true, false, true)
  | .barWait .. => (true, false, true)
  | .rng .. | .rngf .. | .clkrd .. | .tstamp .. | .fpop .. | .tzero .. | .join .. | .leave .. =>
    (false, true, true)
  | .red .. | .tst .. | .tdraina .. | .taccsv .. => (true, false, false)
  | .fence .. | .qfence .. | .bankcfg .. | .kpass .. | .ret .. | .reform .. | .exit .. | .bkpt .. | .nop ..
  | .tret .. | .ifence .. | .halt .. => (true, true, true)
  | .bra .. | .call .. | .lend .. | .trap .. | .ecall .. => (true, true, false)
  | .loop .. => (true, false, false)
  | .tdrain _ _ _ _ _ _ t => if t == .registers then (false, false, true) else (true, false, false)
  | .tlbinv _ _ ext => (true, ext != .page, true)
  | _ => (false, false, false)

/-- Check 5 of R59: the unused fields are zero, a BAR.wait has SA 255 (R343), and the registers are in range. -/
def fieldsCheck (c : Counts) (r : Raw) (i : Instr) : Bool :=
  let (ud, ua, ub) := unusedFields i
  (!ud || r.dst == 0) && (!ua || r.sa == 0) && (!ub || r.sb == 0) &&
  (match i with
   | .barWait .. => r.sa == 255
   | _ => true) &&
  i.regsOk c

/-- Check 6 of R59: MOD is legal for the opcode (R46, R49). -/
def modCheck (r : Raw) (i : Instr) : Bool :=
  if opImm r.op || opAddr r.op then true
  else if !opModifier r.op then r.mod == 0
  else
    match laneModOf r.mod with
    | none => r.mod == 0
    | some m => r.mod % 2 == 0 && m.ok i.modifier?.2

/-- Why a word is no instruction: the cause code of R59 and the HALF field of R432 (0 for a full word). -/
structure Illegal where
  cause : Nat
  half  : Nat
  deriving DecidableEq, Repr, Inhabited

/-- A full word under checks 2 to 9 of R59, in order. -/
def decodeFull (c : Counts) (w : Nat) : Except Illegal Instr :=
  let r := Raw.ofWord w
  if !opAllocated r.op then .error ⟨2, 0⟩
  else
    match r.build with
    | none => .error ⟨3, 0⟩
    | some i =>
      if r.pg == 8 then .error ⟨4, 0⟩
      else if !fieldsCheck c r i then .error ⟨5, 0⟩
      else if !modCheck r i then .error ⟨6, 0⟩
      else if r.la != 0 && !i.timing.2.long then .error ⟨7, 0⟩
      else
        match i with
        | .cvtmxEnc _ d _ b _ _ => if d == b then .error ⟨9, 0⟩ else .ok i
        | _ => .ok i

/-- The opcode of a half, with its FN5 (R74): none where FN5 is undefined. -/
def halfOpOf (op fn : Nat) : Option HalfOp :=
  let u := fn % 8 == 6
  let it := fn % 8 == 2 || fn % 8 == 6
  let rnd := RM.ofCode (fn % 4)
  let mt := MT.ofCode fn
  let only (b : Bool) (x : HalfOp) : Option HalfOp := if b then some x else none
  match op with
  | 0x01 => only (fn == 0) .nop
  | 0x08 => only (fn < 16 && it) (.iadd (bitAt fn 3) u)
  | 0x09 => only (fn < 16 && it) (.isub (bitAt fn 3) u)
  | 0x0A => only (fn < 8 && it) (.imin u)
  | 0x0B => only (fn < 8 && it) (.imax u)
  | 0x0C => only (fn == 0) .and
  | 0x0D => only (fn == 0) .or
  | 0x0E => only (fn == 0) .xor
  | 0x0F => only (fn == 0) .andn
  | 0x10 => only (fn == 0) .shl
  | 0x11 => only (fn == 0) .shr
  | 0x12 => only (fn == 0) .sar
  | 0x13 => only (fn == 0) .mov
  | 0x14 => only (fn < 8 && it) (.imul u)
  | 0x18 => only (fn < 4) (.fadd rnd)
  | 0x19 => only (fn < 4) (.fmul rnd)
  | 0x1A => only (fn == 0) .fmin
  | 0x1B => only (fn == 0) .fmax
  | 0x1C => only (fn < 4) (.hadd2 rnd)
  | 0x1D => only (fn < 4) (.hmul2 rnd)
  | 0x20 => only (fn < 5) (.ld mt)
  | 0x21 => only (fn == 0 || fn == 2 || fn == 4) (.st mt)
  | 0x22 => only (fn < 5) (.lds mt)
  | 0x23 => only (fn == 0 || fn == 2 || fn == 4) (.sts mt)
  | _ => none

/-- The allocated half-form opcodes (R74). -/
def halfAllocated (op : Nat) : Bool :=
  op == 0x01 || (0x08 ≤ op && op ≤ 0x14) || (0x18 ≤ op && op ≤ 0x1D) || (0x20 ≤ op && op ≤ 0x23)

/-- A half of the word's 31 bits (R56). -/
def halfOf (h : Nat) (op : HalfOp) : Half := { op := op, dst := fld h 16 8, src := fld h 8 8, pred := fld h 5 3 }

/-- A dual word under R59: each check over both halves, the first half first (R75). -/
def decodeDual (c : Counts) (w : Nat) : Except Illegal Instr :=
  let a := fld w 31 31
  let b := fld w 0 31
  if bitAt w 62 then .error ⟨1, 3⟩
  else if !halfAllocated (fld a 24 7) then .error ⟨2, 1⟩
  else if !halfAllocated (fld b 24 7) then .error ⟨2, 2⟩
  else
    match halfOpOf (fld a 24 7) (a % 32), halfOpOf (fld b 24 7) (b % 32) with
    | none, _ => .error ⟨3, 1⟩
    | _, none => .error ⟨3, 2⟩
    | some x, some y =>
      if !(halfOf a x).regsOk c then .error ⟨5, 1⟩
      else if !(halfOf b y).regsOk c then .error ⟨5, 2⟩
      else if !pairingOk (halfOf a x) (halfOf b y) then .error ⟨8, 3⟩
      else .ok (.dualWord (halfOf a x) (halfOf b y))

/-- Decoding of a 64-bit word under the declared counts of its kernel (R39, R59). -/
def decodeWord (c : Counts) (w : Nat) : Except Illegal Instr :=
  if bitAt w 63 then decodeDual c w else decodeFull c w

/-- The 64-bit word of eight bytes, the first at the lowest address (R12, R39). -/
def wordOfBytes : List Byte → Nat
  | [] => 0
  | b :: bs => b.toNat + 256 * wordOfBytes bs

/-- The bytes of a word, `n` of them, in memory order (R12). -/
def bytesOfWord : Nat → Nat → List Byte
  | 0, _ => []
  | n + 1, w => BitVec.ofNat 8 w :: bytesOfWord n (w / 256)

/-- Decoding of the eight bytes at a program counter. -/
def decodeBytes (c : Counts) (bs : List Byte) : Except Illegal Instr := decodeWord c (wordOfBytes bs)

/-- The instruction whose bits are `w`, laid out in memory and read back by the decoder, under the largest counts
that a header declares. -/
def decodeTableWord (nbits w : Nat) : Option Instr :=
  match decodeBytes Counts.max (bytesOfWord 8 (w % 2 ^ nbits)) with
  | .ok i => some i
  | .error _ => none

/-! The encoder. -/

/-- MOD of a modifier (R46). -/
def laneModCode : Option LaneMod → Nat
  | none => 0
  | some m =>
    (match m.kind with
     | .rotate => 1
     | .butterfly => 2
     | .broadcast => 3) * 1024 + b2n m.onA * 512 + (m.seg - 1) * 64 + m.arg * 2

/-- PG (R40, R41). -/
def Hd.pg (h : Hd) : Nat := b2n h.neg * 8 + h.pred

/-- A word of the reg layout. -/
def rawReg (op : Nat) (h : Hd) (d a b : Nat) (m : Option LaneMod) (fn : Nat) : Raw :=
  { op := op, la := h.la, pg := h.pg, dst := d, sa := a, low := b * 2 ^ 23 + laneModCode m * 2 ^ 11 + fn }
/-- A word of the imm layout. -/
def rawImm (op : Nat) (h : Hd) (d a : Nat) (imm : Int) : Raw :=
  { op := op, la := h.la, pg := h.pg, dst := d, sa := a, low := wrapNat 31 imm }
/-- A word of the addr layout. -/
def rawAddr (op : Nat) (h : Hd) (d a b : Nat) (off : Int) (fn : Nat) : Raw :=
  { op := op, la := h.la, pg := h.pg, dst := d, sa := a, low := b * 2 ^ 23 + wrapNat 12 off * 2 ^ 11 + fn }

def MemForm.fn (f : MemForm) : Nat := f.hint.code * 256 + f.scope.code * 32 + b2n f.ordered * 8 + f.mt.code
def atomFn (op : AO) (ord : Order) (sc : Scope) (t : AT) : Nat :=
  ord.code * 512 + sc.code * 64 + t.code * 16 + op.code

/-- The fields of a full word (R71, R72). -/
def Instr.raw : Instr → Raw
  | .movi h d imm => rawImm 0x01 h d 0 imm
  | .movh h d imm => rawImm 0x02 h d 0 imm
  | .iaddImm h d a imm => rawImm 0x03 h d a imm
  | .imulImm h d a imm => rawImm 0x04 h d a imm
  | .andImm h d a imm => rawImm 0x05 h d a imm
  | .orImm h d a imm => rawImm 0x06 h d a imm
  | .xorImm h d a imm => rawImm 0x07 h d a imm
  | .shlImm h d a n => rawImm 0x08 h d a n
  | .shrImm h d a n => rawImm 0x09 h d a n
  | .sarImm h d a n => rawImm 0x0A h d a n
  | .iadd h m d a b sat t => rawReg 0x10 h d a b m (b2n sat * 8 + t.code)
  | .isub h m d a b sat t => rawReg 0x11 h d a b m (b2n sat * 8 + t.code)
  | .imin h m d a b t => rawReg 0x12 h d a b m t.code
  | .imax h m d a b t => rawReg 0x13 h d a b m t.code
  | .imul h m d a b t => rawReg 0x16 h d a b m t.code
  | .imulh h m d a b t => rawReg 0x17 h d a b m t.code
  | .idiv h m d a b t => rawReg 0x1B h d a b m t.code
  | .irem h m d a b t => rawReg 0x1C h d a b m t.code
  | .iabs h m d a sat t => rawReg 0x14 h d a 0 m (b2n sat * 8 + t.code)
  | .ineg h m d a sat t => rawReg 0x15 h d a 0 m (b2n sat * 8 + t.code)
  | .isum h m d a b c t => rawReg 0x18 h d a b m (c * 8 + t.code)
  | .imad h m d a b c t => rawReg 0x19 h d a b m (c * 8 + t.code)
  | .isad h m d a b c t => rawReg 0x1A h d a b m (c * 8 + t.code)
  | .lea h m d a b sh w => rawReg 0x1D h d a b m (b2n w * 32 + sh)
  | .iset h m d a b cc t => rawReg 0x1E h d a b m (cc.code * 8 + t.code)
  | .sel h m d a b w neg p => rawReg 0x1F h d a b m (b2n w * 16 + b2n neg * 8 + p)
  | .and h m d a b w => rawReg 0x20 h d a b m (b2n w)
  | .or h m d a b w => rawReg 0x21 h d a b m (b2n w)
  | .xor h m d a b w => rawReg 0x22 h d a b m (b2n w)
  | .andn h m d a b w => rawReg 0x23 h d a b m (b2n w)
  | .shl h m d a b w => rawReg 0x25 h d a b m (b2n w)
  | .shr h m d a b w => rawReg 0x26 h d a b m (b2n w)
  | .sar h m d a b w => rawReg 0x27 h d a b m (b2n w)
  | .rol h m d a b w => rawReg 0x28 h d a b m (b2n w)
  | .not h m d a w => rawReg 0x24 h d a 0 m (b2n w)
  | .popc h m d a w => rawReg 0x29 h d a 0 m (b2n w)
  | .clz h m d a w => rawReg 0x2A h d a 0 m (b2n w)
  | .brev h m d a w => rawReg 0x2B h d a 0 m (b2n w)
  | .mov h m d a w => rawReg 0x2E h d a 0 m (b2n w)
  | .bfe h m d a b t => rawReg 0x2C h d a b m t.code
  | .bfi h m d a b c w => rawReg 0x2D h d a b m (c * 8 + b2n w)
  | .pset h m p a b cc t => rawReg 0x30 h p a b m (cc.code * 8 + t.code)
  | .pand h p a b negA negB => rawReg 0x31 h p a b none (b2n negB * 2 + b2n negA)
  | .por h p a b negA negB => rawReg 0x32 h p a b none (b2n negB * 2 + b2n negA)
  | .pxor h p a b negA negB => rawReg 0x33 h p a b none (b2n negB * 2 + b2n negA)
  | .pnot h p a negA => rawReg 0x34 h p a 0 none (b2n negA)
  | .fadd h m d a b r => rawReg 0x40 h d a b m r.code
  | .fsub h m d a b r => rawReg 0x41 h d a b m r.code
  | .fmul h m d a b r => rawReg 0x42 h d a b m r.code
  | .fdiv h m d a b r => rawReg 0x49 h d a b m r.code
  | .hadd2 h m d a b r => rawReg 0x51 h d a b m r.code
  | .hmul2 h m d a b r => rawReg 0x52 h d a b m r.code
  | .dadd h m d a b r => rawReg 0x55 h d a b m r.code
  | .dmul h m d a b r => rawReg 0x56 h d a b m r.code
  | .ffma h m d a b c r => rawReg 0x43 h d a b m (c * 8 + r.code)
  | .hfma2 h m d a b c r => rawReg 0x53 h d a b m (c * 8 + r.code)
  | .dfma h m d a b c r => rawReg 0x57 h d a b m (c * 8 + r.code)
  | .fmin h m d a b => rawReg 0x44 h d a b m 0
  | .fmax h m d a b => rawReg 0x45 h d a b m 0
  | .hmax2 h m d a b => rawReg 0x54 h d a b m 0
  | .fset h m p a b cc => rawReg 0x46 h p a b m cc.code
  | .dset h m p a b cc => rawReg 0x58 h p a b m cc.code
  | .frnd h m d a r => rawReg 0x47 h d a 0 m r.code
  | .frcp h m d a r => rawReg 0x4A h d a 0 m r.code
  | .frsq h m d a r => rawReg 0x4B h d a 0 m r.code
  | .fsqrt h m d a r => rawReg 0x4C h d a 0 m r.code
  | .fclass h m d a => rawReg 0x48 h d a 0 m 0
  | .fexp2 h m d a => rawReg 0x4D h d a 0 m 0
  | .flog2 h m d a => rawReg 0x4E h d a 0 m 0
  | .fsin h m d a => rawReg 0x4F h d a 0 m 0
  | .fcos h m d a => rawReg 0x50 h d a 0 m 0
  | .cvt h d a dty sty r => rawReg 0x60 h d a 0 none (r.code * 256 + sty.code * 16 + dty.code)
  | .cvtbx h d a k f r => rawReg 0x61 h d a 0 none (k * 16 + r.code * 4 + f.code)
  | .cvtres h d a ch signed => rawReg 0x62 h d a 0 none (b2n signed * 16 + ch)
  | .cvtmxEnc h d a b k r => rawReg 0x63 h d a b none (k * 8 + r.code * 2)
  | .cvtmxDec h d a b r => rawReg 0x63 h d a b none (r.code * 2 + 1)
  | .rngseed h a => rawReg 0x64 h 0 a 0 none 0
  | .rng h d => rawReg 0x65 h d 0 0 none 0
  | .rngf h d => rawReg 0x66 h d 0 0 none 0
  | .rngskip h a => rawReg 0x67 h 0 a 0 none 0
  | .clkrd h d c => rawReg 0x68 h d 0 0 none c.code
  | .tstamp h d => rawReg 0x69 h d 0 0 none 0
  | .lget h d a b k mode pv => rawReg 0x70 h d a b none (pv * 128 + k * 8 + mode.code)
  | .pqry h d p k kind => rawReg 0x71 h d p 0 none (k * 8 + kind.code)
  | .peers h d a k w => rawReg 0x72 h d a 0 none (k * 8 + 2 + b2n w)
  | .lfold h d a k op t => rawReg 0x73 h d a 0 none (t.code * 128 + k * 8 + op.code)
  | .scan h d a k max excl t => rawReg 0x74 h d a 0 none (t.code * 128 + k * 8 + b2n max * 2 + b2n excl)
  | .xlp h d a k e => rawReg 0x75 h d a 0 none (k * 16 + e)
  | .xlpl h a e => rawReg 0x76 h 0 a 0 none e
  | .xpose h d a k size => rawReg 0x77 h d a 0 none (k * 8 + size)
  | .unpk h d a k size signed => rawReg 0x78 h d a 0 none (b2n signed * 128 + k * 8 + size)
  | .packx h d a k size => rawReg 0x79 h d a 0 none (k * 8 + size)
  | .ld h d a off f => rawAddr 0x80 h d a 0 off f.fn
  | .st h d a off f => rawAddr 0x81 h d a 0 off f.fn
  | .lds h d a off f => rawAddr 0x82 h d a 0 off f.fn
  | .sts h d a off f => rawAddr 0x83 h d a 0 off f.fn
  | .ldc h d a off hint t => rawAddr 0x84 h d a 0 off (hint.code * 256 + t.code)
  | .pref h a off hint t => rawAddr 0x85 h 0 a 0 off (hint.code * 256 + t.code)
  | .cctl h a off op => rawAddr 0x86 h 0 a 0 off op.code
  | .atom h d a b off op ord sc t => rawAddr 0x87 h d a b off (atomFn op ord sc t)
  | .red h a b off op ord sc t => rawAddr 0x88 h 0 a b off (atomFn op ord sc t)
  | .fence h ord sc => rawReg 0x89 h 0 0 0 none (ord.code * 8 + sc.code)
  | .qfence h mask => rawReg 0x8A h 0 0 0 none mask
  | .barArrive h a bar => rawReg 0x8B h 0 a 0 none (bar * 8)
  | .barWait h bar pr => rawReg 0x8B h 0 255 0 none (pr * 256 + bar * 8 + 1)
  | .barArrwait h a bar pr => rawReg 0x8B h 0 a 0 none (pr * 256 + bar * 8 + 2)
  | .barinit h a bar => rawReg 0x8C h 0 a 0 none (bar * 8)
  | .waitu h d a b off cm w ps => rawAddr 0x8D h d a b off (ps * 256 + b2n w * 16 + cm.code)
  | .fpush h a bank w => rawReg 0x8E h 0 a 0 none (b2n w * 32 + bank)
  | .fpop h d bank w => rawReg 0x8F h d 0 0 none (b2n w * 32 + bank)
  | .bankcfg h bank mode => rawReg 0x90 h 0 0 0 none (mode.code * 32 + bank)
  | .kpass h => rawReg 0x91 h 0 0 0 none 0
  | .tcfg h tc a => rawReg 0xA0 h tc a 0 none 0
  | .tcfgrd h d tc => rawReg 0xA1 h d tc 0 none 0
  | .tld h t a smem => rawReg 0xA2 h t a 0 none (b2n smem)
  | .tldw h t a b smem => rawReg 0xA3 h t a b none (b2n smem)
  | .tst h a t smem => rawReg 0xA4 h 0 a t none (b2n smem)
  | .tzero h n acc => rawReg 0xA5 h n 0 0 none (b2n acc)
  | .tprof h a => rawReg 0xA6 h 0 a 0 none 0
  | .tmma h acc ta tb k sa sb => rawReg 0xA7 h acc ta tb none (b2n sb * 32 + b2n sa * 16 + k)
  | .tmmas h acc ta tb k sa sb => rawReg 0xA8 h acc ta tb none (b2n sb * 32 + b2n sa * 16 + k)
  | .trowsum h acc ta k sa => rawReg 0xA9 h acc ta 0 none (b2n sa * 16 + k)
  | .tcolsum h acc ta k sa => rawReg 0xAA h acc ta 0 none (b2n sa * 16 + k)
  | .tdrain h d acc a k f target => rawReg 0xAB h d acc a none (k * 64 + f.code * 4 + target.code)
  | .tdraina h acc a k f smem => rawReg 0xAC h 0 acc a none (k * 64 + f.code * 4 + (if smem then 1 else 2))
  | .taccsv h acc a smem => rawReg 0xAD h 0 acc a none (b2n smem)
  | .taccld h acc a => rawReg 0xAE h acc a 0 none 0
  | .tchk h d acc => rawReg 0xAF h d acc 0 none 0
  | .bra h off => rawImm 0xC0 h 0 0 off
  | .brx h a => rawReg 0xC1 h 0 a 0 none 0
  | .call h off => rawImm 0xC2 h 0 0 off
  | .callx h a => rawReg 0xC3 h 0 a 0 none 0
  | .ret h => rawReg 0xC4 h 0 0 0 none 0
  | .reform h => rawReg 0xC5 h 0 0 0 none 0
  | .join h k => rawReg 0xC6 h k 0 0 none 0
  | .leave h k => rawReg 0xC7 h k 0 0 none 0
  | .waitm h p k timeout => rawImm 0xC8 h p k timeout
  | .kmov h d a dir => rawReg 0xC9 h d a 0 none dir.code
  | .kand h d a b => rawReg 0xCA h d a b none 0
  | .kor h d a b => rawReg 0xCB h d a b none 0
  | .kandn h d a b => rawReg 0xCC h d a b none 0
  | .kpop h d a => rawReg 0xCD h d a 0 none 0
  | .loop h a off => rawImm 0xCE h 0 a off
  | .lend h off => rawImm 0xCF h 0 0 off
  | .exit h => rawReg 0xD0 h 0 0 0 none 0
  | .trap h code => rawImm 0xD1 h 0 0 code
  | .bkpt h => rawReg 0xD2 h 0 0 0 none 0
  | .nop h => rawReg 0xD3 h 0 0 0 none 0
  | .srd h d reg w => rawReg 0xE0 h d reg 0 none (b2n w)
  | .swr h reg a w => rawReg 0xE1 h reg a 0 none (b2n w)
  | .ecall h n => rawImm 0xE2 h 0 0 n
  | .tret h => rawReg 0xE3 h 0 0 0 none 0
  | .ifence h => rawReg 0xE4 h 0 0 0 none 0
  | .tlbinv h a ext => rawReg 0xE5 h 0 a 0 none ext.code
  | .bbmark h a => rawReg 0xE6 h 0 a 0 none 0
  | .halt h => rawReg 0xE7 h 0 0 0 none 0
  | _ => { op := 0, la := 0, pg := 0, dst := 0, sa := 0, low := 0 }

/-- OP7 and FN5 of a half (R74). -/
def HalfOp.code : HalfOp → Nat × Nat
  | .nop => (0x01, 0)
  | .iadd sat u => (0x08, b2n sat * 8 + b2n u * 4 + 2)
  | .isub sat u => (0x09, b2n sat * 8 + b2n u * 4 + 2)
  | .imin u => (0x0A, b2n u * 4 + 2)
  | .imax u => (0x0B, b2n u * 4 + 2)
  | .and => (0x0C, 0)
  | .or => (0x0D, 0)
  | .xor => (0x0E, 0)
  | .andn => (0x0F, 0)
  | .shl => (0x10, 0)
  | .shr => (0x11, 0)
  | .sar => (0x12, 0)
  | .mov => (0x13, 0)
  | .imul u => (0x14, b2n u * 4 + 2)
  | .fadd r => (0x18, r.code)
  | .fmul r => (0x19, r.code)
  | .fmin => (0x1A, 0)
  | .fmax => (0x1B, 0)
  | .hadd2 r => (0x1C, r.code)
  | .hmul2 r => (0x1D, r.code)
  | .ld t => (0x20, t.code)
  | .st t => (0x21, t.code)
  | .lds t => (0x22, t.code)
  | .sts t => (0x23, t.code)

/-- The 31 bits of a half (R56). -/
def Half.word (h : Half) : Nat :=
  h.op.code.1 * 2 ^ 24 + h.dst * 2 ^ 16 + h.src * 2 ^ 8 + h.pred * 2 ^ 5 + h.op.code.2

/-- The word of a well-formed instruction. The machine's own steps have none; for them the answer is 0, which is no
instruction. -/
def encode : Instr → Nat
  | .dualWord h1 h2 => 2 ^ 63 + h1.word * 2 ^ 31 + h2.word
  | i => i.raw.word

end Sys2Proof
end

