-- ==== Sys2Proof/Machine/Flags.lean ====
section
/-!
DEFINITION. The conversion flags (R100, R178) as drains and engine commands record them (R101). The machine has no
arithmetic flags: no instruction records one for its result (R78, R85, R101).
-/
namespace Sys2Proof.Machine

/-- The conversion flags (R100) with ALIGN_OVERFLOW of R178. -/
structure Flags where
  align : Bool
  flush : Bool
  sat   : Bool
  inf   : Bool
  nan   : Bool
  deriving DecidableEq, Repr, Inhabited

def Flags.none : Flags := ⟨false, false, false, false, false⟩
/-- Flags are sticky (R100). -/
def Flags.or (a b : Flags) : Flags :=
  ⟨a.align || b.align, a.flush || b.flush, a.sat || b.sat, a.inf || b.inf, a.nan || b.nan⟩
/-- Flags as bits: NANSUB 0, INFSUB 1, SATURATED 2, FLUSHED 3, ALIGN_OVERFLOW 4 (R223). -/
def Flags.bits (f : Flags) : Nat :=
  b2n f.nan + 2 * b2n f.inf + 4 * b2n f.sat + 8 * b2n f.flush + 16 * b2n f.align
def Flags.ofBits (n : Nat) : Flags := ⟨bitAt n 4, bitAt n 3, bitAt n 2, bitAt n 1, bitAt n 0⟩

/-- The union of the flags of a list. -/
def Flags.union (l : List Flags) : Flags := l.foldl Flags.or Flags.none

end Sys2Proof.Machine
end

