-- ==== Sys2Proof/Machine/Numbers.lean ====
section
/-!
DEFINITION. Number formats and their rounding (04): exact binary values, the IEEE formats and BF16, MXINT8 and BX
blocks, the conversion table of R99, the fixed orders of sums, and the generator of R134.
-/
namespace Sys2Proof.Machine

/-- An IEEE-like format (R80): significand precision with the hidden bit, and exponent width. -/
structure Fmt where
  p     : Nat
  ebits : Nat
  deriving DecidableEq, Repr, Inhabited

def fmt32 : Fmt := ⟨24, 8⟩
def fmt64 : Fmt := ⟨53, 11⟩
def fmt16 : Fmt := ⟨8, 8⟩

def Fmt.bias (f : Fmt) : Nat := 2 ^ (f.ebits - 1) - 1
def Fmt.emin (f : Fmt) : Int := 1 - (f.bias : Int)
/-- The exponent of the least significant digit of the smallest subnormal (R80). -/
def Fmt.qmin (f : Fmt) : Int := f.emin - ((f.p : Int) - 1)
def Fmt.expAll (f : Fmt) : Nat := 2 ^ f.ebits - 1
def Fmt.signBit (f : Fmt) : Nat := 2 ^ (f.p - 1 + f.ebits)
def Fmt.nanBits (f : Fmt) : Nat := f.expAll * 2 ^ (f.p - 1) + 2 ^ (f.p - 2)
def Fmt.infBits (f : Fmt) (neg : Bool) : Nat := b2n neg * f.signBit + f.expAll * 2 ^ (f.p - 1)
def Fmt.maxBits (f : Fmt) (neg : Bool) : Nat := f.infBits neg - 1
def Fmt.zeroBits (f : Fmt) (neg : Bool) : Nat := b2n neg * f.signBit

/-- An exact value: a NaN, an infinity, or (-1)^neg * m * 2^e. -/
inductive Fl where
  | nan
  | inf (neg : Bool)
  | num (neg : Bool) (m : Nat) (e : Int)
  deriving DecidableEq, Repr, Inhabited

/-- The value of the bits of a format (R81). -/
def Fmt.read (f : Fmt) (bits : Nat) : Fl :=
  let neg := bits / f.signBit % 2 == 1
  let ex := fld bits (f.p - 1) f.ebits
  let fr := bits % 2 ^ (f.p - 1)
  if ex == f.expAll then (if fr == 0 then .inf neg else .nan)
  else if ex == 0 then .num neg fr f.qmin
  else .num neg (fr + 2 ^ (f.p - 1)) (f.qmin + ((ex : Int) - 1))

/-- An integer as an exact value. -/
def Fl.ofInt (i : Int) : Fl := .num (i < 0) i.natAbs 0

def Fl.isNan : Fl → Bool
  | .nan => true
  | _ => false
def Fl.isInf : Fl → Bool
  | .inf _ => true
  | _ => false
def Fl.isZero : Fl → Bool
  | .num _ 0 _ => true
  | _ => false
def Fl.neg? : Fl → Bool
  | .nan => false
  | .inf n => n
  | .num n _ _ => n
def Fl.negate : Fl → Fl
  | .nan => .nan
  | .inf n => .inf (!n)
  | .num n m e => .num (!n) m e

/-- A non-negative exponent as a power of two, 1 for a negative one. -/
def pow2 (e : Int) : Nat := 2 ^ e.toNat

/-- The quotient of `n` by `d`, with its rounding to an integer by the mode, for a value of the given sign (R83). -/
def roundQuot (r : RM) (neg : Bool) (n d : Nat) : Nat :=
  let q := n / d
  let rest := n % d
  let up :=
    match r with
    | .rn => d < 2 * rest || (2 * rest == d && q % 2 == 1)
    | .rz => false
    | .rp => !neg && rest != 0
    | .rm => neg && rest != 0
  if up then q + 1 else q

/-- The magnitude `n / d * 2^e` rounded to a multiple of 2^q, in units of 2^q. -/
def roundUnits (r : RM) (neg : Bool) (n d : Nat) (e q : Int) : Nat :=
  roundQuot r neg (n * pow2 (e - q)) (d * pow2 (q - e))

/-- floor(log2(n / d)) of a positive quotient. -/
def log2Quot (n d : Nat) : Int :=
  let k : Int := (Nat.log2 n : Int) - (Nat.log2 d : Int)
  if d * pow2 k ≤ n * pow2 (-k) then k else k - 1

/-- The magnitude `n / d * 2^e` in a format, rounded once, with SATURATED and FLUSHED (R81, R84, R99). -/
def Fmt.roundQ (f : Fmt) (r : RM) (neg : Bool) (n d : Nat) (e : Int) : Nat × Flags :=
  if n == 0 then (f.zeroBits neg, Flags.none)
  else
    let ex := log2Quot n d + e
    let q := max (ex - ((f.p : Int) - 1)) f.qmin
    let u := roundUnits r neg n d e q
    let bits := u + (q - f.qmin).toNat * 2 ^ (f.p - 1)
    if u == 0 then (f.zeroBits neg, { Flags.none with flush := true })
    else if f.infBits false ≤ bits then
      let toInf :=
        match r with
        | .rn => true
        | .rz => false
        | .rp => !neg
        | .rm => neg
      (if toInf then f.infBits neg else f.maxBits neg, { Flags.none with sat := true })
    else (bits + f.zeroBits neg, Flags.none)

/-- The bits of an exact value in a format, rounded once (R82, R84). -/
def Fmt.roundF (f : Fmt) (r : RM) (x : Fl) : Nat × Flags :=
  match x with
  | .nan => (f.nanBits, Flags.none)
  | .inf n => (f.infBits n, Flags.none)
  | .num n m e => f.roundQ r n m 1 e

/-- The bits alone. -/
def Fmt.round (f : Fmt) (r : RM) (x : Fl) : Nat := (f.roundF r x).1

/-- The exact sum; a zero from a cancellation takes its sign from the mode (R84). -/
def Fl.add (r : RM) (x y : Fl) : Fl :=
  match x, y with
  | .nan, _ => .nan
  | _, .nan => .nan
  | .inf a, .inf b => if a == b then .inf a else .nan
  | .inf a, _ => .inf a
  | _, .inf b => .inf b
  | .num a m e, .num b n k =>
    let q := min e k
    let s : Int := (if a then -1 else 1) * ((m * pow2 (e - q) : Nat) : Int) +
      (if b then -1 else 1) * ((n * pow2 (k - q) : Nat) : Int)
    if s == 0 then .num (if a == b then a else r == .rm) 0 q else .num (s < 0) s.natAbs q

/-- The exact product (R82); a zero product has the exclusive or of the signs (R84, log 79). -/
def Fl.mul (x y : Fl) : Fl :=
  match x, y with
  | .nan, _ => .nan
  | _, .nan => .nan
  | .inf a, .inf b => .inf (a != b)
  | .inf a, .num b n _ => if n == 0 then .nan else .inf (a != b)
  | .num a m _, .inf b => if m == 0 then .nan else .inf (a != b)
  | .num a m e, .num b n k => .num (a != b) (m * n) (e + k)

/-- a / b rounded once (R121, R123). -/
def Fmt.div (f : Fmt) (r : RM) (x y : Fl) : Nat :=
  match x, y with
  | .nan, _ => f.nanBits
  | _, .nan => f.nanBits
  | .inf _, .inf _ => f.nanBits
  | .inf a, .num b _ _ => f.infBits (a != b)
  | .num a _ _, .inf b => f.zeroBits (a != b)
  | .num a m e, .num b n k =>
    if n == 0 then (if m == 0 then f.nanBits else f.infBits (a != b))
    else (f.roundQ r (a != b) m n (e - k)).1

/-- floor(sqrt x), by its bits from the highest of `n`. -/
def isqrtBits (x : Nat) : Nat → Nat → Nat
  | 0, r => r
  | n + 1, r =>
    let t := r + 2 ^ n
    isqrtBits x n (if t * t ≤ x then t else r)
def isqrt (x : Nat) : Nat := isqrtBits x (Nat.log2 x / 2 + 1) 0

/-- √a rounded once (R121, R123). A root that is not exact lies strictly between two integers of 40 or more extra
digits, so its half-way stand-in rounds alike. -/
def Fmt.sqrt (f : Fmt) (r : RM) (x : Fl) : Nat :=
  match x with
  | .nan => f.nanBits
  | .inf n => if n then f.nanBits else f.infBits false
  | .num neg m e =>
    if m == 0 then f.zeroBits neg
    else if neg then f.nanBits
    else
      let m' := if e % 2 == 0 then m else 2 * m
      let e' := if e % 2 == 0 then e else e - 1
      let k := f.p + 40
      let s := isqrt (m' * 4 ^ k)
      let exact := s * s == m' * 4 ^ k
      (f.roundQ r false (if exact then 2 * s else 2 * s + 1) 1 (e' / 2 - k - 1)).1

/-- 1 / √a rounded once (R121, R123). -/
def Fmt.rsqrt (f : Fmt) (r : RM) (x : Fl) : Nat :=
  match x with
  | .nan => f.nanBits
  | .inf n => if n then f.nanBits else f.zeroBits false
  | .num neg m e =>
    if m == 0 then f.infBits neg
    else if neg then f.nanBits
    else
      let m' := if e % 2 == 0 then m else 2 * m
      let e' := if e % 2 == 0 then e else e - 1
      let k := 2 * f.p + 40
      let s := isqrt (4 ^ k / m')
      let exact := s * s * m' == 4 ^ k
      (f.roundQ r false (if exact then 2 * s else 2 * s + 1) 1 (-(e' / 2) - k - 1)).1

/-- The order of two exact values; none when one is a NaN. -/
def Fl.cmp (x y : Fl) : Option Ordering :=
  match x, y with
  | .nan, _ => none
  | _, .nan => none
  | .inf a, .inf b => some (if a == b then .eq else if a then .lt else .gt)
  | .inf a, _ => some (if a then .lt else .gt)
  | _, .inf b => some (if b then .gt else .lt)
  | .num a m e, .num b n k =>
    let q := min e k
    let u : Int := (if a then -1 else 1) * ((m * pow2 (e - q) : Nat) : Int)
    let v : Int := (if b then -1 else 1) * ((n * pow2 (k - q) : Nat) : Int)
    some (if u < v then .lt else if u == v then .eq else .gt)

/-- A comparison CC of two floating-point values (R70, R126). -/
def Fl.test (c : CC) (x y : Fl) : Bool :=
  match x.cmp y with
  | none =>
    match c with
    | .ne | .unord => true
    | _ => false
  | some o =>
    match c with
    | .eq => o == .eq
    | .ne => o != .eq
    | .lt => o == .lt
    | .le => o != .gt
    | .gt => o == .gt
    | .ge => o != .lt
    | .unord => false
    | .ord => true

/-- The bits of the smaller (`max` false) or the larger of two operands (R87). -/
def Fmt.pick (f : Fmt) (max : Bool) (a b : Nat) : Nat :=
  let x := f.read a
  let y := f.read b
  match x.cmp y with
  | none => if x.isNan then (if y.isNan then f.nanBits else b) else a
  | some .lt => if max then b else a
  | some .gt => if max then a else b
  | some .eq => if x.neg? == max then b else a

/-- The comparison CC of two integers (R117). -/
def intTest (c : CC) (a b : Int) : Bool :=
  match c with
  | .eq => a == b
  | .ne => a != b
  | .lt => a < b
  | .le => a ≤ b
  | .gt => b < a
  | .ge => b ≤ a
  | .unord => false
  | .ord => true

/-! Binary32 operations on bits. -/

/-- FRND: an integral value by RM, keeping the sign of a zero (R124). -/
def frndBits (r : RM) (a : Nat) : Nat :=
  match fmt32.read a with
  | .nan => fmt32.nanBits
  | .inf n => fmt32.infBits n
  | .num n m e =>
    if 0 ≤ e then a else (fmt32.roundQ .rn n (roundUnits r n m 1 e 0) 1 0).1

/-- FCLASS (R127). -/
def fclassBits (a : Nat) : Nat :=
  let neg := bitAt a 31
  let ex := fld a 23 8
  let fr := a % 2 ^ 23
  if ex == 255 && fr != 0 then (if bitAt a 22 then 2 else 1)
  else if ex == 255 then (if neg then 4 else 512)
  else if ex != 0 then (if neg then 8 else 256)
  else if fr != 0 then (if neg then 16 else 128)
  else (if neg then 32 else 64)

/-! The functions of R122. Each is computed in fixed point with `P` fraction digits to within `fxErr` units of the last
digit; a result is taken once both ends of that interval round to the same value. -/

def fxErr : Nat := 2 ^ 20

/-- Terms `t, t*x/(k+1), ...` of the exponential series, `n` at most, at P digits. -/
def expSeries (P x : Nat) : Nat → Nat → Nat → Nat → Nat
  | 0, _, _, acc => acc
  | n + 1, k, t, acc => if t == 0 then acc else expSeries P x n (k + 1) (t * x / 2 ^ P / (k + 1)) (acc + t)

/-- Σ z^(2k+1)/(2k+1), all terms positive: the inverse hyperbolic tangent of z at P digits. -/
def atanhSeries (P z2 : Nat) : Nat → Nat → Nat → Nat → Nat
  | 0, _, _, acc => acc
  | n + 1, k, t, acc => if t == 0 then acc else atanhSeries P z2 n (k + 2) (t * z2 / 2 ^ P) (acc + t / k)

/-- Alternating series for the inverse tangent of 1/d at P digits. -/
def atanSeries (d2 : Nat) : Nat → Nat → Nat → Int → Int → Int
  | 0, _, _, _, acc => acc
  | n + 1, k, t, s, acc => if t == 0 then acc else atanSeries d2 n (k + 2) (t / d2) (-s) (acc + s * (t / k : Nat))

/-- ln 2 = 2 atanh(1/3) at P digits. -/
def fxLn2 (P : Nat) : Nat := 2 * atanhSeries P (2 ^ P / 9) P 1 (2 ^ P / 3) 0
/-- π by Machin's formula at P digits. -/
def fxPi (P : Nat) : Nat :=
  (16 * atanSeries 25 P 1 (2 ^ P / 5) 1 0 - 4 * atanSeries (239 * 239) P 1 (2 ^ P / 239) 1 0).toNat

/-- Alternating terms of sine (first term x) or cosine (first term 1). -/
def trigSeries (P x2 : Nat) : Nat → Nat → Nat → Int → Int → Int
  | 0, _, _, _, acc => acc
  | n + 1, k, t, s, acc =>
    if t == 0 then acc
    else trigSeries P x2 n (k + 2) (t * x2 / 2 ^ P / ((k + 1) * (k + 2))) (-s) (acc + s * (t : Int))

def fxSin (P x : Nat) : Int := trigSeries P (x * x / 2 ^ P) P 1 x 1 0
def fxCos (P x : Nat) : Int := trigSeries P (x * x / 2 ^ P) P 0 (2 ^ P) 1 0

/-- Rounds a fixed-point value known to `fxErr`, at P digits times 2^e; none when the interval is not decided. -/
def fxRound (P : Nat) (v e : Int) : Option Nat :=
  let lo := v - fxErr
  let hi := v + fxErr
  if (lo < 0) != (hi < 0) then none
  else
    let a := (fmt32.roundQ .rn (v < 0) lo.natAbs 1 (e - P)).1
    let b := (fmt32.roundQ .rn (v < 0) hi.natAbs 1 (e - P)).1
    if a == b then some a else none

/-- The first precision, doubling, that decides the rounding. -/
def fxSearch (g : Nat → Option Nat) : Nat → Nat → Nat
  | 0, _ => fmt32.nanBits
  | n + 1, P =>
    match g P with
    | some r => r
    | none => fxSearch g n (2 * P)

/-- 2^x for x = ± m 2^e that is no integer. -/
def exp2At (neg : Bool) (m : Nat) (e : Int) (P : Nat) : Option Nat :=
  -- x = i + f with 0 ≤ f < 1
  let x : Int := (if neg then -1 else 1) * ((m * pow2 e : Nat) : Int)
  let den : Int := (pow2 (-e) : Nat)
  let i := x / den
  let f := ((x % den).toNat * 2 ^ P) / den.toNat
  fxRound P (expSeries P (f * fxLn2 P / 2 ^ P) P 0 (2 ^ P) 0) i

/-- FEXP2 (R122, R123). -/
def fexp2Bits (a : Nat) : Nat :=
  match fmt32.read a with
  | .nan => fmt32.nanBits
  | .inf n => if n then 0 else fmt32.infBits false
  | .num neg m e =>
    if m == 0 then fmt32.round .rn (.num false 1 0)
    else if 8 ≤ (Nat.log2 m : Int) + e then (if neg then 0 else fmt32.infBits false)
    else if m % pow2 (-e) == 0 then
      fmt32.round .rn (.num false 1 ((if neg then -1 else 1) * ((m * pow2 e / pow2 (-e) : Nat) : Int)))
    else fxSearch (exp2At neg m e) 6 128

/-- log2 of m 2^e, m no power of two. -/
def log2At (m : Nat) (e : Int) (P : Nat) : Option Nat :=
  let k := Nat.log2 m
  -- m = 2^k (1 + u); ln(1 + u) = 2 atanh(u / (2 + u)). Taking the nearer power of two keeps values near 1 exact.
  let up := 3 * 2 ^ k < 2 * m
  let top : Int := if up then (m : Int) - (2 ^ (k + 1) : Nat) else (m : Int) - (2 ^ k : Nat)
  let bot : Nat := if up then m + 2 ^ (k + 1) else m + 2 ^ k
  let z := top.natAbs * 2 ^ P / bot
  let l := 2 * atanhSeries P (z * z / 2 ^ P) P 1 z 0
  let frac : Int := (if top < 0 then -1 else 1) * ((l * 2 ^ P / fxLn2 P : Nat) : Int)
  fxRound P ((e + k + (if up then 1 else 0)) * (2 ^ P : Nat) + frac) 0

/-- FLOG2 (R122, R123). -/
def flog2Bits (a : Nat) : Nat :=
  match fmt32.read a with
  | .nan => fmt32.nanBits
  | .inf n => if n then fmt32.nanBits else fmt32.infBits false
  | .num neg m e =>
    if m == 0 then fmt32.infBits true
    else if neg then fmt32.nanBits
    else if m == 2 ^ Nat.log2 m then fmt32.round .rn (Fl.ofInt (e + Nat.log2 m))
    else fxSearch (log2At m e) 6 128

/-- sin or cos of the magnitude m 2^e; the digits grow with the exponent so that the reduction has no error. -/
def trigAt (cos neg : Bool) (m : Nat) (e : Int) (P0 : Nat) : Option Nat :=
  let P := P0 + (-e).toNat
  let Q := P + e.toNat + 32
  let x := if 0 ≤ e then m * 2 ^ (e.toNat + Q) else m * 2 ^ (Q - (-e).toNat)
  let half := fxPi Q / 2
  let n := x / half
  let r := (x - n * half) / 2 ^ (Q - P)
  let v :=
    match (n + (if cos then 1 else 0)) % 4 with
    | 0 => fxSin P r
    | 1 => fxCos P r
    | 2 => -fxSin P r
    | _ => -fxCos P r
  fxRound P (if neg && !cos then -v else v) 0

/-- FSIN and FCOS (R122, R123). -/
def ftrigBits (cos : Bool) (a : Nat) : Nat :=
  match fmt32.read a with
  | .nan => fmt32.nanBits
  | .inf _ => fmt32.nanBits
  | .num neg m e =>
    if m == 0 then (if cos then fmt32.round .rn (.num false 1 0) else fmt32.zeroBits neg)
    else fxSearch (trigAt cos neg m e) 6 128

/-! Conversions (R97 to R102). -/

/-- A floating-point target. `widen` says that the target is at least as wide as the source (R99). A zero that SUBST puts in is
+0 (R98, log 80). -/
def convFloat (f : Fmt) (r : RM) (subst : Nat) (widen : Bool) (x : Fl) : Nat × Flags :=
  match x with
  | .nan =>
    match fld subst 2 2 with
    | 0 => (f.nanBits, Flags.none)
    | 1 => (0, { Flags.none with nan := true })
    | 2 => (f.maxBits false, { Flags.none with nan := true })
    | _ => (f.maxBits true, { Flags.none with nan := true })
  | .inf n =>
    if widen then (f.infBits n, Flags.none)
    else
      match subst % 4 with
      | 0 => (f.infBits n, Flags.none)
      | 1 => (f.maxBits n, { Flags.none with inf := true })
      | _ => (0, { Flags.none with inf := true })
  | .num n m e => f.roundQ r n m 1 e

def intMin (w : Nat) (signed : Bool) : Int := if signed then -((2 ^ (w - 1) : Nat) : Int) else 0
def intMax (w : Nat) (signed : Bool) : Int := ((2 ^ (if signed then w - 1 else w) : Nat) : Int) - 1

/-- Clamps to the range of a type (R78). -/
def clampInt (w : Nat) (signed : Bool) (i : Int) : Int := max (intMin w signed) (min (intMax w signed) i)

/-- The nearest integers by RM of a finite value (R83). -/
def roundInt (r : RM) (neg : Bool) (m : Nat) (e : Int) : Int :=
  let u : Int := (roundUnits r neg m 1 e 0 : Nat)
  if neg then -u else u

/-- An integer target of `w` bits (R99, R102). -/
def convInt (w : Nat) (signed : Bool) (r : RM) (subst : Nat) (x : Fl) : Int × Flags :=
  match x with
  | .nan =>
    ((match fld subst 2 2 with
      | 0 | 1 => 0
      | 2 => intMax w signed
      | _ => intMin w signed), { Flags.none with nan := true })
  | .inf n =>
    ((match subst % 4 with
      | 0 | 1 => if n then intMin w signed else intMax w signed
      | _ => 0), { Flags.none with inf := true })
  | .num n m e =>
    let i := roundInt r n m e
    (clampInt w signed i, { Flags.none with sat := clampInt w signed i != i })

/-- The largest value that stands for an infinity in a block (R99). -/
def blockLargest (neg : Bool) : Fl := .num neg (2 ^ 24 - 1) 104

/-- The element put in place of a special source value before a block is encoded (R99). -/
def blockSubst (subst : Nat) (x : Fl) : Fl × Flags :=
  match x with
  | .nan =>
    match fld subst 2 2 with
    | 0 => (.nan, Flags.none)
    | 1 => (.num false 0 0, { Flags.none with nan := true })
    | 2 => (blockLargest false, { Flags.none with nan := true })
    | _ => (blockLargest true, { Flags.none with nan := true })
  | .inf n =>
    (if subst % 4 == 2 then .num false 0 0 else blockLargest n, { Flags.none with inf := true })
  | x => (x, Flags.none)

/-- The larger magnitude of two finite values. -/
def Fl.maxMag (x y : Fl) : Fl :=
  match x, y with
  | .num _ m e, .num _ n k =>
    if Fl.cmp (.num false m e) (.num false n k) == some .lt then .num false n k else .num false m e
  | x, _ => x

/-- floor(log2 |x|) of a finite non-zero value. -/
def Fl.log2 : Fl → Int
  | .num _ m e => (Nat.log2 m : Int) + e
  | _ => 0

/-- x / 2^q rounded to a signed integer. -/
def Fl.units (r : RM) (q : Int) : Fl → Int
  | .num n m e => roundInt r n m (e - q)
  | _ => 0

/-- An MXINT8 block of the values after substitution: the scale, the codes, the flags (R91). -/
def encodeMx (r : RM) (vs : List Fl) : Nat × List Int × Flags :=
  if vs.any Fl.isNan then (255, vs.map fun _ => 0, Flags.none)
  else
    let amax := vs.foldl Fl.maxMag (.num false 0 0)
    if amax.isZero then (0, vs.map fun _ => 0, Flags.none)
    else
      let X := min (max (amax.log2 + 127) 0) 254
      let qs := vs.map (Fl.units r (X - 133))
      let flags := (vs.zip qs).map fun (v, q) =>
        { Flags.none with sat := q > 127 || q < -127, flush := q == 0 && !v.isZero }
      (X.toNat, qs.map (fun q => max (-127) (min 127 q)), Flags.union flags)

/-- The value of an MXINT8 element (R90). -/
def mxValue (X : Nat) (c : Int) : Fl :=
  if X == 255 then .nan else .num (c < 0) c.natAbs ((X : Int) - 133)

/-- A BX block word and its elements, sign and mantissa (R92, R93). -/
structure BxBlock where
  E     : Nat
  tag   : Nat
  mu    : Nat
  elems : List (Bool × Nat)
  deriving DecidableEq, Repr, Inhabited

/-- The micro-exponents for a shared exponent (R96): pair j takes 1 when both its elements still fit. -/
def bxMus (r : RM) (p : Nat) (E : Int) : List Fl → List Nat
  | a :: b :: rest =>
    let fits (v : Fl) : Bool := (Fl.units r (E - 128 - (p - 1)) v).natAbs ≤ 2 ^ p - 1
    (if fits a && fits b then 1 else 0) :: bxMus r p E rest
  | _ => []

/-- The mantissas for a shared exponent and micro-exponents (R96). -/
def bxUnits (r : RM) (p : Nat) (E : Int) : List Fl → List Nat → List Int
  | a :: b :: rest, mu :: mus =>
    let q (v : Fl) : Int := Fl.units r (E - 127 - mu - (p - 1)) v
    q a :: q b :: bxUnits r p E rest mus
  | _, _ => []

/-- A sequence of bits, the first the least significant. -/
def bitsToNat : List Nat → Nat
  | [] => 0
  | b :: bs => b + 2 * bitsToNat bs

/-- Sixteen values after substitution as one BX block (R96). -/
def encodeBx (f : BxFmt) (r : RM) (vs : List Fl) : BxBlock × Flags :=
  if vs.any Fl.isNan then
    ({ E := 255, tag := f.code, mu := 0, elems := vs.map fun _ => (false, 0) }, Flags.none)
  else
    let zero : BxBlock := { E := 0, tag := 3, mu := 0, elems := vs.map fun _ => (false, 0) }
    let amax := vs.foldl Fl.maxMag (.num false 0 0)
    if amax.isZero then (zero, Flags.none)
    else
      let p := f.p
      let E0 := min (max (amax.log2 + 127) 0) 254
      let tooBig (E : Int) : Bool := (bxUnits r p E vs (bxMus r p E vs)).any fun q => 2 ^ p - 1 < q.natAbs
      let E := if tooBig E0 && E0 < 254 then E0 + 1 else E0
      let mus := bxMus r p E vs
      let qs := bxUnits r p E vs mus
      let ms := qs.map fun q => min q.natAbs (2 ^ p - 1)
      let flags := Flags.union ((vs.zip qs).map fun (v, q) =>
        { Flags.none with sat := 2 ^ p - 1 < q.natAbs, flush := q == 0 && !v.isZero })
      if ms.all (· == 0) then (zero, flags)
      else ({ E := E.toNat, tag := f.code, mu := bitsToNat mus, elems := (vs.map Fl.neg?).zip ms }, flags)

/-- Mantissa width p of a tag; 0 for a zero block (R93). -/
def tagP (tag : Nat) : Nat :=
  match tag with
  | 0 => 2
  | 1 => 4
  | 2 => 7
  | _ => 0
/-- Payload bytes of a tag (R93). -/
def tagBytes (tag : Nat) : Nat :=
  match tag with
  | 0 => 6
  | 1 => 10
  | 2 => 16
  | _ => 0

/-- The 32-bit block word (R92). -/
def BxBlock.word (b : BxBlock) : Nat := b.E * 2 ^ 24 + b.tag * 2 ^ 22 + b.mu
/-- The payload as one number, element 0 lowest (R93). -/
def BxBlock.payload (b : BxBlock) : Nat :=
  let w := tagP b.tag + 1
  if b.tag == 3 then 0
  else b.elems.foldr (fun (s, m) acc => b2n s * 2 ^ (w - 1) + m + acc * 2 ^ w) 0

/-- Element i of a block word and its payload (R94). -/
def bxValue (word payload i : Nat) : Fl :=
  let E := fld word 24 8
  let tag := fld word 22 2
  let p := tagP tag
  if E == 255 || fld word 8 14 != 0 then .nan
  else if tag == 3 then .num false 0 0
  else
    let x := fld payload ((p + 1) * i) (p + 1)
    .num (bitAt x p) (x % 2 ^ p) ((E : Int) - 127 - b2n (bitAt word (i / 2)) - (p - 1))

/-! Sums in fixed orders (R104, R105). -/

/-- One level of the tree: neighbours joined, the lower first. -/
def foldPairs {α : Type} (op : α → α → α) : List α → List α
  | a :: b :: rest => op a b :: foldPairs op rest
  | l => l

/-- The tree of R104 over 32 values. -/
def foldTree {α : Type} (op : α → α → α) (l : List α) : List α :=
  foldPairs op (foldPairs op (foldPairs op (foldPairs op (foldPairs op l))))

/-- One doubling step of R105. -/
def scanStep {α : Type} (op : α → α → α) (s : Nat) (l : List α) : List α :=
  l.take s ++ (l.zip (l.drop s)).map fun (a, b) => op a b

/-- The five steps of R105. -/
def scanTree {α : Type} (op : α → α → α) (l : List α) : List α :=
  [1, 2, 4, 8, 16].foldl (fun y s => scanStep op s y) l

/-! The generator (R134). -/

structure Philox where
  c0 : Nat
  c1 : Nat
  c2 : Nat
  c3 : Nat
  k0 : Nat
  k1 : Nat
  deriving DecidableEq, Repr, Inhabited

/-- One round, followed by the key step, which no later round reads after the tenth. -/
def Philox.round (x : Philox) : Philox :=
  let p0 := 0xD2511F53 * x.c0
  let p1 := 0xCD9E8D57 * x.c2
  { c0 := Nat.xor (Nat.xor (p1 / 2 ^ 32) x.c1) x.k0, c1 := p1 % 2 ^ 32
    c2 := Nat.xor (Nat.xor (p0 / 2 ^ 32) x.c3) x.k1, c3 := p0 % 2 ^ 32
    k0 := (x.k0 + 0x9E3779B9) % 2 ^ 32, k1 := (x.k1 + 0xBB67AE85) % 2 ^ 32 }

def Philox.rounds : Nat → Philox → Philox
  | 0, x => x
  | n + 1, x => Philox.rounds n x.round

/-- Word `i` of block `b` of the thread with key `s` and identifier `g`. -/
def philoxWord (s b g i : Nat) : Nat :=
  let x := Philox.rounds 10
    { c0 := b % 2 ^ 32, c1 := b / 2 ^ 32 % 2 ^ 32, c2 := g % 2 ^ 32, c3 := g / 2 ^ 32 % 2 ^ 32
      k0 := s % 2 ^ 32, k1 := s / 2 ^ 32 % 2 ^ 32 }
  match i with
  | 0 => x.c0
  | 1 => x.c1
  | 2 => x.c2
  | _ => x.c3

end Sys2Proof.Machine
end

