-- ==== Sys2Proof/Config.lean ====
section
/-!
DEFINITION. What an implementation fixes and the spec leaves open: the free values, each a constant with no body, and
the constants of the part (R3).
-/
namespace Sys2Proof.Config

/-- Cores; partitions per core; wave slots per partition (R3). -/
def cores : Nat := 144
def parts : Nat := 4
def slots : Nat := 24
def lanes : Nat := 32
/-- Shared-cache slices (R470) and watch entries per slice that serve waves (R310). -/
def slices : Nat := 64
def waveEntries : Nat := 240
def reservedEntries : Nat := 16
/-- Rows of a partition's register file (R268). -/
def rows : Nat := 2048

/-- A fresh word that the spec leaves open, one for each number drawn from the state's counter. -/
opaque freeWord : Nat → BitVec 32
/-- A fresh byte that the spec leaves open. -/
opaque freeByte : Nat → Byte
/-- A fresh choice that the spec leaves open. -/
opaque freeBool : Nat → Bool
/-- What a cache replaces when it is full, by the line that comes and the TIME (R272, R285, R470; log 66). -/
opaque victim : Nat → Nat → Nat
/-- A replaced dirty line of the shared cache goes to the residue-plane storage of a course, rather than to its home. -/
opaque toCourse : Nat → Nat → Bool
/-- The tile of a course that serves a partition's column, and the uncore islands of a slice and of an engine (R491; log 65). -/
opaque courseTile : Nat → Nat → Nat
opaque sliceIsland : Nat → Nat
opaque engineIsland : Nat → Nat → Nat
/-- The number from which a new wave's WID is sought (R310; log 21). -/
opaque wid : Nat → BitVec 24

/-- A byte at a TIME and an address that the spec leaves open. -/
opaque memByte : Nat → Nat → Byte
/-- RXBASE and RXSIZE of the second word of a collective group entry, whose layout the spec leaves open (R462). -/
opaque rxBase : BitVec 64 → Nat
opaque rxSize : BitVec 64 → Nat

/-! Security (R496 to R505): what the spec leaves to its algorithms and keys -/

/-- An image's security version; whether it is signed by the Plovar firmware key, or by the owner key with this hash. -/
opaque imageVersion : List Byte → Nat
opaque imageSigned : List Byte → Bool
opaque imageOwner : List Byte → List Byte → Bool
/-- A signature of a message by the owner key with this hash, or by the manufacturing key. -/
opaque ownerSig : List Byte → List Byte → List Byte → Bool
opaque makerSig : List Byte → List Byte → Bool
/-- The identity key's signature of a message. -/
opaque identitySig : List Byte → List Byte
/-- The device's serial number. -/
opaque serial : Nat
/-- The module's limits on the sums of EBUD and of IBUD over the core groups (R418). -/
opaque energyLimit : Nat
opaque currentLimit : Nat
/-- The check code of a block of a save slot (R438). -/
opaque checkCode : List Byte → Nat

end Sys2Proof.Config
end

