-- ==== Sys2Proof/Machine/Tab.lean ====
section
/-!
DEFINITION. Tables from numbers to data, kept in rising order of the key, and the canonical list of memory bytes.
-/
namespace Sys2Proof.Machine

/-- A sparse table: the keys rise. -/
abbrev Tab (α : Type) := List (Nat × α)

def Tab.find? {α : Type} : Tab α → Nat → Option α
  | [], _ => none
  | (k, v) :: t, n => if k = n then some v else Tab.find? t n

/-- The first entry that meets `p`. -/
def Tab.first {α : Type} (t : Tab α) (p : Nat × α → Bool) : Option (Nat × α) := List.find? p t

/-- The entry of key `n`, `d` where there is none. -/
def Tab.get {α : Type} (t : Tab α) (n : Nat) (d : α) : α := (t.find? n).getD d

def Tab.put {α : Type} : Tab α → Nat → α → Tab α
  | [], n, x => [(n, x)]
  | (k, v) :: t, n, x =>
    if n < k then (n, x) :: (k, v) :: t
    else if k = n then (n, x) :: t
    else (k, v) :: Tab.put t n x

def Tab.del {α : Type} (t : Tab α) (n : Nat) : Tab α := t.filter fun e => e.1 != n

/-- Applies `f` to the entry of key `n`, if there is one. -/
def Tab.upd {α : Type} (t : Tab α) (n : Nat) (f : α → α) : Tab α :=
  match t.find? n with
  | some x => t.put n (f x)
  | none => t

/-- The least number of `0 .. n - 1` that is no key. -/
def Tab.free {α : Type} (t : Tab α) : Nat → Nat → Option Nat
  | 0, _ => none
  | fuel + 1, n => if (t.find? n).isNone then some n else Tab.free t fuel (n + 1)

/-- A number above every key. -/
def Tab.fresh {α : Type} (t : Tab α) : Nat := t.foldl (fun m e => max m (e.1 + 1)) 0

/-- What a byte that nothing has written reads as (DESIGN CHOICE; log 1). -/
def emptyByte : Byte := 0

/-- A list of bytes by address. -/
abbrev Memory := List Host.Cell

/-- The canonical form: addresses rise, and no entry equals what an unlisted address reads as. -/
def Memory.wf : Memory → Bool
  | [] => true
  | [c] => c.2 != emptyByte
  | c :: d :: m => c.2 != emptyByte && c.1 < d.1 && Memory.wf (d :: m)

/-- One byte of memory. -/
def Memory.byte : Memory → Nat → Byte
  | [], _ => emptyByte
  | (k, v) :: m, a => if k = a then v else Memory.byte m a

/-- Writes one byte, keeping the canonical form. -/
def Memory.set : Memory → Nat → Byte → Memory
  | [], a, b => if b = emptyByte then [] else [(a, b)]
  | (k, v) :: m, a, b =>
    if a < k then (if b = emptyByte then (k, v) :: m else (a, b) :: (k, v) :: m)
    else if k = a then (if b = emptyByte then m else (a, b) :: m)
    else (k, v) :: Memory.set m a b

/-- `n` bytes from `a` on, the first the lowest (R12). -/
def Memory.read (m : Memory) (a : Nat) : Nat → List Byte
  | 0 => []
  | n + 1 => m.byte a :: Memory.read m (a + 1) n

/-- Writes bytes from `a` on. -/
def Memory.write (m : Memory) (a : Nat) : List Byte → Memory
  | [] => m
  | b :: bs => Memory.write (m.set a b) (a + 1) bs

end Sys2Proof.Machine
end

