-- ==== Sys2Proof/Machine/State.lean ====
section
/-!
DEFINITION. The state of the HX-12, all of it plain data: threads, waves, partitions, cores, workgroups, launches,
contexts, and the device's own units; the reasons a step can stop; and the state after reset.
-/
namespace Sys2Proof.Machine

/-- Why the machine stops with a fault. -/
inductive Fault where
  /-- HOST_WRITE or HOST_READ names a physical address outside every mapped row of R450: the spec gives the access no
  target. Raised by those two steps only. Safe: the machine stops where the hardware may go on. -/
  | hostUnmapped (pa : Nat)
  deriving DecidableEq, Repr

/-- Why an instruction or a step is given no meaning. -/
inductive Refusal where
  /-- The instruction has no meaning in this model yet. Safe: nothing is claimed of it. -/
  | notModelled (mnemonic : String)
  deriving DecidableEq, Repr

/-! Threads -/

/-- A thread, named by its wave's place (partition * 24 + slot, the key of `State.waves`) and its lane. -/
structure TId where
  w    : Nat
  lane : Nat
  deriving DecidableEq, Repr, Inhabited

/-- The shape tag of a vector register (R264). -/
inductive Shape where
  | general | uniform | affine
  deriving DecidableEq, Repr, Inhabited

/-- The content of a vector register by its shape (R264). -/
inductive VReg where
  | uniform (u : Word)
  | affine (base stride : Word)
  | general (xs : List Word)
  deriving DecidableEq, Repr, Inhabited

/-- The causes of a trap, in the order of their codes (R431). -/
inductive Cause where
  | illegal | privileged | lookahead | shape | signConflict | signTimeout | notMember
  | profileInvalid | profileMismatch | profileStale | accInvalid | tileConfig | tileShape | anchor | tileFault
  | stackOverflow | stackUnderflow | branchTarget | loopFault | userTrap | breakpoint | bankConfig | scratchFault
  | race | staleConst | misaligned | barrierFault | watchTarget | codebookMissing | clusterUnavailable | orderInversion
  | translation | fetch | ecall | haltState | save | restore
  deriving DecidableEq, Repr, Inhabited

/-- A trap: its cause (R431), the eight words of its record (R432), and the handler's argument (R429). -/
structure Trap where
  code  : Cause
  words : List Nat
  arg   : Nat
  deriving DecidableEq, Repr, Inhabited

/-- A trap that is to be taken when the thread's windows have committed (R510): its TPC, and the place of the instruction
that raised it among the thread's long-latency instructions, by which the oldest wins (R511). -/
structure TrapDue where
  trap : Trap
  tpc  : DWord
  seq  : Nat
  deriving DecidableEq, Repr, Inhabited

/-- What an access does where it lands. -/
inductive AccKind where
  /-- A load of `n` registers from `dest` on, a narrow value extended by `signed` (R332). -/
  | load (dest n : Nat) (signed : Bool)
  | store (data : List Byte)
  /-- An atomic with its operand, its new value for CAS, and its destination (R338). -/
  | atomic (op : AO) (t : AT) (b c : DWord) (dest : Option Nat)
  /-- The call-stack store of R251, after which the thread branches to `target`. -/
  | spill (data : List Byte) (target : DWord)
  /-- The call-stack load of R251. -/
  | fill
  /-- The fetch of the next instruction (R247). -/
  | fetch
  /-- An access whose instruction issues again when what it waits for has come: the read of WAITU (R351), and of a spilled call
  entry by a branch or LEND (R255, R256); whether it is a write. -/
  | again (write : Bool)
  /-- A store to EGO whose command's block is to be read (R363): the value, the snapshot and SEQ of its command, and
  whether the fault of the block's page was refused (R445). -/
  | ego (v : DWord) (ecmd : List DWord) (seq : Word) (refused : Bool)
  deriving DecidableEq, Repr, Inhabited

/-- What the other half of a dual word gives a thread whose memory half waits: its number, whether it has a long latency, and
its result (R58). -/
structure Rest where
  half : Nat
  long : Bool
  regs : List (Nat × Word)
  deriving DecidableEq, Repr, Inhabited

/-- One access of one thread: kept while it waits for a fault, a presence bit or a peer. -/
structure Access where
  scratch : Bool
  /-- through the constant cache (R335) -/
  const   : Bool
  addr    : DWord
  size    : Nat
  kind    : AccKind
  scope   : Scope
  acq     : Bool
  rel     : Bool
  pc      : DWord
  half    : Nat
  /-- the other half of the dual word, executed when the access passes its checks (R58) -/
  rest    : Option Rest := none
  /-- its page was not present when the instruction issued, so whether it is an ordered operation is still to be seen (R304) -/
  unseen  : Bool := false
  deriving DecidableEq, Repr, Inhabited

/-- An open lookahead window (R51): what its instruction will write, and when. -/
structure Window where
  pc        : DWord
  half      : Nat
  /-- the number of the instruction among the thread's long-latency instructions (R53) -/
  seq       : Nat
  remaining : Nat
  closed    : Bool
  /-- of a closed window: the number of its closing among those of the thread's windows (R53) -/
  order     : Nat
  dests     : List Nat
  pdests    : List Nat
  regs      : List (Nat × Word)
  preds     : List (Nat × Bool)
  /-- the core cycle from which a dependent instruction can issue; none while the result has not come -/
  ready     : Option Nat
  /-- the shape test has been made for the session as a whole (R145) -/
  checked   : Bool
  /-- the register whose test failed when the results came (R220) -/
  shapeFail : Option Nat
  /-- the trap to raise at the close (R54) -/
  fail      : Option Trap
  /-- the access that met a replayable fault and waits for the close (R54) -/
  pend      : Option Access
  deriving DecidableEq, Repr, Inhabited

/-- An entry of the loop stack (R254). -/
structure Loop where
  head  : DWord
  last  : DWord
  count : Nat
  deriving DecidableEq, Repr, Inhabited

/-- An entry of the call stack: the return address and the loop depth at the call (R250). -/
structure CallEntry where
  ret   : DWord
  depth : Nat
  deriving DecidableEq, Repr, Inhabited

/-- Handler mode (R429): the banked registers and predicates, and the trap registers. -/
structure Handler where
  v      : List Word
  preds  : BitVec 8
  tcause : Word
  tpc    : DWord
  trec   : List DWord
  deriving DecidableEq, Repr, Inhabited

/-- Why a thread is PARKED (R261). -/
inductive Park where
  /-- a replayable fault on the 4 KiB page (R445) -/
  | fault (page : Nat)
  /-- a scratchpad line of member core `core`, physical bank and line, whose presence bit is clear (R281) -/
  | presence (core bank line : Nat)
  /-- a bank that is switching (R275) -/
  | switching (core bank : Nat)
  /-- FPUSH or FPOP of a bank that cannot serve it (R283) -/
  | fifo (core bank : Nat)
  /-- an earlier tile operation of the thread that touches the same bytes and has not started (R207) -/
  | tile (op : Nat)
  /-- a fabric peer that has 256 requests without an acknowledgement (R461) -/
  | room
  /-- the reply of a fabric peer to a load of the call stack (R251, R461), or the end of an EGO (R363) -/
  | reply
  deriving DecidableEq, Repr, Inhabited

/-- The state of a thread between steps (R261); RUNNING is within a step. -/
inductive TState where
  | ready
  | parked (p : Park)
  | maskwait
  | watching
  | barrier (b : Nat)
  /-- at an ordered operation, or (true) at a turn-ending event, of a deterministic launch (R306, R307) -/
  | keywait (turn : Bool)
  | exited
  /-- stopped by HALT in a save handler (R449), by TRET in a restore handler (R439), or at a BKPT (R500) -/
  | halted
  deriving DecidableEq, Repr, Inhabited

/-- The arrival of a WAITM (R242): the mask, the predicate, and the core cycle at whose end it expires. -/
structure MaskWait where
  k      : Nat
  p      : Nat
  expiry : Nat
  deriving DecidableEq, Repr, Inhabited

/-- A wait of a thread on a barrier (R346, R348). -/
structure BarWait where
  pr     : Nat
  expiry : Option Nat
  /-- the wait follows an arrival of the same instruction -/
  arrwait : Bool
  deriving DecidableEq, Repr, Inhabited

/-- What a WAITU returns to (R350): the destination, its width, the status predicate, the WAITU's address; the address that it
watches. -/
structure WatchDest where
  dest : Nat
  wide : Bool
  ps   : Nat
  pc   : DWord
  va   : DWord
  deriving DecidableEq, Repr, Inhabited

/-- What holds a thread of a blocking instruction in its bundle (R71): the number of the tile operation. -/
inductive Block where
  /-- TCHK: the accumulator, the destination, the drains before it; a TZERO or TACCLD comes after those (R223) -/
  | tchk (acc dest : Nat) (drains : List Nat) (zero : Bool)
  /-- TPROF: until the profile load completes (R216) -/
  | tprof
  deriving DecidableEq, Repr, Inhabited

/-- A release's snapshot (R299): who released (launch, linear index, wave index, lane), whether it was a fence, at which
scope, its wave's clock vector, and the workgroup's clock. -/
structure RelSnap where
  launch : Nat
  wg    : Nat
  wave  : Nat
  lane  : Nat
  fence : Bool
  /-- an engine's completion record (R299) -/
  eng   : Bool
  scope : Scope
  vec   : List (Option Nat)
  clock : Nat
  /-- the vectors of other workgroups that its wave had heard of, by launch and linear index (R301; log 84) -/
  heard : List (Nat × Nat × List (Option Nat)) := []
  deriving DecidableEq, Repr, Inhabited

structure Thread where
  st      : TState := .ready
  pc      : DWord := 0
  preds   : BitVec 8 := 1
  calls   : List CallEntry := []
  spilled : Nat := 0
  loops   : List Loop := []
  windows : List Window := []
  llSeq   : Nat := 0
  rngS    : DWord := 0
  rngB    : DWord := 0
  rngI    : Nat := 0
  stackB  : DWord := 0
  stackZ  : Nat := 0
  hand    : Option Handler := none
  /-- barrier tickets: the phase of a valid ticket (R342) -/
  tickets : Tab Word := []
  mwait   : Option MaskWait := none
  bwait   : Option BarWait := none
  wdest   : Option WatchDest := none
  /-- the access to perform when what it waits for comes (R281, R434, R445) -/
  pend    : Option Access := none
  /-- a trap to be taken when the thread's open windows have committed (R510) -/
  trapQ   : Option TrapDue := none
  block   : Option Block := none
  /-- the release fences that a later store carries, the latest of each scope (R291), and the releases that the thread's loads have
  read and no acquire fence has joined in full -/
  relFences : List RelSnap := []
  readRels : List RelSnap := []
  /-- the turn granted to the thread's next ordered operation or turn-ending event (R307) -/
  grant   : Bool := false
  /-- the instruction at the PC has issued before, and the thread's windows have counted it (R51, R304) -/
  counted : Bool := false
  deriving DecidableEq, Repr, Inhabited

/-! Waves -/

/-- A signature in a session (R142): the lane, whether it was active, and its captured source values. -/
structure Signer where
  t      : TId
  active : Bool
  vals   : List Word
  deriving DecidableEq, Repr, Inhabited

/-- An open cross-lane session of a wave (R142 to R146): the number is the model's own. -/
structure Session where
  id      : Nat
  k       : Nat
  pc      : DWord
  instr   : Instr
  signers : List Signer
  /-- the core cycle at whose end it expires (R146) -/
  expiry  : Option Nat
  /-- complete, and waiting for the keystone (R512) or for a profile (R171) -/
  held    : Bool
  deriving DecidableEq, Repr, Inhabited

/-- The engine window of a wave (R355, R359). -/
structure EWindow where
  ecmd    : List DWord := [0, 0, 0, 0]
  written : BitVec 4 := 0
  seq     : Word := 0
  last    : Nat := 0
  deriving DecidableEq, Repr, Inhabited

structure Wave where
  tag    : Nat := 0
  launch : Nat := 0
  wg     : Nat := 0
  /-- the wave's index in its workgroup (R404) -/
  idx    : Nat := 0
  wid    : BitVec 24 := 0
  masks  : Tab Word := []
  /-- pattern entries that differ from the identity: 32 selectors of 6 bits (R140) -/
  pats   : Tab (List Nat) := []
  /-- vector registers that differ from zero -/
  regs   : Tab VReg := []
  /-- the shape tags other than general (R264) -/
  tags   : Tab Shape := []
  threads : List Thread := []
  sessions : List Session := []
  ewin   : EWindow := {}
  /-- epoch E[w] and vector V[w] (R298) -/
  epoch  : Nat := 0
  vec    : List (Option Nat) := []
  /-- what it has heard of the waves of other workgroups, by launch and linear index (R301; log 84) -/
  heard  : List (Nat × Nat × List (Option Nat)) := []
  /-- turns and visits of the keystone (R305) -/
  turns  : Nat := 1
  visits : Nat := 0
  /-- a tile fault that waits to be raised (R210) -/
  tileFault : Option Trap := none
  lastIssue : Nat := 0
  /-- requests not yet acknowledged (R258) -/
  acks   : Nat := 0
  draining : Bool := false
  /-- the wave is halted for a pre-emption (R434) -/
  halted : Bool := false
  deriving DecidableEq, Repr, Inhabited

/-! Tiles and accumulators -/

/-- A channel entry of a profile (R169). -/
structure Chan where
  role  : Nat
  group : Nat
  pos   : Nat
  mod   : Nat
  deriving DecidableEq, Repr, Inhabited

/-- A modulus profile (R164): its grouping and the entries of the twelve channels. -/
structure Profile where
  grouping : Nat
  chans    : List Chan
  deriving DecidableEq, Repr, Inhabited

/-- A load of a profile by TPROF (R171): the partition and the number of its tile operation, the descriptor, since when. -/
structure ProfLoad where
  pid   : Nat
  op    : Nat
  addr  : DWord
  since : Nat
  /-- the checks and the constants are being computed -/
  begun : Bool
  /-- the page whose replayable fault it waits for -/
  page  : Option Nat
  /-- the profile that passed the checks -/
  found : Option Profile
  deriving DecidableEq, Repr, Inhabited

/-- An accumulator with its control register (R200, R201): configuration, state, and residue planes by channel, each of
4,096 residues. -/
structure Acc where
  cols   : Nat := 64
  rows   : Nat := 64
  sat    : Bool := false
  group  : Nat := 0
  zb     : Int := 0
  za     : Int := 0
  round  : Nat := 0
  pt     : Nat := 31
  csa    : Nat := 7
  rsa    : Nat := 7
  ostride : Nat := 256
  evalid : Bool := false
  e      : Int := 0
  kcnt   : Nat := 0
  gen    : Nat := 0
  /-- the channel set of the residues -/
  chmask : Nat := 0
  valid  : Bool := true
  flags  : Nat := 0
  /-- the drain status word of R223 -/
  status : Nat := 0
  planes : Tab (List Nat) := []
  deriving DecidableEq, Repr, Inhabited

/-- Where a tile operation stands (R208, R209). -/
inductive TileSt where
  | queued
  /-- its data has not arrived, or its access has met a replayable fault -/
  | held (p : Park)
  | started
  /-- started, and its end taken from it by a halt (R225) -/
  | stopped
  deriving DecidableEq, Repr, Inhabited

/-- A tile operation in tile order (R208): who supplied its operands and when it issued, and what it read of the control
state then. -/
structure TileOp where
  id    : Nat
  wg    : Nat
  t     : TId
  pc    : DWord
  instr : Instr
  addr  : DWord
  /-- the window descriptor of TLDW (R214) -/
  desc  : List Word
  /-- the tile control of the operands (R211) -/
  tcs   : List (List Word)
  /-- the accumulator and the RSUM and CSUM accumulators of a drain, as control stands -/
  accs  : List Acc
  prof  : Option Profile
  /-- the receivers of a drain to registers (R220) -/
  recvs : List TId
  priv  : Bool
  time  : Nat
  /-- the core cycle of its entry -/
  cycle : Nat
  /-- TACCLD: its header has not been applied (R211) -/
  header : Bool
  /-- behind a TPROF that has not completed: it reads the control state, and acts on it, when that ends (R216) -/
  late  : Bool
  /-- of a save or restore handler: ahead of the operations that a halt has stopped (R436) -/
  ahead : Bool
  st    : TileSt
  /-- the page whose fault was refused (R445) -/
  refused : Option Nat
  /-- what a drain found, written by DRAIN_COMPLETE (R192): CONTAIN, the drain status, and CORRECTED elements by channel -/
  result : Option (DWord × Nat × List Nat)
  deriving DecidableEq, Repr, Inhabited

/-- What a workgroup's allocation holds on one partition (R196, R200): tile control that differs from its reset value, tiles
and accumulators that differ from zero, and the matrix sessions (R205). -/
structure Alloc where
  tcs   : Tab (List Word) := []
  tiles : Tab (List Byte) := []
  accs  : Tab Acc := []
  sessions : List Session := []
  deriving DecidableEq, Repr, Inhabited

/-! Partitions and cores -/

/-- The states of a PC bin (R231). -/
inductive BinState where
  | empty | filling | bundle
  deriving DecidableEq, Repr, Inhabited

structure Bin where
  st      : BinState := .empty
  key     : DWord := 0
  wg      : Nat := 0
  threads : List TId := []
  /-- the core cycle in which the oldest thread was filed (R234) -/
  filed   : Nat := 0
  /-- the core cycle since which the bundle is ready (R28) -/
  ready   : Option Nat := none
  /-- evicted at its next issue (R237) -/
  evict   : Bool := false
  /-- it has woken its waves and issues ahead of the others (R270) -/
  woken   : Bool := false
  deriving DecidableEq, Repr, Inhabited

/-- A thread filed in this core cycle: its group under R234 (2 the bundle that issued, 3 released). -/
structure Filing where
  t     : TId
  group : Nat
  cycle : Nat
  deriving DecidableEq, Repr, Inhabited

structure Part where
  bins    : Tab Bin := []
  filings : List Filing := []
  /-- the filing queue with the cycle from which each thread waits (R237) -/
  queue   : List (TId × Nat) := []
  /-- the threads that were queued at the last eviction (R237) -/
  held    : List TId := []
  /-- the effective class of the instruction that issued in this cycle, and those in X1 to X4 (R19) -/
  issued  : Option Nat := none
  stages  : List (Option Nat) := [none, none, none, none]
  /-- the active set (R269), wave slots of `State.waves` -/
  active  : List Nat := []
  drowsy  : DWord := 0
  /-- results due in this cycle whose test failed with that of the instruction that issued: the thread, the number of the window,
  the register (R266) -/
  unionFail : List (TId × Nat × Nat) := []
  contain : DWord := 0
  chkcnt  : Tab Word := []
  /-- the workgroup whose allocation the shadow storage holds (R435) -/
  shadow  : Option Nat := none
  /-- the allocations by workgroup, and the tile order (R208) -/
  allocs  : Tab Alloc := []
  tileQ   : List TileOp := []
  deriving DecidableEq, Repr, Inhabited

/-- The droop response (R33). -/
inductive Droop where
  | normal | stretch | half
  deriving DecidableEq, Repr, Inhabited

/-- A bundle parked on a FIFO bank (R283): its threads, the logical bank that it names, and for a push the words, for a pop
the register and width. -/
structure FifoWait where
  bank    : Nat
  threads : List TId
  push    : Option (List Word)
  dest    : Nat
  wide    : Bool
  pc      : DWord
  deriving DecidableEq, Repr, Inhabited

/-- An SRAM bank (R272): its mode, owner and contents. -/
structure Bank where
  mode   : BankMode := .cache
  /-- the workgroup that owns it and its logical number there (R273) -/
  owner  : Option (Nat × Nat) := none
  /-- scratchpad bytes -/
  bytes  : Memory := []
  /-- pending counts of lines (R280) -/
  pend   : Tab Nat := []
  fifo   : List Word := []
  /-- switching to a mode (R274) -/
  switching : Option BankMode := none
  /-- BANKCFGs that wait behind the switch, in bank order (R275), each with the threads that wait ahead of it -/
  later  : List (BankMode × List TId) := []
  /-- bundles parked on the FIFO, first parked first: the threads, each with its words or its destination -/
  waits  : List FifoWait := []
  deriving DecidableEq, Repr, Inhabited

/-- Who issued a command, and what it carries of the race detector and of order (R299, R358). -/
structure Issuer where
  tag    : Nat
  wid    : BitVec 24
  wg     : Nat
  wave   : Nat
  launch : Nat
  priv   : Bool
  epoch  : Nat
  clock  : Nat
  vec    : List (Option Nat)
  phase  : Nat
  heard  : List (Nat × Nat × List (Option Nat)) := []
  deriving DecidableEq, Repr, Inhabited

/-- The parameter block of a command as its EGO read it (R363): not read, its bytes, or the STATUS and DETAIL with which the
command ends. -/
inductive PreBlock where
  | none
  | read (bs : List Byte)
  | fails (status detail : Nat)
  deriving DecidableEq, Repr, Inhabited

/-- A codebook (R378): its generation and its 16 dictionary words. -/
structure Book where
  gen   : Nat
  words : List Nat
  deriving DecidableEq, Repr, Inhabited

/-- What a command keeps of its beginning: when it was and its number among the beginnings; the profile and GEN that a conversion
works under (R370); the codebooks that it decodes with, and of a ZBOOK the generation whose slot it takes (R383). -/
structure Began where
  time   : Nat
  n      : Nat
  prof   : Option Profile
  gen    : Word
  books  : List Book
  target : Option Nat
  deriving DecidableEq, Repr, Inhabited

/-- A queued command (R292): its engine, its snapshot and SEQ, its issuer, its block, and the scratchpad lines whose counts it
has raised, as core, bank and line (R280). -/
structure QCmd where
  engine : Nat
  ecmd   : List DWord
  seq    : Word
  issuer : Issuer
  pre    : PreBlock
  lines  : List (Nat × Nat × Nat)
  /-- its step is on the agenda -/
  begun  : Bool
  /-- it has begun -/
  began  : Option Began := none
  /-- an access that was refused (R445), by its address -/
  refused : Option Nat
  deriving DecidableEq, Repr, Inhabited

/-- An entry of an engine queue (R292): a command, or a fence entry naming queues and the number of its QFENCE (R293). -/
inductive QEntry where
  | cmd (c : QCmd)
  | fence (mask id : Nat)
  deriving DecidableEq, Repr, Inhabited

/-- An entry of the write-combining buffer (R459): the context of its first store, a peer, a line of it, the bytes stored, since
when, by which waves. -/
structure WcEntry where
  tag   : Nat
  peer  : Nat
  line  : Nat
  bytes : Tab Byte
  since : Nat
  waves : List Nat
  deriving DecidableEq, Repr, Inhabited

/-- An entry of a translation cache (R443): the context, the first page number of the leaf and its size in 4 KiB pages
as a power of two, and the leaf. -/
structure TlbEntry where
  tag  : Nat
  vpn  : Nat
  log  : Nat
  pte  : DWord
  deriving DecidableEq, Repr, Inhabited

/-- A line of a core's data cache (R272): the bank that holds it, whether it is dirty, its keep priority (R336, R337). -/
structure DLine where
  way   : Nat := 0
  dirty : Bool := false
  keep  : Bool := false
  deriving DecidableEq, Repr, Inhabited

structure Core where
  cyc    : DWord := 0
  cls    : List DWord := [0, 0, 0, 0]
  /-- the operating class of the core's clock (R24): STEP0 to STEP3; the mapping and the trim that the next boundary
  applies (R417, R423) -/
  steps  : List Nat := [8, 10, 12, 16]
  newSteps : Option (List Nat) := none
  trim   : Int := 0
  newTrim : Option Int := none
  drpcfg : Word := 0x80404619
  /-- DRPCFG as it stood at the latest alarm, which the response that it began keeps (R36) -/
  drprun : Word := 0x80404619
  /-- DRPCFG.EN has been written 0 in the present cycle (R33) -/
  drpoff : Bool := false
  deepest : Nat := 0
  alarms : Nat := 0
  droop  : Droop := .normal
  /-- the count of the present phase (R33) and the number of the next cycle in a half-issue phase (R35) -/
  dcount : Nat := 0
  hcount : Nat := 0
  hnum   : Nat := 0
  /-- the TIME of the alarm that the next cycles answer, none when answered (R33) -/
  alarmAt : Option Nat := none
  xlcfg  : Word := 1024
  /-- the run class and the length of the run (R30) -/
  run    : Nat := 0
  runLen : Nat := 0
  /-- the bin that the age override forces, by partition (R30) -/
  forced : Option (Nat × Nat) := none
  /-- where the present core cycle stands: 0 none has begun, 1 it runs, 2 it ends; its cmax, its first step, its length
  (R22) -/
  phase   : Nat := 0
  cmax   : Nat := 0
  start  : Nat := 0
  len    : Nat := 0
  stretched : Bool := false
  gated  : Bool := false
  banks  : Tab Bank := []
  queues : Tab (List QEntry) := []
  qfences : Nat := 0
  /-- the queues that a replayable fault stalls, with its context and address (R367) -/
  qhold  : Tab (Nat × Nat) := []
  wcb    : List WcEntry := []
  /-- constant-cache lines by physical line, with the launch that filled them (R285) -/
  consts : List (Nat × Nat × List Byte) := []
  /-- data-cache lines by physical line -/
  dlines : Tab DLine := []
  /-- instruction words held by (context, address) (R449) -/
  icache : List (Nat × Nat × Nat) := []
  tlb    : List TlbEntry := []
  deriving DecidableEq, Repr, Inhabited

/-! Workgroups, launches, contexts -/

/-- A barrier (R342): the target E of counted mode, 0 for all-threads. -/
structure Barrier where
  phase   : Word := 0
  target  : Nat := 0
  count   : Nat := 0
  /-- the threads that have arrived, each by its wave's logical identifier and its lane -/
  arrived : List TId := []
  /-- the snapshots of the arrivals of the present phase, and of completed phases (R347) -/
  snaps   : List RelSnap := []
  done    : List (Nat × List RelSnap) := []
  /-- for the trim of R423: by member the TIME of its first and of its last arrival of the phase, and the laggard of the
  previous completion -/
  first   : Tab Nat := []
  last    : Tab Nat := []
  lag     : Option Nat := none
  deriving DecidableEq, Repr, Inhabited

/-- Where a workgroup stands. -/
inductive WgState where
  | resident
  /-- a pre-emption halt is pending since a TIME (R434) -/
  | halting (since : Nat)
  /-- save handlers run (R436), with the save slot -/
  | saving (slot : Nat)
  /-- in shadow storage (R435), or in the save slot -/
  | shadow
  | saved (slot : Nat)
  /-- coming back from shadow storage (R435) -/
  | reloading
  /-- restore handlers run (R439) -/
  | restoring (slot : Nat)
  /-- halted at a BKPT (R500) -/
  | debugged
  /-- every wave has left DRAINING (R408) -/
  | finished
  | retired
  /-- ended by a fault or a kill -/
  | ended
  deriving DecidableEq, Repr, Inhabited

structure Wg where
  launch  : Nat
  /-- cluster ordinal, member number, grid index (R404) -/
  cluster : Nat
  member  : Nat
  grid    : Nat
  lin     : Nat
  core    : Nat
  /-- the partitions that hold it, by partition number -/
  pids    : List Nat
  /-- the waves' places, by wave index -/
  waves   : List Nat
  /-- the physical banks, by logical bank (R273) -/
  banks   : List Nat
  st      : WgState := .resident
  bars    : Tab Barrier := []
  phase   : Nat := 0
  clock   : Nat := 0
  /-- intervals of overuse in a row (R421) -/
  overuse : Nat := 0
  admitted : Nat := 0
  /-- it is pre-empted for its banks (R436) -/
  needBanks : Bool := false
  /-- the core has closed ingress (R425) -/
  closed  : Bool := false
  /-- the waves, by index, that have exited and left -/
  gone    : List Nat := []
  /-- the partitions whose copies into shadow storage are under way, each with the TIME of its end, and those copied (R435) -/
  copies  : List (Nat × Nat) := []
  copied  : List Nat := []
  /-- since when it is resident, and when it was before, as far as the present interval asks (R421) -/
  from_   : Option Nat := none
  spans   : List (Nat × Nat) := []
  /-- of a workgroup that is saved: its waves, its allocations and stopped tile operations by partition of the workgroup, its
  banks by logical number, and its suspended engine commands by queue -/
  image   : List Wave := []
  imgAllocs : Tab Alloc := []
  imgTiles : List (Nat × TileOp) := []
  imgBanks : Tab Bank := []
  imgCmds : List (Nat × QCmd) := []
  /-- the declaration (R419) -/
  de      : Nat := 0
  di      : Nat := 0
  deriving DecidableEq, Repr, Inhabited

/-- The fields of a kernel header (R402). -/
structure KHdr where
  codesz  : Nat := 8
  entry   : Nat := 0
  regs    : Nat := 1
  tiles   : Nat := 0
  accs    : Nat := 0
  opclass : Nat := 0
  determ  : Bool := false
  profile : Nat := 3
  scratch : Nat := 0
  s       : Nat := 0
  f       : Nat := 0
  cx      : Nat := 1
  cy      : Nat := 1
  cz      : Nat := 1
  energy  : Nat := 0
  current : Nat := 0
  patmask : Nat := 0
  tags    : Tab Shape := []
  pats    : Tab (List Nat) := []
  deriving DecidableEq, Repr, Inhabited

/-- LSTATE of a launch record (R401). -/
inductive LState where
  | posted | admitted | done | failed
  deriving DecidableEq, Repr, Inhabited

structure Launch where
  tag     : Nat
  /-- virtual addresses of the region and of the record -/
  rcb     : Nat
  record  : Nat
  khdr    : Nat
  args    : DWord
  gx      : Nat
  gy      : Nat
  gz      : Nat
  stackz  : Nat
  stackbase : Nat
  ordwin  : Nat
  serial  : Bool
  np      : Nat
  tpw     : Nat
  hdr     : KHdr
  st      : LState := .posted
  code    : Nat := 0
  /-- GEN, and the channels of group 0, at its admission (R200, R201) -/
  gen     : Nat := 0
  chmask  : Nat := 0
  /-- clusters admitted so far; workgroups retired -/
  admitted : Nat := 0
  retired : Nat := 0
  since   : Nat := 0
  /-- the keystone: the logical identifier it is at, whether it has arrived there, the lowest workgroup of the ordered
  window, and the exited waves that it has passed (R305) -/
  key     : Option Nat := none
  keyIn   : Bool := false
  kbase   : Nat := 0
  passed  : List Nat := []
  /-- the barriers shared by a cluster, by cluster * 8 + number - 24 (R342) -/
  cbars   : Tab Barrier := []
  /-- the cores, with their partitions, that a deterministic launch has reserved for each cluster of its window (R413) -/
  places  : List (List (Nat × List Nat)) := []
  deriving DecidableEq, Repr, Inhabited

/-- What the scheduler keeps of a region (R395 to R400). -/
structure Region where
  parent  : Nat := 0
  child   : Nat := 0
  sibling : Nat := 0
  anchor  : Nat := 0
  lqhead  : Nat := 0
  ovr     : Nat := 0
  wslots  : Nat := 0
  banks   : Nat := 0
  energy  : Nat := 0
  current : Nat := 0
  prio    : Nat := 0
  opclass : Nat := 0
  fdom    : Nat := 0
  enable  : Bool := false
  st      : Nat := 0
  code    : Nat := 0
  wake    : DWord := 0
  consumed : DWord := 0
  cursor  : Nat := 0
  lret    : Nat := 0
  queue   : List Nat := []
  /-- debts of the current interval (R421) -/
  debtE   : Nat := 0
  debtI   : Nat := 0
  /-- the region's anchor watch is armed or waits (R398); it stands in the tree; it is FAULTED for its block, with CODE 2
  or 3; its watch was satisfied below such a region (R397) -/
  watched : Bool := false
  linked  : Bool := true
  cut     : Bool := false
  held    : Bool := false
  deriving DecidableEq, Repr, Inhabited

/-- A fault-queue entry that waits for a slot (R444), as its first three words. -/
structure FqWait where
  w0 : DWord
  w1 : DWord
  w2 : DWord
  page : Option Nat
  deriving DecidableEq, Repr, Inhabited

/-- A TRANSLATION entry whose response is awaited (R445): the page, and the entry's number once written. -/
structure FaultPage where
  page  : Nat
  entry : Option Nat
  deriving DecidableEq, Repr, Inhabited

/-- A context (R427). The queue's tail and head live in the descriptor in memory. -/
structure Ctx where
  desc     : Nat
  ptroot   : Nat := 0
  handler  : Nat := 0
  savebase : Nat := 0
  slots    : Nat := 0
  slotsz   : Nat := 0
  wspill   : Nat := 0
  wspilln  : Nat := 0
  fqbase   : Nat := 0
  fqn      : Nat := 0
  priv     : Bool := false
  fqwait   : List FqWait := []
  pages    : List FaultPage := []
  wtfull   : Nat := 0
  root     : Nat := 0
  regions  : Tab Region := []
  /-- ended by R471 or R424: it admits no launch -/
  ended    : Bool := false
  /-- slices to which the context has spilled watch entries (R321) -/
  usedSlots : List Nat := []
  /-- the loaded profile, GEN, CAUSE of PROFSTAT (R174), and the TPROFs under way (R171) -/
  prof    : Option Profile := none
  gen     : Word := 0
  pcause  : Nat := 0
  loads   : List ProfLoad := []
  /-- save slots in use (R436), and the TIME of the context's last admission (R424) -/
  slotsUsed : List Nat := []
  lastAdmit : Nat := 0
  deriving DecidableEq, Repr, Inhabited

/-! Watches -/

/-- Whom a watch wakes (R310, R326). -/
inductive Waiter where
  | wave (tag : Nat) (wid : BitVec 24) (lanes : Word)
  | region (tag rcb : Nat)
  | faultEntry (tag entry : Nat)
  deriving DecidableEq, Repr, Inhabited

/-- The state of a watch entry (R310, R324); an expired one may name the workgroup of an ORDER_INVERSION (R415). -/
inductive WState where
  | armed
  | satisfied (x : DWord)
  | deadline (x : DWord) (inversion : Option Nat)
  deriving DecidableEq, Repr, Inhabited

/-- A watch entry (R310): the slice whose table or spill share holds it, the physical address watched, and the rest. A
spilled entry names its place in the spill area. -/
structure Watch where
  id       : Nat
  slice    : Nat
  reserved : Bool
  spill    : Option Nat
  pa       : Nat
  wide     : Bool
  cm       : CM
  y        : DWord
  deadline : Option Nat
  waiter   : Waiter
  st       : WState
  /-- the releases that the satisfying write carries (R291) -/
  snaps    : List RelSnap
  /-- the page is checked for races: the evaluation is an atomic read (R317) -/
  chk      : Bool
  deriving DecidableEq, Repr, Inhabited

/-! Races and order -/

/-- The last write of a granule (R298): `atomic` holds the scope of an atomic, `eng` the engine flag. -/
structure RaceWrite where
  wave   : Nat
  wg     : Nat
  epoch  : Nat
  phase  : Nat
  clock  : Nat
  atomic : Option Scope
  eng    : Bool
  deriving DecidableEq, Repr, Inhabited

/-- The record of a granule (R298), the atomic reads of R317 kept apart: 0 for global memory by physical granule, or for scratchpad 1 + the number of the
cluster's space. -/
structure RaceRec where
  launch : Nat
  space  : Nat
  gran   : Nat
  write  : Option RaceWrite
  hr     : Nat
  rph    : Nat
  rclk   : Nat
  readers : Tab Nat
  cross  : Option (Nat × Nat)
  /-- the same of atomic reads, with their scopes: by wave the epoch, and a workgroup, a wave and a clock -/
  areaders : Tab (Nat × Scope)
  across : Option (Nat × Nat × Nat × Scope)
  deriving DecidableEq, Repr, Inhabited

/-- The snapshot that the value now in some bytes carries (R291, R299). -/
structure RelRec where
  space  : Nat
  addr   : Nat
  size   : Nat
  snap   : RelSnap
  deriving DecidableEq, Repr, Inhabited

/-- What is to be done before the next event: a step of the present core cycle, or the issue of a bundle. -/
inductive Todo where
  | event (i : Instr)
  | issue (core part bin : Nat)
  deriving DecidableEq, Repr, Inhabited

/-- The bundle that issues (R236). -/
structure Cur where
  core    : Nat := 0
  part    : Nat := 0
  bin     : Nat := 0
  threads : List TId := []
  pc      : DWord := 0
  half    : Nat := 0
  deriving DecidableEq, Repr, Inhabited

/-- An event due at a TIME. -/
structure Due where
  time : Nat
  ev   : Instr
  deriving DecidableEq, Repr, Inhabited

/-- An entry of the black-box record (R484). -/
structure BbEntry where
  time : DWord
  kind : Nat
  tag  : Nat
  /-- source class and number -/
  cls  : Nat
  src  : Nat
  data : List Byte
  deriving DecidableEq, Repr, Inhabited

/-- The black-box record (R483, R487, R488): the live ring by index, and the copy in the non-volatile store. -/
structure BlackBox where
  ring   : Tab BbEntry := []
  events : Word := 0
  wptr   : Nat := 0
  frozen : Bool := false
  lost   : Bool := false
  bbmen  : Bool := true
  /-- the TIME of the freeze -/
  at_    : DWord := 0
  stored : Option (DWord × Nat × Tab BbEntry) := none
  deriving DecidableEq, Repr, Inhabited

/-- A request to a fabric peer without its reply (R461). -/
structure Remote where
  dst   : Nat
  seq   : Nat
  op    : FabricOp
  tries : Nat
  core  : Nat
  tag   : Nat
  /-- the thread and access of a load or atomic -/
  by_   : Option (TId × Access)
  /-- the waves whose stores a drained entry holds -/
  waves : List Nat
  deriving DecidableEq, Repr, Inhabited

/-- An error of a storage array that nothing has met yet (R467): where it is, and whether two bits are wrong. The environment
puts them there. -/
inductive Upset where
  /-- a line in the shared cache, by the way that holds it, or in its home -/
  | line (n way : Nat) (home hard : Bool)
  /-- the registers of a wave, the tiles of a workgroup on a partition, an SRAM bank of a core -/
  | regs (w : Nat) (hard : Bool)
  | tile (pid wg : Nat) (hard : Bool)
  | sram (core bank : Nat) (hard : Bool)
  /-- an accumulator, which no code covers: element `n` of the plane of a channel reads as `x` -/
  | plane (pid wg acc chan n x : Nat)
  /-- the shadow storage of a partition -/
  | shadow (pid : Nat) (hard : Bool)
  /-- a line of a core's data cache or constant cache -/
  | dline (core n : Nat) (hard : Bool)
  | cline (core n : Nat) (hard : Bool)
  /-- the three copies of the owner tag of a dirty line all differ (R470) -/
  | tags (n : Nat)
  /-- directory, watch tables, translation caches, plinth control state -/
  | control (hard : Bool)
  deriving DecidableEq, Repr, Inhabited

/-- Where the shared cache holds a line: a way of its set (R470), or the residue-plane storage of a course (R2, R3). -/
inductive CacheSpot where
  | way (n : Nat)
  | course (c : Nat)
  deriving DecidableEq, Repr, Inhabited

/-- A dirty line of the shared cache: its owner tag (R470), where it is held, and the bytes that its home still has (R4). -/
structure DirtyLine where
  tag  : Nat := 0
  spot : CacheSpot := .way 0
  home : List Byte := []
  deriving DecidableEq, Repr, Inhabited

/-- A dirty line that has been lost (R471): its owner tag, the line, the way. -/
structure Loss where
  tag  : Nat
  line : Nat
  way  : Nat
  deriving DecidableEq, Repr, Inhabited

/-- A core group (R417, R418, R421): its class, its state (0 STABLE, 1 SLEWING, 2 GATED), budgets and debts. -/
structure Group where
  oc    : Nat := 0
  st    : Nat := 0
  ebud  : Nat := 0
  ibud  : Nat := 0
  debtE : Nat := 0
  debtI : Nat := 0
  deriving DecidableEq, Repr, Inhabited

/-- The fabric time offset over TIME (R466): its value, what it still loses at 1 unit per 1,000 units of TIME, since when. -/
structure FabricClock where
  base  : DWord := 0
  drop  : Nat := 0
  since : Nat := 0
  deriving DecidableEq, Repr, Inhabited

/-- A fabric port (R457). -/
structure Port where
  fails : Nat := 0
  down  : BitVec 4 := 0
  up    : BitVec 4 := 0
  deriving DecidableEq, Repr, Inhabited

/-- A source endpoint as its destination sees it (R458, R461): the next sequence number to perform, requests that arrived
before it, the cumulative acknowledgement, and the replay cache. -/
structure Source where
  next : Nat := 0
  early : Tab FabricOp := []
  cum  : Option Nat := none
  cache : Tab (List Byte) := []
  deriving DecidableEq, Repr, Inhabited

/-- An island's sensor (R490 to R495): the entries into throttling, whether throttled, the latest sample, the TIME of the
entry, and how many samples in a row were at or below the exit level. -/
structure Therm where
  entries : Nat := 0
  thr   : Bool := false
  temp  : Int := 0
  since : Nat := 0
  cool  : Nat := 0
  /-- the TIME of the next sample -/
  next  : Nat := 0
  deriving DecidableEq, Repr, Inhabited

/-- The management island (R494, R496 to R506). -/
structure Mgmt where
  /-- the lifecycle (R499): 0 BLANK, 1 DEVELOP, 2 PRODUCTION, 3 RETURNED, and the move accepted for the next cold reset -/
  life  : Nat := 0
  moves : Option Nat := none
  /-- the hash of the owner key, and whether the identity key exists -/
  owner : List Byte := []
  ident : Bool := false
  /-- the power state (R501): 0 RUN, 1 IDLE, 2 GATED, 3 OFF; the device stays in recovery (R496) -/
  power : Nat := 0
  recovery : Bool := false
  /-- the images of the module's flash, the fused minimum security versions, the measurements, the staging area -/
  flash : List (List Byte) := [[], [], [], []]
  minver : List Nat := [0, 0, 0, 0]
  meas  : List (List Byte) := List.replicate 4 (List.replicate 64 0)
  stage : Option (Nat × List Byte) := none
  /-- the nonce of the last CHALLENGE, the SEQ and the reply of the previous frame, the replies sent -/
  nonce : Option (List Byte) := none
  prev  : Option (Nat × Nat × List Byte) := none
  /-- the reply of a command that runs until a TIME, by its CMD and SEQ (R504) -/
  run   : Option (Nat × Nat × Nat × List Byte) := none
  sent  : List (Nat × Nat × List Byte) := []
  /-- the export that EXPORT_BEGIN has built, and how much of it has been read -/
  exp   : List Byte := []
  expAt : Nat := 0
  /-- the inlet power of the latest sample in W, whether an emergency exists -/
  inlet : Nat := 0
  emergency : Bool := false
  tcrit : Nat := 115
  tuncore : Nat := 100
  tcourse : Nat := 95
  tpart : Nat := 95
  deriving DecidableEq, Repr, Inhabited

structure State where
  /-- steps of 50 ps since the start of the boot span; TIME is this count modulo 2^64 (R9) -/
  now     : Nat := 0
  /-- the fabric time offset F, and what it has still to lose by 1 unit in 1,000, since when (R138, R466) -/
  fclock  : FabricClock := {}
  /-- exchanges with the time master: the offset found, from a TIME on that every cycle under way precedes (R138) -/
  fsyncs  : List (Nat × DWord) := []
  mem     : Memory := []
  todo    : List Todo := []
  agenda  : List Due := []
  cur     : Cur := {}
  delays  : List Nat := []
  freeCtr : Nat := 0
  ids     : Nat := 0
  cores   : Tab Core := []
  parts   : Tab Part := []
  waves   : Tab Wave := []
  wgs     : Tab Wg := []
  launches : Tab Launch := []
  ctxs    : Tab Ctx := []
  watches : List Watch := []
  arming  : List Watch := []
  races   : List RaceRec := []
  rels    : List RelRec := []
  /-- the sequentially consistent fences performed, in their order S (R303) -/
  scFences : List RelSnap := []
  stlb    : List TlbEntry := []
  walk    : List TlbEntry := []
  /-- the dirty lines of the shared cache -/
  dirty   : Tab DirtyLine := []
  poison  : List Nat := []
  linkUp  : Bool := true
  endpoint : Nat := 0
  fabric  : List Nat := []
  /-- FQPEND (R454), and the MSI-X messages sent, by vector, the latest last (R453) -/
  fqpend  : BitVec 256 := 0
  msix    : List Nat := []
  /-- the host's reads as they were answered, by address, the latest last; no bytes where the answer is poisoned (R452, R473) -/
  hostReads : List (Nat × Option (List Byte)) := []
  bbr     : BlackBox := {}
  /-- requests to fabric peers without a reply, and the next sequence number by destination (R461) -/
  remotes : List Remote := []
  seqs    : Tab Nat := []
  /-- the map-out list that PROFSTAT shows, and the list that the next cold reset reads (R194) -/
  mapout  : BitVec 12 := 0
  mapNext : BitVec 12 := 0
  /-- ERRCFG (R478), and the counts of ERRSUM (R479) -/
  errcfg  : DWord := 0x000A000000001000
  ued     : Nat := 0
  uec     : Nat := 0
  ce      : Nat := 0
  /-- the debug mode (R500): 0 OFF, 1 OBSERVE, 2 HALT -/
  debug   : Nat := 0
  /-- the codebook slots in use, the one loaded earlier first (R383) -/
  books   : List Book := []
  /-- the operating-point table (R416): VSET and STEP0 to STEP3 -/
  opts    : List (Nat × List Nat) :=
    [(675, [8, 10, 12, 16]), (650, [9, 11, 14, 18]), (620, [10, 12, 15, 20]), (590, [12, 14, 18, 24]), (700, [7, 9, 11, 14]),
      (675, [8, 10, 12, 16]), (675, [8, 10, 12, 16]), (675, [8, 10, 12, 16])]
  groups  : Tab Group := []
  ports   : Tab Port := []
  sources : Tab Source := []
  /-- replies to fabric peers sent (R461), by destination and sequence number, the latest last -/
  replies : List (Nat × Nat × List Byte) := []
  /-- the collective group table (R462): the two 8-byte words of each entry -/
  coll    : Tab (DWord × DWord) := []
  /-- in-switch collectives are there: the switches are Plovar's (R455) -/
  plovar  : Bool := true
  /-- the time master (R466) -/
  master  : Option Nat := none
  /-- CWARG, and RESULT and TAG of CWSTAT; the command that runs with the TIME of its end, and whether CWCMD was written
  meanwhile (R454) -/
  cwarg   : DWord := 0
  cwrun   : Option Due := none
  cwover  : Bool := false
  cwres   : Nat := 0
  cwtag   : Nat := 0
  /-- the retired frames (R474), OVF (R475), and the quarantined ways by slice * 2048 + set (R476) -/
  retired : List Nat := []
  retOvf  : Bool := false
  quar    : Tab (List Nat) := []
  upsets  : List Upset := []
  /-- losses whose steps 4 and 5 of R471 are to come -/
  losses  : List Loss := []
  /-- channels that fail the known-answer test and courses that fail the bond test (R481): the environment's -/
  badChans : List Nat := []
  badCourses : List Nat := []
  /-- a device-fatal error has happened (R469) -/
  fatal   : Bool := false
  therms  : Tab Therm := []
  mg      : Mgmt := {}
  deriving DecidableEq, Repr, Inhabited

/-- The machine at the release of cold reset: the boot ROM's steps (R481, R496) come first. -/
def State.reset : State := { agenda := [⟨0, .coldReset⟩] }

end Sys2Proof.Machine
end

