-- ==== Sys2Proof/Machine/Units.lean ====
section
/-!
DEFINITION. The named operations over the state: the units of the device, time, free values, vector registers by
shape, predicates, masks, filing, and physical memory.
-/
namespace Sys2Proof.Machine

/-- The name of no core: accesses to the banks of a workgroup that is away wait there; and the name, among cores, of the place that
keeps the banks of a saved workgroup. -/
def awayCore : Nat := 1000
def awayBanks (g : Nat) : Nat := awayCore + 1 + g
/-- The key of a wave that is saved, in the requests to peers in which it has a part; its workgroup and its index there. -/
def awayKey (g idx : Nat) : Nat := 100000 + 32 * g + idx
def awayWg (w : Nat) : Option (Nat × Nat) := if w < 100000 then none else some ((w - 100000) / 32, (w - 100000) % 32)

/-! Units -/

def State.core (s : State) (c : Nat) : Core := s.cores.get c {}
def State.setCore (s : State) (c : Nat) (x : Core) : State := { s with cores := s.cores.put c x }
def State.modCore (s : State) (c : Nat) (f : Core → Core) : State := s.setCore c (f (s.core c))
def State.part (s : State) (p : Nat) : Part := s.parts.get p {}
def State.setPart (s : State) (p : Nat) (x : Part) : State := { s with parts := s.parts.put p x }
def State.modPart (s : State) (p : Nat) (f : Part → Part) : State := s.setPart p (f (s.part p))
def State.wave (s : State) (w : Nat) : Wave := s.waves.get w {}
def State.setWave (s : State) (w : Nat) (x : Wave) : State := { s with waves := s.waves.put w x }
/-- Changes a wave that exists. -/
def State.modWave (s : State) (w : Nat) (f : Wave → Wave) : State := { s with waves := s.waves.upd w f }
def State.launch (s : State) (l : Nat) : Launch := s.launches.get l default
def State.ctx (s : State) (t : Nat) : Ctx := s.ctxs.get t default
def State.modCtx (s : State) (t : Nat) (f : Ctx → Ctx) : State := { s with ctxs := s.ctxs.upd t f }
def State.wg (s : State) (g : Nat) : Wg := s.wgs.get g default
def State.modWg (s : State) (g : Nat) (f : Wg → Wg) : State := { s with wgs := s.wgs.upd g f }
def State.modLaunch (s : State) (l : Nat) (f : Launch → Launch) : State := { s with launches := s.launches.upd l f }

/-- The partition of a wave's place, and its core. -/
def pidOf (w : Nat) : Nat := w / 24
def coreOf (w : Nat) : Nat := w / 96
def TId.pid (t : TId) : Nat := pidOf t.w
def TId.core (t : TId) : Nat := coreOf t.w

def Wave.thread (x : Wave) (lane : Nat) : Thread := x.threads.getD lane {}
def State.thread (s : State) (t : TId) : Thread := (s.wave t.w).thread t.lane
def State.modThread (s : State) (t : TId) (f : Thread → Thread) : State :=
  s.modWave t.w fun x => { x with threads := x.threads.set t.lane (f (x.thread t.lane)) }
/-- The launch and the context of a thread's wave. -/
def State.launchOf (s : State) (t : TId) : Launch := s.launch (s.wave t.w).launch
def State.ctxOf (s : State) (t : TId) : Ctx := s.ctx (s.wave t.w).tag
/-- A privileged thread (R428). -/
def State.privileged (s : State) (t : TId) : Bool := (s.ctxOf t).priv || (s.thread t).hand.isSome

/-- The lines of some banks leave the data cache (R273, R274): dirty ones are written back, which memory shows already. -/
def Core.dropWays (c : Core) (banks : List Nat) : Core := { c with dlines := c.dlines.filter fun e => !banks.contains e.2.way }

/-- TIME (R9). -/
def State.time (s : State) : DWord := BitVec.ofNat 64 s.now
/-- The cycles counted so far of the core of a thread. -/
def State.cycOf (s : State) (t : TId) : Nat := (s.core t.core).cyc.toNat

/-- The offset at a TIME: a decrease is applied at 1 unit in 1,000 units of TIME (R466). -/
def FabricClock.at_ (c : FabricClock) (time : Nat) : DWord := c.base - BitVec.ofNat 64 (min c.drop ((time - c.since) / 1000))

/-- The clock after an exchange that found the offset `f`, in force from a TIME on (R466). -/
def FabricClock.sync (c : FabricClock) (f : DWord) (time : Nat) : FabricClock :=
  let cur := c.at_ time
  if (f - cur).toNat < 2 ^ 63 then ⟨f, 0, time⟩ else ⟨cur, (cur - f).toNat, time⟩

/-- The clock with the exchanges that are in force at a TIME. -/
def State.fabricClock (s : State) (time : Nat) : FabricClock :=
  s.fsyncs.foldl (fun c e => if e.1 ≤ time then c.sync e.2 e.1 else c) s.fclock

/-- The fabric time offset F at a TIME (R138). -/
def State.offset (s : State) (time : Nat) : DWord := (s.fabricClock time).at_ time

/-- A number for a free value, and the state that has used it. -/
def State.free (s : State) : Nat × State := (s.freeCtr, { s with freeCtr := s.freeCtr + 1 })
/-- A fresh number for an entry, a session or a record of the model. -/
def State.newId (s : State) : Nat × State := (s.ids, { s with ids := s.ids + 1 })
/-- The time beyond a least latency that the environment takes: the next of the inputs, 0 when there is none. -/
def State.takeDelay (s : State) : Nat × State := (s.delays.headD 0, { s with delays := s.delays.tail })

/-- Puts an event on the agenda, behind the events of the same TIME. -/
def insertDue (d : Due) : List Due → List Due
  | [] => [d]
  | e :: es => if d.time < e.time then d :: e :: es else e :: insertDue d es
/-- Puts an event on the agenda, ahead of the events of the same TIME. -/
def insertFirst (d : Due) : List Due → List Due
  | [] => [d]
  | e :: es => if d.time ≤ e.time then d :: e :: es else e :: insertFirst d es
def State.at (s : State) (time : Nat) (ev : Instr) : State := { s with agenda := insertDue ⟨time, ev⟩ s.agenda }
def State.atFirst (s : State) (time : Nat) (ev : Instr) : State := { s with agenda := insertFirst ⟨time, ev⟩ s.agenda }

/-! Throttled islands (R491) -/

/-- An island is throttled: a course tile that serves a partition's column, or an uncore island. -/
def State.courseHot (s : State) (pid : Nat) : Bool :=
  (List.range 6).any fun c => (s.therms.get (576 + 64 * c + Config.courseTile c pid % 64) {}).thr
def State.uncoreHot (s : State) (n : Nat) : Bool := (s.therms.get (960 + n % 64) {}).thr

/-- The TIME from which a request that comes at a TIME is accepted: on a throttled island in a slice cycle with an even TIME / 8. -/
def acceptTime (hot : Bool) (time : Nat) : Nat := if hot && time / 8 % 2 == 1 then (time / 8 + 1) * 8 else time

/-! Vector registers (R264, R265) -/

def VReg.lane : VReg → Nat → Word
  | .uniform u, _ => u
  | .affine b st, i => b + BitVec.ofNat 32 i * st
  | .general xs, i => xs.getD i 0

def VReg.lanes (r : VReg) : List Word := (List.range 32).map r.lane

/-- The content of a register of the shape whose lanes are `ys`, none when they do not fit it (R265). -/
def Shape.fit (sh : Shape) (ys : List Word) : Option VReg :=
  match sh with
  | .general => some (.general ys)
  | .uniform => if ys.all (· == ys.headD 0) then some (.uniform (ys.headD 0)) else none
  | .affine =>
    let r := VReg.affine (ys.headD 0) (ys.getD 1 0 - ys.headD 0)
    if r.lanes == ys then some r else none

def Wave.shape (x : Wave) (r : Nat) : Shape := x.tags.get r .general
def Wave.vreg (x : Wave) (r : Nat) : VReg := x.regs.get r (.uniform 0)

/-- The lanes of a register as they would stand after a write of some lanes. -/
def overlay (r : VReg) (vals : List (Nat × Word)) : List Word :=
  (List.range 32).map fun i => ((vals.find? fun v => v.1 == i).map (·.2)).getD (r.lane i)

/-- A write of some lanes of a register of a wave; none when it does not fit (R265). v255 discards it (R43). -/
def Wave.write (x : Wave) (r : Nat) (vals : List (Nat × Word)) : Option Wave :=
  if r == 255 then some x
  else ((x.shape r).fit (overlay (x.vreg r) vals)).map fun v => { x with regs := x.regs.put r v }

/-- The value of a vector register in a thread (R43, R264); in handler mode v0 to v3 are the banked set (R429). -/
def State.rd (s : State) (t : TId) (r : Nat) : Word :=
  if r == 255 then 0
  else
    match (s.thread t).hand with
    | some h => if r < 4 then h.v.getD r 0 else ((s.wave t.w).vreg r).lane t.lane
    | none => ((s.wave t.w).vreg r).lane t.lane

/-- A pair (R69). -/
def State.rd64 (s : State) (t : TId) (r : Nat) : DWord := pairOf (s.rd t r) (s.rd t (r + 1))

/-- A predicate (R43); in handler mode the banked set (R429). -/
def Thread.pred (th : Thread) (p : Nat) : Bool :=
  p == 0 ||
  (match th.hand with
   | some h => h.preds.getLsbD p
   | none => th.preds.getLsbD p)

def setBit {n : Nat} (x : BitVec n) (k : Nat) (b : Bool) : BitVec n :=
  if b then x ||| BitVec.ofNat n (2 ^ k) else x &&& ~~~ BitVec.ofNat n (2 ^ k)

/-- Writes a predicate; p0 discards it (R43). -/
def Thread.setPred (th : Thread) (p : Nat) (b : Bool) : Thread :=
  if p == 0 then th
  else
    match th.hand with
    | some h => { th with hand := some { h with preds := setBit h.preds p b } }
    | none => { th with preds := setBit th.preds p b }

/-- The guard (R41). -/
def Thread.guard (th : Thread) (h : Hd) : Bool := th.pred h.pred != h.neg

/-- Writes one lane of a register where no shape test applies: the banked v0 to v3 (R429). -/
def Thread.setBanked (th : Thread) (r : Nat) (v : Word) : Thread :=
  match th.hand with
  | some h => { th with hand := some { h with v := h.v.set r v } }
  | none => th

/-- A register of the thread that its handler-mode bank holds. -/
def Thread.banked (th : Thread) (r : Nat) : Bool := th.hand.isSome && r < 4

/-! The state of a wave (R262) -/

inductive WaveState where
  | saved | draining | running | ready | keywait | maskwait | barrier | watching | parked
  deriving DecidableEq, Repr

/-- Some thread of a wave is in a state. -/
def Wave.holds (x : Wave) (p : TState → Bool) : Bool := x.threads.any fun th => p th.st

/-- The state of a wave on the device, derived from its threads (R262): `runs` names the lanes whose instruction is under way. A
thread that HALT, TRET or BKPT has stopped, of which R261 knows no state, counts as PARKED. -/
def Wave.state (x : Wave) (runs : List Nat) : WaveState :=
  if !x.holds (· != .exited) then .draining
  else if !runs.isEmpty then .running
  else if x.holds (· == .ready) then .ready
  else if x.holds (· matches .keywait _) then .keywait
  else if x.holds (· == .maskwait) then .maskwait
  else if x.holds (· matches .barrier _) then .barrier
  else if x.holds (· == .watching) then .watching
  else .parked

/-- The states of a workgroup's waves: SAVED while they are swapped out, otherwise as their threads stand (R262). -/
def State.waveStates (s : State) (g : Nat) : List WaveState :=
  let G := s.wg g
  if G.image.isEmpty then (s.waves.filter fun e => e.2.wg == g).map fun e => e.2.state []
  else G.image.map fun _ => .saved

/-! Masks (R230) -/

def Wave.mask (x : Wave) (k : Nat) : Word := x.masks.get k 0

/-- The lanes whose thread has not exited. -/
def Wave.live (x : Wave) : Word :=
  BitVec.ofNat 32 (bitsToNat (x.threads.map fun th => if th.st == .exited then 0 else 1))

/-- A write of a mask: bits of exited lanes stay 0 (R230). -/
def Wave.setMask (x : Wave) (k : Nat) (m : Word) : Wave := { x with masks := x.masks.put k (m &&& x.live) }

/-! Filing (R232, R234) -/

/-- A thread released from a wait or a park, created or restored, is filed; not one of a wave that is halted (R434). -/
def State.file (s : State) (t : TId) (group : Nat) : State :=
  if (s.waves.find? t.w).isNone || (s.wave t.w).halted then s
  else s.modPart t.pid fun p => { p with filings := p.filings ++ [⟨t, group, (s.core t.core).cyc.toNat⟩] }
def State.release (s : State) (t : TId) : State :=
  (s.modThread t fun th => { th with st := .ready }).file t 3

/-- Takes threads out of the bins, the queue and the filings of their partition (R233). -/
def Part.drop (p : Part) (gone : TId → Bool) : Part :=
  { p with
    bins := p.bins.map fun (n, b) =>
      let ts := b.threads.filter fun t => !gone t
      (n, if ts.isEmpty && b.st != .empty then {} else { b with threads := ts })
    filings := p.filings.filter fun f => !gone f.t
    queue := p.queue.filter fun q => !gone q.1
    held := p.held.filter fun t => !gone t }

def State.unfile (s : State) (t : TId) : State := s.modPart t.pid fun p => p.drop (· == t)

/-! Physical memory -/

/-- The least of the host rows and the bounds of the tiers (R450). -/
def firstTier (pa : Nat) : Bool := pa < 0x8000000000
def secondTier (pa : Nat) : Bool := 0x20000000000 ≤ pa && pa < 0x40000000000
def deviceMem (pa : Nat) : Bool := firstTier pa || secondTier pa
def hostRow (pa : Nat) : Bool := fld pa 50 2 == 1
def fabricRow (pa : Nat) : Bool := fld pa 51 1 == 1 && pa < 2 ^ 52
/-- The endpoint and the offset of a fabric address. -/
def fabricPeer (pa : Nat) : Nat := fld pa 39 12
def fabricOff (pa : Nat) : Nat := pa % 2 ^ 39

/-- A mapped physical address (R450). -/
def State.mapped (s : State) (pa : Nat) : Bool :=
  deviceMem pa || (hostRow pa && s.linkUp) ||
    (fabricRow pa && (fabricPeer pa == s.endpoint || s.fabric.contains (fabricPeer pa)))

/-- A fabric address of the device's own endpoint names its first tier (R450). -/
def State.home (s : State) (pa : Nat) : Nat :=
  if fabricRow pa && fabricPeer pa == s.endpoint then fabricOff pa else pa

/-- Memory of another device (R450). -/
def State.remote (s : State) (pa : Nat) : Bool := fabricRow pa && fabricPeer pa != s.endpoint

def State.read (s : State) (pa n : Nat) : List Byte := s.mem.read pa n
/-- A little-endian number of `n` bytes (R12). -/
def State.readNat (s : State) (pa n : Nat) : Nat := wordOfBytes (s.mem.read pa n)

/-- The home slice of a physical address (R470). -/
def sliceOf (pa : Nat) : Nat :=
  let n := pa / 128
  [fld n 6 6, fld n 12 6, fld n 18 6, fld n 24 6, fld n 30 6, fld n 36 6, fld n 42 3].foldl Nat.xor (n % 64)

/-- A line that answers no read: poisoned (R473), or with an uncorrectable error that the read finds, in a dirty line (R471)
or in the home of a clean one (R467). -/
def State.lineBad (s : State) (l : Nat) : Bool :=
  s.poison.contains l ||
    s.upsets.any fun u =>
      match u with
      | .line n _ home hard => n == l && hard && (s.dirty.find? l).isSome != home
      | _ => false

/-- The lines that `n` bytes from `pa` touch. -/
def linesOf (pa n : Nat) : List Nat :=
  (List.range ((pa % 128 + n + 127) / 128)).map fun i => pa / 128 + i

end Sys2Proof.Machine
end

