-- ==== Sys2Proof/Machine/Translate.lean ====
section
/-!
DEFINITION. Address translation (R440 to R443): the walk of five levels with its checks in order, and the caches.
-/
namespace Sys2Proof.Machine

/-- The kinds of access, with the codes of R444. -/
inductive AccType where
  | read | write | atomic | fetch | engineRead | engineWrite
  deriving DecidableEq, Repr, Inhabited

def AccType.code : AccType → Nat
  | .read => 0 | .write => 1 | .atomic => 2 | .fetch => 3 | .engineRead => 4 | .engineWrite => 5
def AccType.writes : AccType → Bool
  | .write | .atomic | .engineWrite => true
  | _ => false

/-- What a translation gives: a physical address with the leaf's entry, or a fault (R442). -/
inductive Xlat where
  | ok (pa : Nat) (pte : Nat)
  | fault (cause level : Nat)
  deriving DecidableEq, Repr, Inhabited

/-- NOTPRESENT alone is replayable (R442). -/
def Xlat.replayable : Xlat → Bool
  | .fault 1 _ => true
  | _ => false

/-- The aperture of the scratchpad (R328). -/
def apertureBase : Nat := 0x00FF000000000000
def isAperture (va : Nat) : Bool := apertureBase ≤ va && va < apertureBase + 2 ^ 32
/-- Addresses that no page maps: bits [63:56], and the gap above the aperture (R328, R442 cause 2). -/
def badAddress (va : Nat) : Bool := 2 ^ 56 ≤ va || apertureBase + 2 ^ 32 ≤ va

def pteV (e : Nat) : Bool := bitAt e 0
def pteLeaf (e : Nat) : Bool := bitAt e 2
def pteSz (e : Nat) : Nat := fld e 3 3
def pteW (e : Nat) : Bool := bitAt e 6
def pteX (e : Nat) : Bool := bitAt e 7
def pteChk (e : Nat) : Bool := bitAt e 8
def pteSord (e : Nat) : Bool := bitAt e 9
def pteComp (e : Nat) : Bool := bitAt e 10
def pteSys (e : Nat) : Bool := bitAt e 63
def ptePa (e : Nat) : Nat := fld e 12 40 * 4096

/-- log2 of a leaf's size in 4 KiB pages (R441). -/
def leafLog : Nat → Nat
  | 0 => 0 | 1 => 4 | 2 => 6 | 3 => 9 | 4 => 13 | 5 => 17 | _ => 22

/-- The leaf sizes of a level (R440). -/
def leafAt (level sz : Nat) : Bool :=
  match level with
  | 3 => sz == 6
  | 2 => sz == 3 || sz == 4 || sz == 5
  | 1 => sz ≤ 2
  | _ => false

/-- BADPTE (R441, R442): a reserved bit set, a leaf or a size where there is none, a misaligned page, or a compressed
page that is written or fetched. -/
def badPte (level e : Nat) : Bool :=
  fld e 52 11 != 0 || bitAt e 11 || bitAt e 1 ||
  if pteLeaf e then
    !leafAt level (pteSz e) || ptePa e % (4096 * 2 ^ leafLog (pteSz e)) != 0 || (pteComp e && (pteW e || pteX e))
  else level == 1 || pteSz e != 0 || pteSys e || pteComp e || pteSord e || pteChk e || pteX e || pteW e

/-- The index of an entry in the table of a level (R440). -/
def levelIndex (level va : Nat) : Nat :=
  if level == 5 then fld va 48 8 else fld va (12 + 9 * (level - 1)) 9

/-- The walk from a level down, the table at `table` (R442): the leaf, or the cause and level of the first failing check.
-/
def State.walkFrom (s : State) (tag va : Nat) : Nat → Nat → Xlat
  | 0, _ => .fault 3 1
  | level + 1, table =>
    let l := level + 1
    let at_ := table + 8 * levelIndex l va
    let cached := s.walk.find? fun c => c.tag == tag && c.log == l && c.vpn == va / 2 ^ (12 + 9 * level)
    let e := (cached.map (·.pte.toNat)).getD (s.readNat at_ 8)
    if cached.isNone && s.lineBad (at_ / 128) then .fault 8 l
    else if !pteV e then .fault 1 l
    else if badPte l e then .fault 3 l
    else if pteLeaf e then
      if !s.mapped (ptePa e) then .fault 9 l
      else
        let size := 4096 * 2 ^ leafLog (pteSz e)
        .ok (ptePa e + va % size) e
    else if !deviceMem (ptePa e) then .fault 9 l
    else State.walkFrom s tag va level (ptePa e)

/-- PRIVILEGE, PROTECTION and NOEXEC on the leaf, in that order (R442). The level is that of the leaf. -/
def leafChecks (acc : AccType) (priv : Bool) (pa e : Nat) : Xlat :=
  let level := if pteSz e == 6 then 3 else if 3 ≤ pteSz e then 2 else 1
  if pteSys e && !priv then .fault 6 level
  else if acc.writes && !pteW e then .fault 4 level
  else if acc == .fetch && !pteX e then .fault 5 level
  else .ok pa e

/-- A leaf held by a translation cache (R443). -/
def cachedLeaf (l : List TlbEntry) (tag va : Nat) : Option TlbEntry :=
  l.find? fun c => c.tag == tag && c.vpn == va / 4096 / 2 ^ c.log

/-- Translation of a virtual address of a context, from a core or (none) from a unit of the device (R440 to R443). -/
def State.xlat (s : State) (core : Option Nat) (tag : Nat) (priv : Bool) (acc : AccType) (va : Nat) : Xlat :=
  if badAddress va || isAperture va then .fault 2 0
  else
    let hit :=
      match core with
      | some c => (cachedLeaf (s.core c).tlb tag va).orElse fun _ => cachedLeaf s.stlb tag va
      | none => cachedLeaf s.stlb tag va
    let leaf :=
      match hit with
      | some c =>
        let e := c.pte.toNat
        Xlat.ok (ptePa e + va % (4096 * 2 ^ leafLog (pteSz e))) e
      | none =>
        let root := (s.ctx tag).ptroot
        if !deviceMem root then .fault 9 5 else s.walkFrom tag va 5 root
    match leaf with
    | .ok pa e =>
      match leafChecks acc priv pa e with
      | .ok pa e => .ok (s.home pa) e
      | f => f
    | f => f

/-- The non-leaf entries of a walk, kept by the walk cache (R443). -/
def State.walkEntries (s : State) (tag va : Nat) : Nat → Nat → List TlbEntry
  | 0, _ => []
  | level + 1, table =>
    let e := s.readNat (table + 8 * levelIndex (level + 1) va) 8
    if pteV e && !pteLeaf e then
      ⟨tag, va / 2 ^ (12 + 9 * level), level + 1, BitVec.ofNat 64 e⟩ :: State.walkEntries s tag va level (ptePa e)
    else []

/-- The lines of the entries that a walk reads (R442). -/
def State.walkLines (s : State) (tag va : Nat) : Nat → Nat → List Nat
  | 0, _ => []
  | level + 1, table =>
    let at_ := table + 8 * levelIndex (level + 1) va
    let e := s.readNat at_ 8
    (at_ / 128) :: (if pteV e && !pteLeaf e then State.walkLines s tag va level (ptePa e) else [])

/-- Adds to a cache of `cap` entries what it does not hold, dropping the oldest. -/
def cacheAdd (cap : Nat) (l new : List TlbEntry) : List TlbEntry :=
  ((new.filter fun n => !l.contains n) ++ l).take cap

/-- A successful translation fills the caches (R443). -/
def State.tlbFill (s : State) (core : Option Nat) (tag va pte : Nat) : State :=
  let log := leafLog (pteSz pte)
  let e : TlbEntry := ⟨tag, va / 4096 / 2 ^ log, log, BitVec.ofNat 64 pte⟩
  let s := { s with stlb := cacheAdd 32768 s.stlb [e], walk := cacheAdd 4096 s.walk (s.walkEntries tag va 5 (s.ctx tag).ptroot) }
  match core with
  | some c => s.modCore c fun x => { x with tlb := cacheAdd 1024 x.tlb [e] }
  | none => s

/-- The whole of one translation: the answer, with the caches filled when it is an address. -/
def State.translate (s : State) (core : Option Nat) (tag : Nat) (priv : Bool) (acc : AccType) (va : Nat) : Xlat × State :=
  match s.xlat core tag priv acc va with
  | .ok pa e =>
    let held :=
      match core with
      | some c => (cachedLeaf (s.core c).tlb tag va).isSome
      | none => (cachedLeaf s.stlb tag va).isSome
    (.ok pa e, if held then s else s.tlbFill core tag va e)
  | f => (f, s)

/-- Drops what the translation caches hold of one page (R449). -/
def State.tlbDropPage (s : State) (tag va : Nat) : State :=
  let leaf (e : TlbEntry) : Bool := e.tag == tag && e.vpn == va / 4096 / 2 ^ e.log
  { s with
    stlb := s.stlb.filter fun e => !leaf e
    walk := s.walk.filter fun e => !(e.tag == tag && e.vpn == va / 2 ^ (12 + 9 * (e.log - 1)))
    cores := s.cores.map fun (n, c) => (n, { c with tlb := c.tlb.filter fun e => !leaf e }) }

/-- Drops the entries that `p` names from every translation cache of the device (R449). -/
def State.tlbDrop (s : State) (p : TlbEntry → Bool) : State :=
  { s with
    stlb := s.stlb.filter fun e => !p e
    walk := s.walk.filter fun e => !p e
    cores := s.cores.map fun (n, c) => (n, { c with tlb := c.tlb.filter fun e => !p e }) }

/-- Reads `n` bytes of a context's address space as a privileged agent; none on a fault (R427, R439). -/
def State.readVa (s : State) (tag va : Nat) : Nat → Option (List Byte)
  | 0 => some []
  | n + 1 =>
    match s.xlat none tag true .read va with
    | .ok pa _ => (State.readVa s tag (va + 1) n).map fun bs => s.mem.byte pa :: bs
    | .fault _ _ => none

def State.readVaNat (s : State) (tag va n : Nat) : Option Nat := (s.readVa tag va n).map wordOfBytes

end Sys2Proof.Machine
end

