-- ==== Sys2Proof/Machine/Detector.lean ====
section
/-!
DEFINITION. The race detector (R287, R288, R295, R298, R300): scopes, a wave as the detector sees it, the records of granules.
-/
namespace Sys2Proof.Machine

/-- Waves per workgroup and workgroups of a launch (R404). -/
def Launch.wpw (l : Launch) : Nat := (l.tpw + 31) / 32
def Launch.total (l : Launch) : Nat := l.gx * l.gy * l.gz
def Launch.members (l : Launch) : Nat := l.hdr.cx * l.hdr.cy * l.hdr.cz

/-! Scopes (R287, R288) -/

/-- The member number and the cluster of a workgroup of a launch. -/
def Launch.clusterOf (l : Launch) (lin : Nat) : Nat := lin / max 1 l.members

/-- The scope of an operation by a thread of one wave includes a thread of another wave of the launch. -/
def Scope.includes (sc : Scope) (l : Launch) (wgA waveA wgB waveB : Nat) : Bool :=
  match sc with
  | .thread => false
  | .wave => wgA == wgB && waveA == waveB
  | .workgroup => wgA == wgB
  | .cluster => l.clusterOf wgA == l.clusterOf wgB
  | .device | .system => true

/-- Workgroup scope or wider; cluster scope or wider; device scope or wider. -/
def Scope.wide (s : Scope) : Bool := 2 ≤ Scope.code s
def Scope.wider (s : Scope) : Bool := 3 ≤ Scope.code s
def Scope.widest (s : Scope) : Bool := 4 ≤ Scope.code s

/-- A wave as the detector sees it (R298). -/
structure Who where
  launch : Nat
  lin    : Nat
  idx    : Nat
  epoch  : Nat
  vec    : List (Option Nat)
  phase  : Nat
  clock  : Nat
  deriving DecidableEq, Repr, Inhabited

def Wave.who (x : Wave) (g : Wg) : Who :=
  { launch := x.launch, lin := g.lin, idx := x.idx, epoch := x.epoch, vec := x.vec, phase := g.phase, clock := g.clock }
def State.who (s : State) (w : Nat) : Who := (s.wave w).who (s.wg (s.wave w).wg)

/-- The wave of a context with a WID, on the device or in the image of its workgroup (R310). -/
def State.whoOf (s : State) (tag : Nat) (wid : BitVec 24) : Option Who :=
  match s.waves.first fun e => e.2.tag == tag && e.2.wid == wid with
  | some (w, _) => some (s.who w)
  | none =>
    s.wgs.findSome? fun e =>
      if (s.launch e.2.launch).tag == tag then (e.2.image.find? fun x => x.wid == wid).map fun x => x.who e.2 else none

/-! The detector (R298, R300) -/

/-- What a race trap reports (R302): KIND, MODE, ENG, FWAVE, FWG. -/
structure Race where
  kind  : Nat
  clock : Bool
  eng   : Bool
  wave  : Nat
  wg    : Nat
  deriving DecidableEq, Repr, Inhabited

/-- `ordered` of R300. -/
def Who.ordered (x : Who) (u h e ph c : Nat) : Bool :=
  if h == x.lin then
    u == x.idx || ph < x.phase ||
      match x.vec.getD u none with
      | some v => e ≤ v
      | none => false
  else c < x.clock

/-- An earlier atomic operation and one of `x` are mutually scoped (R288, R295). Acquiring loads and releasing stores count
as atomic operations at their scopes (R317; log 15). -/
def bothAtomic (l : Launch) (a : Scope) (wg wave : Nat) (at_ : Option Scope) (x : Who) : Bool :=
  match at_ with
  | some b => Scope.includes a l wg wave x.lin x.idx && Scope.includes b l x.lin x.idx wg wave
  | none => false

/-- The last write is unordered with an access of `x`, atomic at scope `at_` or not. -/
def RaceWrite.race (r : RaceWrite) (x : Who) (l : Launch) (write : Bool) (at_ : Option Scope) : Option Race :=
  let bothScoped :=
    match r.atomic with
    | some a => bothAtomic l a r.wg r.wave at_ x
    | none => false
  if x.ordered r.wave r.wg r.epoch r.phase r.clock || bothScoped then none
  else some ⟨if write then 1 else 2, r.wg != x.lin, r.eng, r.wave, r.wg⟩

/-- The test of R300. -/
def RaceRec.test (r : RaceRec) (x : Who) (l : Launch) (write : Bool) (at_ : Option Scope) : Option Race :=
  (r.write.bind fun q => q.race x l write at_) <|>
  (if !write then none
   else
    ((r.readers.first fun (u, e) => !x.ordered u r.hr e r.rph r.rclk).map fun (u, _) =>
      (⟨3, r.hr != x.lin, false, u, r.hr⟩ : Race)) <|>
    ((r.areaders.first fun (u, e, sc) => !x.ordered u r.hr e r.rph r.rclk && !bothAtomic l sc r.hr u at_ x).map fun (u, _) =>
      (⟨3, r.hr != x.lin, false, u, r.hr⟩ : Race)) <|>
    (match r.cross with
     | some (h, c) => if h != x.lin && x.clock ≤ c then some ⟨3, true, false, 0, h⟩ else none
     | none => none) <|>
    (match r.across with
     | some (h, u, c, sc) =>
       if h != x.lin && x.clock ≤ c && !bothAtomic l sc h u at_ x then some ⟨3, true, false, 0, h⟩ else none
     | none => none))

/-- The record after an access that passed (R300). -/
def RaceRec.note (r : RaceRec) (x : Who) (write : Bool) (at_ : Option Scope) (eng : Bool) : RaceRec :=
  if write then
    { r with
      write := some ⟨x.idx, x.lin, x.epoch, x.phase, x.clock, at_, eng⟩, readers := [], areaders := [], hr := x.lin }
  else if r.hr == x.lin || (r.write.isNone && r.readers.isEmpty && r.areaders.isEmpty) then
    let old := r.hr != x.lin || r.rph != x.phase
    let r := { r with hr := x.lin, rph := x.phase, rclk := x.clock }
    let r := if old then { r with readers := [], areaders := [] } else r
    match at_ with
    | none => { r with readers := r.readers.put x.idx x.epoch }
    | some sc => { r with areaders := r.areaders.put x.idx (x.epoch, sc) }
  else
    match at_ with
    | none => { r with cross := some (x.lin, x.clock) }
    | some sc => { r with across := some (x.lin, x.idx, x.clock, sc) }

def State.raceRec (s : State) (launch space gran : Nat) : RaceRec :=
  (s.races.find? fun r => r.launch == launch && r.space == space && r.gran == gran).getD
    { launch := launch, space := space, gran := gran, write := none, hr := 0, rph := 0, rclk := 0, readers := []
      cross := none, areaders := [], across := none }

def State.putRace (s : State) (r : RaceRec) : State :=
  { s with
    races := r :: s.races.filter fun (q : RaceRec) => !(q.launch == r.launch && q.space == r.space && q.gran == r.gran) }

/-- The granules of `n` bytes. -/
def granules (addr n : Nat) : List Nat := (List.range ((addr % 32 + n + 31) / 32)).map (addr / 32 + ·)

/-- The first race of an access, and its granule's number. -/
def State.raceOf (s : State) (x : Who) (space addr n : Nat) (write : Bool) (at_ : Option Scope) : Option (Race × Nat) :=
  (granules addr n).findSome? fun g =>
    ((s.raceRec x.launch space g).test x (s.launch x.launch) write at_).map fun r => (r, g)

def State.raceNote (s : State) (x : Who) (space addr n : Nat) (write : Bool) (at_ : Option Scope) (eng : Bool) : State :=
  (granules addr n).foldl (fun s g => s.putRace ((s.raceRec x.launch space g).note x write at_ eng)) s

end Sys2Proof.Machine
end

