-- ==== Sys2Proof/Machine/Watches.lean ====
section
/-!
DEFINITION. The watch tables (13) and the writes of physical memory that they follow: one write at a time, each
evaluated by the home slice (R315), with owner tags (R470) and poison (R473).
-/
namespace Sys2Proof.Machine

/-- The comparison of a watch (R311), on words of 32 or 64 bits. -/
def CM.holds (c : CM) (wide : Bool) (x y : DWord) : Bool :=
  let w := if wide then 64 else 32
  let a := x.toNat % 2 ^ w
  let b := y.toNat % 2 ^ w
  match c with
  | .eq => a == b
  | .ne => a != b
  | .lt => signedOf w a < signedOf w b
  | .le => signedOf w a ≤ signedOf w b
  | .gt => signedOf w b < signedOf w a
  | .ge => signedOf w b ≤ signedOf w a
  | .ltu => a < b
  | .leu => a ≤ b
  | .gtu => b < a
  | .geu => b ≤ a
  | .anyBits => Nat.land a b != 0
  | .allBits => Nat.land a b == b

def Watch.size (e : Watch) : Nat := if e.wide then 8 else 4
/-- The watched value. -/
def State.watched (s : State) (e : Watch) : DWord := BitVec.ofNat 64 (s.readNat e.pa e.size)

/-- The first word of a spilled entry (R320). -/
def Watch.word0 (e : Watch) : Nat :=
  (match e.st with
   | .armed => 0
   | .satisfied _ => 1
   | .deadline _ _ => 2) * 2 ^ 56 + e.cm.code * 2 ^ 52 + e.pa / 128 * 128 + e.pa % 128 / 4 * 4 + 2 * b2n e.wide + 1

/-- The 32 bytes of a spilled entry (R320). -/
def Watch.image (e : Watch) : List Byte :=
  let v :=
    match e.st with
    | .armed => e.y
    | .satisfied x => x
    | .deadline x _ => x
  let (tag, wid, lanes) :=
    match e.waiter with
    | .wave t w l => (t, w.toNat, l.toNat)
    | .region t _ => (t, 0xFFFFFF, 0)
    | .faultEntry t _ => (t, 0xFFFFFF, 0)
  bytesOfWord 8 e.word0 ++ bytesOfWord 8 v.toNat ++ bytesOfWord 8 (e.deadline.getD (2 ^ 64 - 1)) ++
    bytesOfWord 4 lanes ++ bytesOfWord 4 (tag * 2 ^ 24 + wid)

/-- The place of spill entry `n` of a context (R320, R427). -/
def State.spillAt (s : State) (tag n : Nat) : Nat := (s.ctx tag).wspill + 32 * n

def Waiter.tag : Waiter → Nat
  | .wave t _ _ => t
  | .region t _ => t
  | .faultEntry t _ => t

/-- The TIME by which a satisfied entry wakes its threads: at most 40 ns after, the delay being the environment's
(R318). -/
def State.wakeSoon (s : State) (ev : Instr) : State :=
  let (d, s) := s.takeDelay
  s.at (s.now + min d 800) ev

/-- The event that delivers a fired entry. -/
def Watch.wake (e : Watch) : Instr :=
  match e.waiter with
  | .wave _ _ _ => .watchWake e.slice e.id
  | .region t r => .schedulerWatch t r
  | .faultEntry t n => .faultResponse t n

/-- The releases that the present value of some bytes carries (R291, R299). -/
def State.carried (s : State) (space addr n : Nat) : List RelSnap :=
  (s.rels.filter fun r => r.space == space && r.addr < addr + n && addr < r.addr + r.size).map (·.snap)

/-- The home slice and set of a line (R470), as the number of the set among all. -/
def setOf (line : Nat) : Nat := sliceOf (line * 128) * 2048 + fld line 6 11

/-! The shared cache: dirty lines with their owners and places (R2, R3, R470, R476; log 66) -/

/-- The dirty lines in the ways of a line's set: the way and the line. -/
def State.waysHeld (s : State) (line : Nat) : List (Nat × Nat) :=
  s.dirty.filterMap fun e =>
    if fld e.1 6 11 == fld line 6 11 && setOf e.1 == setOf line then
      match e.2.spot with
      | .way n => some (n, e.1)
      | .course _ => none
    else none

/-- The lines of 64 MiB (R2), and a course whose residue-plane storage has room. -/
def courseLines : Nat := 524288
def State.courseFor (s : State) : Option Nat :=
  (List.range 6).find? fun c => (s.dirty.filter fun e => e.2.spot == .course c).length < courseLines

/-- A dirty line leaves its way: for the residue-plane storage of a course, or for its home. -/
def State.displace (s : State) (line : Nat) : State :=
  match if Config.toCourse s.now line then s.courseFor else none with
  | some c => { s with dirty := s.dirty.upd line fun d => { d with spot := .course c } }
  | none => { s with dirty := s.dirty.del line }

/-- The way that a line takes in its set, not a quarantined one (R476), and the state in which it is free. -/
def State.takeWay (s : State) (line : Nat) : Nat × State :=
  let ways := (List.range 16).filter fun n => !(s.quar.get (setOf line) []).contains n
  let held := s.waysHeld line
  match ways.find? fun n => held.all fun e => e.1 != n with
  | some n => (n, s)
  | none =>
    let n := ways.getD (Config.victim s.now line % ways.length) 0
    (n, (held.filter fun e => e.1 == n).foldl (fun s e => s.displace e.2) s)

/-- A line before a write by an owner (R470): a dirty line of another owner is first written back to its home. -/
def State.markLine (owner : Nat) (s : State) (line : Nat) : State :=
  match s.dirty.find? line with
  | some d =>
    if d.tag == owner then s
    else { s with dirty := s.dirty.put line { d with tag := owner, home := s.read (line * 128) 128 } }
  | none =>
    let (n, s) := s.takeWay line
    { s with dirty := s.dirty.put line { tag := owner, spot := .way n, home := s.read (line * 128) 128 } }

/-- The owner tags of the lines of a write that is to be performed (R470). -/
def State.markDirty (s : State) (pa n owner : Nat) : State :=
  if hostRow pa then s else (linesOf pa n).foldl (State.markLine owner) s

/-- The pieces of a write, one for each line. -/
def splitLines (pa : Nat) (bytes : List Byte) : Nat → List (Nat × List Byte)
  | 0 => []
  | fuel + 1 =>
    if bytes.isEmpty then []
    else
      let k := 128 - pa % 128
      (pa, bytes.take k) :: splitLines (pa + k) (bytes.drop k) fuel

/-! Errors of lines (R467, R470 to R476) -/

/-- The frame of a line joins the retired-frame list (R471, R474). -/
def State.retire (s : State) (line : Nat) : State :=
  let f := line / 512
  if s.retired.contains f then s
  else if 256 ≤ s.retired.length then { s with retOvf := true }
  else { s with retired := s.retired ++ [f] }

def State.addPoison (s : State) (line : Nat) : State :=
  { s with poison := if s.poison.contains line then s.poison else line :: s.poison }

/-- The counts of ERRSUM (R479). -/
def State.addCe (s : State) : State := { s with ce := min (s.ce + 1) (2 ^ 32 - 1) }
def State.addUec (s : State) : State := { s with uec := min (s.uec + 1) 32767 }
def State.addUed (s : State) : State := { s with ued := min (s.ued + 1) 65535 }

/-- The number by which the event of a loss names the place of the line: a way, or 128 and the course (log 66). -/
def CacheSpot.code : CacheSpot → Nat
  | .way n => n
  | .course c => 128 + c

/-- Steps 1 to 3 of R471 on a dirty line; steps 4 and 5 follow in a step of their own. -/
def State.loseLine (s : State) (line : Nat) : State :=
  let d := s.dirty.get line {}
  let ways := s.quar.get (setOf line) []
  let s := (s.addPoison line).retire line
  { s with
    quar :=
      match d.spot with
      | .way n => if ways.length < 4 && !ways.contains n then s.quar.put (setOf line) (ways ++ [n]) else s.quar
      | .course _ => s.quar
    dirty := s.dirty.del line
    losses := s.losses ++ [⟨d.tag, line, d.spot.code⟩]
    todo := if s.losses.isEmpty then .event (.patrolScrub (sliceOf (line * 128))) :: s.todo else s.todo }

/-- One error of a line is found (R467): what is left of it. Owner tags that all differ are a device-fatal error, which the slice
meets in a step of its own (R470). -/
def State.meetOne (s : State) (u : Upset) : State :=
  match u with
  | .line n _ home hard =>
    if !hard then s.addCe
    else if (s.dirty.find? n).isSome then
      if home then { s with upsets := u :: s.upsets } else (s.addUed).loseLine n
    else if home then ((s.addUec).addPoison n).retire n
    else s.addUec
  | .tags n =>
    if (s.dirty.find? n).isNone then s
    else { s with upsets := .control true :: s.upsets, todo := .event (.patrolScrub (sliceOf (n * 128))) :: s.todo }
  | _ => { s with upsets := u :: s.upsets }

/-- An operation finds the errors of a line. -/
def State.meetLine (s : State) (line : Nat) : State :=
  let here (u : Upset) : Bool :=
    match u with
    | .line n _ _ _ | .tags n => n == line
    | _ => false
  (s.upsets.filter here).foldl State.meetOne { s with upsets := s.upsets.filter fun u => !here u }

def State.meetLines (s : State) (lines : List Nat) : State :=
  if s.upsets.isEmpty then s else lines.foldl State.meetLine s

/-- An access to bytes of a context's address space finds the errors of the lines that its walk and itself read. -/
def State.meetVa (s : State) (core : Option Nat) (tag : Nat) (priv : Bool) (acc : AccType) (va n : Nat) : State :=
  if s.upsets.isEmpty || isAperture va then s
  else
    (List.range ((va % 128 + n + 127) / 128)).foldl
      (fun s k =>
        let a := if k == 0 then va else (va / 128 + k) * 128
        let s := s.meetLines (s.walkLines tag a 5 (s.ctx tag).ptroot)
        match s.xlat core tag priv acc a with
        | .ok pa _ => s.meetLine (pa / 128)
        | .fault _ _ => s) s

/-- A write of one line's bytes before the watches see it: discarded on a poisoned line unless it is the whole line, which clears
the poison (R473). The answer says whether it was performed. -/
def State.setLine (s : State) (owner pa : Nat) (bytes : List Byte) : State × Bool :=
  let s := s.meetLines [pa / 128]
  if s.poison.contains (pa / 128) && bytes.length != 128 then (s, false)
  else
    let s := s.markDirty pa bytes.length owner
    ({ s with mem := s.mem.write pa bytes, poison := s.poison.filter (· != pa / 128) }, true)

/-! Entries in the spill area (R320, R321), and the evaluation of a write (R315) -/

/-- A spilled entry as its image in memory has it: none when the image is not VALID, or a reserved bit of it is set (R320). -/
def State.imageOf (s : State) (e : Watch) (n : Nat) : Option Watch :=
  let w (i k : Nat) : Nat := s.readNat (s.spillAt e.waiter.tag n + i) k
  let w0 := w 0 8
  if !bitAt w0 0 || 2 ^ 58 ≤ w0 then none
  else
    some { e with
      pa := fld w0 7 45 * 128 + fld w0 2 5 * 4
      wide := bitAt w0 1
      cm := if fld w0 52 4 < 12 then CM.ofCode (fld w0 52 4) else e.cm
      y := BitVec.ofNat 64 (w 8 8)
      deadline := if w 16 8 == 2 ^ 64 - 1 then none else some (w 16 8)
      st :=
        match fld w0 56 2, e.st with
        | 0, _ => .armed
        | 1, _ => .satisfied (BitVec.ofNat 64 (w 8 8))
        | _, .deadline _ inv => .deadline (BitVec.ofNat 64 (w 8 8)) inv
        | _, _ => .deadline (BitVec.ofNat 64 (w 8 8)) none
      waiter :=
        match e.waiter with
        | .wave t _ _ => .wave t (BitVec.ofNat 24 (w 28 4)) (BitVec.ofNat 32 (w 24 4))
        | x => x }

/-- An entry as it stands: a spilled one is read from the spill area. -/
def State.entryNow (s : State) (e : Watch) : Option Watch :=
  match e.spill with
  | none => some e
  | some n => s.imageOf e n

/-- Writes or clears the image of a spilled entry: a write of a base die for the entry's context, which `seen` evaluates. -/
def State.putSpill (seen : Nat → Nat → State → State) (s : State) (e : Watch) (present : Bool) : State :=
  match e.spill with
  | none => s
  | some n =>
    let pa := s.spillAt e.waiter.tag n
    match s.setLine e.waiter.tag pa (if present then e.image else List.replicate 32 0) with
    | (s, true) => seen pa 32 s
    | (s, false) => s

/-- Replaces the entry with the same number. -/
def State.putWatch (seen : Nat → Nat → State → State) (s : State) (e : Watch) : State :=
  State.putSpill seen { s with watches := s.watches.map fun (x : Watch) => if x.id == e.id then e else x } e true

/-- An entry fires with a status (R315, R319, R324). -/
def State.fireWith (seen : Nat → Nat → State → State) (s : State) (e : Watch) (st : WState) : State :=
  (State.putWatch seen s { e with st := st }).wakeSoon e.wake

/-- An evaluation of an entry on a checked page is an atomic read at system scope by the wave that waits (R295, R317). -/
def State.noteWatch (s : State) (e : Watch) : State :=
  match e.waiter with
  | .wave tag wid _ =>
    if !e.chk then s
    else
      match s.whoOf tag wid with
      | some x => s.raceNote x 0 e.pa e.size false (some .system) false
      | none => s
  | _ => s

/-- The place of a spilled entry among those that the device reads: by ascending context tag, then through the spill area (R321). -/
def Watch.spillKey (e : Watch) : Nat := e.waiter.tag * 2 ^ 64 + e.spill.getD 0
def insertSpilled (e : Watch) : List Watch → List Watch
  | [] => [e]
  | x :: xs => if e.spillKey ≤ x.spillKey then e :: x :: xs else x :: insertSpilled e xs

/-- The entries on the lines of a write in the order in which they are evaluated: those of the table, then the spilled ones. -/
def State.watchesOn (s : State) (pa n : Nat) : List Watch :=
  let mine := s.watches.filter fun e => (linesOf pa n).contains (e.pa / 128)
  (mine.filter fun e => e.spill.isNone) ++ (mine.filter fun e => e.spill.isSome).foldr insertSpilled []

/-- One entry is evaluated against the bytes that a write has left (R315). -/
def State.evalOne (seen : Nat → Nat → State → State) (s : State) (e : Watch) : State :=
  match s.entryNow e with
  | none => s
  | some e =>
    if e.st != .armed then s
    else
      let s := s.noteWatch e
      if CM.holds e.cm e.wide (s.watched e) e.y then
        State.fireWith seen s { e with snaps := s.carried 0 e.pa e.size } (.satisfied (s.watched e))
      else s

/-- Every entry armed on the lines of a write is evaluated against the bytes that it leaves (R315); so are, for the write of the
image of a spilled entry that fires, the entries on its line. -/
def State.evalWith : Nat → Nat → Nat → State → State
  | 0, _, _, s => s
  | fuel + 1, pa, n, s => (s.watchesOn pa n).foldl (State.evalOne (State.evalWith fuel)) s

/-- What follows a write: the evaluation of the entries on its lines. -/
def State.evalWatches (pa n : Nat) (s : State) : State := State.evalWith (s.watches.length + 1) pa n s

/-- An entry fires with a status (R319, R324). -/
def State.fire (s : State) (e : Watch) (st : WState) : State := State.fireWith State.evalWatches s e st

/-- Frees an entry (R318, R325); a scheduler watch that waits may now be armed (R326). -/
def State.freeWatch (s : State) (e : Watch) : State :=
  let s := State.putSpill State.evalWatches s e false
  { s with
    watches := s.watches.filter fun (x : Watch) => x.id != e.id
    todo := if s.arming.isEmpty then s.todo else .event .schedulerWatchArm :: s.todo }

/-- A write of one line's bytes (R315, R473). -/
def State.writeLine (s : State) (owner pa : Nat) (bytes : List Byte) : State × Bool :=
  match s.setLine owner pa bytes with
  | (s, true) => (s.evalWatches pa bytes.length, true)
  | (s, false) => (s, false)

/-- A write of physical memory by an owner (R470), line by line; with the lines that discarded it (R473). -/
def State.writePhys (s : State) (owner pa : Nat) (bytes : List Byte) : State × List Nat :=
  (splitLines pa bytes (bytes.length / 128 + 2)).foldl
    (fun (s, lost) (a, bs) =>
      match s.writeLine owner a bs with
      | (s, true) => (s, lost)
      | (s, false) => (s, lost ++ [a]))
    (s, [])

/-- A write of the device itself, owned by the context it serves. -/
def State.writeDev (s : State) (tag pa : Nat) (bytes : List Byte) : State := (s.writePhys tag pa bytes).1

/-- Writes bytes of a context's address space as a privileged agent; none when a translation fails (R436). -/
def State.writeVa (s : State) (tag va : Nat) : List Byte → Option State
  | [] => some s
  | b :: bs =>
    match s.xlat none tag true .write va with
    | .ok pa _ => State.writeVa (s.writeDev tag pa [b]) tag (va + 1) bs
    | .fault _ _ => none

/-- An aligned word of a context's address space, written as one write (R409). -/
def State.writeVaWord (s : State) (tag va n x : Nat) : State :=
  match s.xlat none tag true .write va with
  | .ok pa _ => s.writeDev tag pa (bytesOfWord n x)
  | .fault _ _ => s

/-! Registration (R313, R320, R326) -/

/-- The wave entries, or the reserved ones, in use in a slice's table. -/
def State.tableUsed (s : State) (slice : Nat) (reserved : Bool) : Nat :=
  (s.watches.filter fun e => e.slice == slice && e.spill.isNone && e.reserved == reserved).length

/-- The first free spill entry of a slice's share of a context (R320): one whose image is not VALID, or has a reserved bit set. -/
def State.freeSpill (s : State) (tag slice : Nat) : Option Nat :=
  ((List.range ((s.ctx tag).wspilln / 64)).map fun i => slice + 64 * i).find? fun n =>
    let w := s.readNat (s.spillAt tag n) 8
    !bitAt w 0 || 2 ^ 58 ≤ w

/-- The first step of the slice cycle in which a slice accepts a request that comes now (R313, R491). -/
def State.sliceCycle (s : State) (slice : Nat) : Nat := acceptTime (s.uncoreHot (Config.sliceIsland slice)) s.now / 8 * 8

/-- The end of the slice cycle that contains a TIME. -/
def sliceEnd (time : Nat) : Nat := time / 8 * 8 + 8

/-- The event of a deadline (R319, R322), at the end of its slice cycle, before what comes after that; a spilled entry's is found by
the scan of its slice. -/
def State.setDeadline (s : State) (e : Watch) : State :=
  match e.deadline with
  | none => s
  | some d =>
    if e.spill.isSome then s.atFirst (sliceEnd (max d s.now)) (.spillDeadlineScan e.slice)
    else s.atFirst (sliceEnd d) (.watchDeadline e.slice e.id)

/-- Arms an entry in its place: no core keeps a copy of its line (R316), and a spilled one is written to the spill area in the place
of any that had left it (R320, R321). -/
def State.arm (s : State) (e : Watch) : State :=
  let s : State := { s with
    watches := (s.watches.filter fun x => !(e.spill.isSome && x.spill == e.spill && x.waiter.tag == e.waiter.tag)) ++ [e]
    cores := s.cores.map fun (n, c) => (n, { c with dlines := c.dlines.del (e.pa / 128) }) }
  let s := if e.spill.isSome then
      s.modCtx e.waiter.tag fun c => { c with usedSlots := if c.usedSlots.contains e.slice then c.usedSlots else e.slice :: c.usedSlots }
    else s
  (State.putSpill State.evalWatches s e true).setDeadline e

/-- What a registration answers (R313): the entry armed, or a status and the value. -/
inductive RegAns where
  | armed
  | satisfied (x : DWord)
  | deadline (x : DWord)
  | full (x : DWord)
  deriving DecidableEq, Repr, Inhabited

/-- A wave's registration at the home slice (R313). `d` is the deadline operand. -/
def State.register (s : State) (pa : Nat) (wide chk : Bool) (cm : CM) (y : DWord) (d : Nat) (waiter : Waiter) :
    RegAns × State :=
  let (id, s) := s.newId
  let e : Watch :=
    { id := id, slice := sliceOf pa, reserved := false, spill := none, pa := pa, wide := wide, cm := cm, y := y
      deadline := if d == 0xFFFFFFFF then none else some (s.sliceCycle (sliceOf pa) + 64 * d), waiter := waiter, st := .armed, snaps := [], chk := chk }
  let x := s.watched e
  if CM.holds cm wide x y then (.satisfied x, s)
  else if d == 0 then (.deadline x, s)
  else if s.tableUsed e.slice false < Config.waveEntries then (.armed, s.arm e)
  else
    match s.freeSpill waiter.tag e.slice with
    | some n => (.armed, s.arm { e with spill := some n })
    | none =>
      (.full x, s.modCtx waiter.tag fun c => { c with wtfull := min 65535 (c.wtfull + 1) })

/-- A scheduler watch, ne against `y` (R326): a reserved entry of the home slice or of the next that has one free, else
a spill entry, else none. An entry whose value differs already fires at once (R313). -/
def State.tryWatch (s : State) (e : Watch) : Option State :=
  let place :=
    (((List.range 64).map fun i => (sliceOf e.pa + i) % 64).find? fun k =>
      s.tableUsed k true < Config.reservedEntries)
  let put (e : Watch) : State :=
    let s := s.arm e
    if CM.holds e.cm e.wide (s.watched e) e.y then s.fire e (.satisfied (s.watched e)) else s
  match place with
  | some k => some (put { e with slice := k })
  | none => (s.freeSpill e.waiter.tag (sliceOf e.pa)).map fun n => put { e with spill := some n }

/-- Requests a scheduler watch; one that finds no place waits in the arming list (R326). -/
def State.schedWatch (s : State) (pa : Nat) (wide : Bool) (y : DWord) (waiter : Waiter) : State :=
  let (id, s) := s.newId
  let e : Watch :=
    { id := id, slice := sliceOf pa, reserved := true, spill := none, pa := pa, wide := wide, cm := .ne, y := y
      deadline := none, waiter := waiter, st := .armed, snaps := [], chk := false }
  match s.tryWatch e with
  | some s => s
  | none => { s with arming := s.arming ++ [e] }

/-- Withdraws entries, armed, fired or waiting (R325). -/
def State.withdrawWatches (s : State) (p : Waiter → Bool) : State :=
  let s := (s.watches.filter fun e => p e.waiter).foldl (fun s e => s.freeWatch e) s
  { s with arming := s.arming.filter fun e => !p e.waiter }

end Sys2Proof.Machine
end

