-- ==== Sys2Proof/Machine/Keystone.lean ====
section
/-!
DEFINITION. The keystone of a deterministic launch (R305 to R308): the ring of waves, how the keystone moves, and the
gathering of a wave's threads at ordered operations and turn-ending events.
-/
namespace Sys2Proof.Machine

/-- The workgroup of a launch with a linear index. -/
def State.wgOf (s : State) (l lin : Nat) : Option (Nat × Wg) :=
  s.wgs.first fun e => e.2.launch == l && e.2.lin == lin

/-- The logical identifier of a wave (R305). -/
def State.lid (s : State) (w : Nat) : Nat :=
  let x := s.wave w
  (s.wg x.wg).lin * (s.launch x.launch).wpw + x.idx

/-- A thread that can still run. -/
def Wave.hasThread (x : Wave) : Bool := x.threads.any fun th => th.st != .exited

/-- The place of a resident wave of a launch by its logical identifier (R305). -/
def State.keyWave (s : State) (l lid : Nat) : Option Nat :=
  let n := (s.launch l).wpw
  match s.wgOf l (lid / n) with
  | some (k, g) =>
    if g.st == .resident then (s.waves.first fun e => e.2.wg == k && e.2.idx == lid % n).map (·.1)
    else none
  | none => none

/-- A wave that has left the ring (R305, R308). -/
def State.keyGone (s : State) (l lid : Nat) : Bool :=
  let n := (s.launch l).wpw
  match s.wgOf l (lid / n) with
  | none => lid / n < (s.launch l).kbase
  | some (k, g) =>
    g.st == .finished || g.st == .retired || g.st == .ended || g.gone.contains (lid % n) ||
      (s.waves.any fun e => e.2.wg == k && e.2.idx == lid % n && e.2.draining) ||
      g.image.any fun x => x.idx == lid % n && x.draining

/-- The waves of the ordered window (R305). -/
def Launch.window (l : Launch) : List Nat :=
  let top := min (l.kbase + l.ordwin) l.total
  (List.range ((top - l.kbase) * l.wpw)).map (l.kbase * l.wpw + ·)

/-- The window moves past the workgroups whose waves have all been passed after their EXIT (R305). -/
def Launch.advance (l : Launch) : Nat → Launch
  | 0 => l
  | fuel + 1 =>
    if l.kbase < l.total && (List.range l.wpw).all fun i => l.passed.contains (l.kbase * l.wpw + i) then
      Launch.advance { l with kbase := l.kbase + 1 } fuel
    else l

/-- The exited waves between two stops of the keystone. -/
def Launch.between (l : Launch) (gone : Nat → Bool) (nxt : Nat) : List Nat :=
  l.window.filter fun i =>
    gone i &&
    match l.key with
    | none => i < nxt
    | some k => if k < nxt then k ≤ i && i < nxt else k ≤ i || i < nxt

/-- The threads of a wave that are not EXITED. -/
def Wave.live? (x : Wave) : List Nat := (List.range 32).filter fun i => (x.thread i).st != .exited

/-- Releases the group of a gathered wave (R307): every thread waits; the threads at the address of the lowest waiting
lane go on, at once when the event ends a turn, and otherwise while the wave holds the keystone (R306). -/
def State.serve (s : State) (w : Nat) : State :=
  let x := s.wave w
  let waiting (i : Nat) : Bool :=
    match (x.thread i).st with
    | .keywait _ => true
    | _ => false
  let ls := x.live?
  let L := s.launch x.launch
  if ls.isEmpty || x.halted || !(ls.all waiting) then s
  else
    let low := x.thread (ls.headD 0)
    let holds := L.key == some (s.lid w) && L.keyIn && x.turns == x.visits
    if low.st == .keywait true || holds then
      (ls.filter fun i => (x.thread i).pc == low.pc).foldl
        (fun s i => (s.modThread ⟨w, i⟩ fun th => { th with grant := true }).release ⟨w, i⟩) s
    else s

/-- The keystone passes to the next wave of the ring, and on until a wave holds it (R305). -/
def State.keyPass : Nat → Nat → State → State
  | 0, _, s => s
  | fuel + 1, l, s =>
    let L := s.launch l
    let ids := L.window
    match ids.filter fun i => !s.keyGone l i with
    | [] =>
      let L' := { L with passed := (L.passed ++ ids).eraseDups }.advance (ids.length + 1)
      if L'.kbase == L.kbase then s.modLaunch l fun _ => { L' with key := none, keyIn := false }
      else State.keyPass fuel l (s.modLaunch l fun _ => { L' with key := none, keyIn := false })
    | r :: rs =>
      let nxt := ((r :: rs).find? fun i => L.key.all (· < i)).getD r
      let L' := { L with passed := L.passed ++ L.between (s.keyGone l) nxt }.advance (ids.length + 1)
      let s := s.modLaunch l fun _ => { L' with key := some nxt, keyIn := false }
      match s.keyWave l nxt with
      | none => s
      | some w =>
        let s := s.modWave w fun x => { x with visits := x.visits + 1 }
        let s := s.modLaunch l fun L => { L with keyIn := true }
        if (s.wave w).turns == (s.wave w).visits then s.serve w
        else State.keyPass fuel l s

/-- Moves enough for the keystone to reach a wave that holds it. -/
def State.keyFuel (s : State) (l : Nat) : Nat :=
  let L := s.launch l
  let most := s.waves.foldl (fun m e => if e.2.launch == l then max m e.2.turns else m) 0
  (most + 2) * (L.ordwin * L.wpw + 2) + L.total + 2

def State.pass (s : State) (l : Nat) : State := s.keyPass (s.keyFuel l) l

/-- A wave leaves the ring: the keystone passes on when the wave has it (R305, R308). -/
def State.keyLeave (s : State) (l lid : Nat) : State :=
  let L := s.launch l
  if L.hdr.determ && L.key == some lid then s.pass l else s

/-- The keystone waits at a wave that is admitted or restored now (R305). -/
def State.keyArrive (s : State) (w : Nat) : State :=
  let x := s.wave w
  let L := s.launch x.launch
  let lid := s.lid w
  if !L.hdr.determ then s
  else if L.key.isNone && !L.keyIn && L.kbase < L.total then s.pass x.launch
  else if L.key != some lid then s
  else if L.keyIn then (if x.turns == x.visits then s.serve w else s.pass x.launch)
  else
    let s := s.modWave w fun x => { x with visits := x.visits + 1 }
    let s := s.modLaunch x.launch fun L => { L with keyIn := true }
    if x.turns == x.visits + 1 then s.serve w else s.pass x.launch

/-- A turn of the wave ends (R307): the keystone passes on when the wave held it. -/
def State.turnEnd (s : State) (w : Nat) : State :=
  let x := s.wave w
  let L := s.launch x.launch
  let s := s.modWave w fun x => { x with turns := x.turns + 1 }
  if L.key == some (s.lid w) && L.keyIn then s.pass x.launch else s

end Sys2Proof.Machine
end

