-- ==== Sys2Proof/Machine/TileImage.lean ====
section
/-!
DEFINITION. Where tile images lie: tile control, row images and their sizes (R199), windows (R214), and the bytes of memory that
a tile operation touches (R207, R209).
-/
namespace Sys2Proof.Machine

/-- Bytes per row of a tile memory image (R199): the format's code and the columns. -/
def rowBytes (fmt cols : Nat) : Nat :=
  match fmt with
  | 0 => (2 * cols + 7) / 8
  | 1 => (4 * cols + 7) / 8
  | 2 => cols
  | 3 | 4 => 2 * cols
  | 5 => cols + (cols + 31) / 32
  | _ => 20 * ((cols + 15) / 16)

def tcWord0 (tc : List Word) : Nat := (tc.getD 0 0).toNat
def tcCols (tc : List Word) : Nat := fld (tcWord0 tc) 16 7
def tcRows (tc : List Word) : Nat := fld (tcWord0 tc) 8 7
def tcSgn (tc : List Word) : Bool := bitAt (tcWord0 tc) 4
def tcFmt (tc : List Word) : Nat := fld (tcWord0 tc) 0 4
def tcAnchor (tc : List Word) : Int := signedOf 9 (tc.getD 1 0).toNat
def tcStride (tc : List Word) : Nat := (tc.getD 2 0).toNat

/-- Bytes of one element of a drain's output, 0 for a block format (R219), and the tile format of its row image. -/
def outBytes : OutFmt → Nat
  | .s8 | .z8 => 1
  | .s16 | .z16 | .bf16 => 2
  | .s32 | .z32 | .f32 => 4
  | .f64 => 8
  | _ => 0
def outRowSize (f : OutFmt) (cols : Nat) : Nat :=
  match f with
  | .mxint8 => rowBytes 5 cols
  | .bx3 | .bx5 | .bx8 => rowBytes 6 cols
  | _ => outBytes f * cols

/-! Windows (R214) -/

/-- The fields of a window descriptor. -/
structure Win where
  h    : Nat
  w    : Nat
  kh   : Nat
  kw   : Nat
  c    : Nat
  y0   : Int
  x0   : Int
  koff : Nat
  rsv  : Nat
  sx   : Nat
  deriving DecidableEq, Repr, Inhabited

def winOf (ws : List Word) : Win :=
  let w (i : Nat) : Nat := (ws.getD i 0).toNat
  { h := fld (w 0) 16 16, w := fld (w 0) 0 16, kh := fld (w 1) 24 8, kw := fld (w 1) 16 8, c := fld (w 1) 0 16
    y0 := signedOf 16 (fld (w 2) 16 16), x0 := signedOf 16 (w 2), koff := fld (w 3) 16 16, rsv := fld (w 3) 8 8
    sx := fld (w 3) 0 8 }

def Win.ok (v : Win) (fmt : Nat) : Bool :=
  v.h != 0 && v.w != 0 && 1 ≤ v.kh && v.kh ≤ 64 && 1 ≤ v.kw && v.kw ≤ 64 && v.c != 0 && v.sx != 0 && v.rsv == 0 &&
    (fmt != 5 || (v.koff % 32 == 0 && v.c % 32 == 0))

def elemBytes (fmt : Nat) : Nat := if fmt == 3 || fmt == 4 then 2 else 1

/-- The address of the pixel of element (r, c) and its channel; none for padding. -/
def Win.pixel (v : Win) (fmt stride base r c : Nat) : Option (Nat × Nat) :=
  let k := v.koff + c
  let ky := k / (v.c * v.kw)
  let x : Int := v.x0 + r * v.sx + (k / v.c % v.kw : Nat)
  let y : Int := v.y0 + ky
  let pb := if fmt == 5 then v.c + v.c / 32 else v.c * elemBytes fmt
  if ky < v.kh && 0 ≤ x && x < v.w && 0 ≤ y && y < v.h then some (base + y.toNat * stride + x.toNat * pb, k % v.c) else none

/-- The pieces of the image that the row images of a window take, as the address and number of bytes of each; a piece of
padding has no address. -/
def Win.pieces (v : Win) (fmt stride base rows cols : Nat) : List (Option Nat × Nat) :=
  let n := elemBytes fmt
  (List.range rows).flatMap fun r =>
    ((List.range cols).map fun c => ((v.pixel fmt stride base r c).map fun (a, ch) => a + ch * n, n)) ++
      (if fmt == 5 then
        (List.range (cols / 32)).map fun b =>
          ((v.pixel fmt stride base r (32 * b)).map fun (a, ch) => a + v.c + ch / 32, 1)
       else [])

/-! The bytes that an operation touches (R207, R209) -/

/-- The rows of an image: their addresses and sizes. -/
def rowRanges (base stride n rows : Nat) : List (Nat × Nat) := (List.range rows).map fun r => (base + r * stride, n)

/-- Bytes of memory: whether in the scratchpad, the first, their number. -/
structure Span where
  scratch : Bool
  addr    : Nat
  size    : Nat
  deriving DecidableEq, Repr, Inhabited

/-- The bytes from `lo` on that lie below `hi` of those from `a` to `e`, counted from `base`. -/
def Span.clip (scratch : Bool) (base lo hi a e : Nat) : List Span :=
  if max lo a < min hi e then [⟨scratch, max lo a - base, min hi e - max lo a⟩] else []

/-- A range of addresses as it falls on global memory and on the aperture of the scratchpad; addresses wrap at 2^64. -/
def spansOf (scratch : Bool) (va n : Nat) : List Span :=
  let a := va % 2 ^ 64
  let parts := [(a, min (a + n) (2 ^ 64)), (0, a + n - 2 ^ 64)]
  if scratch then [⟨true, a, n⟩]
  else
    parts.flatMap fun (a, e) =>
      Span.clip false 0 0 apertureBase a e ++ Span.clip true apertureBase apertureBase (apertureBase + 2 ^ 32) a e ++
        Span.clip false 0 (apertureBase + 2 ^ 32) (2 ^ 64) a e

def Span.meets (a b : Span) : Bool := a.scratch == b.scratch && a.addr < b.addr + b.size && b.addr < a.addr + a.size

/-- The bytes that a tile operation reads or writes, and whether it writes them. The save and restore handlers move whole tiles
(R436); a header that has not been read leaves open how many planes follow, and then all of them count. -/
def TileOp.touch (o : TileOp) : Bool × List Span :=
  let tc := o.tcs.headD []
  let at_ := o.addr.toNat
  let rows (scratch : Bool) (rs : List (Nat × Nat)) : List Span := rs.flatMap fun r => spansOf scratch r.1 r.2
  let tile (scratch : Bool) : List Span :=
    if o.ahead then spansOf scratch at_ 8192
    else rows scratch (rowRanges at_ (tcStride tc) (rowBytes (tcFmt tc) (tcCols tc)) (tcRows tc))
  let acc := o.accs.headD {}
  let drain (scratch : Bool) (f : OutFmt) : List Span := rows scratch (rowRanges at_ acc.ostride (outRowSize f acc.cols) acc.rows)
  let planes (a : Acc) : Nat := 64 + 8192 * ((List.range 12).filter a.chmask.testBit).length
  match o.instr with
  | .tld _ _ _ smem => (false, tile smem)
  | .tst _ _ _ smem => (true, tile smem)
  | .tldw _ _ _ _ smem =>
    (false, rows smem (((winOf o.desc).pieces (tcFmt tc) (tcStride tc) at_ (tcRows tc) (tcCols tc)).filterMap
      fun (a, n) => a.map fun a => (a, n)))
  | .tdrain _ _ _ _ _ f target => if target == .registers then (false, []) else (true, drain (target == .scratch) f)
  | .tdraina _ _ _ _ f smem => (true, drain smem f)
  | .taccsv _ _ _ smem => (true, spansOf smem at_ (planes acc))
  | .taccld _ _ _ =>
    (false, spansOf false at_
      (if o.header then 64 + 12 * 8192 else if o.desc.headD 0 == 1 then planes acc else 0))
  | _ => (false, [])

/-- Its effect has been made: the sequencer works for it, or a halt has stopped it since (R225). -/
def TileOp.begun (o : TileOp) : Bool := o.st == .started || o.st == .stopped

/-- It may write memory. -/
def TileOp.storesTo (o : TileOp) : Bool := o.touch.1 && !o.touch.2.isEmpty

/-- It touches some of the bytes, and one of the two accesses writes. -/
def TileOp.overlaps (o : TileOp) (write : Bool) (xs : List Span) : Bool :=
  let (w, ys) := o.touch
  (w || write) && ys.any fun y => xs.any y.meets

end Sys2Proof.Machine
end

