-- ==== Sys2Proof/Machine/Faults.lean ====
section
/-!
DEFINITION. What faults do to more than one thread: the black-box record (R483 to R487), the fault queue (R444, R445),
and the end of a workgroup, a launch and a context (R412, R426, R430, R471).
-/
namespace Sys2Proof.Machine

/-! The black-box record -/

/-- The kinds of event (R485). -/
inductive BbKind where
  | droop | bbmark | breakpoint | powerDeclaration | powerKill | dataLost | mapout | thermal | fatal | lifecycle | debug
  | powerState | firmware | freeze
  deriving DecidableEq, Repr, Inhabited

def BbKind.code : BbKind → Nat
  | .droop => 1 | .bbmark => 2 | .breakpoint => 3 | .powerDeclaration => 4 | .powerKill => 5 | .dataLost => 6
  | .mapout => 7 | .thermal => 8 | .fatal => 9 | .lifecycle => 10 | .debug => 11 | .powerState => 12 | .firmware => 13
  | .freeze => 14

def BlackBox.add (b : BlackBox) (e : BbEntry) : BlackBox :=
  if b.frozen then { b with events := b.events + 1 }
  else { b with ring := b.ring.put b.wptr e, wptr := (b.wptr + 1) % 4096, events := b.events + 1 }

/-- Writes one event (R483 to R485). -/
def State.event (s : State) (kind : BbKind) (tag cls src : Nat) (data : List Byte) : State :=
  { s with bbr := s.bbr.add ⟨s.time, kind.code, tag, cls, src, data⟩ }

/-- Freezes the record after the freezing event (R487). -/
def State.freeze (s : State) (cause : Nat) : State :=
  if s.bbr.frozen then s
  else
    let s := s.event .freeze 0 5 0 [BitVec.ofNat 8 cause]
    let b := { s.bbr with frozen := true, at_ := s.time }
    { s with
      bbr :=
        if b.stored.isSome then { b with lost := true } else { b with stored := some (s.time, b.wptr, b.ring) } }

/-- A channel joins the map-out list (R480). -/
def State.mapOut (s : State) (ch cause cls src : Nat) : State :=
  if s.mapNext.getLsbD ch then s
  else
    { s with mapNext := setBit s.mapNext ch true }.event .mapout 0 cls src [BitVec.ofNat 8 ch, BitVec.ofNat 8 cause]

/-- The correction counters (R193), and the map-out of a channel whose count reaches CHTHR (R480). -/
def State.countFix (s : State) (pid ch : Nat) : State :=
  let n := min (((s.part pid).chkcnt.get ch 0).toNat + 1) 0xFFFFFF
  let s := s.modPart pid fun p => { p with chkcnt := p.chkcnt.put ch (BitVec.ofNat 32 n) }
  let thr := s.errcfg.toNat % 2 ^ 24
  if thr != 0 && thr ≤ n then s.mapOut ch 1 1 pid else s

/-- A message on an MSI-X vector (R454). -/
def State.interrupt (s : State) (v : Nat) : State := { s with msix := s.msix ++ [v] }

/-! The fault queue (R444) -/

/-- The kinds of entry (R444, R471). -/
inductive FqKind where
  | translation | engineRecord | powerDeclaration | trap | doubleTrap | saveCorrupt | fabricLost | dataLost
  deriving DecidableEq, Repr, Inhabited

def FqKind.code : FqKind → Nat
  | .translation => 1 | .engineRecord => 2 | .powerDeclaration => 3 | .trap => 4 | .doubleTrap => 5 | .saveCorrupt => 6
  | .fabricLost => 7 | .dataLost => 8

def Ctx.slotAt (c : Ctx) (n : Nat) : Nat := c.fqbase + 32 * (n % c.fqn)

/-- An entry number can be written: FQHEAD has passed its slot, and a TRANSLATION entry there has been answered. -/
def State.fqFree (s : State) (c : Ctx) (n : Nat) : Bool :=
  let head := s.readNat (c.desc + 72) 8
  let slot := c.slotAt n
  wrapNat 64 ((n : Int) - head) < c.fqn &&
    (n < c.fqn || s.readNat slot 1 % 16 != FqKind.translation.code || s.readNat (slot + 24) 1 != 0)

/-- The page of a TRANSLATION entry receives the entry's number (R445). -/
def numberPage (page n : Nat) : List FaultPage → List FaultPage
  | [] => []
  | p :: ps => if p.page == page && p.entry.isNone then { p with entry := some n } :: ps else p :: numberPage page n ps

/-- Writes one entry and advances FQTAIL, then FQPEND and the interrupt (R444, R454). -/
def State.fqWrite (s : State) (tag n : Nat) (e : FqWait) : State :=
  let c := s.ctx tag
  let slot := c.slotAt n
  let s := s.writeDev 0 slot
    (bytesOfWord 8 e.w0.toNat ++ bytesOfWord 8 e.w1.toNat ++ bytesOfWord 8 e.w2.toNat ++
      bytesOfWord 8 (n % 2 ^ 32 * 2 ^ 32))
  let s := s.writeDev 0 (c.desc + 64) (bytesOfWord 8 ((n + 1) % 2 ^ 64))
  let s := { s with fqpend := setBit s.fqpend tag true }
  let s := s.interrupt 1
  match e.page with
  | none => s
  | some page =>
    let s := s.modCtx tag fun c => { c with pages := numberPage page n c.pages }
    s.schedWatch (slot + 24) false 0 (.faultEntry tag n)

/-- Writes the entries that wait, in order, while a slot is free (R444). -/
def State.fqFlush (s : State) (tag : Nat) : List FqWait → State
  | [] => s.modCtx tag fun c => { c with fqwait := [] }
  | e :: es =>
    let c := s.ctx tag
    let n := s.readNat (c.desc + 64) 8
    if c.fqn == 0 then s
    else if s.fqFree c n then State.fqFlush (s.fqWrite tag n e) tag es
    else s.modCtx tag fun c => { c with fqwait := e :: es }

def State.fqPost (s : State) (tag : Nat) (e : FqWait) : State :=
  if (s.ctxs.find? tag).isNone then s else s.fqFlush tag ((s.ctx tag).fqwait ++ [e])

/-- Every context's waiting entries are tried again. -/
def State.fqRetry (s : State) : State :=
  (s.ctxs.filter fun e => !e.2.fqwait.isEmpty).foldl (fun s e => s.fqFlush e.1 (s.ctx e.1).fqwait) s

/-- The words of an entry (R444): the virtual page, the ACCESS code, the source of word 1 and DETAIL. -/
def fqEntry (kind : FqKind) (va access tag src lin detail : Nat) : FqWait :=
  { w0 := BitVec.ofNat 64 (va % 2 ^ 56 / 4096 * 4096 + access * 16 + kind.code)
    w1 := BitVec.ofNat 64 (tag * 2 ^ 56 + src % 2 ^ 24 * 2 ^ 32 + lin % 2 ^ 32)
    w2 := BitVec.ofNat 64 detail
    page := if kind == .translation then some (va % 2 ^ 56 / 4096) else none }

/-- A replayable fault is recorded, or joins an entry of its page that is still unanswered (R445). -/
def State.recordFault (s : State) (tag va access src lin level : Nat) : State :=
  let c := s.ctx tag
  let page := va % 2 ^ 56 / 4096
  let open_ (p : FaultPage) : Bool :=
    p.page == page &&
    match p.entry with
    | none => true
    | some n => s.readNat (c.slotAt n + 24) 1 == 0
  if c.pages.any open_ then s
  else
    let s := s.modCtx tag fun c => { c with pages := c.pages ++ [⟨page, none⟩] }
    s.fqPost tag (fqEntry .translation va access tag src lin level)

/-! Regions (R396) -/

/-- The resolved value of a field of a region. -/
def Ctx.resolve (c : Ctx) (bit : Nat) (get : Region → Nat) (dflt : Nat) : Nat → Nat → Nat
  | 0, _ => dflt
  | fuel + 1, rcb =>
    match c.regions.find? rcb with
    | none => dflt
    | some r => if bitAt r.ovr bit then get r else if r.parent == 0 then dflt else Ctx.resolve c bit get dflt fuel r.parent

def Ctx.depth (c : Ctx) : Nat := c.regions.length + 1
def Ctx.fdomOf (c : Ctx) (rcb : Nat) : Nat := c.resolve 6 (·.fdom) 0 c.depth rcb
def Ctx.prioOf (c : Ctx) (rcb : Nat) : Nat := c.resolve 4 (·.prio) 0 c.depth rcb

/-- Word 7 of an RCB (R395). -/
def State.writeRegion (s : State) (tag rcb : Nat) : State :=
  match (s.ctx tag).regions.find? rcb with
  | none => s
  | some r => s.writeVaWord tag (rcb + 56) 8 (r.lret % 2 ^ 32 * 2 ^ 32 + r.code * 256 + r.st)

def State.modRegion (s : State) (tag rcb : Nat) (f : Region → Region) : State :=
  s.modCtx tag fun c => { c with regions := c.regions.upd rcb f }

/-- The device writes STATE and CODE of a region. -/
def State.setRegion (s : State) (tag rcb st code : Nat) : State :=
  (s.modRegion tag rcb fun r => { r with st := st, code := code }).writeRegion tag rcb

/-- A workgroup that has been admitted, is not over and is not resident. -/
def Wg.outside (g : Wg) : Bool :=
  match g.st with
  | .shadow | .saved _ | .reloading | .restoring _ | .halting _ | .saving _ => true
  | _ => false

/-- The WAKE bits of a region whose index no saved workgroup has any more are cleared (R410). -/
def State.clearWake (s : State) (tag rcb : Nat) : State :=
  let lins := (s.wgs.filter fun e => e.2.outside && (s.launch e.2.launch).tag == tag && (s.launch e.2.launch).rcb == rcb).map (·.2.lin)
  match (s.ctx tag).regions.find? rcb with
  | none => s
  | some r =>
    let v := lins.foldl (fun (m : DWord) n => setBit m (n % 64) (r.wake.getLsbD (n % 64))) 0
    if v == r.wake then s else (s.modRegion tag rcb fun r => { r with wake := v }).writeVaWord tag (rcb + 64) 8 v.toNat

/-- Word 6 of a launch record (R401). -/
def State.writeRecord (s : State) (l : Nat) : State :=
  let L := s.launch l
  let st :=
    match L.st with
    | .posted => 0 | .admitted => 1 | .done => 2 | .failed => 3
  s.writeVaWord L.tag (L.record + 48) 8 (L.retired % 2 ^ 32 * 2 ^ 32 + L.code * 256 + st)

/-! Ends -/

/-- The constant lines, race records and snapshots of a launch end with it (R285, R298). -/
def State.endSpan (s : State) (l : Nat) : State :=
  { s with
    races := s.races.filter fun r => r.launch != l
    rels := s.rels.filter fun r => r.snap.launch != l
    scFences := s.scFences.filter fun r => r.launch != l
    cores := s.cores.map fun (n, c) => (n, { c with consts := c.consts.filter fun (x : Nat × Nat × List Byte) => x.2.1 != l }) }

/-- What a partition keeps for a workgroup ends with it. -/
def Part.endWg (p : Part) (gone : TId → Bool) (slots : List Nat) : Part :=
  let p := p.drop gone
  { p with active := p.active.filter fun w => !slots.contains w }

/-- Every command, in the queues and in save images. -/
def State.mapCmds (s : State) (f : QCmd → QCmd) : State :=
  { s with
    cores := s.cores.map fun (n, c) =>
      (n, { c with
        queues := c.queues.map fun (q, es) =>
          (q, es.map fun e =>
            match e with
            | .cmd c => .cmd (f c)
            | .fence m i => .fence m i) })
    wgs := s.wgs.map fun (n, g) => (n, { g with imgCmds := g.imgCmds.map fun (q, c) => (q, f c) }) }

/-- Commands no longer lower the counts of lines whose bank is another's (R280): `p` names the banks. -/
def State.dropLines (s : State) (p : Nat → Nat → Bool) : State :=
  s.mapCmds fun c => { c with lines := c.lines.filter fun l => !p l.1 l.2.1 }

/-- The owned banks of a workgroup return to cache-way mode and hold no line (R273). -/
def State.freeBanks (s : State) (g : Wg) : State :=
  (s.modCore g.core fun c => { c.dropWays g.banks with banks := g.banks.foldl (fun t b => t.put b {}) c.banks }).dropLines
    fun core b => core == g.core && g.banks.contains b

/-- The commands of a workgroup are withdrawn from the queues (R367). -/
def withdrawQueues (c : Core) (p : Issuer → Bool) : Core :=
  { c with
    queues := c.queues.map fun (q, es) =>
      (q, es.filter fun e =>
        match e with
        | .cmd c => !p c.issuer
        | .fence _ _ => true)
    qhold := c.qhold.filter fun (q, _) =>
      match (c.queues.get q []) with
      | .cmd c :: _ => !p c.issuer
      | _ => true }

/-- Waves leave their places: the active sets, what is due for them, and the requests in which they have a part (R270, R461). -/
def State.vacate (s : State) (ws : List Nat) : State :=
  let mine (core part slot : Nat) : Bool := ws.contains (core * 96 + part * 24 + slot)
  let s := (ws.map pidOf).eraseDups.foldl (fun s pid => s.modPart pid fun p => p.endWg (fun t => ws.contains t.w) ws) s
  { s with
    waves := s.waves.filter fun e => !ws.contains e.1
    remotes := s.remotes.map fun r =>
      { r with
        waves := r.waves.filter fun w => !ws.contains w
        by_ := r.by_.filter fun b => !ws.contains b.1.w }
    cores := s.cores.map fun (n, c) =>
      (n, { c with wcb := c.wcb.map fun e => { e with waves := e.waves.filter fun w => !ws.contains w } })
    agenda := s.agenda.filter fun d =>
      match d.ev with
      | .ego core part slot _ _ => !mine core part slot
      | _ => true }

/-- The waves of a workgroup that is saved no longer wait for replies and acknowledgements of peers. -/
def State.forgetAway (s : State) (g : Nat) : State :=
  let away (w : Nat) : Bool := (awayWg w).map (·.1) == some g
  { s with
    remotes := s.remotes.map fun r =>
      { r with waves := r.waves.filter fun w => !away w, by_ := r.by_.filter fun b => !away b.1.w }
    cores := s.cores.map fun (n, c) => (n, { c with wcb := c.wcb.map fun e => { e with waves := e.waves.filter fun w => !away w } }) }

/-- Steps in the present core cycle, before those that were to come. -/
def State.push (s : State) (es : List Instr) : State := { s with todo := es.map Todo.event ++ s.todo }

def TileOp.isProf (o : TileOp) : Bool :=
  match o.instr with
  | .tprof .. => true
  | _ => false

/-- Profile loads are tried again. -/
def State.pumpLoads (s : State) : State := s.push ((s.ctxs.filter fun e => !e.2.loads.isEmpty).map fun e => .profileCheck e.1)

/-- Every operation of a partition that has not started is tried again, and so are the profile loads, which wait for the tile
operations of their context (R171). -/
def State.pumpTiles (s : State) (pid : Nat) : State :=
  (s.pumpLoads).push (((s.part pid).tileQ.filter fun o => !o.begun && !o.isProf).map fun o =>
    if o.header then .taccldHeader (pid / 4) (pid % 4) o.id else .tileOperationStart (pid / 4) (pid % 4) o.id)

/-- Tile operations that `p` names leave a partition with the ends that are due for them; the others go on. -/
def State.pullTiles (s : State) (pid : Nat) (p : TileOp → Bool) : State :=
  let ids := ((s.part pid).tileQ.filter p).map (·.id)
  let s := s.modPart pid fun q => { q with tileQ := q.tileQ.filter fun o => !p o }
  ({ s with
    agenda := s.agenda.filter fun d =>
      match d.ev with
      | .drainComplete core part op | .tileOperationComplete core part op => !(core * 4 + part == pid && ids.contains op)
      | _ => true } : State).pumpTiles pid

/-- The waves of a workgroup, resident or saved. -/
def State.wavesIn (s : State) (g : Nat) : List Wave :=
  (s.waves.filter fun e => e.2.wg == g).map (·.2) ++ (s.wg g).image

/-- The trims of a cluster return to 0 (R423), at the cores' next boundaries; those that are due are dropped. -/
def State.clearTrims (s : State) (launch cluster : Nat) : State :=
  let cores := (s.wgs.filter fun e => e.2.launch == launch && e.2.cluster == cluster).map fun e => e.2.core
  let s := cores.foldl (fun s c => s.modCore c fun k => { k with newTrim := some 0 }) s
  { s with
    agenda := s.agenda.filter fun d =>
      match d.ev with
      | .trimApply core _ => !cores.contains core
      | _ => true }

/-- The steps of TIME in a control interval (R421). -/
def interval : Nat := 200000

/-- A workgroup is resident from now on, or no longer. -/
def Wg.enters (g : Wg) (now : Nat) : Wg := { g with from_ := some now }
def Wg.leaves (g : Wg) (now : Nat) : Wg :=
  match g.from_ with
  | some a => { g with from_ := none, spans := (g.spans.filter fun x => now < x.2 + interval) ++ [(a, now)] }
  | none => g

/-- The steps of the interval before now for which a workgroup has been resident (R421). -/
def Wg.residentFor (g : Wg) (now : Nat) : Nat :=
  (g.spans ++ (g.from_.map (·, now)).toList).foldl (fun n x => n + (min x.2 now - max x.1 (now - interval))) 0

/-- The save slot of a workgroup is free. -/
def State.freeSlot (s : State) (g : Nat) : State :=
  match (s.wg g).st with
  | .saving n | .saved n | .restoring n =>
    s.modCtx (s.launch (s.wg g).launch).tag fun c => { c with slotsUsed := c.slotsUsed.filter (· != n) }
  | _ => s

/-- Takes a workgroup off the device: its waves, its places, its saved copies and its watches. A TPROF goes on for the context
(R171). -/
def State.clearWg (s : State) (g : Nat) : State :=
  let G := s.wg g
  let ws := (s.waves.filter fun e => e.2.wg == g).map (·.1)
  let s := (s.wavesIn g).foldl
    (fun s x =>
      s.withdrawWatches fun i =>
        match i with
        | .wave t id _ => t == x.tag && id == x.wid
        | _ => false) s
  let s := G.pids.foldl
    (fun s pid =>
      (s.pullTiles pid fun o => o.wg == g && !(o.instr matches .tprof ..)).modPart pid fun p =>
        { p with allocs := p.allocs.del g, shadow := p.shadow.filter (· != g) }) s
  let s := (s.vacate ws).forgetAway g
  let s := { s with cores := s.cores.map fun (n, c) => (n, withdrawQueues c fun i => i.wg == g) }
  (((s.freeSlot g).freeBanks G).dropLines fun core _ => core == awayBanks g).modWg g fun x => { x with image := [], imgAllocs := [], imgTiles := [], imgBanks := [], imgCmds := [], banks := [], copies := [], copied := [] }

def Wg.over (g : Wg) : Bool := g.st == .finished || g.st == .retired || g.st == .ended

/-- Ends a workgroup (R412, R308): its waves leave the ring at once. -/
def State.endWg (s : State) (g : Nat) : State :=
  let G := s.wg g
  if (s.wgs.find? g).isNone || G.over then s
  else
    let s := s.clearWg g
    let s := s.modWg g fun x => { (x.leaves s.now) with st := .ended }
    let L := s.launch G.launch
    let s := s.clearWake L.tag L.rcb
    (List.range L.wpw).foldl (fun s i => s.keyLeave G.launch (G.lin * L.wpw + i)) s

/-- Every workgroup of a launch ends, and the launch is FAILED; its record is written by the caller (R412). -/
def State.stopLaunch (s : State) (l code : Nat) : State :=
  let L := s.launch l
  let gs := (s.wgs.filter fun e => e.2.launch == l).map (·.1)
  let s := s.modLaunch l fun x => { x with st := .failed, code := code }
  let s := gs.foldl (fun s g => s.endWg g) s
  let s := s.modRegion L.tag L.rcb fun r => { r with queue := r.queue.filter (· != l) }
  s.endSpan l

def Launch.over (l : Launch) : Bool := l.st == .done || l.st == .failed

/-- The launches of a region that are not over. -/
def State.launchesOf (s : State) (tag rcb : Nat) : List Nat :=
  (s.launches.filter fun e => e.2.tag == tag && e.2.rcb == rcb && !e.2.over).map (·.1)

/-- A launch fails (R403, R412). -/
def State.failLaunch (s : State) (l code : Nat) : State :=
  let L := s.launch l
  if (s.launches.find? l).isNone || L.over then s
  else
    let s := s.stopLaunch l code
    let s :=
      if code == 4 || code == 5 || code == 6 || code == 9 then
        let s := s.setRegion L.tag L.rcb 2 code
        let c := s.ctx L.tag
        let fd := c.fdomOf L.rcb
        if fd == 0 then s
        else
          (c.regions.filter fun e => e.1 != L.rcb && c.fdomOf e.1 == fd).foldl
            (fun s e =>
              let s := s.setRegion L.tag e.1 2 10
              ((s.launchesOf L.tag e.1).filter fun k => (s.launch k).st == .admitted).foldl
                (fun s k => (s.stopLaunch k 10).writeRecord k) s) s
      else s
    (s.writeRecord l).at s.now .admission

/-- Every launch and region of a context ends (R424, R426, R454, R471); a power kill leaves posted launches posted. -/
def State.endContext (s : State) (tag code : Nat) : State :=
  let ls := (s.launches.filter fun e => e.2.tag == tag && !e.2.over && (code != 8 || e.2.st == .admitted)).map (·.1)
  let s := ls.foldl (fun s l => s.stopLaunch l code) s
  let s := ((s.ctx tag).regions.map (·.1)).foldl (fun s r => s.setRegion tag r (if code == 9 then 2 else 3) code) s
  let s := ls.foldl (fun s l => s.writeRecord l) s
  let s := s.withdrawWatches fun i =>
    match i with
    | .wave t _ _ => t == tag
    | w => code == 9 && w.tag == tag
  let s := { s with cores := s.cores.map fun (n, c) => (n, withdrawQueues c fun i => i.tag == tag) }
  s.at s.now .admission

end Sys2Proof.Machine
end

