-- ==== Sys2Proof/Machine/Ops.lean ====
section
/-!
DEFINITION. Writing registers and committing results (R51, R109, R265, R266), taking a trap (R429 to R432, R510, R511)
and returning from it (R433).
-/
namespace Sys2Proof.Machine

/-! Trap records -/

/-- TCAUSE (R431). -/
def Cause.code : Cause → Nat
  | .illegal => 1 | .privileged => 2 | .lookahead => 3 | .shape => 4 | .signConflict => 5 | .signTimeout => 6
  | .notMember => 7 | .profileInvalid => 8 | .profileMismatch => 9 | .profileStale => 10 | .accInvalid => 11
  | .tileConfig => 12 | .tileShape => 13 | .anchor => 14 | .tileFault => 15 | .stackOverflow => 16
  | .stackUnderflow => 17 | .branchTarget => 18 | .loopFault => 19 | .userTrap => 20 | .breakpoint => 21
  | .bankConfig => 22 | .scratchFault => 23 | .race => 24 | .staleConst => 25 | .misaligned => 26
  | .barrierFault => 27 | .watchTarget => 28 | .codebookMissing => 29 | .clusterUnavailable => 30
  | .orderInversion => 31 | .translation => 32 | .fetch => 33 | .ecall => 34 | .haltState => 35 | .save => 48
  | .restore => 49

def lo32 (n : Nat) : Nat := n % 2 ^ 32
def hi32 (n : Nat) : Nat := n / 2 ^ 32 % 2 ^ 32

/-- A trap with a record of the general layout (R432). -/
def Trap.general (code : Cause) (cause : Nat := 0) (half : Nat := 0) (reg : Nat := 0) (lane : Nat := 0) (aux : Nat := 0)
    (addr : Nat := 0) (iaddr : Nat := 0) : Trap :=
  { code := code
    words := [lane * 2 ^ 24 + reg * 2 ^ 16 + half * 2 ^ 8 + cause, lo32 aux, lo32 addr, hi32 addr, lo32 iaddr,
      hi32 iaddr, 0, 0]
    arg := 0 }

/-- A translation or fetch fault (R442). -/
def Trap.translation (acc : AccType) (cause level va : Nat) : Trap :=
  { code := if acc == .fetch then .fetch else .translation
    words := [acc.code * 2 ^ 12 + level * 2 ^ 8 + cause, 1, lo32 va, hi32 va, 0, 0, 0, 0]
    arg := 0 }

/-- TPC (R429). -/
def Cause.tpc (c : Cause) (pc : DWord) : DWord :=
  match c with
  | .userTrap | .breakpoint | .ecall => pc + 8
  | _ => pc

/-- TREC n (R429). -/
def Trap.trec (t : Trap) : List DWord :=
  (List.range 4).map fun n => BitVec.ofNat 64 (t.words.getD (2 * n) 0 + t.words.getD (2 * n + 1) 0 * 2 ^ 32)

/-! Writing registers -/

/-- One lane's value for a register of a wave. -/
structure Put where
  w    : Nat
  reg  : Nat
  lane : Nat
  val  : Word
  deriving DecidableEq, Repr, Inhabited

/-- The registers that some puts name. -/
def putRegs (ps : List Put) : List (Nat × Nat) := (ps.map fun p => (p.w, p.reg)).eraseDups

def putVals (ps : List Put) (w r : Nat) : List (Nat × Word) :=
  (ps.filter fun p => p.w == w && p.reg == r).map fun p => (p.lane, p.val)

/-- The shape test of one register (R265, R266). -/
def State.fits (s : State) (ps : List Put) (w r : Nat) : Bool :=
  r == 255 || (((s.wave w).shape r).fit (overlay ((s.wave w).vreg r) (putVals ps w r))).isSome

/-- A write of some lanes of a register; what does not fit the shape as it stands keeps the lanes apart (R145). -/
def Wave.put (x : Wave) (r : Nat) (vals : List (Nat × Word)) : Wave :=
  if r == 255 then x
  else
    let ys := overlay (x.vreg r) vals
    { x with regs := x.regs.put r (((x.shape r).fit ys).getD (.general ys)) }

/-- Writes lanes of registers. -/
def State.putAll (s : State) (ps : List Put) : State :=
  (putRegs ps).foldl (fun s (w, r) => s.modWave w fun x => x.put r (putVals ps w r)) s

/-- The banked registers take a write of the handler without a shape (R429). -/
def State.putThread (s : State) (t : TId) (vs : List (Nat × Word)) : State :=
  s.modThread t fun th => vs.foldl (fun th v => if th.banked v.1 then th.setBanked v.1 v.2 else th) th

/-- The writes of a thread that go to its wave's registers. -/
def State.puts (s : State) (t : TId) (vs : List (Nat × Word)) : List Put :=
  (vs.filter fun v => v.1 != 255 && !(s.thread t).banked v.1).map fun v => ⟨t.w, v.1, t.lane, v.2⟩

def State.putPreds (s : State) (t : TId) (ps : List (Nat × Bool)) : State :=
  s.modThread t fun th => ps.foldl (fun th p => th.setPred p.1 p.2) th

/-! Windows (R51 to R54, R510) -/

/-- The number of a thread's next closing of windows (R53). -/
def Thread.nextOrder (th : Thread) : Nat := th.windows.foldl (fun n x => max n x.order) 0 + 1

/-- Closes a window at closing `n` of its thread. -/
def Window.shut (n : Nat) (x : Window) : Window := if x.closed then x else { x with closed := true, order := n }

/-- Closes every open window of a thread (R52). -/
def Thread.close (th : Thread) : Thread := { th with windows := th.windows.map (Window.shut th.nextOrder) }

/-- A result is there for the commit at the end of core cycle `cyc`. -/
def Window.arrived (x : Window) (cyc : Nat) : Bool :=
  match x.ready with
  | some r => r ≤ cyc + 1
  | none => false

/-- The closed windows in the order of their closing, those of one closing in the order of their instructions (R53). -/
def insertClosed (x : Window) : List Window → List Window
  | [] => [x]
  | y :: ys => if x.order ≤ y.order then x :: y :: ys else y :: insertClosed x ys
def Thread.closedWindows (th : Thread) : List Window := (th.windows.filter (·.closed)).foldr insertClosed []

/-- The closed windows that commit at the end of a cycle: in the order of their closing, up to the first that waits (R53). -/
def Thread.due (th : Thread) (cyc : Nat) : List Window := th.closedWindows.takeWhile (·.arrived cyc)

/-- A trap joins what the thread has to take: the oldest instruction's is taken (R511), and the windows close (R52). -/
def Thread.addTrap (th : Thread) (d : TrapDue) : Thread :=
  let q :=
    match th.trapQ with
    | some old => if old.seq ≤ d.seq then old else d
    | none => d
  { th.close with trapQ := some q }

/-- Raises a trap at an instruction of a thread; it is taken by `State.takeTraps`. -/
def State.raise (s : State) (t : TId) (tr : Trap) (pc : DWord) : State :=
  s.modThread t fun th => th.addTrap ⟨tr, tr.code.tpc pc, th.llSeq⟩

/-- A result that is to commit. -/
structure Commit where
  t   : TId
  win : Window
  deriving DecidableEq, Repr, Inhabited

def State.commitPuts (s : State) (cs : List Commit) : List Put := cs.flatMap fun c => s.puts c.t c.win.regs

/-- The registers of some puts that fail the test over the union of their lanes (R266). -/
def State.badRegs (s : State) (ps : List Put) : List (Nat × Nat) := (putRegs ps).filter fun (w, r) => !s.fits ps w r

/-- The register for which a commit fails, given the registers that have failed (R109); a result tested as a whole has failed
before (R145, R220). -/
def State.misfit (s : State) (bad : List (Nat × Nat)) (c : Commit) : Option Nat :=
  if c.win.checked then c.win.shapeFail
  else (c.win.shapeFail).orElse fun _ => ((s.puts c.t c.win.regs).find? fun p => bad.contains (p.w, p.reg)).map (·.reg)

/-- One round of the test of R266 over the write of an issuing instruction and commits: the registers that fail, and the
commits that fail with the register of each. -/
def State.testUnion (s : State) (own : List Put) (cs : List Commit) : List (Nat × Nat) × List (Commit × Nat) :=
  let bad := s.badRegs (own ++ s.commitPuts (cs.filter fun c => !c.win.checked))
  (bad, cs.filterMap fun c => (s.misfit bad c).map fun r => (c, r))

/-- The commits without those that have failed. -/
def without (cs : List Commit) (out : List (Commit × Nat)) : List Commit := cs.filter fun c => !(out.any fun x => x.1 == c)

/-- The commits that fail, and the registers for which the write `own` of an issuing instruction fails: all are tested
together, and what fails is not written, so the others are tested again without it, until none fails (R109, R266). -/
def State.misfits (s : State) : Nat → List Put → List Commit → List (Commit × Nat) × List (Nat × Nat)
  | 0, _, _ => ([], [])
  | fuel + 1, own, cs =>
    let (bad, out) := s.testUnion own cs
    let mine := bad.filter fun b => own.any fun p => (p.w, p.reg) == b
    if out.isEmpty && mine.isEmpty then ([], [])
    else
      let (out2, mine2) := State.misfits s fuel (if mine.isEmpty then own else []) (without cs out)
      (out ++ out2, if mine.isEmpty then mine2 else mine)

/-- Removes the windows that commit from their threads. -/
def State.dropWindows (s : State) (cs : List Commit) : State :=
  cs.foldl
    (fun s c => s.modThread c.t fun th => { th with windows := th.windows.filter fun x => x.seq != c.win.seq }) s

/-- Commits results: those that fit are written, the others raise SHAPE at their instructions (R51, R109, R266). A
result that carries a fault raises it (R54). `failed` names results that have failed with the instruction that issued in this
cycle. -/
def State.commit (s : State) (failed : List (TId × Nat × Nat)) (cs : List Commit) : State :=
  let live := cs.filter fun c => c.win.fail.isNone
  let known := live.filterMap fun c => (failed.find? fun f => f.1 == c.t && f.2.1 == c.win.seq).map fun f => (c, f.2.2)
  let rest := without live known
  let out := known ++ (s.misfits (rest.length + 1) [] rest).1
  let good := without live out
  let pre := s
  let s := s.dropWindows cs
  let s := s.putAll (pre.commitPuts good)
  let s := good.foldl (fun s c => (s.putThread c.t c.win.regs).putPreds c.t c.win.preds) s
  let s := out.foldl
    (fun s (c, r) => s.modThread c.t fun th => th.addTrap ⟨.general .shape (half := c.win.half) (reg := r), c.win.pc, c.win.seq⟩) s
  (cs.filter fun c => c.win.fail.isSome).foldl
    (fun s c =>
      match c.win.fail with
      | some tr => s.modThread c.t fun th => th.addTrap ⟨tr, c.win.pc, c.win.seq⟩
      | none => s) s

/-! Taking a trap -/

/-- The handler's banked state (R429): v0 and v1 the argument, v2 TCAUSE, v3 the lane. The spec states no value for the
banked p1 to p7: they are free (log 12). -/
def handlerOf (tr : Trap) (tpc : DWord) (lane free : Nat) : Handler :=
  { v := [BitVec.ofNat 32 tr.arg, BitVec.ofNat 32 (tr.arg / 2 ^ 32), BitVec.ofNat 32 tr.code.code, BitVec.ofNat 32 lane]
    preds := Config.freeByte free ||| 1
    tcause := BitVec.ofNat 32 tr.code.code
    tpc := tpc
    trec := tr.trec }

/-- The workgroup of a thread ends by a trap (R430): its fault-queue entry, and the launch fails with CODE 6. -/
def State.endByTrap (s : State) (t : TId) (kind : FqKind) (tr : Trap) (tpc : DWord) : State :=
  let x := s.wave t.w
  let s := s.fqPost x.tag
    (fqEntry kind 0 0 x.tag x.wid.toNat (s.wg x.wg).lin (tr.code.code * 2 ^ 56 + tpc.toNat % 2 ^ 56))
  s.failLaunch x.launch 6

/-- A program counter as software gives it: bits [2:0] read zero (R39). -/
def alignPc (v : DWord) : DWord := v &&& ~~~7

/-- A thread takes a trap (R429, R430): handler mode with the banked registers and the trap registers set and the PC at
HANDLER; or, with no handler or in handler mode already, the end of its workgroup. -/
def State.enter (s : State) (t : TId) (tr : Trap) (tpc : DWord) : State :=
  let c := s.ctxOf t
  if (s.thread t).hand.isSome then s.endByTrap t .doubleTrap tr tpc
  else if c.handler == 0 then s.endByTrap t .trap tr tpc
  else
    let (n, s) := s.free
    s.modThread t fun th =>
      { th with
        hand := some (handlerOf tr tpc t.lane n)
        pc := BitVec.ofNat 64 c.handler
        st := .ready
        trapQ := none
        pend := none
        block := none
        grant := false }

/-- A thread with a trap to take and no window left takes it. -/
def State.enterDue (s : State) (t : TId) : State :=
  match (s.thread t).trapQ with
  | some d => if (s.thread t).windows.isEmpty then s.enter t d.trap d.tpc else s
  | none => s

/-- A thread in no bundle takes its trap and is filed at the handler (R232). -/
def State.enterAlone (s : State) (t : TId) : State :=
  match (s.thread t).trapQ with
  | some _ => if (s.thread t).windows.isEmpty then ((s.unfile t).enterDue t).file t 3 else s
  | none => s

/-- Raises a trap at a thread that waits: it is taken at once unless results are still to come (R510). -/
def State.trapNow (s : State) (t : TId) (tr : Trap) (pc : DWord) : State :=
  ((s.raise t tr pc).modThread t fun th => { th with st := .ready }).enterAlone t

/-! Bundles after an instruction -/

/-- Vacates a bin and files its threads (R232). -/
def State.fileBin (s : State) (pid bin : Nat) : State :=
  let ts := ((s.part pid).bins.get bin {}).threads
  ts.foldl (fun s t => s.file t 2) (s.modPart pid fun p => { p with bins := p.bins.del bin })

/-- The threads of a bundle take the traps raised, when no result of them is still to come; then every thread of the
bundle is filed (R232, R510). -/
def State.settleTraps (s : State) (pid bin : Nat) : State :=
  let ts := ((s.part pid).bins.get bin {}).threads
  let trapped := ts.filter fun t => (s.thread t).trapQ.isSome
  if trapped.all fun t => (s.thread t).windows.isEmpty then
    let s := trapped.foldl (fun s t => s.enterDue t) s
    s.fileBin pid bin
  else s

/-- The bundle after its instruction (R232, R233): traps; filing when the threads part, or all are to be filed; otherwise
the bundle goes on in its bin. -/
def State.settle (s : State) (fileAll : Bool) : State :=
  let pid := s.cur.core * 4 + s.cur.part
  let b := (s.part pid).bins.get s.cur.bin {}
  let pc := (s.thread (b.threads.headD default)).pc
  if b.threads.any fun t => (s.thread t).trapQ.isSome then s.settleTraps pid s.cur.bin
  else if b.threads.isEmpty then s.modPart pid fun p => { p with bins := p.bins.del s.cur.bin }
  else if fileAll || b.evict || b.threads.any fun t => (s.thread t).pc != pc then s.fileBin pid s.cur.bin
  else s.modPart pid fun p => { p with bins := p.bins.put s.cur.bin { b with key := pc, ready := none, woken := false } }

/-! Return -/

/-- TRET in handler mode (R433): the banked registers go, and the thread continues at TPC. -/
def Thread.leaveHandler (th : Thread) : Thread :=
  match th.hand with
  | some h => { th with hand := none, pc := alignPc h.tpc }
  | none => th

end Sys2Proof.Machine
end

