-- ==== Sys2Proof/Machine/Operands.lean ====
section
/-!
DEFINITION. Reading operands (R43, R69, R77) and the lane-permutation modifier (R47, R48).
-/
namespace Sys2Proof

/-- The source lane that a modifier names for a reader's lane (R47). -/
def LaneMod.lane (m : LaneMod) (i : Nat) : Nat :=
  let S := 2 ^ m.seg
  let base := i - i % S
  match m.kind with
  | .rotate => base + (i % S + m.arg) % S
  | .butterfly => base + Nat.xor (i % S) m.arg
  | .broadcast => base + m.arg

/-- The integer that a type reads from the low bits of an operand (R77). -/
def IT.read (t : IT) (n : Nat) : Int := if t.signed then signedOf t.width n else ((n % 2 ^ t.width : Nat) : Int)

/-- The result of a type, wrapped or clamped, and extended to its registers (R77, R78). -/
def IT.result (t : IT) (sat : Bool) (x : Int) : Nat :=
  let n := wrapNat t.width (if sat then Machine.clampInt t.width t.signed x else x)
  if t.wide then n else if t.signed then wrapNat 32 (signedOf t.width n) else n

namespace Machine

/-- The thread that supplies a modified operand: the source lane's when it is in the bundle, else the reader (R48). -/
def State.source (s : State) (m : Option LaneMod) (onA : Bool) (t : TId) : TId :=
  match m with
  | none => t
  | some x =>
    if x.onA != onA then t
    else
      let j : TId := ⟨t.w, x.lane t.lane⟩
      if s.cur.threads.contains j then j else t

/-- Source A, source B, and a source that takes no modifier. -/
def State.srcA (s : State) (m : Option LaneMod) (t : TId) (r : Nat) : Word := s.rd (s.source m true t) r
def State.srcB (s : State) (m : Option LaneMod) (t : TId) (r : Nat) : Word := s.rd (s.source m false t) r

/-- The same as a number of one register or, when wide, of a pair (R69). -/
def State.numA (s : State) (m : Option LaneMod) (t : TId) (wide : Bool) (r : Nat) : Nat :=
  let u := s.source m true t
  if wide then (s.rd64 u r).toNat else (s.rd u r).toNat
def State.numB (s : State) (m : Option LaneMod) (t : TId) (wide : Bool) (r : Nat) : Nat :=
  let u := s.source m false t
  if wide then (s.rd64 u r).toNat else (s.rd u r).toNat
def State.num (s : State) (t : TId) (wide : Bool) (r : Nat) : Nat := s.numA none t wide r

/-- The registers that a value of one or two words goes to. -/
def dests (wide : Bool) (d : Nat) : List Nat := if wide then [d, d + 1] else [d]
def putNum (wide : Bool) (d n : Nat) : List (Nat × Word) :=
  if wide then [(d, BitVec.ofNat 32 n), (d + 1, BitVec.ofNat 32 (n / 2 ^ 32))] else [(d, BitVec.ofNat 32 n)]

end Machine

end Sys2Proof
end

