-- ==== Sys2Proof/Machine/Issue.lean ====
section
/-!
DEFINITION. What every instruction of a bundle has in common: the active threads (R41), conflicts with open windows
(R51), the count of the windows, the shape test at issue (R109, R266), and opening a window (R50 to R53).
-/
namespace Sys2Proof.Machine

/-- What an instruction gives one thread. -/
structure Out where
  regs  : List (Nat × Word) := []
  preds : List (Nat × Bool) := []
  deriving DecidableEq, Repr, Inhabited

/-- The active threads of the bundle that issues (R41). -/
def State.active (s : State) (h : Hd) : List TId := s.cur.threads.filter fun t => (s.thread t).guard h

/-- The core cycles completed on the core that issues: the number of the present cycle (R26). -/
def State.cycle (s : State) : Nat := (s.core s.cur.core).cyc.toNat

/-- An open window that holds one of the destinations (R51). -/
def Thread.conflict (th : Thread) (dr dp : List Nat) : Option (Window × Nat) :=
  th.windows.findSome? fun x =>
    (dr.find? fun r => r != 255 && x.dests.contains r).map (fun r => (x, r)) <|>
      (dp.find? fun p => p != 0 && x.pdests.contains p).map (fun p => (x, p))

/-- An instruction of a window has issued (R51): a window that ends with it closes at closing `n` of its thread. -/
def Window.count (n : Nat) (x : Window) : Window :=
  let x := if x.remaining ≤ 1 then x.shut n else x
  { x with remaining := x.remaining - 1 }

/-- A thread's windows count an instruction, one that issues again after it has waited only once. -/
def Thread.countWindows (th : Thread) : List Window := if th.counted then th.windows else th.windows.map (Window.count th.nextOrder)

/-- The issue of an instruction that writes the destinations in its active threads: a thread whose window holds one of
them raises LOOKAHEAD_CONFLICT; every other thread's windows count, and its PC goes on. -/
def State.stepThread (dr dp : List Nat) (isActive : Bool) (s : State) (t : TId) : State :=
  match if isActive then (s.thread t).conflict dr dp else none with
  | some (x, r) => s.raise t (.general .lookahead (half := s.cur.half) (reg := r) (iaddr := x.pc.toNat)) s.cur.pc
  | none => s.modThread t fun th => { th with pc := s.cur.pc + 8, windows := th.countWindows, counted := false }

def State.begin (s : State) (h : Hd) (dr dp : List Nat) : State :=
  let act := s.active h
  s.cur.threads.foldl (fun s t => s.stepThread dr dp (act.contains t) t) s

/-- A thread that has a trap to take. -/
def State.trapped (s : State) (t : TId) : Bool := (s.thread t).trapQ.isSome

/-- The active threads that the conflicts leave. -/
def State.acting (s0 s : State) (h : Hd) : List TId := (s0.active h).filter fun t => !s.trapped t

/-- The results that commit at the end of this cycle in a partition. -/
def State.dueCommits (s : State) (pid cyc : Nat) : List Commit :=
  (s.waves.filter fun e => pidOf e.1 == pid).flatMap fun e =>
    (List.range 32).flatMap fun i => ((e.2.thread i).due cyc).map fun x => ⟨⟨e.1, i⟩, x⟩

/-- The results without a fault that commit at the end of this cycle in the partition that issues, where one of them has a register
of the writes `ps` (R266); without one the writes are tested by themselves. -/
def State.rivals (s : State) (ps : List Put) : List Commit :=
  let cs := (s.dueCommits (s.cur.core * 4 + s.cur.part) s.cycle).filter fun c => c.win.fail.isNone
  if (s.commitPuts (cs.filter fun c => !c.win.checked)).any fun p => (putRegs ps).contains (p.w, p.reg) then cs else []

/-- Due results that fail with the instruction that issues (R266); they raise SHAPE when they would commit. -/
def State.noteFailed (s : State) (out : List (Commit × Nat)) : State :=
  if out.isEmpty then s
  else
    s.modPart (s.cur.core * 4 + s.cur.part) fun p =>
      { p with unionFail := out.map (fun (c, r) => (c.t, c.win.seq, r)) ++ p.unionFail }

/-- Writes the results of a short-latency instruction, all or, when a register fails its test, none: then every acting
thread raises SHAPE (R109). The results due in this cycle are tested with it, and those that fail are noted (R266). -/
def State.writeNow (s : State) (half : Nat) (outs : List (TId × Out)) : State :=
  let ps := outs.flatMap fun (t, o) => s.puts t o.regs
  let cs := s.rivals ps
  let (out, bad) := s.misfits (cs.length + 2) ps cs
  let s := s.noteFailed out
  match bad with
  | [] => outs.foldl (fun s (t, o) => (s.putThread t o.regs).putPreds t o.preds) (s.putAll ps)
  | (_, r) :: _ => outs.foldl (fun s (t, _) => s.raise t (.general .shape (half := half) (reg := r)) s.cur.pc) s

/-- Opens a window for a result that comes at core cycle `ready` (R51); no window without a destination (R50). -/
def State.openAt (s : State) (pc : DWord) (half la : Nat) (ready : Option Nat) (checked : Bool) (t : TId) (dr dp : List Nat)
    (o : Out) : State :=
  let dr := dr.filter (· != 255)
  let dp := dp.filter (· != 0)
  if dr.isEmpty && dp.isEmpty then s
  else
    s.modThread t fun th =>
      { th with
        llSeq := th.llSeq + 1
        windows := th.windows ++
          [{ pc := pc, half := half, seq := th.llSeq, remaining := la, closed := la == 0
             order := if la == 0 then th.nextOrder else 0, dests := dr
             pdests := dp, regs := o.regs, preds := o.preds, ready := ready, checked := checked, shapeFail := none,
             fail := none, pend := none }] }

/-- The window of an instruction that issues now. -/
def State.openWindow (s : State) (half la : Nat) (ready : Option Nat) (t : TId) (dr dp : List Nat) (o : Out) : State :=
  s.openAt s.cur.pc half la ready false t dr dp o

/-- The latency in core cycles of a result, with what the environment adds to a least one (R71). -/
def State.latency (s : State) : Latency → Nat × State
  | .short | .blocking => (1, s)
  | .fixed n => (n, s)
  | .atLeast n =>
    let (d, s) := s.takeDelay
    (n + d, s)

/-- The results of an instruction of either latency. -/
def State.deliver (s : State) (half la : Nat) (lat : Latency) (dr dp : List Nat) (outs : List (TId × Out)) : State :=
  if lat.long then
    let (n, s) := s.latency lat
    outs.foldl (fun s (t, o) => s.openWindow half la (some (s.cycle + n)) t dr dp o) s
  else s.writeNow half outs

/-- An instruction that computes results from each active thread's sources alone (R108). -/
def State.compute (s : State) (h : Hd) (lat : Latency) (dr dp : List Nat) (f : State → TId → Out) : State :=
  let s1 := s.begin h dr dp
  let outs := (s.acting s1 h).map fun t => (t, f s t)
  (s1.deliver s.cur.half h.la lat dr dp outs).settle false

end Sys2Proof.Machine
end

