-- ==== Sys2Proof/Machine/Fetch.lean ====
section
/-!
DEFINITION. Fetching the instruction of a bundle and the checks at issue (R59, R76, R442, R473), the effective class
(R20), and the instructions that close windows (R52).
-/
namespace Sys2Proof

/-- The effective class of an instruction (R20). -/
def Instr.effClass (i : Instr) : Nat :=
  match i with
  | .dualWord h1 h2 => max h1.op.timing.1 h2.op.timing.1
  | _ => min 3 (i.timing.1 + (if i.modifier?.1.isSome then 1 else 0))

/-- The instructions that close the thread's windows before they act (R52). -/
def Instr.closes : Instr → Bool
  | .waitm .. | .barWait .. | .barArrwait .. | .waitu .. | .exit _ | .ret _ | .reform _ | .trap .. | .bkpt _ | .ecall .. =>
    true
  | _ => false

/-- The tile instructions (R204, R205), and those at which a tile fault that waits is taken (R210). -/
def Instr.isTile : Instr → Bool
  | .tcfg .. | .tcfgrd .. | .tld .. | .tldw .. | .tst .. | .tzero .. | .tprof .. | .tmma .. | .tmmas .. | .trowsum ..
  | .tcolsum .. | .tdrain .. | .tdraina .. | .taccsv .. | .taccld .. | .tchk .. => true
  | _ => false
def Instr.takesTileFault (i : Instr) : Bool :=
  i.isTile ||
  match i with
  | .waitm .. | .barWait .. | .barArrwait .. | .exit _ => true
  | _ => false

/-- The instructions that need privilege, and the register number that their trap names (R76, R432). -/
def Instr.privReg? : Instr → Option Nat
  | .swr _ r _ _ => some r
  | .srd _ _ r _ => if 0x40 ≤ r then some r else none
  | .tret _ | .tlbinv .. | .halt _ => some 0
  | _ => none

namespace Machine

/-- The counts of R59 for a thread (R43, R69). -/
def State.counts (s : State) (t : TId) : Counts :=
  let k := (s.launchOf t).hdr
  { regs := k.regs, tiles := k.tiles, accs := k.accs, handler := (s.thread t).hand.isSome }

/-- What the fetch of a thread's instruction gives. -/
inductive Fetched where
  | word (w : Nat)
  | park (va level : Nat)
  | trap (tr : Trap)
  deriving DecidableEq, Repr, Inhabited

/-- The fetch of the word at a thread's PC (R442, R473). A word that the instruction cache still holds may differ from
memory until an IFENCE (R449): whether the cache then serves it is free (log 13). -/
def State.fetchWord (s : State) (t : TId) : Fetched :=
  let va := (s.thread t).pc.toNat
  let tag := (s.wave t.w).tag
  match s.xlat (some t.core) tag (s.privileged t) .fetch va with
  | .ok pa _ =>
    if s.lineBad (pa / 128) then .trap (.translation .fetch 12 0 va)
    else
      let w := s.readNat pa 8
      match (s.core t.core).icache.find? fun e => e.1 == tag && e.2.1 == va with
      | some e => if e.2.2 != w && Config.freeBool s.freeCtr then .word e.2.2 else .word w
      | none => .word w
  | .fault 1 level => .park va level
  | .fault cause level => .trap (.translation .fetch cause level va)

/-- The instruction cache and the translation caches after a fetch. -/
def State.fetched (s : State) (t : TId) (w : Nat) : State :=
  let va := (s.thread t).pc.toNat
  let tag := (s.wave t.w).tag
  let (_, s) := s.translate (some t.core) tag (s.privileged t) .fetch va
  let held := (s.core t.core).icache.find? fun e => e.1 == tag && e.2.1 == va
  match held with
  | some e =>
    if e.2.2 == w then s
    else
      { s.modCore t.core fun c => { c with icache := (tag, va, w) :: c.icache.filter fun e => !(e.1 == tag && e.2.1 == va) } with
        freeCtr := s.freeCtr + 1 }
  | none => s.modCore t.core fun c => { c with icache := (tag, va, w) :: c.icache }

/-- What stops a thread at the issue of its word, or the instruction (R59, R76). -/
def State.checkWord (s : State) (t : TId) : Fetched → Except Fetched Instr
  | .word w =>
    match decodeWord (s.counts t) w with
    | .error e => .error (.trap (.general .illegal (cause := e.cause) (half := e.half)))
    | .ok i =>
      match i.privReg? with
      | some r => if s.privileged t then .ok i else .error (.trap (.general .privileged (reg := r)))
      | none => .ok i
  | f => .error f

/-- The instruction that a thread would issue; none when its fetch or a check fails. -/
def State.nextInstr (s : State) (t : TId) : Option Instr := (s.checkWord t (s.fetchWord t)).toOption

/-- A thread parks on a page whose fault is recorded (R445). The access is performed when the page comes. -/
def State.parkPage (s : State) (t : TId) (va code level : Nat) (a : Access) : State :=
  let x := s.wave t.w
  let s := s.recordFault x.tag va code x.wid.toNat (s.wg x.wg).lin level
  s.modThread t fun th => { th with st := .parked (.fault (va % 2 ^ 56 / 4096)), pend := some a }

/-- The access that stands for a fetch. -/
def fetchAccess (pc : DWord) : Access :=
  { scratch := false, const := false, addr := pc, size := 8, kind := .fetch, scope := .thread, acq := false
    rel := false, pc := pc, half := 0 }

/-- A thread of the bundle leaves it to wait. -/
def State.leaveBundle (s : State) (t : TId) : State := s.unfile t

/-- A thread whose fetch or check failed: it parks, or has the trap to take. -/
def State.stopThread (s : State) (t : TId) (f : Fetched) : State :=
  match f with
  | .word _ => s
  | .park va level => (s.parkPage t va AccType.fetch.code level (fetchAccess (s.thread t).pc)).leaveBundle t
  | .trap tr => s.raise t tr (s.thread t).pc

/-- The commits that a closing instruction waits for (R52, R510): they have arrived, and are written before it acts. -/
def State.closeWindows (s : State) (ts : List TId) : State :=
  s.commit [] (ts.flatMap fun t => (s.thread t).windows.map fun x => ⟨t, x⟩)

/-- A tile fault of a wave is taken by the wave's threads in the bundle (R210). -/
def State.takeTileFaults (s : State) (ts : List TId) : State :=
  ts.foldl
    (fun s t =>
      match (s.wave t.w).tileFault with
      | some tr => s.raise t tr s.cur.pc
      | none => s) s

def State.clearTileFaults (s : State) (ts : List TId) : State :=
  (ts.map (·.w)).eraseDups.foldl (fun s w => s.modWave w fun x => { x with tileFault := none }) s

/-- What precedes an instruction's own effect: the commits of R52 and the tile fault of R210. The threads that trap leave
the instruction. -/
def State.prepare (s : State) (i : Instr) : State :=
  let s := if i.closes then s.closeWindows s.cur.threads else s
  let s := if i.takesTileFault then (s.takeTileFaults s.cur.threads).clearTileFaults s.cur.threads else s
  { s with cur := { s.cur with threads := s.cur.threads.filter fun t => !s.trapped t } }

/-- The issue of a bundle: the instruction to perform with the state in which it acts, or the state after a bundle of
which some thread fails its fetch or a check; then the others issue anew (log 75: the counts of handler-mode threads
differ). The threads in the filing queue when an evicted bundle issues are filed before another eviction (R237). -/
def State.fetchBundle (s : State) (core part bin : Nat) : Except State (Instr × State) :=
  let pid := core * 4 + part
  let b := (s.part pid).bins.get bin {}
  let ts := b.threads
  let s := { s with cur := { core := core, part := part, bin := bin, threads := ts, pc := b.key, half := 0 } }
  let s := if b.evict then s.modPart pid fun p => { p with held := p.queue.map (·.1) } else s
  let fs := ts.map fun t => (t, s.checkWord t (s.fetchWord t))
  match fs.filterMap fun (t, f) =>
      match f with
      | .error e => some (t, e)
      | .ok _ => none with
  | [] =>
    match fs with
    | (t, .ok i) :: _ =>
      let w :=
        match s.fetchWord t with
        | .word w => w
        | _ => 0
      let s := s.fetched t w
      let s := ts.foldl (fun s t => s.modWave t.w fun x => { x with lastIssue := (s.core core).cyc.toNat }) s
      let s := s.modPart pid fun p => { p with issued := some i.effClass }
      .ok (i, s.prepare i)
    | _ => .error (s.settle false)
  | bad => .error ((bad.foldl (fun s (t, f) => s.stopThread t f) s).settle true)

end Machine

end Sys2Proof
end

