-- ==== Sys2Proof/Machine/Races.lean ====
section
/-!
DEFINITION. Releases and acquires (R290, R291, R299, R303), and the record of a race (R302).
-/
namespace Sys2Proof.Machine

/-! Releases and acquires (R299) -/

/-- V[w][u] is the larger of its value and the snapshot's. -/
def joinVec (a b : List (Option Nat)) : List (Option Nat) :=
  (List.range 32).map fun i =>
    match a.getD i none, b.getD i none with
    | some x, some y => some (max x y)
    | some x, none => some x
    | none, y => y

/-- A release by a thread: its snapshot, and the epoch and the clock that it raises. -/
def State.releaseBy (s : State) (t : TId) (scope : Scope) (fence : Bool) : RelSnap × State :=
  let x := s.wave t.w
  let y := s.who t.w
  let snap : RelSnap :=
    { launch := y.launch, wg := y.lin, wave := y.idx, lane := t.lane, fence := fence, eng := false, scope := scope
      vec := y.vec.set y.idx (some y.epoch), clock := y.clock, heard := x.heard }
  let s := if Scope.wide scope then s.modWave t.w fun x => { x with epoch := x.epoch + 1 } else s
  (snap, if Scope.wider scope then s.modWg x.wg fun g => { g with clock := g.clock + 1 } else s)

/-- The two operations are mutually scoped (R288): of threads of two launches, at device or system scope. -/
def State.mutual (s : State) (snap : RelSnap) (w : Nat) (scope : Scope) : Bool :=
  let y := s.who w
  let l := s.launch y.launch
  (!snap.eng || Scope.widest scope) &&
    if snap.launch == y.launch then
      Scope.includes snap.scope l snap.wg snap.wave y.lin y.idx && Scope.includes scope l y.lin y.idx snap.wg snap.wave
    else Scope.widest snap.scope && Scope.widest scope

/-- The vectors that a snapshot carries, by launch and linear index of their workgroups. -/
def RelSnap.known (x : RelSnap) : List (Nat × Nat × List (Option Nat)) := (x.launch, x.wg, x.vec) :: x.heard

/-- A wave's knowledge of another workgroup grows by a vector (log 84). -/
def hear (h : List (Nat × Nat × List (Option Nat))) (e : Nat × Nat × List (Option Nat)) : List (Nat × Nat × List (Option Nat)) :=
  if h.any fun x => x.1 == e.1 && x.2.1 == e.2.1 then
    h.map fun x => if x.1 == e.1 && x.2.1 == e.2.1 then (x.1, x.2.1, joinVec x.2.2 e.2.2) else x
  else h ++ [e]

/-- An acquire joins a snapshot (R299): V by what the snapshot knows of the wave's own workgroup, and C. -/
def State.joinSnap (s : State) (w : Nat) (scope : Scope) (snap : RelSnap) : State :=
  let y := s.who w
  let (mine, others) := snap.known.partition fun e => e.1 == y.launch && e.2.1 == y.lin
  let s := s.modWave w fun x =>
    { x with vec := mine.foldl (fun v e => joinVec v e.2.2) x.vec, heard := others.foldl hear x.heard }
  if Scope.wider scope && Scope.wider snap.scope then
    s.modWg (s.wave w).wg fun g => { g with clock := max g.clock (snap.clock + 1) }
  else s

/-- An acquire access joins the release accesses that its bytes carry. -/
def State.acquireFrom (s : State) (w : Nat) (scope : Scope) (snaps : List RelSnap) : State :=
  (snaps.filter fun x => !x.fence && s.mutual x w scope).foldl (fun s x => s.joinSnap w scope x) s

/-- Bytes written by a thread carry what it has released: the release store itself, or a store after a release fence.
A plain store breaks what the bytes carried; a read-modify-write keeps it (R291). -/
def State.postWrite (s : State) (t : TId) (space addr n : Nat) (rmw rel : Bool) (scope : Scope) : State :=
  let s :=
    if rmw then s
    else { s with rels := s.rels.filter fun r => !(r.space == space && r.addr < addr + n && addr < r.addr + r.size) }
  let s := { s with rels := s.rels ++ (s.thread t).relFences.map fun f => ⟨space, addr, n, f⟩ }
  if rel then
    let (snap, s) := s.releaseBy t scope false
    { s with rels := s.rels ++ [⟨space, addr, n, snap⟩] }
  else s

/-- Bytes read by a thread: an acquire joins; the releases by fence are kept for a later acquire fence (R291). -/
def State.postRead (s : State) (t : TId) (space addr n : Nat) (acq : Bool) (scope : Scope) : State :=
  let cs := s.carried space addr n
  let s := s.modThread t fun th => { th with readRels := (th.readRels ++ cs.filter (·.fence)).eraseDups }
  if acq then s.acquireFrom t.w scope cs else s

/-- A release fence joins those that later stores carry: it stands for the earlier ones of its scope or a narrower one. -/
def addFence (fs : List RelSnap) (x : RelSnap) : List RelSnap := fs.filter (fun f => x.scope.code < f.scope.code) ++ [x]

/-- An acquire fence at a scope has joined all that a release it reads can give: a wider one has nothing more to join. -/
def Scope.joinsAll (scope : Scope) (x : RelSnap) : Bool := !Scope.wider x.scope || Scope.wider scope

/-- FENCE by a thread (R290, R291, R303). -/
def State.fenceBy (s : State) (t : TId) (ord : FenceOrder) (scope : Scope) : State :=
  let acq (s : State) : State :=
    let (now, later) := (s.thread t).readRels.partition fun x => s.mutual x t.w scope
    let s := now.foldl (fun s x => s.joinSnap t.w scope x) s
    s.modThread t fun th => { th with readRels := later ++ now.filter fun x => !Scope.joinsAll scope x }
  let rel (s : State) : RelSnap × State :=
    let (snap, s) := s.releaseBy t scope true
    (snap, s.modThread t fun th => { th with relFences := addFence th.relFences snap })
  match ord with
  | .acquire => acq s
  | .release => (rel s).2
  | .acqRel => (rel (acq s)).2
  | .seqCst =>
    let s := acq s
    let s := (s.scFences.filter fun x => s.mutual x t.w scope).foldl (fun s x => s.joinSnap t.w scope x) s
    let (snap, s) := rel s
    { s with scFences := s.scFences ++ [snap] }

/-- The record of MEMORY_RACE and of STALE_CONST (R302). -/
def Race.trap (code : Cause) (r : Race) (gva : Nat) (scratch : Bool) : Trap :=
  let gva := gva / 32 * 32
  { code := code
    words := [lo32 gva, hi32 gva,
      r.kind * 2 ^ 29 + b2n r.clock * 2 ^ 28 + b2n r.eng * 2 ^ 27 + b2n scratch * 2 ^ 26 + r.wave % 32 * 2 ^ 21, r.wg,
      0, 0, 0, 0]
    arg := 0 }

end Sys2Proof.Machine
end

