-- ==== Sys2Proof/Machine/Codec.lean ====
section
/-!
DEFINITION. The lossless compression of memory (R378 to R382): coded lines, sectors, images, and the read of a compressed
page.
-/
namespace Sys2Proof.Machine

/-- The 16 words of a line. -/
def lineWords (bs : List Byte) : List Nat := (List.range 16).map fun k => wordOfBytes ((bs.drop (8 * k)).take 8)

/-- The tag of word `k` of a line and its data bits with their number (R378). -/
def codeWord (b : Book) (ws : List Nat) (k : Nat) : Nat × Nat × Nat :=
  let w := ws.getD k 0
  if w == 0 then (0, 0, 0)
  else if 1 ≤ k && w == ws.getD (k - 1) 0 then (2, 0, 0)
  else
    match (List.range 16).find? fun d => b.words.getD d 0 == w with
    | some d => (1, d, 4)
    | none => (3, w, 64)

/-- A coded line as a bit string and its length (R378). -/
def codeLine (b : Book) (bs : List Byte) : Nat × Nat :=
  let cs := (List.range 16).map (codeWord b (lineWords bs))
  let tags := cs.foldr (fun c n => c.1 + 4 * n) 0
  cs.foldl (fun (n, len) c => (n + c.2.1 * 2 ^ len, len + c.2.2)) (tags, 32)

/-- The words of a coded line after its tags; none when the bits run out (R381). -/
def decodeWords (b : Book) (bits tags : Nat) : Nat → Nat → Nat → Nat → Option (List Nat × Nat)
  | 0, _, _, left => some ([], left)
  | fuel + 1, k, prev, left =>
    let next (w used : Nat) : Option (List Nat × Nat) :=
      if left < used then none
      else (decodeWords b (bits / 2 ^ used) tags fuel (k + 1) w (left - used)).map fun (ws, r) => (w :: ws, r)
    match fld tags (2 * k) 2 with
    | 0 => next 0 0
    | 1 => next (b.words.getD (bits % 16) 0) 4
    | 2 => if k == 0 then none else next prev 0
    | _ => next (bits % 2 ^ 64) 64

/-- `n` coded lines from a bit string of `left` bits; none when the string does not decode. -/
def decodeLines (b : Book) : Nat → Nat → Nat → Option (List (List Byte))
  | 0, _, _ => some []
  | n + 1, bits, left =>
    if left < 32 then none
    else
      match decodeWords b (bits / 2 ^ 32) (bits % 2 ^ 32) 16 0 0 (left - 32) with
      | none => none
      | some (ws, r) =>
        (decodeLines b n (bits / 2 ^ (left - r)) r).map fun ls => (ws.flatMap (bytesOfWord 8)) :: ls

/-- The header of a sector (R379). -/
structure Sector where
  gen   : Nat
  first : Nat
  count : Nat
  used  : Nat
  deriving DecidableEq, Repr, Inhabited

def sectorHeader (bs : List Byte) : Sector :=
  let w := wordOfBytes (bs.take 4)
  { gen := fld w 24 8, first := fld w 19 5, count := fld w 14 5 + 1, used := fld w 4 10 }

/-- What a sector decodes to (R381, R382). -/
inductive SectorAns where
  | lines (ls : List (List Byte))
  | missing (gen8 : Nat)
  | corrupt
  deriving DecidableEq, Repr, Inhabited

def bookOf (books : List Book) (gen8 : Nat) : Option Book := books.find? fun b => b.gen % 256 == gen8

def decodeSector (books : List Book) (bs : List Byte) : SectorAns :=
  let h := sectorHeader bs
  match bookOf books h.gen with
  | none => .missing h.gen
  | some b =>
    match decodeLines b h.count (wordOfBytes (bs.drop 4)) (min h.used 992) with
    | none => .corrupt
    | some ls => .lines ls

/-- The bytes of a sector that holds `lines` coded lines from `first` on (R379). -/
def sectorBytes (gen first count bits used : Nat) : List Byte :=
  bytesOfWord 4 (gen % 256 * 2 ^ 24 + first * 2 ^ 19 + (count - 1) * 2 ^ 14 + used * 16) ++ bytesOfWord 124 bits

/-- A sector that is being filled. -/
structure Fill where
  first : Nat
  count : Nat
  bits  : Nat
  used  : Nat
  deriving DecidableEq, Repr, Inhabited

/-- The lines of a unit fill sectors in order (R380). -/
def fillSectors (b : Book) : Nat → List (List Byte) → Option Fill → List Fill
  | _, [], none => []
  | _, [], some f => [f]
  | i, l :: ls, f =>
    let (v, n) := codeLine b l
    match f with
    | none => fillSectors b (i + 1) ls (some ⟨i, 1, v, n⟩)
    | some f =>
      if f.used + n ≤ 992 then fillSectors b (i + 1) ls (some ⟨f.first, f.count + 1, f.bits + v * 2 ^ f.used, f.used + n⟩)
      else f :: fillSectors b (i + 1) ls (some ⟨i, 1, v, n⟩)

/-- A unit of 4 KiB as sectors, and whether it is stored RAW (R380). -/
def codeUnit (b : Book) (bs : List Byte) : Bool × List (List Byte) :=
  let ls := (List.range 32).map fun i => (bs.drop (128 * i)).take 128
  let fs := fillSectors b 0 ls none
  if 32 < fs.length || ls.any (fun l => 992 < (codeLine b l).2) then (true, ls)
  else (false, fs.map fun f => sectorBytes b.gen f.first f.count f.bits f.used)

def padBytes (m : Nat) (bs : List Byte) : List Byte := bs ++ List.replicate ((m - bs.length % m) % m) 0

/-- The image of some units (R379, R380). -/
def imageOf (b : Book) (units : List (List Byte)) : List Byte :=
  let us := units.map (codeUnit b)
  let start := (4 * units.length + 127) / 128
  let (table, _) := us.foldl
    (fun (t, at_) (raw, ss) => (t ++ bytesOfWord 4 (b2n raw * 2 ^ 31 + at_ * 64 + ss.length), at_ + ss.length)) ([], start)
  padBytes 4096 (padBytes 128 table ++ us.flatMap fun (_, ss) => ss.flatMap id)

/-- What a read of a compressed page finds (R382). -/
inductive CompAns where
  | bytes (bs : List Byte)
  /-- no slot holds the generation of a sector, at the offset from the start of the image -/
  | missing (gen8 off : Nat)
  | corrupt
  deriving DecidableEq, Repr, Inhabited

/-- The decoded line `line` of a unit, of which the sectors are `ss`. -/
def findLine (books : List Book) (line : Nat) : List (Nat × List Byte) → CompAns
  | [] => .corrupt
  | (at_, s) :: ss =>
    let h := sectorHeader s
    if h.first ≤ line && line < h.first + h.count then
      match decodeSector books s with
      | .lines ls => .bytes (ls.getD (line - h.first) [])
      | .missing g => .missing g at_
      | .corrupt => .corrupt
    else findLine books line ss

/-- The codebooks that a new decode may use: not one whose slot a ZBOOK that has begun takes (R383). -/
def State.liveBooks (s : State) : List Book :=
  let taken := s.cores.flatMap fun e => e.2.queues.filterMap fun q =>
    match q.2 with
    | .cmd c :: _ => c.began.bind (·.target)
    | _ => none
  s.books.filter fun b => !taken.contains b.gen

/-- A line of a compressed page: the image at `base`, the offset of the line in the original. -/
def State.compLine (s : State) (base off : Nat) : CompAns :=
  let e := s.readNat (base + 4 * (off / 4096)) 4
  let at_ := base + 128 * fld e 6 25
  if bitAt e 31 then .bytes (s.read (at_ + off % 4096) 128)
  else findLine s.liveBooks (off % 4096 / 128) ((List.range (e % 64)).map fun i => (at_ - base + 128 * i, s.read (at_ + 128 * i) 128))

/-- Joins what two parts of a read find: a missing codebook before a line that does not decode. -/
def CompAns.join : CompAns → CompAns → CompAns
  | .missing g o, _ => .missing g o
  | _, .missing g o => .missing g o
  | .corrupt, _ => .corrupt
  | _, .corrupt => .corrupt
  | .bytes a, .bytes b => .bytes (a ++ b)

/-- A read of `n` bytes at the physical address of a leaf; a compressed page is decoded (R382). -/
def State.pageRead (s : State) (pa pte n : Nat) : CompAns :=
  if pteComp pte then
    let size := 4096 * 2 ^ leafLog (pteSz pte)
    let base := pa / size * size
    let off := pa % size
    let ls := (List.range ((off % 128 + n + 127) / 128)).map fun i => s.compLine base (off / 128 * 128 + 128 * i)
    match ls.foldl CompAns.join (.bytes []) with
    | .bytes bs => .bytes ((bs.drop (off % 128)).take n)
    | a => a
  else .bytes (s.read pa n)

end Sys2Proof.Machine
end

