-- ==== Sys2Proof/Machine/Remote.lean ====
section
/-!
DEFINITION. Requests to fabric peers (R461) and the write-combining buffer (R459).
-/
namespace Sys2Proof.Machine

/-- The steps of TIME in 2 µs, after which a request is replayed, and in 500 ns (R459, R461). -/
def replayTime : Nat := 40000
def wcbAge : Nat := 10000

/-- Atomics and stores to a peer without an acknowledgement (R461). -/
def State.unacked (s : State) (dst : Nat) : Nat :=
  (s.remotes.filter fun r =>
    r.dst == dst &&
      match r.op with
      | .load _ _ => false
      | _ => true).length

/-- Sends a request with the next sequence number of its destination (R461). -/
def State.send (s : State) (core tag dst : Nat) (op : FabricOp) (by_ : Option (TId × Access)) (waves : List Nat) : State :=
  let n := (s.seqs.get dst 0) % 2 ^ 32
  let s := { s with
    seqs := s.seqs.put dst ((n + 1) % 2 ^ 32)
    remotes := s.remotes ++ [{ dst := dst, seq := n, op := op, tries := 0, core := core, tag := tag, by_ := by_, waves := waves }] }
  let s : State := waves.foldl (fun s w => s.modWave w fun x => { x with acks := x.acks + 1 }) s
  s.at (s.now + replayTime) (.fabricReplay dst n)

/-- Drains entries of a core's buffer in the order of their first stores (R459): one request each. An entry waits while its
peer has 256 requests without an acknowledgement (R461). -/
def State.wcbDrain (s : State) (core : Nat) (p : WcEntry → Bool) : State :=
  ((s.core core).wcb.filter p).foldl
    (fun s e =>
      if 256 ≤ s.unacked e.peer then s
      else
        let s := s.modCore core fun c => { c with wcb := c.wcb.filter fun x => !(x.peer == e.peer && x.line == e.line) }
        s.send core e.tag e.peer
          (.store (e.line * 128) (e.bytes.map fun b => (b.1, b.2))) none e.waves) s

/-- A store to a fabric peer enters the buffer (R459). -/
def State.wcbStore (s : State) (t : TId) (pa : Nat) (bs : List Byte) : State :=
  let c := t.core
  let peer := fabricPeer pa
  let line := fabricOff pa / 128
  let held := (s.core c).wcb.any fun e => e.peer == peer && e.line == line
  let s :=
    if held || (s.core c).wcb.length < 64 then s
    else
      let e := (s.core c).wcb.headD default
      s.wcbDrain c fun x => x == e
  let news : Tab Byte := (List.range bs.length).map fun i => (pa % 128 + i, bs.getD i 0)
  let s :=
    if held then
      s.modCore c fun k =>
        { k with
          wcb := k.wcb.map fun e =>
            if e.peer == peer && e.line == line then
              { e with
                bytes := news.foldl (fun b (i, v) => b.put i v) e.bytes
                waves := if e.waves.contains t.w then e.waves else e.waves ++ [t.w] }
            else e }
    else
      (s.modCore c fun k => { k with wcb := k.wcb ++ [⟨(s.wave t.w).tag, peer, line, news, s.now, [t.w]⟩] }).at (s.now + wcbAge)
        (.wcbAgeDrain c peer line)
  s.wcbDrain c fun e => e.peer == peer && e.line == line && e.bytes.length == 128

/-- The new value of an atomic (R338), on words of the type. -/
def AO.apply (op : AO) (t : AT) (old b c : Nat) : Nat :=
  let w := 8 * t.bytes
  let lt (x y : Nat) : Bool := if t.signed then signedOf w x < signedOf w y else x < y
  match op with
  | .add => (old + b) % 2 ^ w
  | .min => if lt b old then b else old
  | .max => if lt old b then b else old
  | .and => Nat.land old b
  | .or => Nat.lor old b
  | .xor => Nat.xor old b
  | .exch => b
  | .cas => if old == b then c else old
  | .inc => if lt old b then (old + 1) % 2 ^ w else old
  | .dec => if lt b old then (old + 2 ^ w - 1) % 2 ^ w else old
  | .addF32 => fmt32.round .rn (Fl.add .rn (fmt32.read old) (fmt32.read b))

end Sys2Proof.Machine
end

