-- ==== Sys2Proof/Machine/Access.lean ====
section
/-!
DEFINITION. One access of one thread: the checks in the order of R329, where it lands, and what performing it does.
-/
namespace Sys2Proof.Machine

/-- Where an access lands: physical memory with its leaf, a byte of a core's SRAM bank, or another device. -/
inductive Place where
  | phys (pa pte : Nat)
  | bank (core bank off : Nat)
  | peer (pa pte : Nat)
  deriving DecidableEq, Repr, Inhabited

/-- What the checks of an access give. -/
inductive Verdict where
  | go (p : Place)
  | trap (tr : Trap)
  | page (va level : Nat)
  | wait (p : Park)
  deriving DecidableEq, Repr, Inhabited

def AccKind.stores : AccKind → Bool
  | .store _ | .spill _ _ | .atomic .. => true
  | _ => false
def AccKind.isAtomic : AccKind → Bool
  | .atomic .. => true
  | _ => false
/-- A store that reads nothing. -/
def AccKind.plain : AccKind → Bool
  | .store _ | .spill _ _ => true
  | _ => false
def AccKind.accType : AccKind → AccType
  | .store _ | .spill _ _ | .again true => .write
  | .atomic .. => .atomic
  | .fetch => .fetch
  | _ => .read

/-- The scope of an access that counts as an atomic operation for R295 (R317; log 15). -/
def Access.atomicAt (a : Access) : Option Scope :=
  if a.kind.isAtomic || a.acq || a.rel then some a.scope else none

/-! The scratchpad (R278, R279) -/

/-- The banks of a workgroup are not to be had by others: it is being saved to memory, is there, or comes back. An access of
another member waits for it, as if at this core. -/
def Wg.away (g : Wg) : Bool :=
  match g.st with
  | .saving _ | .saved _ | .restoring _ => true
  | _ => false

/-- The workgroups of a cluster by member number. -/
def State.memberWg (s : State) (launch cluster member : Nat) : Option (Nat × Wg) :=
  s.wgs.first fun e => e.2.launch == launch && e.2.cluster == cluster && e.2.member == member

/-- The member, logical bank and byte of a scratchpad address (R278). -/
def scratchMap (m addr : Nat) : Nat × Nat × Nat :=
  let n := addr / 128
  let l := n / m
  (n % m, l / 256, l % 256 * 128 + addr % 128)

/-- The checks of R279, R275 and R281 on `n` bytes of one line, or the bank that holds them. -/
def State.scratchAt (s : State) (g : Wg) (addr n : Nat) : Verdict :=
  let L := s.launch g.launch
  if L.hdr.scratch < addr + n then .trap (.general .scratchFault (cause := 1) (addr := addr))
  else
    let (member, lb, off) := scratchMap (max 1 L.members) addr
    match s.memberWg g.launch g.cluster member with
    | none => .trap (.general .clusterUnavailable (reg := member) (addr := addr))
    | some (_, h) =>
      if h.closed || h.st == .ended then .trap (.general .clusterUnavailable (reg := member) (addr := addr))
      else
        let pb := h.banks.getD lb 0
        let b := (s.core h.core).banks.get pb {}
        if h.away && h.lin != g.lin then .wait (.switching awayCore h.lin)
        else if b.switching.isSome then .wait (.switching h.core pb)
        else if b.mode != .scratch then .trap (.general .scratchFault (cause := 2) (addr := addr))
        else if b.pend.get (off / 128) 0 != 0 then .wait (.presence h.core pb (off / 128))
        else .go (.bank h.core pb off)

/-- The number of a cluster's scratchpad among the spaces of the race detector and of order: another one for each cluster of each
launch. -/
def scratchSpace (g : Wg) : Nat := 1 + (g.launch + g.cluster) * (g.launch + g.cluster + 1) / 2 + g.cluster

/-! Tile operations of the thread that have not started (R207) -/

/-- A tile operation of the thread that has not started and comes before an access in its program order (R207): one that
touches the same bytes, or any store of it before a release. -/
def State.tileBefore (s : State) (t : TId) (scratch : Bool) (addr n : Nat) (write rel : Bool) : Option Nat :=
  ((s.part t.pid).tileQ.find? fun o =>
    o.t == t && !o.begun && (o.overlaps write [⟨scratch, addr, n⟩] || (rel && o.storesTo))).map (·.id)

/-! The checks (R329) -/

/-- The trap of a race: the granule's virtual address is that of the access moved to the granule. -/
def State.raceCheck (s : State) (t : TId) (space addr n gva : Nat) (write scratch : Bool) (at_ : Option Scope) :
    Option Trap :=
  (s.raceOf (s.who t.w) space addr n write at_).map fun (r, g) => r.trap .race (gva - addr % 32 + (g - addr / 32) * 32) scratch

/-- A recorded write of the same launch in a granule that LDC reads (R286). -/
def State.staleAt (s : State) (launch pa n : Nat) : Option (RaceWrite × Nat) :=
  (granules pa n).findSome? fun g => ((s.raceRec launch 0 g).write).map fun r => (r, g)

/-- The checks of a scratchpad access or an aperture access. -/
def State.judgeScratch (s : State) (t : TId) (a : Access) (addr : Nat) : Verdict :=
  let g := s.wg (s.wave t.w).wg
  match s.scratchAt g addr a.size with
  | .go p =>
    match s.raceCheck t (scratchSpace g) addr a.size addr a.kind.stores true a.atomicAt with
    | some tr => .trap tr
    | none => .go p
  | v => v

/-- The checks of an access to a checked page: a stale constant (R286), or a race (R300). -/
def State.judgeChk (s : State) (t : TId) (a : Access) (va pa : Nat) (p : Place) : Verdict :=
  if a.const then
    match s.staleAt (s.wave t.w).launch pa a.size with
    | some (r, g) => .trap ((⟨4, false, r.eng, r.wave, r.wg⟩ : Race).trap .staleConst (va - pa % 32 + (g - pa / 32) * 32) false)
    | none => .go p
  else
    match s.raceCheck t 0 pa a.size va a.kind.stores false a.atomicAt with
    | some tr => .trap tr
    | none => .go p

/-- The checks of an access to a translated address. -/
def State.judgePhys (s : State) (t : TId) (a : Access) (va pa pte : Nat) : Verdict :=
  let last (p : Place) : Verdict := if pteChk pte then s.judgeChk t a va pa p else .go p
  if s.remote pa then last (.peer pa pte)
  else if !a.kind.plain && (linesOf pa a.size).any s.lineBad then
    .trap (.translation a.kind.accType 12 0 va)
  else
    match if a.kind.plain then CompAns.bytes [] else s.pageRead pa pte a.size with
    | .missing g _ => .trap (.general .codebookMissing (aux := g) (addr := va))
    | _ => last (.phys pa pte)

/-- The trap of a half of a dual word names the half, in a record of the general layout (R58, R432). -/
def Trap.inHalf (tr : Trap) (half : Nat) : Trap :=
  match tr.code with
  | .race | .staleConst | .translation | .fetch => tr
  | _ => { tr with words := (tr.words.headD 0 + half * 256) :: tr.words.tail }

def Verdict.inHalf (v : Verdict) (half : Nat) : Verdict :=
  match v with
  | .trap tr => .trap (tr.inHalf half)
  | v => v

/-- An access comes after the tile operations of its thread that it depends on (R207). -/
def State.afterTiles (s : State) (t : TId) (scratch : Bool) (addr : Nat) (a : Access) (v : Verdict) : Verdict :=
  match s.tileBefore t scratch addr a.size a.kind.stores a.rel with
  | some o => .wait (.tile o)
  | none => v

/-- The checks of an access, in the order of R329. -/
def State.judgeFull (s : State) (t : TId) (a : Access) : Verdict :=
  let va := a.addr.toNat
  if va % a.size != 0 then .trap (.general .misaligned (aux := a.size) (addr := va))
  else if a.scratch && 0xFFFFFF00 ≤ va % 2 ^ 32 then .trap (.general .scratchFault (cause := 3) (addr := va % 2 ^ 32))
  else if a.scratch then s.afterTiles t true (va % 2 ^ 32) a (s.judgeScratch t a (va % 2 ^ 32))
  else if isAperture va then
    let off := va - apertureBase
    if 0xFFFFFF00 ≤ off || a.const then .trap (.general .scratchFault (cause := 3) (addr := off))
    else s.afterTiles t true off a (s.judgeScratch t a off)
  else
    s.afterTiles t false va a
      (match s.xlat (some t.core) (s.wave t.w).tag (s.privileged t) a.kind.accType va with
       | .fault 1 level => .page va level
       | .fault cause level => .trap (.translation a.kind.accType cause level va)
       | .ok pa pte => s.judgePhys t a va pa pte)

def State.judge (s : State) (t : TId) (a : Access) : Verdict := (s.judgeFull t a).inHalf a.half

/-! Performing -/

/-- The entry of a discarded store (R468, R473). -/
def State.storeLost (s : State) (tag src lin pa : Nat) : State :=
  s.fqPost tag (fqEntry .dataLost 0 4 tag src lin (pa / 128 * 128))

/-- Writes scratchpad bytes of a bank. -/
def State.bankWrite (s : State) (core bank off : Nat) (bs : List Byte) : State :=
  s.modCore core fun c => { c with banks := c.banks.put bank { c.banks.get bank {} with bytes := (c.banks.get bank {}).bytes.write off bs } }
def State.bankRead (s : State) (core bank off n : Nat) : List Byte := ((s.core core).banks.get bank {}).bytes.read off n

/-- Writes bytes at the place of an access. -/
def State.putPlace (s : State) (t : TId) (p : Place) (bs : List Byte) : State :=
  match p with
  | .bank core bank off => s.bankWrite core bank off bs
  | .phys pa _ =>
    let x := s.wave t.w
    let (s, lost) := s.writePhys x.tag pa bs
    lost.foldl (fun s l => s.storeLost x.tag x.wid.toNat (s.wg x.wg).lin l) s
  | .peer pa _ => s.wcbStore t pa bs

/-- Reads bytes at the place of an access; what does not decode is free (R382 states no value; log 16). -/
def State.getPlace (s : State) (p : Place) (n : Nat) : List Byte × State :=
  match p with
  | .bank core bank off => (s.bankRead core bank off n, s)
  | .phys pa pte =>
    match s.pageRead pa pte n with
    | .bytes bs => (bs, s)
    | _ => ((List.range n).map fun i => Config.freeByte (s.freeCtr + i), { s with freeCtr := s.freeCtr + n })
  | .peer _ _ => ([], s)

/-- The space and address by which order and races know a place. -/
def State.orderKey (s : State) (t : TId) (a : Access) (p : Place) : Nat × Nat :=
  match p with
  | .bank _ _ _ => (scratchSpace (s.wg (s.wave t.w).wg), a.addr.toNat % 2 ^ 32)
  | .phys pa _ | .peer pa _ => (0, pa)

/-- The record of an access with the race detector: scratchpad, and checked pages (R298). -/
def State.recordAccess (s : State) (t : TId) (a : Access) (p : Place) : State :=
  let (space, addr) := s.orderKey t a p
  let watched :=
    match p with
    | .bank _ _ _ => true
    | .phys _ pte | .peer _ pte => pteChk pte
  if watched && !a.const then s.raceNote (s.who t.w) space addr a.size a.kind.stores a.atomicAt false else s

/-- The banks that serve the data cache as ways (R272). -/
def Core.ways (c : Core) : List Nat :=
  (List.range 32).filter fun b => (c.banks.get b {}).mode == .cache && (c.banks.get b {}).switching.isNone

/-- A line enters the data cache (R272): in the first way whose place in the line's set is free, or in the place of a line of the
set, not one at keep priority while there is another (log 66). What a dirty line holds is in memory already. -/
def Core.enterLine (c : Core) (now line : Nat) (d : DLine) : Core :=
  let set := c.dlines.filter fun e => e.1 % 256 == line % 256
  match c.ways.find? fun w => set.all fun e => e.2.way != w with
  | some w => { c with dlines := c.dlines.put line { d with way := w } }
  | none =>
    let rest := set.filter fun e => !e.2.keep
    let old := if rest.isEmpty then set else rest
    match old[Config.victim now line % old.length]? with
    | some (n, e) => { c with dlines := (c.dlines.del n).put line { d with way := e.way } }
    | none => c

/-- A line of the core's data cache after an access (R272); a watched line stays out of it (R316). -/
def State.cacheLine (s : State) (core line : Nat) (dirty keep : Bool) : State :=
  if s.watches.any fun e => e.pa / 128 == line then
    s.modCore core fun c => { c with dlines := c.dlines.del line }
  else
    s.modCore core fun c =>
      match c.dlines.find? line with
      | some d => { c with dlines := c.dlines.put line { d with dirty := d.dirty || dirty, keep := d.keep || keep } }
      | none => c.enterLine s.now line { dirty := dirty, keep := keep }

/-- The caches after an access to memory (R443, R272). -/
def State.cached (s : State) (t : TId) (a : Access) (p : Place) : State :=
  match p with
  | .phys pa pte | .peer pa pte =>
    let s := if (cachedLeaf (s.core t.core).tlb (s.wave t.w).tag a.addr.toNat).isSome then s
      else s.tlbFill (some t.core) (s.wave t.w).tag a.addr.toNat pte
    if a.const || !deviceMem pa then s else s.cacheLine t.core (pa / 128) a.kind.stores false
  | .bank _ _ _ => s

/-- A release access or a fence at device or system scope drains the core's write-combining buffer (R294). -/
def State.releaseDrain (s : State) (t : TId) (scope : Scope) : State :=
  if Scope.widest scope then s.wcbDrain t.core fun _ => true else s

/-- The operand words of an atomic. -/
def atomicOld (t : AT) (bs : List Byte) : Nat := wordOfBytes (bs.take t.bytes)

/-- The lines of a core's constant cache: 64 KiB (R285). -/
def constLines : Nat := 512

/-- A line enters the constant cache, in the place of another when it is full (R285; log 66). -/
def Core.fillConst (c : Core) (now line launch : Nat) (bs : List Byte) : Core :=
  let old := if c.consts.length < constLines then c.consts else c.consts.eraseIdx (Config.victim now line % constLines)
  { c with consts := (line, launch, bs) :: old }

/-- The constant line of a launch that holds an address (R285). -/
def Core.constAt (c : Core) (launch pa : Nat) : Option (List Byte) :=
  (c.consts.find? fun e => e.1 == pa / 128 && e.2.1 == launch).map (·.2.2)

/-- The constant line that an LDC reads (R285): the line as it was when it was filled. -/
def State.constRead (s : State) (t : TId) (pa pte n : Nat) : List Byte × State :=
  let l := (s.wave t.w).launch
  match (s.core t.core).constAt l pa with
  | some bs => ((bs.drop (pa % 128)).take n, s)
  | none =>
    let (bs, s) := s.getPlace (.phys (pa / 128 * 128) pte) 128
    ((bs.drop (pa % 128)).take n, s.modCore t.core fun c => c.fillConst s.now (pa / 128) l bs)

/-- A load or atomic is sent to a fabric peer (R461): an entry of the buffer for its line goes first (R459). -/
def State.request (s : State) (t : TId) (a : Access) (pa : Nat) (op : FabricOp) : State :=
  let s := s.wcbDrain t.core fun e => e.peer == fabricPeer pa && e.line == fabricOff pa / 128
  s.send t.core (s.wave t.w).tag (fabricPeer pa) op (some (t, a)) []

/-- A load from a fabric peer: through the constant cache the whole line is asked for, or the line that it holds answers (R285). -/
def State.peerLoad (s : State) (t : TId) (a : Access) (pa : Nat) : Option (List Byte) × State :=
  if a.const then
    match (s.core t.core).constAt (s.wave t.w).launch pa with
    | some bs => (some ((bs.drop (pa % 128)).take a.size), s)
    | none => (none, s.request t a pa (.load (fabricOff pa / 128 * 128) 128))
  else (none, (s.request t a pa (.load (fabricOff pa) a.size)).postRead t 0 pa a.size a.acq a.scope)

/-- Performs an access that passed its checks: the bytes it returns, none when a peer will answer. An access that a peer performs
takes its place in order when it is sent. -/
def State.perform (s : State) (t : TId) (a : Access) (p : Place) : Option (List Byte) × State :=
  let (space, addr) := s.orderKey t a p
  let s := s.recordAccess t a p
  let s := if a.rel then s.releaseDrain t a.scope else s
  let s := s.cached t a p
  match p, a.kind with
  | .peer pa _, .load _ _ _ | .peer pa _, .fill => s.peerLoad t a pa
  | .peer pa _, .atomic op ty b c _ =>
    let s := s.request t a pa (.atomic (fabricOff pa) op ty b c)
    let s := s.postRead t space addr a.size a.acq a.scope
    (none, s.postWrite t space addr a.size true a.rel a.scope)
  | _, .store bs | _, .spill bs _ =>
    let s := s.postWrite t space addr a.size false a.rel a.scope
    (some [], s.putPlace t p bs)
  | _, .atomic op ty b c _ =>
    let (bs, s) := s.getPlace p a.size
    let s := s.postRead t space addr a.size a.acq a.scope
    let s := s.postWrite t space addr a.size true a.rel a.scope
    (some bs, s.putPlace t p (bytesOfWord a.size (AO.apply op ty (wordOfBytes bs) b.toNat c.toNat)))
  | .phys pa pte, .load _ _ _ =>
    let (bs, s) := if a.const then s.constRead t pa pte a.size else s.getPlace p a.size
    (some bs, if a.const then s else s.postRead t space addr a.size a.acq a.scope)
  | _, _ =>
    let (bs, s) := s.getPlace p a.size
    (some bs, s.postRead t space addr a.size a.acq a.scope)

/-- The registers that the bytes of a load go to (R332, R338). -/
def AccKind.result (k : AccKind) (bs : List Byte) : List (Nat × Word) :=
  match k with
  | .load d n signed =>
    if bs.length < 4 then
      let w := 8 * bs.length
      [(d, BitVec.ofNat 32 (if signed then wrapNat 32 (signedOf w (wordOfBytes bs)) else wordOfBytes bs))]
    else (List.range n).map fun i => (d + i, BitVec.ofNat 32 (wordOfBytes ((bs.drop (4 * i)).take 4)))
  | .atomic _ ty _ _ (some d) => putNum ty.wide d (wordOfBytes bs)
  | _ => []

/-- The destinations of an access. -/
def AccKind.dests : AccKind → List Nat
  | .load d n _ => (List.range n).map (d + ·)
  | .atomic _ ty _ _ (some d) => Machine.dests ty.wide d
  | _ => []

end Sys2Proof.Machine
end

