-- ==== Sys2Proof/Machine/Gate.lean ====
section
/-!
DEFINITION. Ordered operations and turn-ending events of a deterministic launch (R304 to R307), and the accesses of a
bundle: what each thread's verdict leads to (R54, R281, R332).
-/
namespace Sys2Proof.Machine

/-- Threads in ascending lane order (R330), the lower wave slot first on one lane. -/
def insertLane (t : TId) : List TId → List TId
  | [] => [t]
  | u :: us => if t.lane < u.lane || (t.lane == u.lane && t.w < u.w) then t :: u :: us else u :: insertLane t us
def laneOrder (ts : List TId) : List TId := ts.foldr insertLane []

/-- The waves of some threads by ascending wave slot, in which their commands enter the queues (R292). -/
def bySlot (ts : List TId) : List Nat := ((ts.map (·.w)).foldr (fun w ws => (ws.filter (· < w)) ++ w :: ws.filter (w < ·)) [])

/-- The wave holds the keystone with t[w] = v[w] (R306). -/
def State.holdsKey (s : State) (w : Nat) : Bool :=
  let x := s.wave w
  let L := s.launch x.launch
  L.key == some (s.lid w) && L.keyIn && x.turns == x.visits

/-- Every thread of the wave that is not in the present bundle waits at another address, and the lowest lane is in the
bundle (R307). -/
def State.gathered (s : State) (w : Nat) : Bool :=
  let x := s.wave w
  let mine := (s.cur.threads.filter fun t => t.w == w).map (·.lane)
  let ls := x.live?
  (ls.head?.map mine.contains).getD false &&
    ls.all fun i =>
      mine.contains i ||
        match (x.thread i).st with
        | .keywait _ => (x.thread i).pc != s.cur.pc
        | _ => false

/-- The threads of a wave that have been granted their turn at the bundle's instruction come together in the bundle, which serves
the group once (R307). A thread of another wave on one of their lanes is filed again. -/
def State.gatherGroup (s : State) (w : Nat) : State :=
  let more : List TId := (((s.wave w).live?.map fun i => (⟨w, i⟩ : TId)).filter fun t =>
    !s.cur.threads.contains t && (s.thread t).grant && (s.thread t).pc == s.cur.pc)
  if more.isEmpty then s
  else
    let out := s.cur.threads.filter fun u => more.any fun t => t.lane == u.lane
    let s := (more ++ out).foldl State.unfile s
    let s := out.foldl (fun s u => s.file u 2) s
    let ts := (s.cur.threads.filter fun u => !out.contains u) ++ more
    let s := s.modPart (s.cur.core * 4 + s.cur.part) fun p => { p with bins := p.bins.upd s.cur.bin fun b => { b with threads := ts } }
    { s with cur := { s.cur with threads := ts } }

/-- The threads that need the keystone, or end a turn: a wave of a deterministic launch that may not go on yet waits with
all its threads of the bundle (R306, R307). The others go on. -/
def State.gate (s : State) (needs : List TId) (turn : Bool) : State :=
  let ws := ((needs.map (·.w)).eraseDups).filter fun w => (s.launch (s.wave w).launch).hdr.determ
  ws.foldl
    (fun s w =>
      let s := s.gatherGroup w
      let mine := s.cur.threads.filter fun t => t.w == w
      if mine.all (fun t => (s.thread t).grant) || (s.gathered w && (turn || s.holdsKey w)) then
        mine.foldl (fun s t => s.modThread t fun th => { th with grant := false }) s
      else
        let pc := s.cur.pc
        let s := mine.foldl
          (fun s t => (s.modThread t fun th => { th with st := .keywait turn, pc := pc, grant := false }).leaveBundle t) s
        let s := { s with cur := { s.cur with threads := s.cur.threads.filter fun t => t.w != w } }
        s.serve w) s

/-- The threads of a wave whose turn a served event ends (R307). -/
def State.endTurns (s : State) (ts : List TId) : State :=
  (((ts.map (·.w)).eraseDups).filter fun w => (s.launch (s.wave w).launch).hdr.determ).foldl (fun s w => s.turnEnd w) s

/-- Some page of a range is SHARED_ORDERED (R304). -/
def State.sordRange (s : State) (core : Option Nat) (tag : Nat) (priv : Bool) (va n : Nat) : Bool :=
  n != 0 && (List.range ((va % 4096 + n + 4095) / 4096)).any fun k =>
    let a := (va / 4096 + k) * 4096
    !isAperture a &&
      match s.xlat core tag priv .write a with
      | .ok _ pte => pteSord pte
      | .fault _ _ => false

/-- A store of a deterministic launch to a SHARED_ORDERED page, and an atomic, is an ordered operation (R304). -/
def State.isOrdered (s : State) (t : TId) (a : Access) : Bool :=
  a.kind.isAtomic ||
    (a.kind.plain && !a.scratch && !isAperture a.addr.toNat &&
      match s.xlat (some t.core) (s.wave t.w).tag (s.privileged t) .write a.addr.toNat with
      | .ok _ pte => pteSord pte
      | .fault _ _ => false)

/-! The accesses of a bundle -/

/-- Changes the window that an access has opened. -/
def State.modWindow (s : State) (t : TId) (a : Access) (f : Window → Window) : State :=
  s.modThread t fun th =>
    { th with windows := th.windows.map fun x => if x.pc == a.pc && x.half == a.half && x.ready.isNone then f x else x }

/-- An access returns its bytes: its window receives them at core cycle `ready`. -/
def State.answer (s : State) (t : TId) (a : Access) (bs : List Byte) (ready : Nat) : State :=
  s.modWindow t a fun x => { x with regs := a.kind.result bs, ready := some ready, pend := none }

/-- A thread waits with an access to perform later (R281, R434, R445). -/
def State.parkAccess (s : State) (t : TId) (a : Access) (p : Park) : State :=
  (s.modThread t fun th => { th with st := .parked p, pend := some a }).leaveBundle t

/-- An access finds the errors of the lines that it reads (R471). -/
def State.meetAccess (s : State) (t : TId) (a : Access) : State :=
  if a.scratch then s
  else s.meetVa (some t.core) (s.wave t.w).tag (s.privileged t) a.kind.accType a.addr.toNat a.size

/-- One access of one acting thread. A result goes through a window, open for `la` instructions from cycle `ready` on at
the latest; an access without a destination opens none (R50, R54). An acquire that meets a page fault closes the windows at
once, since what follows comes after it (R291). -/
def State.accessOne (la ready : Nat) (s : State) (t : TId) (a : Access) : State :=
  let s := s.meetAccess t a
  let dr := a.kind.dests.filter (· != 255)
  let opened (s : State) : State := s.openWindow a.half la none t dr [] {}
  match s.judge t a with
  | .go p =>
    let s := opened s
    match s.perform t a p with
    | (some bs, s) => s.answer t a bs ready
    | (none, s) => s
  | .trap tr =>
    if dr.isEmpty || tr.code != .translation then s.raise t tr a.pc
    else (opened s).modWindow t a fun x => { x with fail := some tr, ready := some ready }
  | .page va level =>
    if dr.isEmpty then (s.parkPage t va a.kind.accType.code level { a with unseen := a.kind.plain }).leaveBundle t
    else
      let s := (opened s).modWindow t a fun x => { x with pend := some a }
      if a.acq then s.modThread t Thread.close else s
  | .wait p => (opened s).parkAccess t a p

/-- An instruction whose active threads each make one access (R330). -/
def State.accesses (s : State) (h : Hd) (lat : Latency) (mk : State → TId → Access) : State :=
  let needs := (s.active h).filter fun t => s.isOrdered t (mk s t)
  let s := s.gate needs false
  let dr := ((s.active h).head?.map fun t => (mk s t).kind.dests).getD []
  let s1 := s.begin h dr []
  let (n, s1) := s1.latency lat
  ((laneOrder (s.acting s1 h)).foldl (fun z t => z.accessOne h.la (s.cycle + n) t (mk s t)) s1).settle false

end Sys2Proof.Machine
end

