-- ==== Sys2Proof/Machine/Memory.lean ====
section
/-!
DEFINITION. The instructions of global memory: LD, ST, LDC, PREF, CCTL, ATOM and RED (R331 to R339).
-/
namespace Sys2Proof.Machine

/-- The global address of a thread (R328). -/
def State.gaddr (s : State) (t : TId) (a : Nat) (off : Int) : DWord := s.rd64 t a + BitVec.ofInt 64 off
/-- The scratchpad address of a thread (R328). -/
def State.saddr (s : State) (t : TId) (a : Nat) (off : Int) : DWord :=
  BitVec.ofNat 64 (wrapNat 32 ((s.rd t a).toNat + off))

def MT.signed? : MT → Bool
  | .s8 | .s16 => true
  | _ => false

/-- The bytes that a store takes from its data registers (R333). -/
def State.storeData (s : State) (t : TId) (d : Nat) (mt : MT) : List Byte :=
  (((List.range mt.regs).flatMap fun i => bytesOfWord 4 (s.rd t (d + i)).toNat)).take mt.bytes

/-- A load as an access (R332); v255 as the destination of several registers is v255 alone (R43). -/
def loadKind (d : Nat) (mt : MT) : AccKind := .load d (if d == 255 then 1 else mt.regs) (MT.signed? mt)

/-- A load or store of global memory or the scratchpad by a thread. -/
def State.memAccess (s : State) (_t : TId) (scratch : Bool) (addr : DWord) (size : Nat) (kind : AccKind) (scope : Scope)
    (acq rel : Bool) (half : Nat) : Access :=
  { scratch := scratch, const := false, addr := addr, size := size, kind := kind, scope := scope, acq := acq, rel := rel
    pc := s.cur.pc, half := half }

/-- The access of LD (R332), of ST (R333) and of LDC (R335). -/
def State.ldAccess (s : State) (t : TId) (d a : Nat) (off : Int) (f : MemForm) : Access :=
  s.memAccess t false (s.gaddr t a off) f.mt.bytes (loadKind d f.mt) f.scope f.ordered false 0
def State.stAccess (s : State) (t : TId) (d a : Nat) (off : Int) (f : MemForm) : Access :=
  s.memAccess t false (s.gaddr t a off) f.mt.bytes (.store (s.storeData t d f.mt)) f.scope false f.ordered 0
def State.ldcAccess (s : State) (t : TId) (d a : Nat) (off : Int) (mt : MT) : Access :=
  { s.memAccess t false (s.gaddr t a off) mt.bytes (loadKind d mt) .thread false false 0 with const := true }

/-- LD (R332). -/
def execLd (h : Hd) (d a : Nat) (off : Int) (f : MemForm) (s : State) :
    Host.Outcome State Fault Refusal :=
  .next (s.accesses h (.atLeast 28) fun s t => s.ldAccess t d a off f)

/-- ST (R333). -/
def execSt (h : Hd) (d a : Nat) (off : Int) (f : MemForm) (s : State) :
    Host.Outcome State Fault Refusal :=
  .next (s.accesses h .short fun s t => s.stAccess t d a off f)

/-- LDC (R335). -/
def execLdc (h : Hd) (d a : Nat) (off : Int) (_hint : Hint) (t : MT) (s : State) :
    Host.Outcome State Fault Refusal :=
  .next (s.accesses h (.atLeast 6) fun s u => s.ldcAccess u d a off t)

/-- The physical address of a thread's line for PREF and CCTL: none where it does not translate, and in the aperture. -/
def State.lineAt (s : State) (t : TId) (va : Nat) : Option Nat :=
  match s.xlat (some t.core) (s.wave t.w).tag (s.privileged t) .read va with
  | .ok pa _ => some pa
  | .fault _ _ => none

/-- An instruction that acts on the caches for each active thread and raises nothing. -/
def State.eachLine (s : State) (h : Hd) (a : Nat) (off : Int) (f : State → TId → Nat → State) : State :=
  let s1 := s.begin h [] []
  ((s.acting s1 h).foldl
    (fun z t =>
      match s.lineAt t (s.gaddr t a off).toNat with
      | some pa => f z t pa
      | none => z) s1).settle false

/-- A load of the line at a physical address would fault: it answers no read, or misses its codebook (R336, R473, R382). -/
def State.lineFaults (s : State) (t : TId) (va pa : Nat) : Bool :=
  s.lineBad (pa / 128) ||
    match s.xlat (some t.core) (s.wave t.w).tag (s.privileged t) .read va with
    | .ok _ pte => (s.pageRead (pa / 128 * 128) pte 128 matches .missing _ _)
    | .fault _ _ => true

/-- PREF (R336): the line enters the core's data cache, or with `.stream` the shared cache alone. -/
def execPref (h : Hd) (a : Nat) (off : Int) (hint : Hint) (_t : MT) (s : State) :
    Host.Outcome State Fault Refusal :=
  .next (s.eachLine h a off fun s t pa =>
    if hint == .stream || !deviceMem pa || s.lineFaults t (s.gaddr t a off).toNat pa then s
    else s.cacheLine t.core (pa / 128) false (hint == .keep))

/-- The effect of CCTL on a line of a core's caches (R337). -/
def Core.control (c : Core) (op : CctlOp) (line : Nat) : Core :=
  let drop (c : Core) : Core := { c with consts := c.consts.filter fun e => e.1 != line }
  match op, c.dlines.find? line with
  | .wb, some d => { c with dlines := c.dlines.put line { d with dirty := false } }
  | .wb, none => c
  | .inv, d => if (d.map (·.dirty)).getD false then drop c else drop { c with dlines := c.dlines.del line }
  | .wbinv, _ => drop { c with dlines := c.dlines.del line }

/-- CCTL (R337). -/
def execCctl (h : Hd) (a : Nat) (off : Int) (op : CctlOp) (s : State) :
    Host.Outcome State Fault Refusal :=
  .next (s.eachLine h a off fun s t pa => s.modCore t.core fun c => c.control op (pa / 128))

/-- The operands of an atomic (R338, R72): b, and the new value of CAS. -/
def State.atomicKind (s : State) (t : TId) (op : AO) (ty : AT) (b : Nat) (dest : Option Nat) : AccKind :=
  if ty.wide then .atomic op ty (s.rd64 t b) (if op == .cas then s.rd64 t (b + 2) else 0) dest
  else
    .atomic op ty (BitVec.ofNat 64 (s.rd t b).toNat)
      (if op == .cas then BitVec.ofNat 64 (s.rd t (b + 1)).toNat else 0) dest

/-- The access of ATOM, and of RED, which has no destination (R338). -/
def State.atomAccess (s : State) (t : TId) (a b : Nat) (off : Int) (op : AO) (ord : Order) (sc : Scope) (ty : AT)
    (dest : Option Nat) : Access :=
  s.memAccess t false (s.gaddr t a off) ty.bytes (s.atomicKind t op ty b dest) sc ord.acq ord.rel 0

/-- ATOM (R338, R339). -/
def execAtom (h : Hd) (d a b : Nat) (off : Int) (op : AO) (ord : Order) (sc : Scope) (t : AT) (s : State) :
    Host.Outcome State Fault Refusal :=
  .next (s.accesses h (.atLeast 32) fun s u => s.atomAccess u a b off op ord sc t (some d))

/-- RED (R338, R339). -/
def execRed (h : Hd) (a b : Nat) (off : Int) (op : AO) (ord : Order) (sc : Scope) (t : AT) (s : State) :
    Host.Outcome State Fault Refusal :=
  .next (s.accesses h .short fun s u => s.atomAccess u a b off op ord sc t none)

end Sys2Proof.Machine
end

