-- ==== Sys2Proof/Machine/Resume.lean ====
section
/-!
DEFINITION. The call stack (R250 to R252), and accesses that waited: what they do when what they waited for has come
(R54, R281, R434, R445).
-/
namespace Sys2Proof.Machine

/-! The call stack -/

/-- Pushes an entry, after the oldest of eight has been spilled (R251), and branches. -/
def Thread.pushCall (th : Thread) (ret target : DWord) : Thread :=
  { th with
    calls := ⟨ret, th.loops.length⟩ :: th.calls.take 7
    spilled := if 8 ≤ th.calls.length then th.spilled + 1 else th.spilled
    pc := target }

/-- The image of the entry that a push spills (R251). -/
def Thread.spillBytes (th : Thread) : List Byte :=
  match th.calls.getLast? with
  | some e => bytesOfWord 8 e.ret.toNat ++ bytesOfWord 8 (e.depth % 8)
  | none => bytesOfWord 8 0 ++ bytesOfWord 8 0

/-- Continues at an entry: the loop stack is cut back to its depth (R250, R256). -/
def Thread.returnTo (th : Thread) (ret : DWord) (depth : Nat) : Thread :=
  { th with pc := ret, loops := th.loops.drop (th.loops.length - depth) }

/-- Returns by the entry that was loaded from the stack area (R251). -/
def Thread.popSpilled (th : Thread) (bs : List Byte) : Thread :=
  ({ th with spilled := th.spilled - 1 }).returnTo (alignPc (BitVec.ofNat 64 (wordOfBytes (bs.take 8))))
    (wordOfBytes ((bs.drop 8).take 4) % 8)

/-- The address of spilled entry `n`. -/
def Thread.spillAddr (th : Thread) (n : Nat) : DWord := th.stackB + BitVec.ofNat 64 (16 * n)

/-! Accesses that waited -/

/-- What an access that has been performed does to its thread. -/
def State.finishAccess (s : State) (t : TId) (a : Access) (bs : List Byte) : State :=
  match a.kind with
  | .spill _ target => s.modThread t fun th => th.pushCall (a.pc + 8) target
  | .fill => s.modThread t fun th => th.popSpilled bs
  | _ => s.answer t a bs (s.cycOf t + 1)

/-- The window of an access, removed by the trap that the access raises; its number among the thread's long-latency
instructions (R511). -/
def State.dropAccess (s : State) (t : TId) (a : Access) : Nat × State :=
  let th := s.thread t
  let mine (x : Window) : Bool := x.pc == a.pc && x.half == a.half && x.ready.isNone
  let n := ((th.windows.find? mine).map (·.seq)).getD th.llSeq
  (n, s.modThread t fun th => { th with windows := th.windows.filter fun x => !mine x })

/-- A trap of an access that waited (R445, R510, R511). -/
def State.failAccess (s : State) (t : TId) (a : Access) (tr : Trap) : State :=
  let (n, s) := s.dropAccess t a
  (s.modThread t fun th => { (th.addTrap ⟨tr, a.pc, n⟩) with st := .ready, pend := none }).enterAlone t

/-- The register of the other half of a dual word whose result fails its test: neither half then has an effect (R58). -/
def State.restMisfit (s : State) (t : TId) (r : Rest) : Option Nat :=
  if r.long then none else ((s.badRegs (s.puts t r.regs)).head?).map (·.2)

/-- The other half of a dual word whose access has passed its checks (R58). -/
def State.doRest (s : State) (t : TId) (a : Access) : State :=
  match a.rest with
  | none => s
  | some r =>
    if r.long then s.openAt a.pc r.half 0 (some (s.cycOf t + 4)) false t (r.regs.map (·.1)) [] { regs := r.regs }
    else (s.putAll (s.puts t r.regs)).putThread t r.regs

/-! Requests to fabric peers (R459, R461) -/

/-- A device- or system-scope release drains every entry of the core's buffer (R294). -/
def Access.drainsAll (a : Access) : Bool := a.rel && Scope.widest a.scope

/-- The peers to which the accesses of some threads of a core send requests, one for each that is counted (R461): atomics, entries
of the buffer that a remote access or a release drains, and those that make room for stores. -/
def State.sendsTo (s : State) (core : Nat) (as : List (TId × Access)) : List Nat :=
  let wcb := (s.core core).wcb
  let remote := as.filterMap fun (t, a) =>
    if a.scratch || isAperture a.addr.toNat then none
    else
      match s.xlat (some t.core) (s.wave t.w).tag (s.privileged t) a.kind.accType a.addr.toNat with
      | .ok pa _ => if s.remote pa then some (pa, a.kind) else none
      | .fault _ _ => none
  let stores := (remote.filter fun e => e.2.plain).length
  if (as.any fun e => e.2.drainsAll) || (stores != 0 && 64 < wcb.length + stores) then
    wcb.map (·.peer) ++ (remote.filter fun e => e.2.isAtomic).map fun e => fabricPeer e.1
  else
    (remote.filter fun e => e.2.isAtomic).map (fun e => fabricPeer e.1) ++
      (wcb.filter fun e => remote.any fun r => !r.2.plain && e.peer == fabricPeer r.1 && e.line == fabricOff r.1 / 128).map (·.peer)

/-- No peer has too many requests without an acknowledgement for some more (R461). -/
def State.peersTake (s : State) (ps : List Nat) : Bool :=
  ps.all fun p => s.unacked p + (ps.filter (· == p)).length ≤ 256

/-- An access may be sent. -/
def State.canSend (s : State) (t : TId) (a : Access) : Bool := s.peersTake (s.sendsTo t.core [(t, a)])

/-- The instruction of an access issues again: its thread is filed at it. -/
def State.issueAgain (s : State) (t : TId) (a : Access) : State :=
  (s.modThread t fun th => { th with pend := none, pc := a.pc, counted := true }).release t

/-- An access is seen to be an ordered operation only now that its page is present (R304): its thread reaches it then (R306). -/
def State.reachesOrder (s : State) (t : TId) (a : Access) : Bool :=
  a.unseen && (s.launchOf t).hdr.determ && s.isOrdered t a

/-- A thread whose wait has ended tries its access again: it is performed and the thread filed; or it waits anew; or it
traps. A fetch, a WAITU, and a branch or LEND that reads its frame, is made again at the next issue, and an EGO is performed by
its own step (R363). -/
def State.retryAccess (s : State) (t : TId) : State :=
  match (s.thread t).pend with
  | none => s.release t
  | some a =>
    let clear (s : State) : State := s.modThread t fun th => { th with pend := none }
    match a.kind with
    | .fetch | .again _ => (clear s).release t
    | .ego v _ _ _ =>
      let s := s.modThread t fun th => { th with st := .parked .reply }
      { s with todo := .event (.ego t.core (t.pid % 4) (t.w % 24) t.lane v) :: s.todo }
    | _ =>
      let s := s.meetAccess t a
      match s.judge t a with
      | .trap tr => s.failAccess t a tr
      | .page va level => s.parkPage t va a.kind.accType.code level a
      | .wait p => s.modThread t fun th => { th with st := .parked p }
      | .go p =>
        if s.reachesOrder t a then s.issueAgain t a
        else if !s.canSend t a then s.modThread t fun th => { th with st := .parked .room }
        else
        match a.rest.bind fun r => (s.restMisfit t r).map fun n => (r.half, n) with
        | some (k, n) => s.failAccess t a (.general .shape (half := k) (reg := n))
        | none =>
        match ((clear s).doRest t a).perform t a p with
        | (some bs, s) => (s.finishAccess t a bs).release t
        | (none, s) => if a.kind == .fill then s.modThread t fun th => { th with st := .parked .reply } else s.release t

/-- The threads that are PARKED for a reason. -/
def State.parkedOn (s : State) (p : Park → Bool) : List TId :=
  s.waves.flatMap fun e =>
    (List.range 32).filterMap fun i =>
      match (e.2.thread i).st with
      | .parked q => if p q then some ⟨e.1, i⟩ else none
      | _ => none

/-- Ends the waits for a reason. -/
def State.wake (s : State) (p : Park → Bool) : State := (s.parkedOn p).foldl (fun s t => s.retryAccess t) s

end Sys2Proof.Machine
end

