-- ==== Sys2Proof/Machine/Engine.lean ====
section
/-!
DEFINITION. The engines (15): the fields of a command, an engine's accesses, the completion record, and the queues.
-/
namespace Sys2Proof.Machine

/-! Fields (R361) -/

def QCmd.word (c : QCmd) (n : Nat) : Nat := (c.ecmd.getD n 0).toNat
def QCmd.opc (c : QCmd) : Nat := fld (c.word 0) 56 8
def QCmd.a0 (c : QCmd) : Nat := fld (c.word 0) 0 56
def QCmd.a1 (c : QCmd) : Nat := fld (c.word 1) 0 56
def QCmd.p (c : QCmd) : Nat := c.word 2
def QCmd.subst (c : QCmd) : Nat := fld (c.word 3) 60 4
def QCmd.roundCode (c : QCmd) : Nat := fld (c.word 3) 58 2
def QCmd.accumulates (c : QCmd) : Bool := bitAt (c.word 3) 57
def QCmd.cra (c : QCmd) : Nat := fld (c.word 3) 0 56

def rmOf (n : Nat) : RM :=
  match n with
  | 0 => .rn | 1 => .rz | 2 => .rp | _ => .rm

/-- A command that reads a parameter block (R362). -/
def QCmd.isBlock (c : QCmd) : Bool :=
  match c.engine with
  | 0 => c.opc == 2 || c.opc == 3 || c.opc == 4
  | 1 => c.opc == 1 || c.opc == 2
  | 2 => c.opc == 1 || c.opc == 2
  | 4 => c.opc == 1 || c.opc == 2
  | _ => false

/-- A command that converts values (R363). -/
def QCmd.converts (c : QCmd) : Bool := c.engine == 1 || c.engine == 4

/-- A command that exists (R362). -/
def QCmd.known (c : QCmd) : Bool :=
  match c.engine with
  | 0 => 1 ≤ c.opc && c.opc ≤ 5
  | 3 => 1 ≤ c.opc && c.opc ≤ 3
  | _ => c.opc == 1 || c.opc == 2

/-! Accesses -/

/-- Why an engine access stops (R361, R366, R367). -/
inductive EngErr where
  | fault (va : Nat)
  | page (va level : Nat) (acc : AccType)
  | gated (addr : Nat)
  | codebook (off : Nat)
  | bad (cause : Nat)
  | noProfile
  | status (code detail : Nat)
  | wait
  deriving DecidableEq, Repr, Inhabited

/-- Reads and writes of an engine: an error, or a value with the state. -/
abbrev Eng (α : Type) := Except EngErr α

/-- The place of `n` bytes of one line for an engine (R361, R425). A bank that is switching, and a clear presence bit, do not
concern it (R280). -/
def State.engPlace (s : State) (i : Issuer) (acc : AccType) (va n : Nat) : Eng Place :=
  if isAperture va then
    let addr := va - apertureBase
    let g := s.wg i.wg
    let L := s.launch i.launch
    if 0xFFFFFF00 ≤ addr then .error (.bad 6)
    else if L.hdr.scratch < addr + n then .error (.fault (apertureBase + max addr L.hdr.scratch))
    else
      let (member, lb, off) := scratchMap (max 1 L.members) addr
      match s.memberWg i.launch g.cluster member with
      | none => .error (.gated va)
      | some (_, h) =>
        if h.closed || h.st == .ended then .error (.gated va)
        else
          let pb := h.banks.getD lb 0
          if h.away then .error .wait
          else if ((s.core h.core).banks.get pb {}).mode != .scratch then .error (.fault va) else .ok (.bank h.core pb off)
  else
    match s.xlat none i.tag i.priv acc va with
    | .fault 1 level => .error (.page va level acc)
    | .fault _ _ => .error (.fault va)
    | .ok pa pte => .ok (if s.remote pa then .peer pa pte else .phys pa pte)

/-- The pieces of a range, none across a line. -/
def chunks (va : Nat) : Nat → Nat → List (Nat × Nat)
  | 0, _ => []
  | fuel + 1, n =>
    if n == 0 then []
    else
      let k := min n (128 - va % 128)
      (va, k) :: chunks (va + k) fuel (n - k)

def rangeChunks (va n : Nat) : List (Nat × Nat) := chunks va (n / 128 + 2) n

/-- Reads `n` bytes as an engine. Memory of another device has no value in the model: its bytes are free (log 17). -/
def State.engRead (s : State) (i : Issuer) (va n : Nat) : Eng (List Byte) :=
  (rangeChunks va n).foldl
    (fun r (a, k) =>
      match r with
      | .error e => .error e
      | .ok bs =>
        match s.engPlace i .engineRead a k with
        | .error e => .error e
        | .ok (.bank core bank off) => .ok (bs ++ s.bankRead core bank off k)
        | .ok (.peer _ _) => .ok (bs ++ (List.range k).map fun j => Config.memByte s.now (a + j))
        | .ok (.phys pa pte) =>
          if s.lineBad (pa / 128) then .error (.fault (a / 128 * 128))
          else
            match s.pageRead pa pte k with
            | .bytes b => .ok (bs ++ b)
            | .missing _ off => .error (.codebook off)
            | .corrupt => .ok (bs ++ (List.range k).map fun j => Config.memByte s.now (a + j)))
    (.ok [])

def State.engNat (s : State) (i : Issuer) (va n : Nat) : Eng Nat := (s.engRead i va n).map wordOfBytes

/-- A write that a command makes: bytes at an address. -/
abbrev EngWrite := Nat × List Byte

/-- The first error among the writes of a command: its writes are made when none has one (R367). -/
def State.engCheck (s : State) (i : Issuer) (ws : List EngWrite) : Eng Unit :=
  ws.foldl
    (fun r (va, bs) =>
      match r with
      | .error e => .error e
      | .ok _ =>
        (rangeChunks va bs.length).foldl
          (fun r (a, k) =>
            match r with
            | .error e => .error e
            | .ok _ => (s.engPlace i .engineWrite a k).map fun _ => ()) (.ok ()))
    (.ok ())

/-- The issuer as the race detector sees it (R299). -/
def State.engWho (s : State) (i : Issuer) : Who :=
  { launch := i.launch, lin := (s.wg i.wg).lin, idx := i.wave, epoch := i.epoch, vec := i.vec, phase := i.phase, clock := i.clock }

/-- Plain bytes break what they carried (R291). -/
def State.breakRels (s : State) (space addr n : Nat) : State :=
  { s with rels := s.rels.filter fun r => !(r.space == space && r.addr < addr + n && addr < r.addr + r.size) }

/-- One piece of an engine's write: recorded by the race detector (R299) unless it belongs to a completion record. -/
def State.engPut (s : State) (i : Issuer) (record : Bool) (va : Nat) (bs : List Byte) : State :=
  match s.engPlace i .engineWrite va bs.length with
  | .error _ => s
  | .ok (.bank core bank off) =>
    let addr := va - apertureBase
    let space := scratchSpace (s.wg i.wg)
    let s := if record then s.raceNote (s.engWho i) space addr bs.length true none true else s
    (s.breakRels space addr bs.length).bankWrite core bank off bs
  | .ok (.phys pa pte) =>
    let s := if record && pteChk pte then s.raceNote (s.engWho i) 0 pa bs.length true none true else s
    let (s, lost) := (s.breakRels 0 pa bs.length).writePhys i.tag pa bs
    lost.foldl (fun s l => s.storeLost i.tag i.wid.toNat (s.wg i.wg).lin l) s
  | .ok (.peer pa _) => s.send (s.wg i.wg).core i.tag (fabricPeer pa) (.store (fabricOff pa) ((List.range bs.length).map fun j => (j, bs.getD j 0))) none []

/-- Makes the writes of a command. -/
def State.engWrite (s : State) (i : Issuer) (record : Bool) (ws : List EngWrite) : State :=
  ws.foldl
    (fun s (va, bs) =>
      (rangeChunks va bs.length).foldl (fun s (a, k) => s.engPut i record a ((bs.drop (a - va)).take k)) s) s

/-! Completion (R364 to R367) -/

/-- What a command ends with: its status, its flags, COUNT, DETAIL and INFO, and its writes. -/
structure EngEnd where
  status : Nat
  flags  : Nat := 0
  count  : Nat := 0
  detail : Nat := 0
  info   : Nat := 0
  writes : List EngWrite := []
  /-- writes at physical addresses (R464) -/
  phys   : List EngWrite := []
  /-- the channels of corrected elements (R372), and the codebook that is loaded (R383) -/
  fixes  : List Nat := []
  book   : Option Book := none
  deriving DecidableEq, Repr, Inhabited

/-- The status of an error (R366). -/
def EngErr.result : EngErr → EngEnd
  | .fault va => { status := 7, detail := va }
  | .gated a => { status := 11, detail := a }
  | .codebook off => { status := 9, detail := off }
  | .bad cause => { status := 6, detail := cause }
  | .noProfile => { status := 8 }
  | .status code detail => { status := code, detail := detail }
  | .page _ _ _ | .wait => { status := 7 }

/-- The release that word 0 of a record carries: the snapshot taken at the EGO (R299, R365). -/
def State.recordSnap (s : State) (i : Issuer) : RelSnap :=
  { launch := i.launch, wg := (s.wg i.wg).lin, wave := i.wave, lane := 0, fence := false, eng := true, scope := .system
    vec := i.vec.set i.wave (some i.epoch), clock := i.clock, heard := i.heard }

/-- The record of a command written in its two parts (R365): bytes 8 to 31, then word 0. -/
def State.writeEnd (s : State) (c : QCmd) (e : EngEnd) : State :=
  let i := c.issuer
  let old := if c.accumulates then
      match s.engNat i c.cra 8 with
      | .ok w => fld w 16 8
      | .error _ => 0
    else 0
  let word := c.seq.toNat * 2 ^ 32 + Nat.lor e.flags old * 2 ^ 16 + c.opc * 256 + e.status
  let s := s.engWrite i false
    [(c.cra + 8, bytesOfWord 8 (e.count % 2 ^ 64) ++ bytesOfWord 8 (e.detail % 2 ^ 64) ++ bytesOfWord 8 (e.info % 2 ^ 64))]
  let snap := s.recordSnap i
  let rel (s : State) : State :=
    match s.engPlace i .engineWrite c.cra 8 with
    | .ok (.phys pa _) =>
      let s := s.breakRels 0 pa 8
      { s with rels := s.rels ++ [⟨0, pa, 8, snap⟩] }
    | .ok (.bank _ _ _) =>
      let a := c.cra - apertureBase
      let s := s.breakRels (scratchSpace (s.wg i.wg)) a 8
      { s with rels := s.rels ++ [⟨scratchSpace (s.wg i.wg), a, 8, snap⟩] }
    | _ => s
  match s.engPlace i .engineWrite c.cra 8 with
  | .ok (.phys pa _) => ((rel s).writePhys i.tag pa (bytesOfWord 8 word)).1
  | .ok (.bank core bank off) => (rel s).bankWrite core bank off (bytesOfWord 8 word)
  | .ok (.peer _ _) => s.engWrite i false [(c.cra, bytesOfWord 8 word)]
  | .error _ => s

/-- The ENGINE_RECORD entry of a command whose record cannot be written (R365, R444). -/
def State.recordFails (s : State) (core q : Nat) (c : QCmd) : State :=
  let i := c.issuer
  s.fqPost i.tag (fqEntry .engineRecord 0 0 i.tag (core * 8 + q) (s.wg i.wg).lin (i.wid.toNat * 2 ^ 32 + c.seq.toNat))

/-! The queues (R292, R293) -/

def State.queue (s : State) (core q : Nat) : List QEntry := (s.core core).queues.get q []
def State.setQueue (s : State) (core q : Nat) (es : List QEntry) : State :=
  s.modCore core fun c => { c with queues := c.queues.put q es }

/-- The head command of a queue. -/
def State.headCmd (s : State) (core q : Nat) : Option QCmd :=
  match s.queue core q with
  | .cmd c :: _ => some c
  | _ => none
def State.modHead (s : State) (core q : Nat) (f : QCmd → QCmd) : State :=
  match s.queue core q with
  | .cmd c :: es => s.setQueue core q (.cmd (f c) :: es)
  | _ => s

/-- The step that performs a command: its own, or for one with an unknown OPC a step of its engine. A reduction's step
comes from the fabric, with what the other members send (R463). -/
def QCmd.step (c : QCmd) (core q : Nat) : Option Instr :=
  match c.engine, c.opc with
  | 0, 2 => some (.copy2d core q)
  | 0, 3 => some (.gather2d core q)
  | 0, 4 => some (.scatter2d core q)
  | 0, 5 => some (.fill core q)
  | 0, _ => some (.copy core q)
  | 1, 2 => some (.convbin core q)
  | 1, _ => some (.convres core q)
  | 2, 2 => some (.decg4 core q)
  | 2, _ => some (.decjpeg core q)
  | 3, 2 => some (.zexp core q)
  | 3, 3 => some (.zbook core q)
  | 3, _ => some (.zcomp core q)
  | _, 1 => none
  | _, _ => some (.nmcast core q 0)

/-- The queues that a fence entry names. -/
def maskQueues (mask : Nat) : List Nat := (List.range 8).filter (bitAt mask)

/-- Every queue that a fence names has the entry at its head. -/
def State.fenceDone (s : State) (core mask id : Nat) : Bool :=
  (maskQueues mask).all fun q =>
    match s.queue core q with
    | .fence _ i :: _ => i == id
    | _ => false

/-! Fields and their checks (R361 to R363, R366) -/

/-- The least cause among the checks that fail (R366). -/
def firstCause (checks : List (Nat × Bool)) : Option Nat :=
  (List.range 9).find? fun c => checks.any fun x => x.1 == c && x.2

/-- The checks of the window words (R361 to R363, R366), in ascending cause number: the first that fails. `own` holds the
command's own checks, by cause. -/
def QCmd.windowBad (c : QCmd) (own : List (Nat × Bool)) : Option Nat :=
  let win (a : Nat) : Bool := isAperture a && 0xFFFFFF00 ≤ a - apertureBase
  firstCause
    ([(1, !c.known), (2, fld (c.word 1) 56 8 != 0 || bitAt (c.word 3) 56), (3, c.converts && c.subst % 4 == 3),
      (5, c.isBlock && c.p % 64 != 0), (6, win c.a1 || win c.cra || (c.isBlock && win c.p)),
      (8, !c.converts && (c.subst != 0 || c.roundCode != 0))] ++ (if c.known then own else []))

/-- Ranges of bytes that a command names: first byte and number. -/
abbrev Ranges := List (Nat × Nat)

/-- The ranges reach the window's part of the aperture (R361). -/
def reachesWindow (rs : Ranges) : Bool :=
  rs.any fun (a, n) => (spansOf false a (max n 1)).any fun x => x.scratch && 0xFFFFFF00 < x.addr + x.size

/-- The parameter block of a command (R363). -/
def State.cmdBlock (s : State) (c : QCmd) : Eng (List Byte) :=
  match c.pre with
  | .read bs => .ok bs
  | .fails status detail => .error (if status == 7 then .fault detail else .status status detail)
  | .none => s.engRead c.issuer c.p 64

/-- A field of a block. -/
def bfld (bs : List Byte) (a n : Nat) : Nat := wordOfBytes ((bs.drop a).take n)

/-- The addresses in a command's block beside those in its window words: the indices and the scale bytes (R369, R370). -/
def QCmd.blockAddrs (c : QCmd) (bs : List Byte) : List Nat :=
  match c.engine, c.opc with
  | 0, 3 | 0, 4 => [bfld bs 16 8]
  | 1, 1 => if bfld bs 19 1 == 1 then [bfld bs 24 8] else []
  | _, _ => []

/-- A command of the scratchpad whose allocation is being saved or is saved stands still (R368). -/
def State.suspended (s : State) (c : QCmd) : Bool :=
  let away :=
    match (s.wg c.issuer.wg).st with
    | .saving _ | .saved _ | .shadow | .reloading | .restoring _ => true
    | _ => false
  let block :=
    match c.isBlock, s.cmdBlock c with
    | true, .ok bs => (c.blockAddrs bs).any isAperture
    | _, _ => false
  away && (isAperture c.a0 || isAperture c.a1 || isAperture c.cra || (c.isBlock && isAperture c.p) || block)

/-! Beginning (R370, R383) -/

def QCmd.isBook (c : QCmd) : Bool := c.engine == 3 && c.opc == 3

/-- The generation clashes with a slot that is in use or kept (R383). -/
def State.genClash (s : State) (gen : Nat) : Bool :=
  let kept := if s.books.length < 2 then s.books else s.books.tail
  s.books.any (fun b => b.gen == gen) || kept.any fun b => b.gen % 256 == gen % 256

/-- The checks of ZBOOK. -/
def State.bookChecks (s : State) (c : QCmd) : List (Nat × Bool) :=
  [(2, fld c.p 32 32 != 0 || c.a1 != 0), (4, s.genClash (fld c.p 0 32)), (5, c.a0 % 8 != 0),
    (6, reachesWindow [(c.a0, 128)]), (7, !c.issuer.priv)]

/-- The generation whose slot a ZBOOK takes: that of the slot loaded earlier, unless one is empty or the command will not be
performed. -/
def State.bookTarget (s : State) (c : QCmd) : Option Nat :=
  if c.isBook && (c.windowBad (s.bookChecks c)).isNone && 2 ≤ s.books.length then s.books.head?.map (·.gen) else none

/-- The commands that have begun and not ended. -/
def State.begunCmds (s : State) : List QCmd :=
  (s.cores.flatMap fun e => e.2.queues.flatMap fun q => q.2.filterMap fun x =>
    match x with
    | .cmd c => if c.began.isSome then some c else none
    | .fence _ _ => none) ++ (s.wgs.flatMap fun e => e.2.imgCmds.filterMap fun x => if x.2.began.isSome then some x.2 else none)

/-- A command may not begin yet: a conversion while a profile is computed (R370), a ZBOOK while another one goes on. -/
def State.beginsLater (s : State) (c : QCmd) : Bool :=
  c.began.isNone &&
    ((c.converts && c.engine == 1 && ((s.ctx c.issuer.tag).loads.head?.map (·.begun)).getD false) ||
      (c.isBook && s.begunCmds.any (·.isBook)))

/-- A ZBOOK that takes a slot waits for the ZEXPs and ZCOMPs that began before it (R383). -/
def State.bookWaits (s : State) (c : QCmd) : Bool :=
  match c.began with
  | some b => b.target.isSome && s.begunCmds.any fun x =>
      x.engine == 3 && !x.isBook && (x.began.map fun y => decide (y.n < b.n)).getD false
  | none => false

/-- The command at the head of a queue begins. -/
def State.beginHead (s : State) (core q : Nat) (c : QCmd) : State :=
  if c.began.isSome then s
  else
    let x := s.ctx c.issuer.tag
    let (n, s) := s.newId
    s.modHead core q fun c =>
      { c with
        began := some { time := s.now, n := n, prof := x.prof, gen := x.gen, books := s.liveBooks, target := s.bookTarget c } }

/-- Begins what the heads of a core's queues allow: fences that are complete leave, and head commands begin (R292, R293). -/
def State.pump : Nat → Nat → State → State
  | 0, _, s => s
  | fuel + 1, core, s =>
    let qs := List.range 8
    let fence := qs.findSome? fun q =>
      match s.queue core q with
      | .fence m i :: _ => if s.fenceDone core m i then some m else none
      | _ => none
    match fence with
    | some m => State.pump fuel core ((maskQueues m).foldl (fun s q => s.setQueue core q (s.queue core q).tail) s)
    | none =>
      qs.foldl
        (fun s q =>
          match s.headCmd core q with
          | some c =>
            if c.begun || ((s.core core).qhold.find? q).isSome || s.suspended c || s.beginsLater c then s
            else
              let s := s.beginHead core q c
              match c.step core q with
              | none => s
              | some ev =>
                if ((s.headCmd core q).map s.bookWaits).getD false then s
                else
                  let (d, s) := s.takeDelay
                  (s.modHead core q fun c => { c with begun := true }).at
                    (acceptTime (s.uncoreHot (Config.engineIsland core c.engine)) (s.now + d)) ev
          | none => s) s

def State.pumpCore (s : State) (core : Nat) : State :=
  s.pump ((s.core core).queues.foldl (fun n e => n + e.2.length) 1) core

/-- The counts of a command's lines are lowered (R280): one step for each line. -/
def State.landLines (s : State) (c : QCmd) : State :=
  { s with todo := (c.lines.map fun (k, b, l) => .event (.lineLanded k b l)) ++ s.todo }

/-- A command leaves its queue, which goes on; what waited for it is tried again (R171, R292). -/
def State.leaveQueue (s : State) (core q : Nat) (c : QCmd) : State :=
  let s := s.setQueue core q (s.queue core q).tail
  let s := (s.landLines c).pumpCore core
  if c.engine == 1 then s.pumpLoads else s

/-- A command ends: its writes, its record, its counts (R365). -/
def State.endCmd (s : State) (core q : Nat) (c : QCmd) (e : EngEnd) : State :=
  let s := s.engWrite c.issuer true e.writes
  let s := e.phys.foldl (fun s (pa, bs) => s.writeDev c.issuer.tag pa bs) s
  let s := e.fixes.foldl (fun s ch => s.countFix (core * 4) ch) s
  let s := match e.book with
    | some b => { s with books := (if s.books.length < 2 then s.books else s.books.tail) ++ [b] }
    | none => s
  (s.writeEnd c e).leaveQueue core q c

/-- A command that has no record to write ends without any effect (R365). -/
def State.dropCmd (s : State) (core q : Nat) (c : QCmd) : State :=
  (s.recordFails core q c).leaveQueue core q c

/-- A replayable fault of a command stalls its queue and is recorded (R367). -/
def State.stallCmd (s : State) (core q : Nat) (c : QCmd) (va level : Nat) (acc : AccType) : State :=
  let i := c.issuer
  let s := s.recordFault i.tag va acc.code i.wid.toNat (s.wg i.wg).lin level
  let s := s.modHead core q fun c => { c with begun := false }
  s.modCore core fun k => { k with qhold := k.qhold.put q (i.tag, va) }

/-- The first check of a block's fields that fails, in ascending cause number. -/
def blockBad (checks : List (Nat × Bool)) : Eng Unit :=
  match firstCause checks with
  | some c => .error (.bad c)
  | none => .ok ()

/-- The lowest aperture address at or above `.scratch` among the ranges of a command (R361). -/
def State.lowest (s : State) (i : Issuer) (rs : Ranges) (va : Nat) : Nat :=
  let top := (s.launch i.launch).hdr.scratch
  if isAperture va && top ≤ va - apertureBase then
    (rs.flatMap fun (a, n) => spansOf false a n).foldl
      (fun m x => if x.scratch && top < x.addr + x.size then min m (apertureBase + max x.addr top) else m) va
  else va

/-- Runs the head command of a queue, if it is one that `mine` names (R365 to R367): `own` are its checks of the window
words, `names` the ranges that it names, `f` computes its end. -/
def State.runHead (s : State) (core q : Nat) (mine : QCmd → Bool) (own : QCmd → List (Nat × Bool))
    (names : State → QCmd → Ranges) (f : State → QCmd → Eng EngEnd) : State :=
  match s.headCmd core q with
  | none => s
  | some c =>
    if !mine c then s
    else if s.suspended c then s.modHead core q fun c => { c with begun := false }
    else
      let s := (names s c).foldl (fun s r => s.meetVa none c.issuer.tag c.issuer.priv .engineRead r.1 r.2) s
      let done (r : EngErr) : State :=
        s.endCmd core q c
          (match r with
           | .fault va => (EngErr.fault (s.lowest c.issuer ((c.cra, 32) :: names s c) va)).result
           | r => r.result)
      let craOk : Eng Unit := if c.cra % 32 != 0 then .error (.fault c.cra) else s.engCheck c.issuer [(c.cra, List.replicate 32 0)]
      match craOk with
      | .error (.page va level acc) => if c.refused.isSome then s.dropCmd core q c else s.stallCmd core q c va level acc
      | .error .wait => s.modHead core q fun c => { c with begun := false }
      | .error _ => s.dropCmd core q c
      | .ok _ =>
        match c.windowBad (own c) with
        | some cause => done (.bad cause)
        | none =>
          match c.refused with
          | some va => done (.fault va)
          | none =>
            match f s c with
            | .error (.page va level acc) => s.stallCmd core q c va level acc
            | .error .wait => s.modHead core q fun c => { c with begun := false }
            | .error e => done e
            | .ok e =>
              match s.engCheck c.issuer e.writes with
              | .error (.page va level acc) => s.stallCmd core q c va level acc
              | .error .wait => s.modHead core q fun c => { c with begun := false }
              | .error r => done r
              | .ok _ => s.endCmd core q c e

end Sys2Proof.Machine
end

