-- ==== Sys2Proof/Machine/Copy.lean ====
section
/-!
DEFINITION. The copy engine (R369): COPY, COPY2D, GATHER2D, SCATTER2D and FILL.
-/
namespace Sys2Proof.Machine

/-- An address formed from a base and signed offsets (R361). -/
def engAddr (base : Nat) (off : Int) : Nat := wrapNat 64 ((base : Int) + off)

/-- The writes of a command as it goes: they are made on a copy of the state, on which its later reads act. -/
structure Run where
  s      : State
  writes : List EngWrite := []
  count  : Nat := 0
  oob    : Nat := 0

def Run.put (r : Run) (i : Issuer) (va : Nat) (bs : List Byte) : Eng Run :=
  match r.s.engCheck i [(va, bs)] with
  | .error e => .error e
  | .ok _ =>
    .ok { r with s := r.s.engWrite i false [(va, bs)], writes := r.writes ++ [(va, bs)], count := r.count + bs.length }

/-- A row that is read completely before it is written (R369). -/
def Run.row (r : Run) (i : Issuer) (src dst n : Nat) : Eng Run :=
  match r.s.engRead i src n with
  | .error e => .error e
  | .ok bs => r.put i dst bs

/-- Takes rows one at a time, in ascending order. -/
def Run.rows (f : Run → Nat → Eng Run) : Nat → Nat → Run → Eng Run
  | 0, _, r => .ok r
  | n + 1, k, r =>
    match f r k with
    | .error e => .error e
    | .ok r => Run.rows f n (k + 1) r

def Run.done (r : Run) : EngEnd :=
  { status := 1, flags := if r.oob == 0 then 0 else 64, count := r.count, info := r.oob, writes := r.writes }

/-- COPY. -/
def copyCmd (s : State) (c : QCmd) : Eng EngEnd :=
  (Run.row { s := s } c.issuer c.a0 c.a1 c.p).map Run.done

/-- FILL: byte i takes byte i mod 8 of P. -/
def fillCmd (s : State) (c : QCmd) : Eng EngEnd :=
  (Run.put { s := s } c.issuer c.a1 ((List.range c.a0).map fun i => BitVec.ofNat 8 (c.p / 2 ^ (8 * (i % 8))))).map Run.done

/-- The 2D block (R369). -/
structure Block2D where
  rows     : Nat
  rowBytes : Nat
  sstride  : Int
  dstride  : Int
  idx      : Nat
  idxMax   : Nat
  colOff   : Nat
  deriving DecidableEq, Repr

def block2D (bs : List Byte) : Block2D :=
  { rows := bfld bs 0 4, rowBytes := bfld bs 4 4, sstride := signedOf 32 (bfld bs 8 4), dstride := signedOf 32 (bfld bs 12 4)
    idx := bfld bs 16 8, idxMax := bfld bs 24 4, colOff := bfld bs 28 4 }

/-- The checks of the 2D block. -/
def check2D (indexed : Bool) (reach : Bool) (bs : List Byte) : Eng Unit :=
  let b := block2D bs
  blockBad
    [(2, bfld bs 32 32 != 0), (4, b.rows == 0 || 1048576 < b.rows || b.rowBytes == 0 || 16777216 < b.rowBytes),
     (4, if indexed then b.idxMax == 0 else b.idx != 0 || b.idxMax != 0 || b.colOff != 0), (5, b.idx % 4 != 0), (6, reach)]

/-- The bounding range of strided rows. -/
def strided (base : Int) (stride : Int) (n len : Nat) : Nat × Nat :=
  let far := (n - 1 : Int) * stride
  (wrapNat 64 (base + min 0 far), far.natAbs + len)

/-- The bounding ranges of a 2D block: what it reads, then what it writes. -/
def bounds2D (gather scatter : Bool) (c : QCmd) (b : Block2D) : (Nat × Nat) × (Nat × Nat) :=
  (if gather then strided (c.a0 + b.colOff) b.sstride b.idxMax b.rowBytes else strided c.a0 b.sstride b.rows b.rowBytes,
   if scatter then strided (c.a1 + b.colOff) b.dstride b.idxMax b.rowBytes else strided c.a1 b.dstride b.rows b.rowBytes)

/-- A row's side that the index names, none out of range. -/
def State.index2D (s : State) (i : Issuer) (b : Block2D) (r : Nat) : Eng (Option Nat) :=
  (s.engNat i (b.idx + 4 * r) 4).map fun n => if b.idxMax ≤ n then none else some n

/-- COPY2D, GATHER2D (`gather`) and SCATTER2D (`scatter`). -/
def cmd2D (gather scatter : Bool) (s : State) (c : QCmd) : Eng EngEnd :=
  match s.cmdBlock c with
  | .error e => .error e
  | .ok bs =>
    let (rd, wr) := bounds2D gather scatter c (block2D bs)
    let idx := if gather || scatter then [((block2D bs).idx, 4 * (block2D bs).rows)] else []
    match check2D (gather || scatter) (reachesWindow (rd :: wr :: idx)) bs with
    | .error e => .error e
    | .ok _ =>
      let b := block2D bs
      let i := c.issuer
      let row (r : Run) (k : Nat) : Eng Run :=
        let src := engAddr c.a0 (k * b.sstride)
        let dst := engAddr c.a1 (k * b.dstride)
        if gather then
          match r.s.index2D i b k with
          | .error e => .error e
          | .ok (some n) => r.row i (engAddr c.a0 (n * b.sstride + b.colOff)) dst b.rowBytes
          | .ok none => ({ r with oob := r.oob + 1 }).put i dst (List.replicate b.rowBytes 0)
        else if scatter then
          match r.s.index2D i b k with
          | .error e => .error e
          | .ok (some n) => r.row i src (engAddr c.a1 (n * b.dstride + b.colOff)) b.rowBytes
          | .ok none => .ok { r with oob := r.oob + 1 }
        else r.row i src dst b.rowBytes
      (Run.rows row b.rows 0 { s := s }).map Run.done

/-- The rows that a 2D command names, with the indices as they stand. -/
def names2D (gather scatter : Bool) (s : State) (c : QCmd) : Ranges :=
  match s.cmdBlock c with
  | .error _ => [(c.p, 64)]
  | .ok bs =>
    let b := block2D bs
    let i := c.issuer
    let rows := List.range b.rows
    let side (base : Nat) (stride : Int) (indexed : Bool) : Ranges :=
      rows.filterMap fun r =>
        if indexed then
          match s.index2D i b r with
          | .ok (some n) => some (engAddr base (n * stride + b.colOff), b.rowBytes)
          | _ => none
        else some (engAddr base (r * stride), b.rowBytes)
    (c.p, 64) :: (if gather || scatter then [(b.idx, 4 * b.rows)] else []) ++ side c.a0 b.sstride gather ++
      side c.a1 b.dstride scatter

/-- COPY (R369), and a command of the copy engine with an unknown OPC (R366). -/
def execCopy (core q : Nat) (s : State) : Host.Outcome State Fault Refusal :=
  .next (s.runHead core q (fun c => c.engine == 0 && (c.opc == 1 || !c.known))
    (fun c =>
      [(2, fld c.p 40 24 != 0), (4, fld c.p 0 40 == 0), (6, reachesWindow [(c.a0, fld c.p 0 40), (c.a1, fld c.p 0 40)])])
    (fun _ c => [(c.a0, c.p), (c.a1, c.p)]) copyCmd)

/-- COPY2D (R369). -/
def execCopy2d (core q : Nat) (s : State) : Host.Outcome State Fault Refusal :=
  .next (s.runHead core q (fun c => c.engine == 0 && c.opc == 2) (fun _ => []) (names2D false false) (cmd2D false false))

/-- GATHER2D (R369). -/
def execGather2d (core q : Nat) (s : State) : Host.Outcome State Fault Refusal :=
  .next (s.runHead core q (fun c => c.engine == 0 && c.opc == 3) (fun _ => []) (names2D true false) (cmd2D true false))

/-- SCATTER2D (R369). -/
def execScatter2d (core q : Nat) (s : State) : Host.Outcome State Fault Refusal :=
  .next (s.runHead core q (fun c => c.engine == 0 && c.opc == 4) (fun _ => []) (names2D false true) (cmd2D false true))

/-- FILL (R369). -/
def execFill (core q : Nat) (s : State) : Host.Outcome State Fault Refusal :=
  .next (s.runHead core q (fun c => c.engine == 0 && c.opc == 5) (fun c => [(4, c.a0 == 0), (6, reachesWindow [(c.a1, c.a0)])])
    (fun _ c => [(c.a1, c.a0)]) fillCmd)

end Sys2Proof.Machine
end

