-- ==== Sys2Proof/Machine/Residue.lean ====
section
/-!
DEFINITION. Residue arithmetic (07): profiles and their checks, splitting, reconstruction, and the output conversion of a
drain.
-/
namespace Sys2Proof.Machine

/-! Profiles (R164 to R172) -/

def groupCount (grouping : Nat) : Nat :=
  match grouping with
  | 0 => 1 | 1 => 2 | _ => 4
/-- The alignment window W (R164). -/
def windowW (grouping : Nat) : Nat :=
  match grouping with
  | 0 => 24 | 1 => 12 | _ => 6

/-- The channels of a group with a role, as (channel, entry). -/
def Profile.ofRole (p : Profile) (group role : Nat) : List (Nat × Chan) :=
  ((List.range 12).map fun c => (c, p.chans.getD c default)).filter fun e => e.2.role == role && e.2.group == group

/-- The channels of a group, in ascending order. -/
def Profile.group (p : Profile) (g : Nat) : List (Nat × Chan) :=
  ((List.range 12).map fun c => (c, p.chans.getD c default)).filter fun e => e.2.role != 0 && e.2.group == g

/-- The channels of a group with a role, by position. -/
def Profile.byPos (p : Profile) (g role : Nat) : List (Nat × Chan) :=
  let es := p.ofRole g role
  (List.range es.length).filterMap fun n => es.find? fun e => e.2.pos == n

/-- The channel set of a group as bits. -/
def Profile.mask (p : Profile) (g : Nat) : Nat := (p.group g).foldl (fun m e => m + 2 ^ e.1) 0
/-- ACTIVE of PROFSTAT (R174). -/
def Profile.active (p : Profile) : Nat :=
  (List.range 12).foldl (fun m c => if (p.chans.getD c default).role != 0 then m + 2 ^ c else m) 0

/-- A descriptor's entries (R168, R169). -/
def descEntry (bs : List Byte) (c : Nat) : Nat := bfld bs (4 + 4 * c) 4
def descProfile (bs : List Byte) : Profile :=
  { grouping := bfld bs 0 4 % 4
    chans := (List.range 12).map fun c =>
      let e := descEntry bs c
      { role := fld e 15 2, group := fld e 13 2, pos := fld e 9 4, mod := fld e 0 9 } }

/-- Counts of primaries and of redundant moduli that R164 allows. -/
def countsOk (grouping n k : Nat) : Bool :=
  match grouping with
  | 0 => 2 ≤ n && n ≤ 10 && k ≤ 2
  | 1 => 2 ≤ n && n ≤ 5 && k ≤ 1
  | _ => 2 ≤ n && n ≤ 3 && k == 0

def positionsOk (es : List (Nat × Chan)) : Bool :=
  (List.range es.length).all fun n => (es.filter fun e => e.2.pos == n).length == 1

def coprimeAll : List Nat → Bool
  | [] => true
  | m :: ms => ms.all (fun n => Nat.gcd m n == 1) && coprimeAll ms

/-- Checks 2 to 10 of R170: the cause of the first that fails, or the profile. -/
def checkProfile (bs : List Byte) (mapout : BitVec 12) : Except Nat Profile :=
  let p := descProfile bs
  let es := (List.range 12).map fun c => (c, p.chans.getD c default)
  let live := es.filter fun e => e.2.role != 0
  let gs := List.range (groupCount p.grouping)
  let prim (g : Nat) := p.ofRole g 1
  let red (g : Nat) := p.ofRole g 2
  let mods (l : List (Nat × Chan)) := l.map fun e => e.2.mod
  if bfld bs 0 4 / 4 != 0 || bfld bs 52 12 != 0 || p.grouping == 3 ||
      (List.range 12).any (fun c => descEntry bs c / 2 ^ 17 != 0) ||
      es.any (fun e => e.2.role == 3 || (e.2.role == 0 && (e.2.group != 0 || e.2.pos != 0 || e.2.mod != 0))) then .error 2
  else if live.any fun e => e.2.mod < 3 then .error 3
  else if live.any fun e => groupCount p.grouping ≤ e.2.group || (p.grouping == 2 && e.2.role == 2) then .error 4
  else if !(gs.all fun g => countsOk p.grouping (prim g).length (red g).length) then .error 5
  else if !(gs.all fun g => positionsOk (prim g) && positionsOk (red g)) then .error 6
  else if live.any fun e => mapout.getLsbD e.1 then .error 7
  else if !(gs.all fun g => coprimeAll (mods (p.group g))) then .error 8
  else if !(gs.all fun g => (mods (red g)).all fun r => (mods (prim g)).all (· < r)) then .error 9
  else if !(gs.all fun g => (mods (prim g)).foldl (· * ·) 1 ≤ 2 ^ 80) then .error 10
  else .ok p

/-! Splitting (R175 to R178) -/

/-- A decoded element: m × 2^f, a NaN, or an infinity. -/
inductive Elem where
  | num (m f : Int)
  | nan
  | inf (neg : Bool)
  deriving DecidableEq, Repr, Inhabited

/-- Flags of the splitter as bits of R178: NANSUB 0, INFSUB 1, SATURATED 2, FLUSHED 3, ALIGN_OVERFLOW 4. -/
def flagNan : Nat := 1
def flagInf : Nat := 2
def flagSat : Nat := 4
def flagFlush : Nat := 8
def flagAlign : Nat := 16

def signOf (neg : Bool) (n : Nat) : Int := if neg then -(n : Int) else n

/-- A BF16 element (R175). -/
def bf16Elem (bits : Nat) : Elem :=
  let neg := bitAt bits 15
  let e := fld bits 7 8
  let f := bits % 128
  if e == 255 then (if f == 0 then .inf neg else .nan)
  else if e == 0 then .num (signOf neg f) (-133)
  else .num (signOf neg (128 + f)) ((e : Int) - 134)

/-- An element of a BX block: its word, its payload, its place (R94, R175). -/
def bxElem (word payload i : Nat) : Elem :=
  let E := fld word 24 8
  let tag := fld word 22 2
  let p := tagP tag
  if E == 255 || fld word 8 14 != 0 then .nan
  else if tag == 3 then .num 0 0
  else
    let x := fld payload ((p + 1) * i) (p + 1)
    .num (signOf (bitAt x p) (x % 2 ^ p)) ((E : Int) - 127 - b2n (bitAt word (i / 2)) - (p - 1))

/-- Element (r, c) of a tile of a format (R198). -/
def tileElem (tile : List Byte) (fmt : Nat) (signed : Bool) (r c : Nat) : Elem :=
  let at_ (a n : Nat) : Nat := wordOfBytes ((tile.drop a).take n)
  let int (w v : Nat) : Elem := .num (if signed then signedOf w v else (v : Int)) 0
  match fmt with
  | 0 => int 2 (fld (at_ (16 * r + c / 4) 1) (2 * (c % 4)) 2)
  | 1 => int 4 (fld (at_ (32 * r + c / 2) 1) (4 * (c % 2)) 4)
  | 2 => int 8 (at_ (64 * r + c) 1)
  | 3 => int 16 (at_ (128 * r + 2 * c) 2)
  | 4 => bf16Elem (at_ (128 * r + 2 * c) 2)
  | 5 =>
    let X := at_ (4096 + 2 * r + c / 32) 1
    if X == 255 then .nan else .num (signedOf 8 (at_ (64 * r + c) 1)) ((X : Int) - 133)
  | _ =>
    let slot := 80 * r + 20 * (c / 16)
    bxElem (at_ slot 4) (at_ (slot + 4) 16) (c % 16)

/-- The aligned integer of an element and the flags it sets (R175, R177). -/
def splitElem (W : Nat) (anchor : Int) (e : Elem) : Int × Nat :=
  match e with
  | .nan => (0, flagNan)
  | .inf neg => (signOf neg (2 ^ W - 1), flagInf)
  | .num m f =>
    if m == 0 then (0, 0)
    else
      let d := f - anchor
      if d < 0 then (0, flagFlush)
      else if 2 ^ W ≤ m.natAbs * 2 ^ d.toNat then (signOf (m < 0) (2 ^ W - 1), flagAlign)
      else (m * 2 ^ d.toNat, 0)

/-- The residue of an integer (R17). -/
def residue (x : Int) (q : Nat) : Nat := (x % q).toNat

/-- An element format allowed under a grouping (R176). -/
def formatOk (grouping fmt : Nat) : Bool :=
  match fmt with
  | 0 | 1 | 6 | 7 => true
  | 3 => grouping == 0
  | _ => grouping != 2

/-! Reconstruction (R183 to R187) -/

inductive Outcome where
  | ok | corrected | overflow | uncorrectable | unchecked
  deriving DecidableEq, Repr, Inhabited

/-- The order of R192; UNCHECKED, which it does not rank, counts as OK (log 82). -/
def Outcome.rank : Outcome → Nat
  | .ok | .unchecked => 0 | .corrected => 1 | .overflow => 2 | .uncorrectable => 3

structure Recon where
  out  : Outcome
  S    : Int
  chan : Nat := 0
  syn0 : Nat := 0
  syn1 : Nat := 0
  deriving DecidableEq, Repr, Inhabited

/-- The inverse of a modulo m. -/
def invMod (a m : Nat) : Nat := ((List.range m).find? fun x => a * x % m == 1 % m).getD 0

/-- The mixed-radix digits of R183: each digit is found modulo its modulus from those before it; the value and the product so
far go along. -/
def crt : List (Nat × Nat) → Nat → Nat → Nat × Nat
  | [], x, M => (x, M)
  | (m, r) :: rest, x, M =>
    let digit := residue ((r : Int) - x) m * invMod (M % m) m % m
    crt rest (x + M * digit) (M * m)

/-- The signed reading (R166). -/
def sgnOf (X N : Nat) : Int := if X < N - N / 2 then X else (X : Int) - N

/-- The outcome of one element (R184): `res` gives its residue in each channel. -/
def reconstruct (p : Profile) (g : Nat) (res : Nat → Nat) : Recon :=
  let prim := p.byPos g 1
  let red := p.byPos g 2
  let pairs (l : List (Nat × Chan)) : List (Nat × Nat) := l.map fun e => (e.2.mod, res e.1 % e.2.mod)
  let (X, M) := crt (pairs prim) 0 1
  let V := sgnOf X M
  if red.isEmpty then { out := .unchecked, S := V }
  else
    let syn := red.map fun e => residue ((res e.1 : Int) - V) e.2.mod
    let s0 := syn.getD 0 0
    let s1 := syn.getD 1 0
    if syn.all (· == 0) then { out := .ok, S := V }
    else
      let all := prim ++ red
      let (Y, N) := crt (pairs all) 0 1
      let Wv := sgnOf Y N
      let rmin := (red.map fun e => e.2.mod).foldl min 512
      let B : Int := (M * rmin / 2 : Nat)
      if -B ≤ Wv && Wv ≤ B then { out := .overflow, S := Wv, syn0 := s0, syn1 := s1 }
      else if red.length == 1 then { out := .uncorrectable, S := 0, syn0 := s0, syn1 := s1 }
      else
        let H := all.filterMap fun e =>
          let (Z, K) := crt (pairs (all.filter fun f => f.1 != e.1)) 0 1
          let Vc := sgnOf Z K
          if Vc == sgnOf (residue Vc M) M then some (e.1, Vc) else none
        match H with
        | [(c, Vc)] => { out := .corrected, S := Vc, chan := c, syn0 := s0, syn1 := s1 }
        | _ => { out := .uncorrectable, S := 0, syn0 := s0, syn1 := s1 }

/-- The accumulate mode (R187): S, and whether the clamp changed it. -/
def modeS (sat : Bool) (r : Recon) : Int × Bool :=
  if !sat || r.out == .uncorrectable then (r.S, false)
  else
    let lo : Int := -2147483648
    let hi : Int := 2147483647
    let c := if r.out == .overflow then (if 0 < r.S then hi else lo) else max lo (min hi r.S)
    (c, c != r.S)

/-! Output conversion (R188, R189) -/

/-- What stage 5 passes on: a value to be scaled, a value too large with its sign, or no value. -/
inductive Stage5 where
  | value (z : Int)
  | huge (neg : Bool)
  | none
  deriving DecidableEq, Repr, Inhabited

/-- The parameters of a column (R219). -/
structure ColParam where
  mul  : Int := 1
  fmul : Nat := 0x3F800000
  ofs  : Int := 0
  sh   : Int := 0
  deriving DecidableEq, Repr, Inhabited

def colParam (tile : List Byte) (j : Nat) : ColParam :=
  let at_ (a n : Nat) : Nat := wordOfBytes ((tile.drop (16 * j + a)).take n)
  { mul := signedOf 32 (at_ 0 4), fmul := at_ 0 4, ofs := signedOf 32 (at_ 4 4), sh := signedOf 8 (at_ 8 1) }

/-- Width and signedness of an integer output. -/
def outInt : OutFmt → Option (Nat × Bool)
  | .s8 => some (8, true) | .z8 => some (8, false) | .s16 => some (16, true) | .z16 => some (16, false)
  | .s32 => some (32, true) | .z32 => some (32, false)
  | _ => none

def outFmt : OutFmt → Fmt
  | .bf16 => fmt16
  | .f64 => fmt64
  | _ => fmt32

/-- A value too large for any format. -/
def hugeFl (neg : Bool) : Fl := .num neg 1 2000

/-- q of R189 before the clamp; none for an element without a value. -/
def scaleInt (r : RM) (E : Int) (c : ColParam) : Stage5 → Option Int
  | .none => Option.none
  | .huge neg => some (signOf neg (2 ^ 200))
  | .value z =>
    let v := z * c.mul
    some (roundInt r (v < 0) v.natAbs (E - c.sh) + c.ofs)

/-- The exact value of R189 before the rounding; NaN for an element without a value or a multiplier that is not finite, which
then sets no flag (R188, log 82). -/
def scaleFl (E : Int) (fmul : Nat) : Stage5 → Fl
  | .none => .nan
  | st =>
    match fmt32.read fmul with
    | .num n m e =>
      match st with
      | .value z =>
        if z == 0 || m == 0 then .num false 0 0 else .num ((z < 0) != n) (z.natAbs * m) (e + E)
      | .huge neg => hugeFl neg
      | .none => .nan
    | _ => .nan

/-- A scalar output: its bits and its flags (R189, R100). -/
def scalarOut (f : OutFmt) (r : RM) (E : Int) (c : ColParam) (v : Stage5) : Nat × Nat :=
  match outInt f with
  | some (w, sg) =>
    match scaleInt r E c v with
    | Option.none => (0, 0)
    | some q => (wrapNat w (clampInt w sg q), if clampInt w sg q == q then 0 else flagSat)
  | Option.none =>
    let (b, fl) := convFloat (outFmt f) r 0 false (scaleFl E c.fmul v)
    (b, fl.bits)

/-- The image of a row of a block output and its flags (R189, R199). -/
def blockRow (f : OutFmt) (r : RM) (vs : List Fl) : List Byte × Nat :=
  let size := if f == .mxint8 then 32 else 16
  let blocks := (List.range ((vs.length + size - 1) / size)).map fun b => (vs.drop (size * b)).take size
  let pad (part : List Fl) : List Fl := part ++ List.replicate (size - part.length) (.num false 0 0)
  let sub (part : List Fl) : List Fl × Nat :=
    let xs := (pad part).map (blockSubst 0)
    (xs.map (·.1), (Flags.union (xs.map (·.2))).bits)
  if f == .mxint8 then
    let es := blocks.map fun part =>
      let (ys, fl) := sub part
      let (X, cs, fl2) := encodeMx r ys
      (X, (cs.take part.length).map fun c => (BitVec.ofInt 8 c : Byte), Nat.lor fl fl2.bits)
    (es.flatMap (fun e => e.2.1) ++ es.map (fun e => BitVec.ofNat 8 e.1), es.foldl (fun m e => Nat.lor m e.2.2) 0)
  else
    let bx : BxFmt :=
      match f with
      | .bx3 => .bx3 | .bx5 => .bx5 | _ => .bx8
    let es := blocks.map fun part =>
      let (ys, fl) := sub part
      let (k, fl2) := encodeBx bx r ys
      (bytesOfWord 4 k.word ++ bytesOfWord 16 k.payload, Nat.lor fl fl2.bits)
    (es.flatMap (·.1), es.foldl (fun m e => Nat.lor m e.2) 0)

end Sys2Proof.Machine
end

