-- ==== Sys2Proof/Machine/TileData.lean ====
section
/-!
DEFINITION. What tile operations compute (08): row images, windows, sums of products, drains and accumulator images.
-/
namespace Sys2Proof.Machine

/-! Images (R198, R199, R213) -/

def padTo (n : Nat) (l : List Byte) : List Byte := l.take n ++ List.replicate (n - l.length) 0

def tilePitch (fmt : Nat) : Nat :=
  match fmt with
  | 0 => 16 | 1 => 32 | 2 | 5 => 64 | 3 | 4 => 128
  | _ => 80

/-- A slot whose unused payload bytes are zero (R198). -/
def cleanSlot (bs : List Byte) : List Byte :=
  padTo 20 (bs.take (4 + tagBytes (fld (wordOfBytes (bs.take 4)) 22 2)))

/-- A row of an image with what is no element set to zero (R79, R198). -/
def cleanRow (fmt cols : Nat) (bs : List Byte) : List Byte :=
  match fmt with
  | 0 | 1 =>
    let bits := if fmt == 0 then 2 * cols else 4 * cols
    bytesOfWord ((bits + 7) / 8) (wordOfBytes bs % 2 ^ bits)
  | 2 | 3 | 4 | 5 => bs
  | _ => (List.range ((cols + 15) / 16)).flatMap fun b => cleanSlot ((bs.drop (20 * b)).take 20)

/-- The tile whose rows have these images (R198, R213). -/
def tileOfRows (fmt cols : Nat) (rows : List (List Byte)) : List Byte :=
  let rows := rows.map (cleanRow fmt cols)
  if fmt == 5 then
    padTo 8192 (padTo 4096 (rows.flatMap fun r => padTo 64 (r.take cols)) ++ rows.flatMap fun r => padTo 2 (r.drop cols))
  else padTo 8192 (rows.flatMap (padTo (tilePitch fmt)))

/-- The image of a row of a tile (R199, R213). -/
def rowOfTile (tile : List Byte) (fmt cols r : Nat) : List Byte :=
  let cut (a n : Nat) : List Byte := padTo n (tile.drop a)
  cleanRow fmt cols
    (if fmt == 5 then cut (64 * r) cols ++ cut (4096 + 2 * r) ((cols + 31) / 32)
     else cut (tilePitch fmt * r) (rowBytes fmt cols))

/-! Products and sums (R180, R217, R218) -/

/-- The aligned integers of a tile, by row, and the flags of its splitting (R177, R178). -/
def splitTile (tile : List Byte) (tc : List Word) (signed : Bool) (W : Nat) : List (List Int) × Nat :=
  let es := (List.range (tcRows tc)).map fun r =>
    (List.range (tcCols tc)).map fun c => splitElem W (tcAnchor tc) (tileElem tile (tcFmt tc) signed r c)
  (es.map fun row => row.map (·.1), es.foldl (fun f row => row.foldl (fun f e => Nat.lor f e.2) f) 0)

def dot (a b : List Int) : Int := (List.zipWith (· * ·) a b).foldl (· + ·) 0

/-- Adds an integer to each element's residues (R180): the integers of rows of 64 elements. -/
def Acc.addSums (a : Acc) (p : Profile) (sums : List (List Int)) (flags : Nat) : Acc :=
  let flat := sums.flatMap fun row => row ++ List.replicate (64 - row.length) 0
  let flat := flat ++ List.replicate (4096 - flat.length) 0
  { a with
    flags := Nat.lor a.flags flags
    planes := (p.group a.group).foldl
      (fun t (c, e) =>
        let old := t.get c (List.replicate 4096 0)
        t.put c (List.zipWith (fun (o : Nat) (x : Int) => residue (o + x) e.mod) old flat)) a.planes }

/-! Drains (R182 to R192, R219 to R221) -/

/-- The reconstruction of element (i, j) of an accumulator. -/
def Acc.recon (a : Acc) (p : Profile) (i j : Nat) : Recon :=
  reconstruct p a.group fun c => (a.planes.get c []).getD (64 * i + j) 0

/-- An element of a drain: its own outcome, the outcome reported, what stage 5 gets, and the flags of stage 3. -/
structure DElem where
  own   : Recon
  worst : Outcome
  val   : Stage5
  flags : Nat
  deriving DecidableEq, Repr, Inhabited

def Outcome.worse (a b : Outcome) : Outcome := if a.rank < b.rank then b else a

/-- RSUM or CSUM with its value under its accumulator's mode (R219). -/
structure SumElem where
  out : Outcome := .ok
  val : Int := 0
  sat : Bool := false
  deriving DecidableEq, Repr, Inhabited

def sumElem (a : Option Acc) (p : Profile) (i : Nat) : SumElem :=
  match a with
  | none => {}
  | some a =>
    let r := a.recon p i 0
    let (v, cl) := modeS a.sat r
    ⟨r.out, v, cl⟩

/-- An element after stage 5's correction (R189, R219). -/
def drainElem (p : Profile) (a : Acc) (i j : Nat) (rs cs : SumElem) : DElem :=
  let r := a.recon p i j
  let (v, cl) := modeS a.sat r
  let lost := r.out == .uncorrectable || rs.out == .uncorrectable || cs.out == .uncorrectable
  let corr : Int := -a.za * cs.val - a.zb * rs.val + a.kcnt * a.za * a.zb
  let huge := r.out == .overflow && !a.sat
  { own := r
    worst := (r.out.worse rs.out).worse cs.out
    val := if lost then .none else if huge then .huge (v < 0) else .value (v + corr)
    flags := if cl || rs.sat || cs.sat then flagSat else 0 }

/-- The elements of a drain by row. -/
def drainElems (p : Profile) (a : Acc) (rsum csum : Option Acc) : List (List DElem) :=
  let cs := (List.range a.cols).map fun j => sumElem csum p j
  (List.range a.rows).map fun i =>
    let rs := sumElem rsum p i
    (List.range a.cols).map fun j => drainElem p a i j rs (cs.getD j {})

/-- The codes of OUTCOME (R191). -/
def Outcome.code : Outcome → Nat
  | .ok => 1 | .corrected => 2 | .overflow => 3 | .uncorrectable => 4 | .unchecked => 5

/-- CONTAIN, the drain status without its flags, and the channel of each corrected element of the drained accumulator (R191 to
R193, R223, log 82). -/
def drainRecord (acc : Nat) (a : Acc) (es : List (List DElem)) : Nat × Nat × List Nat :=
  let flat := (List.range a.rows).flatMap fun i =>
    (List.range a.cols).map fun j => (i, j, ((es.getD i []).getD j default))
  let worst := flat.foldl (fun w e => w.worse e.2.2.worst) ((flat.headD default).2.2.worst)
  let (i, j, e) := (flat.find? fun e => e.2.2.worst == worst).getD default
  let fixed := (flat.filter fun e => e.2.2.own.out == .corrected).map fun e => e.2.2.own.chan
  let chan := fixed.headD 0
  let multi := b2n (fixed.any (· != chan))
  (worst.code * 2 ^ 61 + multi * 2 ^ 60 + a.group * 2 ^ 58 + chan * 2 ^ 54 + acc * 2 ^ 52 + i * 2 ^ 46 + j * 2 ^ 40 +
      e.own.syn0 * 2 ^ 31 + e.own.syn1 * 2 ^ 22 + min fixed.length 65535,
    worst.code * 2 ^ 29 + multi * 2 ^ 28 + chan * 2 ^ 24 + i * 2 ^ 18 + j * 2 ^ 12, fixed)

/-- Rows with a non-zero syndrome (R190). -/
def syndromeRows (es : List (List DElem)) : Nat :=
  (es.filter fun row => row.any fun e => e.own.syn0 != 0 || e.own.syn1 != 0).length

/-- The output of an element: its bits and flags (R188, R189). -/
def elemOut (f : OutFmt) (r : RM) (E : Int) (c : ColParam) (e : DElem) : Nat × Nat :=
  let (b, fl) := scalarOut f r E c e.val
  (b, Nat.lor fl e.flags)

/-- The image of an output row and its flags (R189, R199). -/
def outRow (f : OutFmt) (r : RM) (E : Int) (cs : List ColParam) (row : List DElem) : List Byte × Nat :=
  if outBytes f == 0 then
    let (bs, fl) := blockRow f r (List.zipWith (fun c e => scaleFl E c.fmul e.val) cs row)
    (bs, row.foldl (fun m e => Nat.lor m e.flags) fl)
  else
    let os := List.zipWith (fun c e => elemOut f r E c e) cs row
    (os.flatMap fun o => bytesOfWord (outBytes f) o.1, os.foldl (fun m o => Nat.lor m o.2) 0)

/-- The new value of an element of an add-on-store from the old one, and its flags (R221). -/
def addOut (f : OutFmt) (r : RM) (E : Int) (c : ColParam) (e : DElem) (old : Nat) : Nat × Nat :=
  match outInt f with
  | some (w, sg) =>
    let o : Int := if sg then signedOf w old else (old : Int)
    match scaleInt r E c e.val with
    | none => (old, e.flags)
    | some q =>
      let v := clampInt w sg (o + q)
      (wrapNat w v, Nat.lor e.flags (if v == o + q then 0 else flagSat))
  | none =>
    let (b, fl) := convFloat (outFmt f) r 0 false (Fl.add r ((outFmt f).read old) (scaleFl E c.fmul e.val))
    (b, Nat.lor fl.bits e.flags)

/-- A row of an add-on-store: the new bytes from the old, and the flags. -/
def addRow (f : OutFmt) (r : RM) (E : Int) (cs : List ColParam) (row : List DElem) (old : List Byte) : List Byte × Nat :=
  let n := outBytes f
  let os := (List.range row.length).map fun j =>
    addOut f r E (cs.getD j {}) (row.getD j default) (wordOfBytes ((old.drop (n * j)).take n))
  (os.flatMap fun o => bytesOfWord n o.1, os.foldl (fun m o => Nat.lor m o.2) 0)

/-- A register's word of a drain (R220). -/
def regOut (f : OutFmt) (r : RM) (E : Int) (c : ColParam) (e : DElem) : Word :=
  let (b, _) := elemOut f r E c e
  BitVec.ofNat 32
    (match outInt f with
     | some (w, true) => wrapNat 32 (signedOf w b)
     | _ => b)

/-! Accumulator images (R201, R202, R222) -/

def Acc.header (a : Acc) : List Byte :=
  [a.cols * 2 ^ 16 + a.rows * 2 ^ 8 + b2n a.sat * 16 + a.group * 4 + 1, wrapNat 16 a.zb * 2 ^ 16 + wrapNat 16 a.za,
    a.round * 2 ^ 16 + a.pt * 2 ^ 8 + a.csa * 16 + a.rsa, a.ostride, b2n a.evalid * 2 ^ 10 + wrapNat 10 a.e, a.kcnt, a.gen,
    a.flags, a.chmask, 0, 0, 0, 0, 0, 0, 0].flatMap (bytesOfWord 4)

/-- The channels of a mask. -/
def maskChans (m : Nat) : List Nat := (List.range 12).filter (bitAt m)

/-- The planes as TACCSV writes them (R222). -/
def Acc.planeBytes (a : Acc) : List Byte :=
  (maskChans a.chmask).flatMap fun c =>
    let t := a.planes.get c []
    (List.range 64).flatMap fun i =>
      ((List.range 64).map fun j => if i < a.rows && j < a.cols then (t.drop (64 * i)).getD j 0 else 0).flatMap
        (bytesOfWord 2)

/-- The accumulator that a header describes, with its FORM; none when the image is invalid (R202). `live` is the loaded
profile when the image's GEN is the current one. -/
def accOfHeader (bs : List Byte) (self tiles accs gen : Nat) (prof : Option Profile) : Option (Acc × Nat) :=
  let w (i : Nat) : Nat := wordOfBytes ((bs.drop (4 * i)).take 4)
  let form := w 0 % 4
  let group := fld (w 0) 2 2
  let cols := fld (w 0) 16 7
  let rows := fld (w 0) 8 7
  let pt := fld (w 2) 8 5
  let csa := fld (w 2) 4 3
  let rsa := fld (w 2) 0 3
  let named (n : Nat) : Bool := n == 7 || (n < 4 && n != self && n < accs)
  let rsv := fld (w 0) 23 9 + fld (w 0) 15 1 + fld (w 0) 5 3 + fld (w 2) 18 14 + fld (w 2) 13 3 + fld (w 2) 7 1 +
    fld (w 2) 3 1 + fld (w 4) 11 21 + fld (w 7) 5 27 + fld (w 8) 12 20 + w 9 + w 10 + w 11 + w 12 + w 13 + w 14 + w 15
  let chans :=
    match prof with
    | some p => if form == 1 && w 6 == gen && group < groupCount p.grouping then w 8 == p.mask group else true
    | none => true
  if 2 ≤ form || rows == 0 || 64 < rows || cols == 0 || 64 < cols || !(pt == 31 || (pt < 16 && pt < tiles)) || !named csa ||
      !named rsa || w 3 % 4 != 0 || rsv != 0 || !chans then none
  else
    some
      ({ cols := cols, rows := rows, sat := bitAt (w 0) 4, group := group, zb := signedOf 16 (fld (w 1) 16 16)
         za := signedOf 16 (w 1), round := fld (w 2) 16 2, pt := pt, csa := csa, rsa := rsa, ostride := w 3
         evalid := bitAt (w 4) 10, e := signedOf 10 (w 4), kcnt := w 5, gen := w 6, chmask := fld (w 8) 0 12
         valid := true, flags := w 7 }, form)

/-- The state of an accumulator after TZERO, under a profile (R200, R215). -/
def Acc.cleared (a : Acc) (gen : Nat) (prof : Option Profile) : Acc :=
  { a with
    evalid := false, e := 0, kcnt := 0, gen := gen, valid := true
    chmask :=
      match prof with
      | some p => if a.group < groupCount p.grouping then p.mask a.group else 0
      | none => 0 }

/-- A loaded plane: nine bits of each word, reduced when the image's residues are those of the loaded profile (R202). -/
def loadPlane (bs : List Byte) (reduce : Option Nat) : List Nat :=
  (List.range 64).flatMap fun i =>
    let row := (bs.drop (128 * i)).take 128
    (List.range 64).map fun j =>
      let v := wordOfBytes ((row.drop (2 * j)).take 2) % 512
      match reduce with
      | some q => v % q
      | none => v

end Sys2Proof.Machine
end

