-- ==== Sys2Proof/Machine/TileOps.lean ====
section
/-!
DEFINITION. Tile order (R204 to R211, R224): allocations, the checks of tile instructions, the accesses of tile operations,
and the queue of the sequencer.
-/
namespace Sys2Proof

/-- The mask of a matrix instruction (R205). -/
def Instr.matrixMask? : Instr → Option Nat
  | .tmma _ _ _ _ k _ _ | .tmmas _ _ _ _ k _ _ | .trowsum _ _ _ k _ | .tcolsum _ _ _ k _ | .tdrain _ _ _ _ k _ _
  | .tdraina _ _ _ k _ _ => some k
  | _ => none

/-- The accumulator that a matrix instruction accumulates into or drains. -/
def Instr.matrixAcc? : Instr → Option Nat
  | .tmma _ acc _ _ _ _ _ | .tmmas _ acc _ _ _ _ _ | .trowsum _ acc _ _ _ | .tcolsum _ acc _ _ _
  | .tdrain _ _ acc _ _ _ _ | .tdraina _ acc _ _ _ _ => some acc
  | _ => none

def Instr.isDrain : Instr → Bool
  | .tdrain .. | .tdraina .. => true
  | _ => false

/-- Instructions with an address operand in global memory or the scratchpad (checks 9). -/
def Instr.tileAddr? : Instr → Option Nat
  | .tld _ _ a _ | .tldw _ _ a _ _ | .tst _ a _ _ | .taccsv _ _ a _ | .taccld _ _ a | .tdraina _ _ a _ _ _ => some a
  | .tdrain _ _ _ a _ _ target => if target == .registers then none else some a
  | _ => none

namespace Machine

/-! Allocations (R196, R197, R200) -/

def tcReset : List Word := [0x00404002, 0, 128, 0]
def Alloc.tc (a : Alloc) (n : Nat) : List Word := a.tcs.get n tcReset
def Alloc.acc (a : Alloc) (n : Nat) : Acc := a.accs.get n {}
def Alloc.tile (a : Alloc) (n : Nat) : List Byte := a.tiles.get n (List.replicate 8192 0)

def State.alloc (s : State) (pid g : Nat) : Alloc := (s.part pid).allocs.get g {}
def State.modAlloc (s : State) (pid g : Nat) (f : Alloc → Alloc) : State :=
  s.modPart pid fun p => { p with allocs := p.allocs.put g (f (p.allocs.get g {})) }
def State.modAcc (s : State) (pid g n : Nat) (f : Acc → Acc) : State :=
  s.modAlloc pid g fun a => { a with accs := a.accs.put n (f (a.acc n)) }
def State.setTile (s : State) (pid g n : Nat) (bs : List Byte) : State :=
  s.modAlloc pid g fun a => { a with tiles := a.tiles.put n bs }

/-! What an instruction names -/

/-- The tiles and the accumulators of an operation of an allocation, as those it reads and those it writes. -/
structure Names where
  tr : List Nat := []
  tw : List Nat := []
  ar : List Nat := []
  aw : List Nat := []
  deriving DecidableEq, Repr, Inhabited

/-- RSUM's and CSUM's accumulators of an accumulator (R201). -/
def Acc.sums (a : Acc) : List Nat := [a.rsa, a.csa].filter (· < 4)

def drainNames (acc : Nat) (a : Acc) : Names :=
  { tr := if a.pt < 16 then [a.pt] else [], ar := acc :: a.sums }

def tileNames (a : Alloc) : Instr → Names
  | .tld _ t _ _ | .tldw _ t _ _ _ => { tw := [t] }
  | .tst _ _ t _ => { tr := [t] }
  | .tzero _ n true => { aw := [n] }
  | .tzero _ n false => { tw := [n] }
  | .tmma _ acc ta tb _ _ _ | .tmmas _ acc ta tb _ _ _ => { tr := [ta, tb], aw := [acc] }
  | .trowsum _ acc ta _ _ | .tcolsum _ acc ta _ _ => { tr := [ta], aw := [acc] }
  | .tdrain _ _ acc _ _ _ _ | .tdraina _ acc _ _ _ _ => drainNames acc (a.acc acc)
  | .taccsv _ acc _ _ => { ar := [acc] }
  | .taccld _ acc _ => { aw := [acc] }
  | _ => {}

/-! The checks of R211 -/

/-- The cause of an illegal tile control register, in the order of check 2. -/
def tcCause (tc : List Word) : Option Nat :=
  let w1 := (tc.getD 1 0).toNat
  let rsv := fld (tcWord0 tc) 23 9 + fld (tcWord0 tc) 15 1 + fld (tcWord0 tc) 5 3 + fld w1 9 23 + (tc.getD 3 0).toNat
  if 8 < tcFmt tc then some 1
  else if tcRows tc == 0 || 64 < tcRows tc || tcCols tc == 0 || 64 < tcCols tc then some 2
  else if rsv != 0 then some 3
  else if tcSgn tc && 4 ≤ tcFmt tc then some 4
  else if (tcFmt tc == 5 && tcCols tc % 32 != 0) || (6 ≤ tcFmt tc && tcCols tc % 16 != 0) then some 5
  else if tcStride tc % 4 != 0 then some 6
  else none

/-- The pairs of formats that TMMA multiplies (R217). -/
def pairOk (a b : Nat) : Bool :=
  if a ≤ 3 then b ≤ 3
  else if a == 4 then b == 4 || 6 ≤ b
  else if a == 5 then b == 5 || b == 2
  else 6 ≤ b || b == 4

/-- The thread executes a save or restore handler (R436). -/
def State.inSave (s : State) (t : TId) : Bool :=
  match (s.thread t).hand with
  | some h => h.tcause == 48 || h.tcause == 49
  | none => false

/-- What a tile instruction is checked against: its allocation, the loaded profile, and GEN. -/
structure TileView where
  a    : Alloc
  prof : Option Profile
  gen  : Nat
  /-- in a save or restore handler -/
  save : Bool
  deriving DecidableEq, Repr, Inhabited

def firstSome {α : Type} : List (Option α) → Option α
  | [] => none
  | some x :: _ => some x
  | none :: xs => firstSome xs

/-- Check 2. -/
def TileView.checkTc (v : TileView) (ts : List Nat) : Option Trap :=
  firstSome (ts.map fun t => (tcCause (v.a.tc t)).map fun c => .general .tileConfig (cause := c) (reg := t))

/-- Check 3. -/
def TileView.checkValid (v : TileView) (as : List Nat) : Option Trap :=
  (as.find? fun n => !(v.a.acc n).valid).map fun n => .general .accInvalid (reg := n)

def illegal9 : Trap := .general .illegal (cause := 9)

/-- R176 against the loaded grouping; not judged with no profile loaded. -/
def TileView.fmtOk (v : TileView) (fmt : Nat) : Bool :=
  match v.prof with
  | some p => formatOk p.grouping fmt
  | none => true

/-- Check 4 for an instruction. -/
def TileView.checkForm (v : TileView) (i : Instr) : Bool :=
  let fmt (t : Nat) : Nat := tcFmt (v.a.tc t)
  let sg (t : Nat) (s : Bool) : Bool := tcSgn (v.a.tc t) == s
  match i with
  | .tldw _ t _ _ _ => 2 ≤ fmt t && fmt t ≤ 5
  | .tmma _ acc ta tb _ sa sb =>
    sg ta sa && sg tb sb && !(v.a.acc acc).sat && pairOk (fmt ta) (fmt tb) && v.fmtOk (fmt ta) && v.fmtOk (fmt tb)
  | .tmmas _ acc ta tb _ sa sb =>
    sg ta sa && sg tb sb && (v.a.acc acc).sat && pairOk (fmt ta) (fmt tb) && v.fmtOk (fmt ta) && v.fmtOk (fmt tb)
  | .trowsum _ _ ta _ sa | .tcolsum _ _ ta _ sa => sg ta sa && v.fmtOk (fmt ta)
  | .tdrain _ _ _ _ _ f .registers => outBytes f != 0 && f != .f64
  | .tdraina _ _ _ _ f _ => outBytes f != 0
  | _ => true

/-- Checks 5 and 6 for the accumulators that are accumulated into or drained. -/
def TileView.checkProf (v : TileView) (as : List Nat) : Option Trap :=
  let groups :=
    match v.prof with
    | some p => groupCount p.grouping
    | none => 0
  firstSome
    (as.map (fun n =>
        if (v.a.acc n).group < groups then none
        else some (.general .profileMismatch (reg := n) (aux := (v.a.acc n).group))) ++
      as.map fun n =>
        if (v.a.acc n).gen == v.gen then none else some (.general .profileStale (reg := n) (aux := (v.a.acc n).gen)))

/-- Check 7. -/
def TileView.shapeOk (v : TileView) (i : Instr) : Bool :=
  let rows (t : Nat) : Nat := tcRows (v.a.tc t)
  let cols (t : Nat) : Nat := tcCols (v.a.tc t)
  match i with
  | .tmma _ acc ta tb _ _ _ | .tmmas _ acc ta tb _ _ _ =>
    rows ta == (v.a.acc acc).rows && rows tb == (v.a.acc acc).cols && cols ta == cols tb
  | .trowsum _ acc ta _ _ => rows ta == (v.a.acc acc).rows
  | .tcolsum _ acc ta _ _ => cols ta == (v.a.acc acc).cols
  | _ => true

/-- The anchor sum of an accumulation, by the tile control of its operands (R179). -/
def anchorSum (tcs : List (List Word)) : Instr → Option (Nat × Int)
  | .tmma _ acc _ _ _ _ _ | .tmmas _ acc _ _ _ _ _ | .trowsum _ acc _ _ _ | .tcolsum _ acc _ _ _ =>
    some (acc, (tcs.map tcAnchor).foldl (· + ·) 0)
  | _ => none

/-- The tile control that an operation reads: that of the tiles it names. -/
def Alloc.tcsOf (a : Alloc) (i : Instr) : List (List Word) := ((tileNames a i).tw ++ (tileNames a i).tr).map a.tc

/-- Check 8. -/
def TileView.checkAnchor (v : TileView) (i : Instr) : Option Trap :=
  match anchorSum (v.a.tcsOf i) i with
  | some (acc, e) =>
    let c := v.a.acc acc
    if c.evalid && c.e != e then some (.general .anchor (reg := acc) (aux := wrapNat 32 c.e)) else none
  | none => none

/-- The tile control registers that an instruction reads; save and restore handlers move tiles whatever they hold (R436). -/
def TileView.tcNames (v : TileView) : Instr → List Nat
  | .tld _ t _ _ => if v.save then [] else [t]
  | .tst _ _ t _ => if v.save then [] else [t]
  | .tldw _ t _ _ _ => [t]
  | .tmma _ _ ta tb _ _ _ | .tmmas _ _ ta tb _ _ _ => [ta, tb]
  | .trowsum _ _ ta _ _ | .tcolsum _ _ ta _ _ => [ta]
  | _ => []

/-- The accumulators named, RSA and CSA among them for a drain (check 3). -/
def TileView.accNames (v : TileView) : Instr → List Nat
  | .tzero .. => []
  | .tchk _ _ acc => [acc]
  | i => (tileNames v.a i).ar ++ (tileNames v.a i).aw

/-- Checks 2 to 10 of R211: the first that fails. -/
def TileView.check (v : TileView) (i : Instr) (addr : DWord) (desc : List Word) : Option Trap :=
  let form := if v.checkForm i then none else some illegal9
  let uses := if i.matrixAcc?.isSome then v.accNames i else []
  let shape := if v.shapeOk i then none else some (.general .tileShape (reg := (i.matrixAcc?).getD 0))
  let badAddr := if i.tileAddr?.isSome && addr.toNat % 4 != 0 then some (.general .tileConfig (cause := 7) (reg := 255)) else none
  let badWin :=
    match i with
    | .tldw _ t _ _ _ =>
      if (winOf desc).ok (tcFmt (v.a.tc t)) then none else some (.general .tileConfig (cause := 8) (reg := 255))
    | _ => none
  firstSome [v.checkTc (v.tcNames i), v.checkValid (v.accNames i), form, v.checkProf uses, shape, v.checkAnchor i, badAddr,
    badWin]

/-- Check 4 is the first that fails: ILLEGAL_INSTRUCTION with cause 0x09. -/
def TileView.illegal (v : TileView) (i : Instr) : Bool :=
  (v.checkTc (v.tcNames i)).isNone && (v.checkValid (v.accNames i)).isNone && !v.checkForm i

/-! Into tile order (R208) -/

/-- What an operation does to the control state as it enters tile order. -/
def Alloc.control (a : Alloc) (i : Instr) (tcs : List (List Word)) (gen : Nat) (prof : Option Profile) : Alloc :=
  let acc (n : Nat) (f : Acc → Acc) : Alloc := { a with accs := a.accs.put n (f (a.acc n)) }
  let sum (k : Nat) : Alloc :=
    match anchorSum tcs i with
    | some (n, e) => acc n fun c => { c with evalid := true, e := e, kcnt := (c.kcnt + k) % 2 ^ 32 }
    | none => a
  match i with
  | .tzero _ n true =>
    acc n fun c =>
      let c := if c.valid then c else { ({} : Acc) with planes := c.planes, flags := c.flags, status := c.status }
      c.cleared gen prof
  | .tmma .. | .tmmas .. => sum (tcCols (tcs.headD []))
  | .trowsum .. | .tcolsum .. => sum 0
  | _ => a

/-- The allocation as every operation in tile order leaves its control state, those behind a TPROF under the profile that is
loaded now (R211, log 85). -/
def State.allocLast (s : State) (pid g : Nat) : Alloc :=
  let c := s.ctx (s.launch (s.wg g).launch).tag
  ((s.part pid).tileQ.filter fun o => o.late && o.wg == g).foldl
    (fun a o => a.control o.instr o.tcs c.gen.toNat c.prof) (s.alloc pid g)

def State.tileView (s : State) (t : TId) : TileView :=
  let x := s.wave t.w
  let c := s.ctx x.tag
  { a := s.allocLast t.pid x.wg, prof := c.prof, gen := c.gen.toNat, save := s.inSave t }

/-- An operation keeps what it reads of the control state. -/
def State.readControl (s : State) (pid : Nat) (o : TileOp) : TileOp :=
  let a := s.alloc pid o.wg
  let n := tileNames a o.instr
  { o with accs := (n.ar ++ n.aw).map a.acc, prof := (s.ctx (s.launch (s.wg o.wg).launch).tag).prof, late := false }

/-- The control state takes the effect of an operation. -/
def State.actControl (s : State) (pid : Nat) (o : TileOp) : State :=
  let c := s.ctx (s.launch (s.wg o.wg).launch).tag
  s.modAlloc pid o.wg fun a => a.control o.instr o.tcs c.gen.toNat c.prof

/-- Both, for an operation that stands in tile order. -/
def State.controlTile (s : State) (pid : Nat) (o : TileOp) : State :=
  let new := s.readControl pid o
  (s.modPart pid fun p => { p with tileQ := p.tileQ.map fun x => if x.id == o.id then new else x }).actControl pid o

/-- The operations that no TPROF holds back any longer act on the control state, in tile order (R216). -/
def State.controlLate (s : State) (pid : Nat) : State :=
  (((s.part pid).tileQ.takeWhile fun o => !o.isProf).filter (·.late)).foldl (fun s o => s.controlTile pid o) s

/-- An operation enters tile order. Behind a TPROF that has not completed it leaves the control state alone until that ends. -/
def State.enqueueTile (s : State) (t : TId) (pc : DWord) (i : Instr) (addr : DWord) (desc : List Word) (recvs : List TId) :
    Nat × State :=
  let x := s.wave t.w
  let pid := t.pid
  let (id, s) := s.newId
  let s := s.controlLate pid
  let ahead := s.inSave t
  let o : TileOp :=
    { id := id, wg := x.wg, t := t, pc := pc, instr := i, addr := addr, desc := desc
      tcs := (s.alloc pid x.wg).tcsOf i, accs := [], prof := none, recvs := recvs
      priv := s.privileged t, time := s.now, cycle := s.cycOf t
      header :=
        match i with
        | .taccld .. => true
        | _ => false
      late := !ahead && (s.part pid).tileQ.any TileOp.isProf
      ahead := ahead, st := .queued, refused := none, result := none }
  let new := if o.late then o else s.readControl pid o
  let s := s.modPart pid fun p =>
    let (st, rest) := p.tileQ.partition fun q => q.begun || q.ahead
    { p with tileQ := if ahead then st ++ new :: rest else p.tileQ ++ [new] }
  let s := if o.late then s else s.actControl pid o
  (id, s.push [if o.header then .taccldHeader t.core (pid % 4) id else .tileOperationStart t.core (pid % 4) id])

/-! Accesses (R207, R209, R210) -/

/-- Why an operation does not go on: it waits, its access meets a replayable fault, or it meets any other fault. -/
inductive TileStop where
  | hold (p : Park)
  | page (va level : Nat) (acc : AccType)
  | fault (tr : Trap)
  deriving DecidableEq, Repr, Inhabited

/-- The trap that the wave takes later (R210): TILE_FAULT, or the race with its own record (log 19). -/
def TileOp.faultTrap (o : TileOp) (va : Nat) (tr : Trap) : Trap :=
  if tr.code == .race then tr else .general .tileFault (addr := va) (iaddr := o.pc.toNat)

/-- One piece of an operation's accesses. -/
def TileOp.access (o : TileOp) (scratch write : Bool) (va n : Nat) : Access :=
  { scratch := scratch, const := false, addr := BitVec.ofNat 64 va, size := n
    kind := if write then .store [] else .load 0 1 false, scope := .thread, acq := false, rel := false, pc := o.pc, half := 0 }

def State.tilePlace (s : State) (o : TileOp) (scratch write : Bool) (va n : Nat) : Except TileStop Place :=
  let a := o.access scratch write va n
  let page (va level : Nat) : Except TileStop Place :=
    if o.refused == some (va % 2 ^ 56 / 4096) then .error (.fault (o.faultTrap va (.general .tileFault)))
    else .error (.page va level a.kind.accType)
  let stop (v : Verdict) : Except TileStop Place :=
    match v with
    | .go p => .ok p
    | .trap tr => .error (.fault (o.faultTrap va tr))
    | .page va level => page va level
    | .wait p => .error (.hold p)
  if scratch then stop (s.judgeScratch o.t a va)
  else if isAperture va then
    let off := va - apertureBase
    if 0xFFFFFF00 ≤ off then .error (.fault (o.faultTrap va (.general .scratchFault (cause := 3)))) else stop (s.judgeScratch o.t a off)
  else
    match s.xlat none (s.wave o.t.w).tag o.priv a.kind.accType va with
    | .ok pa pte => stop (s.judgePhys o.t a va pa pte)
    | .fault 1 level => page va level
    | .fault _ _ => .error (.fault (o.faultTrap va (.general .tileFault)))

/-- The pieces of ranges of bytes, none across a line; addresses wrap at 2^64. -/
def tilePieces (rs : List (Nat × Nat)) : List (Nat × Nat) := rs.flatMap fun (a, n) => rangeChunks (a % 2 ^ 64) n

/-- The first piece that stops an operation. -/
def State.tileJudge (s : State) (o : TileOp) (scratch write : Bool) (rs : List (Nat × Nat)) : Except TileStop Unit :=
  (tilePieces rs).foldl
    (fun r (va, n) =>
      match r with
      | .ok _ => (s.tilePlace o scratch write va n).map fun _ => ()
      | .error e => .error e) (.ok ())

/-- Reads one range: plain accesses of the thread. A peer's bytes are free (log 17). -/
def State.tileGet (s : State) (o : TileOp) (scratch : Bool) (va n : Nat) : List Byte × State :=
  (rangeChunks (va % 2 ^ 64) n).foldl
    (fun (bs, s) (a, k) =>
      let acc := o.access scratch false a k
      match s.tilePlace o scratch false a k with
      | .error _ => (bs ++ List.replicate k 0, s)
      | .ok (.peer _ _) =>
        (bs ++ (List.range k).map fun j => Config.freeByte (s.freeCtr + j), { s with freeCtr := s.freeCtr + k })
      | .ok p =>
        let s := s.recordAccess o.t acc p
        let (b, s) := s.getPlace p k
        let (space, addr) := s.orderKey o.t acc p
        (bs ++ b, s.postRead o.t space addr k false .thread)) ([], s)

/-- Writes one range. -/
def State.tilePut (s : State) (o : TileOp) (scratch : Bool) (va : Nat) (bs : List Byte) : State :=
  (rangeChunks (va % 2 ^ 64) bs.length).foldl
    (fun s (a, k) =>
      let acc := o.access scratch true a k
      match s.tilePlace o scratch true a k with
      | .error _ => s
      | .ok p =>
        let s := s.recordAccess o.t acc p
        let (space, addr) := s.orderKey o.t acc p
        let s := s.postWrite o.t space addr k false false .thread
        s.putPlace o.t p ((bs.drop (a - va % 2 ^ 64)).take k)) s

def State.tileGets (s : State) (o : TileOp) (scratch : Bool) (rs : List (Nat × Nat)) : List (List Byte) × State :=
  rs.foldl
    (fun (out, s) (va, n) =>
      let (bs, s) := s.tileGet o scratch va n
      (out ++ [bs], s)) ([], s)

/-! What an operation does when it starts -/

/-- An operation's effect at its start: the state, and its channel cycles (R224). -/
abbrev TileRun := Except TileStop (State × Nat)

def moveCycles (n : Nat) : Nat := max 1 ((n + 127) / 128)

/-- TLD (R213). -/
def State.runTld (s : State) (o : TileOp) (t : Nat) (smem : Bool) : TileRun :=
  let tc := o.tcs.headD []
  let rs := if o.ahead then [(o.addr.toNat, 8192)]
    else rowRanges o.addr.toNat (tcStride tc) (rowBytes (tcFmt tc) (tcCols tc)) (tcRows tc)
  (s.tileJudge o smem false rs).map fun _ =>
    let (rows, s) := s.tileGets o smem rs
    let bs := if o.ahead then padTo 8192 (rows.headD []) else tileOfRows (tcFmt tc) (tcCols tc) rows
    (s.setTile o.t.pid o.wg t bs, moveCycles (rs.foldl (fun n r => n + r.2) 0))

/-- TST (R213): rows in ascending order (R199). -/
def State.runTst (s : State) (o : TileOp) (t : Nat) (smem : Bool) : TileRun :=
  let tc := o.tcs.headD []
  let tile := (s.alloc o.t.pid o.wg).tile t
  let ws : List (Nat × List Byte) := if o.ahead then [(o.addr.toNat, tile)]
    else (List.range (tcRows tc)).map fun r => (o.addr.toNat + r * tcStride tc, rowOfTile tile (tcFmt tc) (tcCols tc) r)
  (s.tileJudge o smem true (ws.map fun w => (w.1, w.2.length))).map fun _ =>
    (ws.foldl (fun s w => s.tilePut o smem w.1 w.2) s, moveCycles (ws.foldl (fun n w => n + w.2.length) 0))

/-- TLDW (R214). -/
def State.runTldw (s : State) (o : TileOp) (t : Nat) (smem : Bool) : TileRun :=
  let tc := o.tcs.headD []
  let fmt := tcFmt tc
  let ps := (winOf o.desc).pieces fmt (tcStride tc) o.addr.toNat (tcRows tc) (tcCols tc)
  let rs := ps.filterMap fun (a, n) => a.map fun a => (a, n)
  (s.tileJudge o smem false rs).map fun _ =>
    let (bs, s) := ps.foldl
      (fun (out, s) (a, n) =>
        match a with
        | some a =>
          let (b, s) := s.tileGet o smem a n
          (out ++ b, s)
        | none => (out ++ List.replicate n 0, s)) (([] : List Byte), s)
    let rb := rowBytes fmt (tcCols tc)
    let rows := (List.range (tcRows tc)).map fun r => (bs.drop (rb * r)).take rb
    (s.setTile o.t.pid o.wg t (tileOfRows fmt (tcCols tc) rows), moveCycles (rb * tcRows tc))

/-- TMMA and TMMAS (R217), TROWSUM and TCOLSUM (R218): each adds rows of integers to the accumulator, in the channels of the
group that it had when the operation entered tile order. -/
def State.runSum (s : State) (o : TileOp) (acc cycles : Nat) (f : Profile → Alloc → List (List Int) × Nat) : TileRun :=
  match o.prof with
  | none => .ok (s, cycles)
  | some p =>
    let (sums, flags) := f p (s.alloc o.t.pid o.wg)
    .ok (s.modAcc o.t.pid o.wg acc fun c =>
      let y := Acc.addSums { o.accs.headD {} with planes := c.planes, flags := c.flags } p sums flags
      { c with planes := y.planes, flags := y.flags }, cycles)

def State.runTmma (s : State) (o : TileOp) (acc ta tb : Nat) (sa sb : Bool) : TileRun :=
  let ca := o.tcs.headD []
  let cb := o.tcs.getD 1 []
  s.runSum o acc (6 + tcCols ca) fun p a =>
    let (xa, fa) := splitTile (a.tile ta) ca sa (windowW p.grouping)
    let (xb, fb) := splitTile (a.tile tb) cb sb (windowW p.grouping)
    (xa.map fun ra => xb.map fun rb => dot ra rb, Nat.lor fa fb)

def State.runTrowsum (s : State) (o : TileOp) (acc ta : Nat) (sa : Bool) : TileRun :=
  let ca := o.tcs.headD []
  s.runSum o acc (6 + tcCols ca) fun p a =>
    let (xa, fa) := splitTile (a.tile ta) ca sa (windowW p.grouping)
    (xa.map fun r => [r.foldl (· + ·) 0], fa)

def State.runTcolsum (s : State) (o : TileOp) (acc ta : Nat) (sa : Bool) : TileRun :=
  let ca := o.tcs.headD []
  s.runSum o acc (6 + tcRows ca) fun p a =>
    let (xa, fa) := splitTile (a.tile ta) ca sa (windowW p.grouping)
    ([(List.range (tcCols ca)).map fun j => xa.foldl (fun m r => m + r.getD j 0) 0], fa)

/-- The accumulators of a drain with their residues: its own, RSUM's and CSUM's. -/
def TileOp.drainAccs (o : TileOp) (a : Alloc) (acc : Nat) : Acc × Option Acc × Option Acc :=
  let own := o.accs.headD {}
  let live (n k : Nat) : Acc := { o.accs.getD k {} with planes := (a.acc n).planes, flags := (a.acc n).flags }
  let rs := if own.rsa < 4 then some (live own.rsa 1) else none
  let cs := if own.csa < 4 then some (live own.csa (if own.rsa < 4 then 2 else 1)) else none
  (live acc 0, rs, cs)

/-- A drain to memory or to registers, or an add-on-store (R219 to R221): the delivery, and what DRAIN_COMPLETE writes. A
delivery that meets a fault writes nothing (R210). -/
def State.runDrain (s : State) (o : TileOp) (acc : Nat) (f : OutFmt) (scratch adds : Bool) (regs : Option Nat) : TileRun :=
  match o.prof with
  | none => .ok (s, 1)
  | some p =>
    let a := s.alloc o.t.pid o.wg
    let (own, rs, cs) := o.drainAccs a acc
    let es := drainElems p own rs cs
    let E : Int := if own.evalid then own.e else 0
    let r := rmOf own.round
    let params := (List.range own.cols).map fun j => if own.pt < 16 then colParam (a.tile own.pt) j else {}
    let (contain, status, fixed) := drainRecord acc own es
    let size := outRowSize f own.cols
    let ranges := if regs.isSome then [] else rowRanges o.addr.toNat own.ostride size own.rows
    let done (s : State) (flags : Nat) : State :=
      s.modPart o.t.pid fun q =>
        { q with
          tileQ := q.tileQ.map fun x =>
            if x.id == o.id then
              { x with result := some (BitVec.ofNat 64 contain, status + Nat.lor flags own.flags * 2 ^ 7, fixed) }
            else x }
    let cycles := 24 + own.rows + 12 * syndromeRows es
    match s.tileJudge o scratch true ranges with
    | .error (.fault tr) =>
      let s := done s (es.foldl (fun m row => Nat.lor m (outRow f r E params row).2) 0)
      .ok (s.modWave o.t.w fun x => { x with tileFault := (x.tileFault).orElse fun _ => some tr }, cycles)
    | .error e => .error e
    | .ok _ =>
      match regs with
      | some d =>
        let n := (own.cols + 31) / 32
        let vals := es.map fun row => List.zipWith (fun c e => regOut f r E c e) params row
        let flags := es.foldl (fun m row => Nat.lor m (List.zipWith (fun c e => (elemOut f r E c e).2) params row |>.foldl Nat.lor 0)) 0
        let outs (lane : Nat) : List (Nat × Word) :=
          (List.range own.rows).flatMap fun i =>
            (List.range n).filterMap fun q =>
              if 32 * q + lane < own.cols then some (d + i * n + q, (vals.getD i []).getD (32 * q + lane) 0) else none
        let s := o.recvs.foldl
          (fun s t => s.modThread t fun th =>
            { th with windows := th.windows.map fun x => if x.pc == o.pc && x.ready.isNone then { x with regs := outs t.lane } else x }) s
        .ok (done s flags, cycles)
      | none =>
        let (s, flags) := (List.range own.rows).foldl
          (fun (s, fl) i =>
            let at_ := o.addr.toNat + i * own.ostride
            let row := es.getD i []
            if adds then
              let (old, s) := s.tileGet o scratch at_ size
              let (bs, f2) := addRow f r E params row old
              (s.tilePut o scratch at_ bs, Nat.lor fl f2)
            else
              let (bs, f2) := outRow f r E params row
              (s.tilePut o scratch at_ bs, Nat.lor fl f2)) (s, 0)
        .ok (done s flags, cycles)

/-- TACCSV (R222). -/
def State.runTaccsv (s : State) (o : TileOp) (acc : Nat) (smem : Bool) : TileRun :=
  let live := (s.alloc o.t.pid o.wg).acc acc
  let a := { o.accs.headD {} with planes := live.planes, flags := live.flags }
  let bs := a.header ++ a.planeBytes
  (s.tileJudge o smem true [(o.addr.toNat, bs.length)]).map fun _ =>
    (s.tilePut o smem o.addr.toNat bs, moveCycles bs.length)

/-- TACCLD after its header (R202, R222): `desc` holds FORM, or 2 where reading the header has met a fault (R210), and `accs` the
accumulator of a valid image. -/
def State.runTaccld (s : State) (o : TileOp) (acc : Nat) : TileRun :=
  match o.accs with
  | [] => .ok (if o.desc.headD 0 == 2 then s.modAcc o.t.pid o.wg acc fun x => { x with planes := [] } else s, 1)
  | a :: _ =>
    let c := s.ctx (s.wave o.t.w).tag
    if o.desc.headD 0 == 0 then
      .ok (s.modAcc o.t.pid o.wg acc fun x => { x with planes := [], flags := 0, status := 0 }, 1)
    else
      let chans := maskChans a.chmask
      let base := o.addr.toNat + 64
      let rs := (List.range chans.length).map fun n => (base + 8192 * n, 8192)
      (s.tileJudge o false false rs).map fun _ =>
        let (bs, s) := s.tileGets o false rs
        let reduce (ch : Nat) : Option Nat :=
          match c.prof with
          | some p =>
            if a.gen == c.gen.toNat && a.group < groupCount p.grouping then some (p.chans.getD ch default).mod else none
          | none => none
        let planes : Tab (List Nat) := List.zipWith (fun ch b => (ch, loadPlane b (reduce ch))) chans bs
        (s.modAcc o.t.pid o.wg acc fun x => { x with planes := planes, flags := a.flags, status := 0 }, moveCycles (64 + 8192 * chans.length))

/-- The start of an operation. -/
def State.runTile (s : State) (o : TileOp) : TileRun :=
  match o.instr with
  | .tld _ t _ smem => s.runTld o t smem
  | .tldw _ t _ _ smem => s.runTldw o t smem
  | .tst _ _ t smem => s.runTst o t smem
  | .tzero _ n true => .ok (s.modAcc o.t.pid o.wg n fun c => { c with planes := [], flags := 0, status := 0 }, 1)
  | .tzero _ n false => .ok (s.setTile o.t.pid o.wg n (List.replicate 8192 0), 1)
  | .tmma _ acc ta tb _ sa sb | .tmmas _ acc ta tb _ sa sb => s.runTmma o acc ta tb sa sb
  | .trowsum _ acc ta _ sa => s.runTrowsum o acc ta sa
  | .tcolsum _ acc ta _ sa => s.runTcolsum o acc ta sa
  | .tdrain _ d acc _ _ f target => s.runDrain o acc f (target == .scratch) false (if target == .registers then some d else none)
  | .tdraina _ acc _ _ f smem => s.runDrain o acc f smem true none
  | .taccsv _ acc _ smem => s.runTaccsv o acc smem
  | .taccld _ acc _ => s.runTaccld o acc
  | _ => .ok (s, 1)

/-! The queue (R208, R209) -/

/-- Registers and accumulators that an operation writes, and those it reads: tiles from 0, accumulators from 100. -/
def TileOp.writes (o : TileOp) : List Nat :=
  let n := tileNames {} o.instr
  n.tw ++ n.aw.map (· + 100)
def TileOp.reads (o : TileOp) : List Nat :=
  let a := o.accs.headD {}
  match o.instr with
  | .tdrain _ _ acc _ _ _ _ | .tdraina _ acc _ _ _ _ =>
    let n := drainNames acc a
    n.tr ++ n.ar.map (· + 100)
  | i =>
    let n := tileNames {} i
    n.tr ++ n.ar.map (· + 100)

def meetsAny (a b : List Nat) : Bool := a.any b.contains

/-- The arrays that an operation occupies: a group's channels, or the reconstruction engine (R165, R190). -/
def TileOp.unit (o : TileOp) : Option Nat :=
  match o.instr with
  | .tmma .. | .tmmas .. | .trowsum .. | .tcolsum .. => some (o.accs.headD {}).group
  | .tdrain .. | .tdraina .. => some 100
  | _ => none

/-- The accesses of `o` come after those of the earlier operation `e` of the thread (R207, R209). -/
def TileOp.memAfter (e o : TileOp) : Bool := e.t == o.t && !e.begun && e.overlaps o.touch.1 o.touch.2

/-- The unit of `o` is not free for it: it works for `e`, or `e` is a drain before it, since drains are served in issue order
(R190). -/
def TileOp.unitAfter (e o : TileOp) : Bool := o.unit.isSome && e.unit == o.unit && (e.begun || o.instr.isDrain)

/-- The start of `o` waits for the earlier operation `e` (R208, R209, R216). -/
def TileOp.after (e o : TileOp) : Bool :=
  let regs := e.wg == o.wg && (meetsAny e.writes (o.reads ++ o.writes) || meetsAny e.reads o.writes)
  let wait := regs || e.unitAfter o || e.memAfter o
  if o.ahead then (e.ahead || e.st == .started) && wait else e.isProf || wait

/-- The operations of a workgroup that is being saved stand still, but for those of its handlers (R225, R436). -/
def State.tileStopped (s : State) (o : TileOp) : Bool :=
  !o.ahead &&
    match (s.wg o.wg).st with
    | .resident | .finished => false
    | .halting _ | .debugged => !(s.waves.any fun e => e.2.wg == o.wg && e.2.threads.any fun th => th.block == some .tprof)
    | _ => true

/-- The operations before `id` in tile order, and the operation. -/
def tileFind (id : Nat) : List TileOp → List TileOp → Option (List TileOp × TileOp)
  | _, [] => none
  | pre, o :: os => if o.id == id then some (pre, o) else tileFind id (pre ++ [o]) os

def State.modTileOp (s : State) (pid id : Nat) (f : TileOp → TileOp) : State :=
  s.modPart pid fun p => { p with tileQ := p.tileQ.map fun o => if o.id == id then f o else o }

/-- The wave that supplied an operation's address receives a trap (R210). -/
def State.tileTrap (s : State) (o : TileOp) (tr : Trap) : State :=
  s.modWave o.t.w fun x => { x with tileFault := (x.tileFault).orElse fun _ => some tr }

/-- An operation waits (R209): a replayable fault is recorded. -/
def State.holdTile (s : State) (pid : Nat) (o : TileOp) (st : TileStop) : State :=
  match st with
  | .hold p => s.modTileOp pid o.id fun o => { o with st := .held p }
  | .page va level acc =>
    let x := s.wave o.t.w
    let s := s.recordFault x.tag va acc.code x.wid.toNat (s.wg x.wg).lin level
    s.modTileOp pid o.id fun o => { o with st := .held (.fault (va % 2 ^ 56 / 4096)) }
  | .fault _ => s

/-- What a fault leaves of the destination (R210). -/
def State.faultTile (s : State) (o : TileOp) (tr : Trap) : State :=
  let pid := o.t.pid
  let s := s.tileTrap o tr
  match o.instr with
  | .tld _ t _ _ | .tldw _ t _ _ _ => s.setTile pid o.wg t (List.replicate 8192 0)
  | .taccld _ acc _ => s.modAcc pid o.wg acc fun c => { c with planes := [], valid := false }
  | _ => s

/-- The time of `n` channel cycles on a partition (R7, R224): a throttled tile of a course takes twice as many (R491). -/
def State.channelSteps (s : State) (pid n : Nat) : Nat := 8 * (if s.courseHot pid then 2 * n else n)

/-- An operation has made its accesses and works for `n` channel cycles. -/
def State.startedTile (s : State) (pid : Nat) (o : TileOp) (n : Nat) : State :=
  let s := s.modTileOp pid o.id fun o => { o with st := .started }
  let (d, s) := s.takeDelay
  let time := s.now + s.channelSteps pid n + d
  let s := if o.instr.isDrain then s.at time (.drainComplete (pid / 4) (pid % 4) o.id) else s
  let s := s.at time (.tileOperationComplete (pid / 4) (pid % 4) o.id)
  s.wake fun q => q == Park.tile o.id

/-- An operation finds the errors of the lines that it may read (R471). -/
def State.meetTile (s : State) (o : TileOp) : State :=
  if s.upsets.isEmpty then s
  else
    o.touch.2.foldl
      (fun s x => if x.scratch then s else s.meetVa none (s.wave o.t.w).tag o.priv .read x.addr x.size) s

/-- An operation reads the accumulators that it names, whose storage may hold errors: no code finds those, and a residue is then
another (R228, R467). -/
def State.meetPlanes (s : State) (o : TileOp) : State :=
  let names := (o.reads ++ o.writes).filterMap fun n => if 100 ≤ n then some (n - 100) else none
  s.upsets.foldl
    (fun s u =>
      match u with
      | .plane pid g acc chan n x =>
        if pid != o.t.pid || g != o.wg || !names.contains acc then s
        else
          ({ s with upsets := s.upsets.erase u } : State).modAcc pid g acc fun c =>
            { c with planes := c.planes.put chan ((c.planes.get chan (List.replicate 4096 0)).set n (x % 512)) }
      | _ => s) s

/-- TILE_OPERATION_START (R208): the operation starts if nothing before it in tile order keeps it waiting. -/
def execTileOperationStart (core part op : Nat) (s : State) : Host.Outcome State Fault Refusal :=
  let pid := core * 4 + part
  let s := s.controlLate pid
  .next (match tileFind op [] (s.part pid).tileQ with
  | none => s
  | some (pre, o) =>
    if o.begun || o.header || o.isProf || s.tileStopped o || pre.any (TileOp.after · o) then s
    else
      let s := (s.meetTile o).meetPlanes o
      match s.runTile o with
      | .ok (s, n) => s.startedTile pid o n
      | .error (.fault tr) => (s.faultTile o tr).startedTile pid o 1
      | .error st => s.holdTile pid o st)

/-- TACCLD_HEADER (R202, R203): the header has arrived, and the configuration is applied in tile order. -/
def execTaccldHeader (core part op : Nat) (s : State) : Host.Outcome State Fault Refusal :=
  let pid := core * 4 + part
  let s := s.controlLate pid
  .next (match tileFind op [] (s.part pid).tileQ with
  | none => s
  | some (pre, o) =>
    match o.instr with
    | .taccld _ acc _ =>
      if !o.header || s.tileStopped o || pre.any (fun e => e.isProf || e.memAfter o) then s
      else
        let applied (s : State) (a : Option (Acc × Nat)) : State :=
          let c := s.ctx (s.wave o.t.w).tag
          let s := s.modTileOp pid op fun o =>
            { o with
              header := false
              accs := (a.map (·.1)).toList
              desc := [BitVec.ofNat 32 ((a.map (·.2)).getD 0)] }
          let s := s.modAcc pid o.wg acc fun x =>
            match a with
            | some (y, form) =>
              let y := { y with planes := x.planes, flags := x.flags, status := x.status }
              if form == 0 then y.cleared c.gen.toNat c.prof else y
            | none => { x with valid := false }
          s.push [.tileOperationStart core part op]
        match s.tileJudge o false false [(o.addr.toNat, 64)] with
        | .ok _ =>
          let (bs, s) := s.tileGet o false o.addr.toNat 64
          let k := (s.launch (s.wg o.wg).launch).hdr
          let c := s.ctx (s.wave o.t.w).tag
          applied s (accOfHeader bs acc k.tiles k.accs c.gen.toNat c.prof)
        | .error (.fault tr) =>
          let s := (s.tileTrap o tr).modTileOp pid op fun o => { o with header := false, accs := [], desc := [2] }
          (s.modAcc pid o.wg acc fun x => { x with valid := false }).push [.tileOperationStart core part op]
        | .error st => s.holdTile pid o st
    | _ => s)

end Machine

end Sys2Proof
end

