-- ==== Sys2Proof/Machine/CrossLane.lean ====
section
/-!
DEFINITION. What the cross-lane instructions compute (R131, R132, R150 to R162): the mask and the destinations of each, the
values a signer supplies, and the result of a contributing lane.
-/
namespace Sys2Proof

/-- The mask that a cross-lane instruction signs (R142). -/
def Instr.laneMask? : Instr → Option Nat
  | .lget _ _ _ _ k _ _ | .pqry _ _ _ k _ | .peers _ _ _ k _ | .lfold _ _ _ k _ _ | .scan _ _ _ k _ _ _ | .xlp _ _ _ k _
  | .xpose _ _ _ k _ | .unpk _ _ _ k _ _ | .packx _ _ _ k _ | .cvtbx _ _ _ k _ _ | .cvtmxEnc _ _ _ _ k _ => some k
  | _ => none

/-- The guard and lookahead of an instruction that signs. -/
def Instr.signHd : Instr → Hd
  | .lget h .. | .pqry h .. | .peers h .. | .lfold h .. | .scan h .. | .xlp h .. | .xpose h .. | .unpk h .. | .packx h ..
  | .cvtbx h .. | .cvtmxEnc h .. | .tmma h .. | .tmmas h .. | .trowsum h .. | .tcolsum h .. | .tdrain h .. | .tdraina h .. => h
  | _ => ⟨false, 0, 0⟩

/-- The destinations of a cross-lane instruction: registers and predicates. -/
def Instr.laneDests : Instr → List Nat × List Nat
  | .lget _ d _ _ _ _ pv => ([d], [pv])
  | .pqry _ d _ _ kind => if kind == .mask then ([d], []) else ([], [d])
  | .lfold _ d _ _ _ t | .scan _ d _ _ _ _ t => (Machine.dests t.wide d, [])
  | .peers _ d _ _ _ | .xlp _ d _ _ _ | .xpose _ d _ _ _ | .unpk _ d _ _ _ _ | .packx _ d _ _ _ | .cvtbx _ d _ _ _ _ => ([d], [])
  | .cvtmxEnc _ d _ b _ _ => ([d, b], [])
  | _ => ([], [])

namespace Machine

/-- The source values of a signer, captured as it signs (R142). -/
def State.capture (s : State) (t : TId) : Instr → List Word
  | .lget _ _ a b _ _ _ => [s.rd t a, s.rd t b]
  | .pqry _ _ p _ _ => [if (s.thread t).pred p then 1 else 0]
  | .peers _ _ a _ w => if w then [s.rd t a, s.rd t (a + 1)] else [s.rd t a]
  | .lfold _ _ a _ _ ty | .scan _ _ a _ _ _ ty => if ty.wide then [s.rd t a, s.rd t (a + 1)] else [s.rd t a]
  | .xlp _ _ a _ _ | .xpose _ _ a _ _ | .unpk _ _ a _ _ _ | .packx _ _ a _ _ | .cvtbx _ _ a _ _ _ | .cvtmxEnc _ _ a _ _ _ =>
    [s.rd t a]
  | .tdrain _ _ _ a _ _ target => if target == .registers then [] else [s.rd t a, s.rd t (a + 1)]
  | .tdraina _ _ a _ _ _ => [s.rd t a, s.rd t (a + 1)]
  | _ => []

/-- The captured values of the contributing lanes, by lane. -/
abbrev Lanes := Tab (List Word)

def Lanes.word (l : Lanes) (i : Nat) : Option Nat := (l.find? i).map fun v => (v.getD 0 0).toNat
def Lanes.num (l : Lanes) (i : Nat) : Option Nat :=
  (l.find? i).map fun v => (v.getD 0 0).toNat + (v.getD 1 0).toNat * 2 ^ 32
/-- A lane's word, the reader's own where it does not contribute (R150). -/
def Lanes.wordOr (l : Lanes) (i own : Nat) : Nat := (l.word i).getD ((l.word own).getD 0)

/-- LGET's source lane (R153). -/
def lgetLane (mode : LgetMode) (i b : Nat) : Option Nat :=
  match mode with
  | .atLane => if b < 32 then some b else none
  | .below => if b ≤ i then some (i - b) else none
  | .above => if i + b < 32 then some (i + b) else none
  | .flip => if b < 32 then some (Nat.xor i b) else none

def xLget (d : Nat) (mode : LgetMode) (pv : Nat) (l : Lanes) (i : Nat) : Out :=
  let b := (((l.get i []).getD 1 0)).toNat
  match (lgetLane mode i b).bind fun j => l.word j with
  | some v => { regs := putNum false d v, preds := [(pv, true)] }
  | none => { regs := putNum false d (l.wordOr i i), preds := [(pv, false)] }

/-- PQRY (R154). -/
def xPqry (d : Nat) (kind : PqryKind) (l : Lanes) : Out :=
  let bs := l.map fun e => e.2.headD 0 == 1
  match kind with
  | .every => { preds := [(d, bs.all id)] }
  | .some => { preds := [(d, bs.any id)] }
  | .same => { preds := [(d, bs.all id || bs.all not)] }
  | .mask => { regs := putNum false d (l.foldl (fun m e => if e.2.headD 0 == 1 then m + 2 ^ e.1 else m) 0) }

/-- PEERS (R155). -/
def xPeers (d : Nat) (l : Lanes) (i : Nat) : Out :=
  { regs := putNum false d (l.foldl (fun m e => if e.2 == l.get i [] then m + 2 ^ e.1 else m) 0) }

/-! LFOLD and SCAN (R104, R105, R156, R157) -/

def FoldTy.bits (t : FoldTy) : Nat := if t.wide then 64 else 32
def FoldTy.neg (t : FoldTy) : Bool := t == .s32 || t == .s64

/-- The identity of an operation (R104, R156). -/
def foldId (op : FoldOp) (t : FoldTy) : Nat :=
  let w := FoldTy.bits t
  if t == .f32 then
    match op with
    | .add => fmt32.zeroBits true
    | .min => fmt32.infBits false
    | _ => fmt32.infBits true
  else
    match op with
    | .add | .or | .xor => 0
    | .and => 2 ^ w - 1
    | .min => if FoldTy.neg t then 2 ^ (w - 1) - 1 else 2 ^ w - 1
    | .max => if FoldTy.neg t then 2 ^ (w - 1) else 0

def foldOp (op : FoldOp) (t : FoldTy) (a b : Nat) : Nat :=
  let w := FoldTy.bits t
  let le : Bool := if FoldTy.neg t then signedOf w a ≤ signedOf w b else a ≤ b
  if t == .f32 then
    match op with
    | .add => fmt32.round .rn (Fl.add .rn (fmt32.read a) (fmt32.read b))
    | .min => fmt32.pick false a b
    | _ => fmt32.pick true a b
  else
    match op with
    | .add => (a + b) % 2 ^ w
    | .min => if le then a else b
    | .max => if le then b else a
    | .and => Nat.land a b
    | .or => Nat.lor a b
    | .xor => Nat.xor a b

def foldLanes (op : FoldOp) (t : FoldTy) (l : Lanes) : List Nat :=
  (List.range 32).map fun i => (if t.wide then l.num i else l.word i).getD (foldId op t)

def xLfold (d : Nat) (op : FoldOp) (t : FoldTy) (l : Lanes) : Out :=
  { regs := putNum t.wide d ((foldTree (foldOp op t) (foldLanes op t l)).headD 0) }

/-- SCAN (R105): the steps leave y[0] as it is, a NaN with its payload too (log 78). -/
def xScan (d : Nat) (max excl : Bool) (t : FoldTy) (l : Lanes) (i : Nat) : Out :=
  let op : FoldOp := if max then .max else .add
  let y := scanTree (foldOp op t) (foldLanes op t l)
  { regs := putNum t.wide d (if !excl then y.getD i 0 else if i == 0 then foldId op t else y.getD (i - 1) 0) }

/-! The crossbar (R158, R160 to R162) -/

/-- A pattern entry: its selectors, the identity where it has never been written (R140, R141). -/
def Wave.pattern (x : Wave) (e : Nat) : List Nat := x.pats.get e (List.range 32)

def xXlp (d : Nat) (sels : List Nat) (l : Lanes) (i : Nat) : Out :=
  let sel := sels.getD i i
  { regs := putNum false d (if bitAt sel 5 then 0 else l.wordOr (sel % 32) i) }

def xXpose (d size : Nat) (l : Lanes) (i : Nat) : Out :=
  let s := 8 * 2 ^ size
  let k := 32 / s
  let c := 4 * k
  let part (e : Nat) : Nat :=
    let x := k * i + e
    let src := x % 8 * c + x / 8
    match l.word (src / k) with
    | some w => fld w (s * (src % k)) s
    | none => fld (l.wordOr i i) (s * e) s
  { regs := putNum false d ((List.range k).foldl (fun m e => m + part e * 2 ^ (s * e)) 0) }

def xUnpk (d size : Nat) (signed : Bool) (l : Lanes) (i : Nat) : Out :=
  let s := 2 * 2 ^ size
  let k := 32 / s
  let v := fld (l.wordOr (i / k) i) (s * (i % k)) s
  { regs := putNum false d (if signed then wrapNat 32 (signedOf s v) else v) }

def xPackx (d size : Nat) (l : Lanes) (i : Nat) : Out :=
  let s := 2 * 2 ^ size
  let k := 32 / s
  let part (e : Nat) : Nat :=
    match l.word (k * i + e) with
    | some w => w % 2 ^ s
    | none => fld (l.wordOr i i) (s * e) s
  { regs := putNum false d (if i < 32 / k then (List.range k).foldl (fun m e => m + part e * 2 ^ (s * e)) 0 else 0) }

/-! Block formats (R131, R132) -/

/-- The values of some lanes as a block takes them: +0 from a lane that does not contribute, after substitution. -/
def blockLanes (l : Lanes) (lanes : List Nat) : List Fl :=
  lanes.map fun i => (blockSubst 0 (fmt32.read ((l.word i).getD 0))).1

def xCvtbx (d : Nat) (f : BxFmt) (r : RM) (l : Lanes) (i : Nat) : Out :=
  let j := i / 16
  let (b, _) := encodeBx f r (blockLanes l ((List.range 16).map (16 * j + ·)))
  let w := tagP b.tag + 1
  let bits := if b.tag == 3 || b.E == 255 then 0 else fld b.payload (w * (i % 16)) w
  { regs := putNum false d (b.E * 2 ^ 24 + b.tag * 2 ^ 22 + b.mu * 2 ^ 14 + bits) }

def xCvtmxEnc (d b : Nat) (r : RM) (l : Lanes) (i : Nat) : Out :=
  let (X, cs, _) := encodeMx r (blockLanes l (List.range 32))
  { regs := putNum false d (wrapNat 8 (cs.getD i 0)) ++ putNum false b X }

/-- The result of a contributing lane. -/
def xResult (x : Wave) (l : Lanes) (i : Nat) : Instr → Out
  | .lget _ d _ _ _ mode pv => xLget d mode pv l i
  | .pqry _ d _ _ kind => xPqry d kind l
  | .peers _ d _ _ _ => xPeers d l i
  | .lfold _ d _ _ op t => xLfold d op t l
  | .scan _ d _ _ max excl t => xScan d max excl t l i
  | .xlp _ d _ _ e => xXlp d (x.pattern e) l i
  | .xpose _ d _ _ size => xXpose d size l i
  | .unpk _ d _ _ size signed => xUnpk d size signed l i
  | .packx _ d _ _ size => xPackx d size l i
  | .cvtbx _ d _ _ f r => xCvtbx d f r l i
  | .cvtmxEnc _ d _ b _ r => xCvtmxEnc d b r l i
  | _ => {}

end Machine

end Sys2Proof
end

