-- ==== Sys2Proof/Machine/Collective.lean ====
section
/-!
DEFINITION. The collective engine (R384, R462 to R465): NREDUCE and NMCAST.
-/
namespace Sys2Proof.Machine

/-- The collective block (R384). -/
structure CollBlock where
  count : Nat
  type  : Nat
  op    : Nat
  group : Nat
  deriving DecidableEq, Repr

def collBlock (bs : List Byte) : CollBlock :=
  { count := bfld bs 0 4, type := bfld bs 4 1, op := bfld bs 5 1, group := bfld bs 6 2 }

def CollBlock.ty (b : CollBlock) : FoldTy := FoldTy.ofCode b.type
/-- The bytes of a buffer: of elements for NREDUCE. -/
def CollBlock.size (b : CollBlock) (reduce : Bool) : Nat := if reduce then b.count * (FoldTy.bits b.ty / 8) else b.count

/-- The checks of the collective block, in ascending cause number. -/
def checkColl (reduce : Bool) (c : QCmd) (bs : List Byte) : Eng Unit :=
  let b := collBlock bs
  let n := b.size reduce
  blockBad
    [(2, bfld bs 8 56 != 0 || 4096 ≤ b.group),
     (4, b.count == 0 || (if reduce then 4 < b.type || 5 < b.op || (b.type == 4 && 2 < b.op) else b.type != 0 || b.op != 0)),
     (6, reachesWindow ((c.a0, n) :: if reduce then [(c.a1, n)] else []))]

/-- The block, the source bytes and the group of a collective; NETWORK when the group is not valid or the switches do not
serve it, or for what the fabric reports (R455, R462, R465). -/
def State.collStart (s : State) (reduce : Bool) (problem : Nat) (c : QCmd) : Eng (CollBlock × List Byte × DWord) :=
  match s.cmdBlock c with
  | .error e => .error e
  | .ok bs =>
    match checkColl reduce c bs with
    | .error e => .error e
    | .ok _ =>
      let b := collBlock bs
      let g := s.coll.get b.group (0, 0)
      if !g.1.getLsbD 0 || !s.plovar then .error (.status 12 1)
      else if !reduce && Config.rxSize g.2 < c.a1 + b.count then .error (.status 12 2)
      else
        match s.engRead c.issuer c.a0 (b.size reduce) with
        | .error e => .error e
        | .ok src => if problem != 0 then .error (.status 12 problem) else .ok (b, src, g.2)

/-- One combination of a reduction (R463): as LFOLD, with .f32 addition rounded by RM. -/
def combine (r : RM) (op : FoldOp) (t : FoldTy) (a b : Nat) : Nat :=
  if t == .f32 && op == .add then fmt32.round r (Fl.add r (fmt32.read a) (fmt32.read b)) else foldOp op t a b

/-- The elements of a buffer. -/
def collElems (t : FoldTy) (n : Nat) (bs : List Byte) : List Nat :=
  let k := FoldTy.bits t / 8
  (List.range n).map fun i => wordOfBytes ((bs.drop (k * i)).take k)

/-- Puts a member in its place by endpoint. -/
def insertMember (m : Nat × List Nat) : List (Nat × List Nat) → List (Nat × List Nat)
  | [] => [m]
  | x :: xs => if m.1 < x.1 then m :: x :: xs else x :: insertMember m xs

/-- Combines the values of some members in order. -/
def combineAll (f : Nat → Nat → Nat) : List (Nat × List Nat) → List Nat
  | [] => []
  | m :: ms => ms.foldl (fun a x => List.zipWith f a x.2) m.2

/-- The result of a reduction (R463): each leaf's members in ascending endpoint number, then the leaves in ascending
order. -/
def reduceAll (f : Nat → Nat → Nat) (members : List (Nat × Nat × List Nat)) : List Nat :=
  let leaves : Tab (List (Nat × List Nat)) :=
    members.foldl (fun t m => t.put m.1 (insertMember (m.2.1, m.2.2) (t.get m.1 []))) []
  combineAll f (leaves.map fun l => (l.1, combineAll f l.2))

/-- A NaN of the result is canonical (R384). -/
def canonElem (t : FoldTy) (x : Nat) : Nat := if t == .f32 && (fmt32.read x).isNan then fmt32.nanBits else x

/-- NREDUCE (R463). -/
def nreduceCmd (members : List (Nat × Nat × List Byte)) (problem : Nat) (s : State) (c : QCmd) : Eng EngEnd :=
  match s.collStart true problem c with
  | .error e => .error e
  | .ok (b, src, _) =>
    let peers := members.filter fun m => m.2.1 != s.endpoint
    let leaf := ((members.find? fun m => m.2.1 == s.endpoint).map (·.1)).getD 0
    if peers.any fun m => m.2.2.length != src.length then .error (.status 12 2)
    else
      let elems := collElems b.ty b.count
      let all := (leaf, s.endpoint, elems src) :: peers.map fun m => (m.1, m.2.1, elems m.2.2)
      let out := (reduceAll (combine (rmOf c.roundCode) (FoldOp.ofCode b.op) b.ty) all).map (canonElem b.ty)
      .ok
        { status := 1, count := src.length
          writes := [(c.a1, out.flatMap fun x => bytesOfWord (FoldTy.bits b.ty / 8) x)] }

/-- NMCAST (R464): this device's own copy; the fabric brings the others theirs. -/
def nmcastCmd (problem : Nat) (s : State) (c : QCmd) : Eng EngEnd :=
  match s.collStart false problem c with
  | .error e => .error e
  | .ok (_, src, w) => .ok { status := 1, count := src.length, phys := [(s.home (Config.rxBase w + c.a1), src)] }

/-- The ranges that a collective names. -/
def collNames (reduce : Bool) (s : State) (c : QCmd) : Ranges :=
  match s.cmdBlock c with
  | .error _ => [(c.p, 64)]
  | .ok bs =>
    let n := (collBlock bs).size reduce
    (c.p, 64) :: (c.a0, n) :: if reduce then [(c.a1, n)] else []

/-- NREDUCE (R463). -/
def execNreduce (core q : Nat) (members : List (Nat × Nat × List Byte)) (problem : Nat) (s : State) :
    Host.Outcome State Fault Refusal :=
  .next (s.runHead core q (fun c => c.engine == 4 && c.opc == 1) (fun c => [(4, c.subst != 0)]) (collNames true)
    (nreduceCmd members problem))

/-- NMCAST (R464), and a command of the collective engine with an unknown OPC (R366). -/
def execNmcast (core q problem : Nat) (s : State) : Host.Outcome State Fault Refusal :=
  .next (s.runHead core q (fun c => c.engine == 4 && (c.opc == 2 || !c.known)) (fun c => [(4, c.subst != 0)])
    (collNames false) (nmcastCmd problem))

end Sys2Proof.Machine
end

