-- ==== Sys2Proof/Machine/Sessions.lean ====
section
/-!
DEFINITION. Sessions (R142 to R147, R205, R206, R512): signing, performance, the timeout, and what a mask write does to
sessions and to WAITM (R241 to R243).
-/
namespace Sys2Proof.Machine

/-- To whom a session belongs (R142, R205). -/
inductive Owner where
  | wave (w : Nat)
  | alloc (pid g : Nat)
  deriving DecidableEq, Repr, Inhabited

def State.sessionsOf (s : State) : Owner → List Session
  | .wave w => (s.wave w).sessions
  | .alloc pid g => (s.alloc pid g).sessions
def State.setSessions (s : State) (o : Owner) (xs : List Session) : State :=
  match o with
  | .wave w => s.modWave w fun x => { x with sessions := xs }
  | .alloc pid g => s.modAlloc pid g fun a => { a with sessions := xs }

/-- The members of a mask of a wave. -/
def State.members (s : State) (w k : Nat) : List TId :=
  let x := s.wave w
  ((List.range 32).filter fun i => (x.mask k).getLsbD i && (x.thread i).st != .exited).map (⟨w, ·⟩)

/-- The required set. -/
def State.required (s : State) (o : Owner) (k : Nat) : List TId :=
  match o with
  | .wave w => s.members w k
  | .alloc pid g => (s.waves.filter fun e => e.2.wg == g && pidOf e.1 == pid).flatMap fun e => s.members e.1 k

def State.isMember (s : State) (t : TId) (k : Nat) : Bool := ((s.wave t.w).mask k).getLsbD t.lane

/-- The contributing signers (R142). -/
def State.contributors (s : State) (x : Session) : List Signer := x.signers.filter fun g => g.active && s.isMember g.t x.k

/-- Every thread of the required set has signed. -/
def State.signed (s : State) (o : Owner) (x : Session) : Bool :=
  (s.required o x.k).all fun t => x.signers.any fun g => g.t == t

/-! Performance -/

/-- A trap at a session's instruction, in a signer of the present bundle or in one that waits. -/
def State.raiseAt (s : State) (pc : DWord) (t : TId) (tr : Trap) : State :=
  if s.cur.threads.contains t then s.raise t tr pc else (s.unfile t).trapNow t tr pc

/-- After a session the signers go on at the next instruction: those of the present bundle with it, the others filed. -/
def State.releaseSigners (s : State) (x : Session) : State :=
  x.signers.foldl
    (fun s g =>
      if s.cur.threads.contains g.t then s.modThread g.t fun th => { th with pc := x.pc + 8 }
      else if s.trapped g.t || (s.thread g.t).hand.isSome && (s.thread g.t).st == .ready then s
      else ((s.unfile g.t).modThread g.t fun th => { th with pc := x.pc + 8, grant := false }).release g.t) s

/-- The results of a cross-lane session (R145): tested once for their shapes, then given to the contributing threads' windows. -/
def State.giveLanes (s : State) (x : Session) (cs : List Signer) : State :=
  let w := (cs.headD default).t.w
  let wave := s.wave w
  let lanes : Lanes := cs.foldl (fun l g => l.put g.t.lane g.vals) []
  let outs := cs.map fun g => (g.t, xResult wave lanes g.t.lane x.instr)
  let ps := outs.flatMap fun (t, o) => s.puts t o.regs
  match (putRegs ps).find? fun (w, r) => !s.fits ps w r with
  | some (_, r) => cs.foldl (fun s g => s.raiseAt x.pc g.t (.general .shape (reg := r))) s
  | none =>
    let (dr, dp) := x.instr.laneDests
    let ready := (s.core (coreOf w)).cyc.toNat + 6
    outs.foldl (fun s (t, o) => s.openAt x.pc 0 x.instr.signHd.la (some ready) true t dr dp o) s

/-- The registers of a drain to registers (R220). -/
def drainRegs (a : Acc) (d : Nat) : List Nat := (List.range (a.rows * ((a.cols + 31) / 32))).map (d + ·)

/-- The destinations of a matrix instruction. -/
def State.matrixDests (s : State) (t : TId) : Instr → List Nat
  | .tdrain _ d acc _ _ _ .registers => drainRegs ((s.tileView t).a.acc acc) d
  | _ => []

/-- The register range of a drain reaches past the declared count (R220, check 1 of R211). -/
def State.drainRange (s : State) (t : TId) (i : Instr) : Option Trap :=
  if (s.matrixDests t i).any fun r => (s.launchOf t).hdr.regs ≤ r || 255 ≤ r then some (.general .illegal (cause := 5)) else none

/-- The leader (R206): of the lowest wave slot, in a deterministic launch of the lowest logical identifier, then the lowest
lane. -/
def State.leader (s : State) (cs : List Signer) : Signer :=
  let key (g : Signer) : Nat :=
    (if (s.launchOf g.t).hdr.determ then (s.wave g.t.w).idx else g.t.w) * 32 + g.t.lane
  cs.foldl (fun best g => if key g < key best then g else best) (cs.headD default)

/-- A tile operation is an ordered operation when its launch is deterministic (R304): a TDRAINA, and one that stores to a
SHARED_ORDERED page. -/
def State.tileOrdered (s : State) (o : TileOp) : Bool :=
  (o.instr matches .tdraina ..) ||
    (o.touch.1 && o.touch.2.any fun x => !x.scratch && s.sordRange none (s.wave o.t.w).tag o.priv x.addr x.size)

/-- The same of the operation that an instruction would put into tile order. -/
def State.tileOrderedAt (s : State) (t : TId) (pc : DWord) (i : Instr) (addr : DWord) (desc : List Word) : Bool :=
  let (id, z) := s.enqueueTile t pc i addr desc []
  ((z.part t.pid).tileQ.find? fun o => o.id == id).elim false z.tileOrdered

/-- The address pair among the captured values. -/
def Signer.addr (g : Signer) : DWord := pairOf (g.vals.getD 0 0) (g.vals.getD 1 0)

/-- The performance of a matrix session with a contributing thread (R206): the checks of R211 again, then tile order. -/
def State.runMatrix (s : State) (x : Session) (cs : List Signer) : State :=
  let g := s.leader cs
  match (s.drainRange g.t x.instr).orElse fun _ => (s.tileView g.t).check x.instr g.addr [] with
  | some tr => cs.foldl (fun s g => s.raiseAt x.pc g.t tr) s
  | none =>
    let dr := s.matrixDests g.t x.instr
    let s := cs.foldl (fun s g => s.openAt x.pc 0 x.instr.signHd.la none true g.t dr [] {}) s
    (s.enqueueTile g.t x.pc x.instr g.addr [] (if dr.isEmpty then [] else cs.map (·.t))).2

/-- A session is performed (R142, R206). -/
def State.performSession (s : State) (o : Owner) (x : Session) : State :=
  let cs := s.contributors x
  let s := s.setSessions o ((s.sessionsOf o).filter fun y => y.id != x.id)
  let s :=
    if cs.isEmpty then s
    else
      match o with
      | .wave _ => s.giveLanes x cs
      | .alloc _ _ => s.runMatrix x cs
  s.releaseSigners x

/-- A load of the context's profile is COMPUTING: from the arrival of the descriptor's data on (R171, log 83). -/
def Ctx.computing (c : Ctx) : Bool := (c.loads.head?.map (·.begun)).getD false

/-- A session whose drain is an ordered operation: a TDRAINA (R304), and a TDRAIN to memory of which a page is SHARED_ORDERED
(log 88). -/
def State.orderedSession (s : State) (x : Session) (cs : List Signer) : Bool :=
  match x.instr with
  | .tdraina .. => true
  | .tdrain .. => let g := s.leader cs
    s.tileOrderedAt g.t x.pc x.instr g.addr []
  | _ => false

/-- A complete session: performed; or held while a profile is computed (R171); or, an ordered operation of a deterministic launch, at
the keystone, where the signers of the leader's wave count as waiting (R512). -/
def State.settleSession (s : State) (o : Owner) (x : Session) : State :=
  let cs := s.contributors x
  let t := (x.signers.headD default).t
  let hold (s : State) : State :=
    s.setSessions o ((s.sessionsOf o).map fun y => if y.id == x.id then { y with held := true } else y)
  match o with
  | .wave _ => s.performSession o x
  | .alloc _ _ =>
    if (s.ctxOf t).computing then hold s
    else if (s.launchOf t).hdr.determ && !cs.isEmpty && s.orderedSession x cs then
      let w := (s.leader cs).t.w
      let s := hold s
      let s := (x.signers.filter fun g => g.t.w == w).foldl
        (fun s g => (s.modThread g.t fun th => { th with st := .keywait false, pc := x.pc, grant := false }).leaveBundle g.t) s
      let s := { s with cur := { s.cur with threads := s.cur.threads.filter fun t => t.w != w } }
      s.serve w
    else s.performSession o x

/-- Performs the session of a mask if it is complete. -/
def State.trySession (s : State) (o : Owner) (k : Nat) : State :=
  match (s.sessionsOf o).find? fun x => x.k == k with
  | some x => if !x.held && s.signed o x then s.settleSession o x else s
  | none => s

/-! Signing -/

/-- The core cycle at whose end a session expires that is first signed now (R146, R149). -/
def State.signExpiry (s : State) (core : Nat) : Option Nat :=
  let tmo := (s.core core).xlcfg.toNat % 2 ^ 16
  if tmo == 0 then none else some ((s.core core).cyc.toNat + 64 * tmo)

/-- The signers wait while their session is open. -/
def State.waitSigned (s : State) (o : Owner) (k id : Nat) (gs : List Signer) : State :=
  let pc := s.cur.pc
  let s := s.trySession o k
  if (s.sessionsOf o).any fun x => x.id == id then
    let mine := gs.filter fun g => s.cur.threads.contains g.t
    let s := mine.foldl
      (fun s g => (s.modThread g.t fun th => { th with st := .maskwait, pc := pc }).leaveBundle g.t) s
    { s with cur := { s.cur with threads := s.cur.threads.filter fun t => !(mine.any fun g => g.t == t) } }
  else s

/-- Threads of the bundle sign a mask (R142, R144): they join the open session or open one, and wait unless it is performed. -/
def State.join (s : State) (o : Owner) (i : Instr) (k : Nat) (gs : List Signer) : State :=
  let pc := s.cur.pc
  let conflict (x : Session) : Bool := x.pc != pc || x.instr != i
  match (s.sessionsOf o).find? fun x => x.k == k with
  | some x =>
    if conflict x then gs.foldl (fun s g => s.raise g.t (.general .signConflict (reg := k) (iaddr := x.pc.toNat)) pc) s
    else
      let s := s.setSessions o ((s.sessionsOf o).map fun y => if y.id == x.id then { y with signers := y.signers ++ gs } else y)
      s.waitSigned o k x.id gs
  | none =>
    let (id, s) := s.newId
    let x : Session :=
      { id := id, k := k, pc := pc, instr := i, signers := gs, expiry := s.signExpiry s.cur.core, held := false }
    let s := s.setSessions o (s.sessionsOf o ++ [x])
    s.waitSigned o k id gs

def State.signer (s : State) (act : List TId) (i : Instr) (t : TId) : Signer := ⟨t, act.contains t, s.capture t i⟩

/-- The threads of the bundle by wave. -/
def wavesOf (ts : List TId) : List Nat := (ts.map (·.w)).eraseDups

/-- A cross-lane instruction (R142, R143): a thread outside the mask performs a session of its own. `s0` is the state in which
the sources are read, `act` the active threads. -/
def State.signLanes (s0 : State) (act : List TId) (i : Instr) (k : Nat) (s : State) (w : Nat) : State :=
  let mine := s.cur.threads.filter fun t => t.w == w && !s.trapped t
  let (mem, out) := mine.partition fun t => s.isMember t k
  let solo : Session := { id := 0, k := k, pc := s.cur.pc, instr := i, signers := [], expiry := none, held := false }
  let s := (out.filter act.contains).foldl (fun s t => s.giveLanes solo [s0.signer act i t]) s
  if mem.isEmpty then s else s.join (.wave w) i k (mem.map (s0.signer act i))

def State.crossLane (s : State) (i : Instr) : State :=
  match i.laneMask? with
  | none => s.settle false
  | some k =>
    let h := i.signHd
    let (dr, dp) := i.laneDests
    let act := s.active h
    let s1 := s.begin h dr dp
    ((wavesOf s1.cur.threads).foldl (s.signLanes act i k) s1).settle false

/-- The threads of the bundle whose active signature of a matrix instruction fails a check of R211: each raises the trap, before
any conflict with an open window is seen (R75). -/
def State.checkSigners (s : State) (act : List TId) (i : Instr) (k : Nat) : State :=
  (act.filter fun t => s.isMember t k).foldl
    (fun z t =>
      match (s.tileView t).check i (s.signer act i t).addr [] with
      | some tr => z.raise t tr s.cur.pc
      | none => z) s

/-- The signatures of a matrix instruction (R205): an active thread outside its mask raises NOT_MEMBER; the others of the mask
sign. -/
def State.signMatrix (s0 : State) (act : List TId) (i : Instr) (k : Nat) (s : State) (o : Owner) : State :=
  match o with
  | .wave _ => s
  | .alloc pid g =>
    let mine := s.cur.threads.filter fun t => t.pid == pid && (s.wave t.w).wg == g && !s.trapped t
    let (mem, out) := mine.partition fun t => s.isMember t k
    let s := (out.filter act.contains).foldl (fun s t => s.raise t (.general .notMember (reg := k)) s.cur.pc) s
    if mem.isEmpty then s else s.join o i k (mem.map (s0.signer act i))

/-- The held session that threads of the bundle, granted their turn, perform now (R512). -/
def State.heldSession (s : State) : Option (Owner × Session) :=
  match s.cur.threads.find? fun t => (s.thread t).grant with
  | some t =>
    let o := Owner.alloc t.pid (s.wave t.w).wg
    ((s.sessionsOf o).find? fun x => x.held && x.pc == s.cur.pc && x.signers.any fun g => g.t == t).map fun x => (o, x)
  | none => none

/-- A matrix instruction (R205). -/
def State.matrix (s : State) (i : Instr) : State :=
  match i.matrixMask?, s.heldSession with
  | none, _ => s.settle false
  | some _, some (o, x) =>
    let s := ((x.signers.map (·.t.w)).eraseDups).foldl State.gatherGroup s
    let s := s.cur.threads.foldl (fun s t => s.modThread t fun th => { th with grant := false }) s
    (s.performSession o x).settle false
  | some k, none =>
    let h := i.signHd
    let act := s.active h
    let t := s.cur.threads.headD default
    match s.drainRange t i with
    | some tr => (s.cur.threads.foldl (fun s t => s.raise t tr s.cur.pc) s).settle false
    | none =>
      let s1 := (s.checkSigners act i k).begin h (s.matrixDests t i) []
      let os := (s1.cur.threads.map fun t => Owner.alloc t.pid (s1.wave t.w).wg).eraseDups
      (os.foldl (s.signMatrix act i k) s1).settle false

/-! Mask writes (R241 to R243) -/

/-- Releases a thread from WAITM with its predicate. -/
def State.endMaskWait (s : State) (t : TId) (b : Bool) : State :=
  match (s.thread t).mwait with
  | some m => ((s.modThread t fun th => { th.setPred m.p b with mwait := none }).release t)
  | none => s

/-- The threads of a wave that wait at WAITM for a mask. -/
def State.maskWaiters (s : State) (w k : Nat) : List TId :=
  ((List.range 32).filter fun i =>
    match ((s.wave w).thread i).mwait with
    | some m => m.k == k
    | none => false).map (⟨w, ·⟩)

/-- WAITM completes when every member has arrived (R242). -/
def State.tryMaskWait (s : State) (w k : Nat) : State :=
  let ws := s.maskWaiters w k
  if !ws.isEmpty && (s.members w k).all ws.contains then ws.foldl (fun s t => s.endMaskWait t true) s else s

/-- What follows a write of a mask: waits whose bit is clear end with false; then sessions and waits may be complete. -/
def State.maskChanged (s : State) (w k : Nat) : State :=
  let s := ((s.maskWaiters w k).filter fun t => !s.isMember t k).foldl (fun s t => s.endMaskWait t false) s
  let s := s.tryMaskWait w k
  let s := s.trySession (.wave w) k
  s.trySession (.alloc (pidOf w) (s.wave w).wg) k

def State.setMask (s : State) (w k : Nat) (m : Word) : State :=
  (s.modWave w fun x => x.setMask k m).maskChanged w k

/-! Timeouts and withdrawal -/

/-- The open session of a partition with a number. -/
def State.findSession (s : State) (pid id : Nat) : Option (Owner × Session) :=
  let os := (s.waves.filter fun e => pidOf e.1 == pid).map (fun e => Owner.wave e.1) ++
    (s.part pid).allocs.map fun e => Owner.alloc pid e.1
  os.findSome? fun o => ((s.sessionsOf o).find? fun x => x.id == id).map fun x => (o, x)

/-- SIGN_TIMEOUT (R146): the session is withdrawn and every signer traps; not while it is complete and held (R512). -/
def execSignTimeout (core part session : Nat) (s : State) : Host.Outcome State Fault Refusal :=
  let s := { s with cur := { core := core, part := part } }
  .next (match s.findSession (core * 4 + part) session with
  | none => s
  | some (o, x) =>
    if x.held then s
    else
      let s := s.setSessions o ((s.sessionsOf o).filter fun y => y.id != session)
      x.signers.foldl (fun s g => s.raiseAt x.pc g.t (.general .signTimeout (reg := x.k))) s)

/-- WAITM_TIMEOUT (R242). -/
def execWaitmTimeout (core part slot lane : Nat) (s : State) : Host.Outcome State Fault Refusal :=
  .next (s.endMaskWait ⟨(core * 4 + part) * 24 + slot, lane⟩ false)

/-- A pre-emption halt withdraws the sessions that a workgroup's threads have signed (R147): they stay at the instruction. -/
def State.withdrawSessions (s : State) (g : Nat) : State :=
  let os := (s.waves.filter fun e => e.2.wg == g).flatMap fun e => [Owner.wave e.1, .alloc (pidOf e.1) g]
  os.eraseDups.foldl
    (fun s o =>
      let ts := (s.sessionsOf o).flatMap fun x => x.signers.map (·.t)
      let s := s.setSessions o []
      ts.foldl (fun s t => s.modThread t fun th => { th with st := .ready }) s) s

end Sys2Proof.Machine
end

