-- ==== Sys2Proof/Machine/TileEvents.lean ====
section
/-!
DEFINITION. The end of tile operations and drains (R190 to R193, R220, R223, R480), and the loading of profiles
(R170, R171, R216).
-/
namespace Sys2Proof.Machine

/-- The bundle of a thread that a blocking instruction holds, as the present bundle. -/
def State.curOf (s : State) (t : TId) : State :=
  match (s.part t.pid).bins.first fun e => e.2.threads.contains t with
  | some (n, b) =>
    { s with cur := { core := t.core, part := t.pid % 4, bin := n, threads := b.threads, pc := b.key, half := 0 } }
  | none => { s with cur := { core := t.core, part := t.pid % 4, threads := [] } }

/-- Threads that a blocking instruction holds, on a partition. -/
def State.blocked (s : State) (pid : Nat) (p : Block → Bool) : List TId :=
  (s.waves.filter fun e => pidOf e.1 == pid).flatMap fun e =>
    (List.range 32).filterMap fun i => ((e.2.thread i).block.filter p).map fun _ => ⟨e.1, i⟩

/-! Drains -/

/-- The results of a drain to registers arrive: one shape test for every receiver (R220). The latency is at least 40 core
cycles (R71). -/
def State.landDrain (s : State) (o : TileOp) : State :=
  let mine (x : Window) : Bool := x.pc == o.pc && x.ready.isNone
  let ps := o.recvs.flatMap fun t =>
    ((s.thread t).windows.filter mine).flatMap fun x => s.puts t x.regs
  let bad := ((putRegs ps).find? fun (w, r) => !s.fits ps w r).map (·.2)
  o.recvs.foldl
    (fun s t =>
      let ready := max (s.cycOf t + 1) (o.cycle + 40)
      s.modThread t fun th =>
        { th with
          windows := th.windows.map fun x =>
            if mine x then { x with ready := some ready, checked := true, shapeFail := bad } else x }) s

/-- A TCHK ends for the bundles whose drains have all written CONTAIN (R223). -/
def State.endChecks (s : State) (pid op : Nat) : State :=
  let has (b : Block) : Bool :=
    match b with
    | .tchk _ _ ds _ => ds.contains op
    | .tprof => false
  let ts := s.blocked pid has
  let s := ts.foldl
    (fun s t => s.modThread t fun th =>
      { th with
        block :=
          match th.block with
          | some (.tchk a d ds z) => some (.tchk a d (ds.filter (· != op)) z)
          | b => b }) s
  ts.foldl
    (fun s t =>
      match (s.thread t).block with
      | some (.tchk acc d [] zero) =>
        let s := s.curOf t
        let us := s.cur.threads.filter fun u => (s.thread u).block.isSome
        let us := if us.isEmpty then [t] else us
        let outs := us.map fun u =>
          (u, ({ regs := putNum false d (if zero then 0 else ((s.alloc pid (s.wave u.w).wg).acc acc).status) } : Out))
        let s := us.foldl (fun s u => s.modThread u fun th => { th with block := none }) s
        (s.writeNow 0 outs).settle false
      | _ => s) s

/-- DRAIN_COMPLETE (R192): CONTAIN, the drain status, the counters, and what waits for them. -/
def execDrainComplete (core part op : Nat) (s : State) : Host.Outcome State Fault Refusal :=
  let pid := core * 4 + part
  .next (match tileFind op [] (s.part pid).tileQ with
  | none => s
  | some (_, o) =>
    match o.result, o.instr.matrixAcc? with
    | some (contain, status, fixed), some acc =>
      let s := s.modPart pid fun p => { p with contain := contain }
      let s := s.modAcc pid o.wg acc fun a => { a with status := status }
      let s := fixed.foldl (fun s ch => s.countFix pid ch) s
      (s.landDrain o).endChecks pid op
    | _, _ => s)

/-! Profiles (R170, R171, R216) -/

/-- The threads that a TPROF holds: those of the bundle of the thread that issued it. -/
def State.profBundle (s : State) (t : TId) : List TId :=
  let s := s.curOf t
  s.cur.threads.filter fun u => (s.thread u).block == some .tprof

/-- The operation of a TPROF leaves tile order, and its bundle goes on; a trap is taken by the threads of the wave that supplied
the address. -/
def State.endProf (s : State) (tag : Nat) (l : ProfLoad) (tr : Option Trap) : State :=
  let op := (tileFind l.op [] (s.part l.pid).tileQ).map (·.2)
  let s := s.modCtx tag fun c => { c with loads := c.loads.filter fun x => x.op != l.op }
  let s := s.modPart l.pid fun p => { p with tileQ := p.tileQ.filter fun o => o.id != l.op }
  match op with
  | none => s
  | some o =>
    let ts := s.profBundle o.t
    let s := s.curOf o.t
    let s := ts.foldl (fun s t => s.modThread t fun th => { th with block := none }) s
    let s :=
      match tr with
      | some tr => (ts.filter fun (t : TId) => t.w == o.t.w).foldl (fun (s : State) t => s.raise t tr o.pc) s
      | none => s
    let s := if s.cur.threads.isEmpty then s else s.settle false
    s.pumpTiles l.pid

/-- A tile operation of the context that issued before a load has not completed, on a partition or in a save image (R171), or a
conversion that has begun (R370). -/
def State.loadWaits (s : State) (tag : Nat) (l : ProfLoad) : Bool :=
  let before (o : TileOp) : Bool := o.time < l.since && !o.isProf && (s.launch (s.wg o.wg).launch).tag == tag
  let converts (c : QCmd) : Bool :=
    c.engine == 1 && c.issuer.tag == tag && (c.began.map fun b => decide (b.time < l.since)).getD false
  (s.parts.any fun e => e.2.tileQ.any before) || (s.wgs.any fun e => e.2.imgTiles.any fun o => before o.2) ||
    s.begunCmds.any converts

/-- The load at the head begins once every tile operation of the context that issued before it has completed (R171). -/
def State.pumpProf (s : State) (tag : Nat) : State :=
  match (s.ctx tag).loads with
  | [] => s
  | l :: _ => if l.begun || l.page.isSome || s.loadWaits tag l then s else s.push [.profileCheck tag]

def State.modLoad (s : State) (tag : Nat) (f : ProfLoad → ProfLoad) : State :=
  s.modCtx tag fun c =>
    { c with
      loads :=
        match c.loads with
        | l :: ls => f l :: ls
        | [] => [] }

/-- The sessions that a COMPUTING profile held are performed (R171). -/
def State.freeSessions (s : State) (tag : Nat) : State :=
  let os := (s.parts.flatMap fun e => e.2.allocs.map fun a => (e.1, a.1)).filter fun (_, g) => (s.launch (s.wg g).launch).tag == tag
  os.foldl
    (fun s (pid, g) =>
      ((s.alloc pid g).sessions.filter (·.held)).foldl
        (fun s x =>
          let s := { s with cur := { core := pid / 4, part := pid % 4 } }
          let gated := (x.signers.any fun z => match (s.thread z.t).st with | .keywait _ => true | _ => false)
          if gated then s else s.settleSession (.alloc pid g) x) s) s

/-- The engines of every core go on: a conversion may have waited for the profile (R370). -/
def State.pumpEngines (s : State) : State := (s.cores.map (·.1)).foldl (fun s c => s.pumpCore c) s

/-- The load at the head ends without a new profile: CAUSE, the trap, and what it held. -/
def State.failProf (s : State) (tag : Nat) (l : ProfLoad) (cause : Nat) (tr : Trap) : State :=
  let s := if cause == 0 then s else s.modCtx tag fun c => { c with pcause := cause }
  (((s.endProf tag l (some tr)).freeSessions tag).pumpProf tag).pumpEngines

/-- PROFILE_CHECK (R170): the descriptor is read and checked; the constants of a profile that passes take 1.6 µs. -/
def execProfileCheck (tag : Nat) (s : State) : Host.Outcome State Fault Refusal :=
  .next (match (s.ctx tag).loads with
  | [] => s
  | l :: _ =>
    if l.begun || l.page.isSome || s.loadWaits tag l then s
    else
      match tileFind l.op [] (s.part l.pid).tileQ with
      | none => s
      | some (_, o) =>
        match s.tileJudge o false false [(l.addr.toNat, 64)] with
        | .error (.page va level acc) =>
          let x := s.wave o.t.w
          let s := s.recordFault x.tag va acc.code x.wid.toNat (s.wg x.wg).lin level
          s.modLoad tag fun l => { l with page := some (va % 2 ^ 56 / 4096) }
        | .error (.hold p) =>
          s.modTileOp l.pid o.id fun o => { o with st := .held p }
        | .error (.fault _) =>
          let tr :=
            match s.judge o.t (o.access false false l.addr.toNat 64) with
            | .trap tr => tr
            | _ => .translation .read 7 0 l.addr.toNat
          s.failProf tag l 0 tr
        | .ok _ =>
          let (bs, s) := s.tileGet o false l.addr.toNat 64
          let s := s.modLoad tag fun l => { l with begun := true, page := none }
          match checkProfile bs s.mapout with
          | .error cause => s.failProf tag l cause (.general .profileInvalid (cause := cause) (addr := l.addr.toNat))
          | .ok p => (s.modLoad tag fun l => { l with found := some p }).at (s.now + 32000) (.profileReady tag))

/-- PROFILE_READY (R171): the profile is loaded, and GEN rises. -/
def execProfileReady (tag : Nat) (s : State) : Host.Outcome State Fault Refusal :=
  .next (match (s.ctx tag).loads with
  | [] => s
  | l :: _ =>
    match l.found with
    | none => s
    | some p =>
      let s := s.modCtx tag fun c => { c with prof := some p, gen := c.gen + 1 }
      (((s.endProf tag l none).freeSessions tag).pumpProf tag).pumpEngines)

/-- TILE_OPERATION_COMPLETE (R171, R224): the operation leaves tile order, and the later ones are tried. -/
def execTileOperationComplete (core part op : Nat) (s : State) : Host.Outcome State Fault Refusal :=
  let pid := core * 4 + part
  let s := s.modPart pid fun p => { p with tileQ := p.tileQ.filter fun o => o.id != op }
  .next (s.pumpTiles pid)

end Sys2Proof.Machine
end

