-- ==== Sys2Proof/Machine/Tile.lean ====
section
/-!
DEFINITION. The tile instructions (R212 to R223), the cross-lane instructions (R142, R151) and CVTRES (R133).
-/
namespace Sys2Proof.Machine

/-! Cross-lane instructions -/

/-- LGET (R153). -/
def execLget (h : Hd) (d a b k : Nat) (mode : LgetMode) (pv : Nat) (s : State) : Host.Outcome State Fault Refusal :=
  .next (s.crossLane (.lget h d a b k mode pv))

/-- PQRY (R154). -/
def execPqry (h : Hd) (d p k : Nat) (kind : PqryKind) (s : State) : Host.Outcome State Fault Refusal :=
  .next (s.crossLane (.pqry h d p k kind))

/-- PEERS (R155). -/
def execPeers (h : Hd) (d a k : Nat) (w : Bool) (s : State) : Host.Outcome State Fault Refusal :=
  .next (s.crossLane (.peers h d a k w))

/-- LFOLD (R156). -/
def execLfold (h : Hd) (d a k : Nat) (op : FoldOp) (t : FoldTy) (s : State) : Host.Outcome State Fault Refusal :=
  .next (s.crossLane (.lfold h d a k op t))

/-- SCAN (R157). -/
def execScan (h : Hd) (d a k : Nat) (max excl : Bool) (t : FoldTy) (s : State) : Host.Outcome State Fault Refusal :=
  .next (s.crossLane (.scan h d a k max excl t))

/-- XLP (R158). -/
def execXlp (h : Hd) (d a k e : Nat) (s : State) : Host.Outcome State Fault Refusal :=
  .next (s.crossLane (.xlp h d a k e))

/-- Writes a selector of a pattern entry (R159). -/
def Wave.setSelector (x : Wave) (e lane v : Nat) : Wave :=
  let ys := (x.pattern e).set lane v
  { x with pats := if ys == List.range 32 then x.pats.del e else x.pats.put e ys }

/-- XLPL (R159). -/
def execXlpl (h : Hd) (a e : Nat) (s : State) : Host.Outcome State Fault Refusal :=
  let s1 := s.begin h [] []
  .next (((s.acting s1 h).foldl
    (fun z t => z.modWave t.w fun x => x.setSelector e t.lane ((s.rd t a).toNat % 64)) s1).settle false)

/-- XPOSE (R160). -/
def execXpose (h : Hd) (d a k size : Nat) (s : State) : Host.Outcome State Fault Refusal :=
  .next (s.crossLane (.xpose h d a k size))

/-- UNPK (R161). -/
def execUnpk (h : Hd) (d a k size : Nat) (signed : Bool) (s : State) : Host.Outcome State Fault Refusal :=
  .next (s.crossLane (.unpk h d a k size signed))

/-- PACKX (R162). -/
def execPackx (h : Hd) (d a k size : Nat) (s : State) : Host.Outcome State Fault Refusal :=
  .next (s.crossLane (.packx h d a k size))

/-- CVTBX (R131). -/
def execCvtbx (h : Hd) (d a k : Nat) (f : BxFmt) (r : RM) (s : State) : Host.Outcome State Fault Refusal :=
  .next (s.crossLane (.cvtbx h d a k f r))

/-- CVTMX in the encoding direction (R132). -/
def execCvtmxEnc (h : Hd) (d a b k : Nat) (r : RM) (s : State) : Host.Outcome State Fault Refusal :=
  .next (s.crossLane (.cvtmxEnc h d a b k r))

/-- The checks of CVTRES that depend on the loaded profile (R133). -/
def cvtresOk (prof : Option Profile) (mapout : BitVec 12) (c : Counts) (a ch : Nat) : Bool :=
  match prof with
  | none => false
  | some p =>
    (p.chans.getD ch default).role != 0 && !mapout.getLsbD ch &&
      (p.grouping == 2 || (a % 2 == 0 && a + 1 < c.regs && a + 1 != 255))

/-- CVTRES (R133). -/
def execCvtres (h : Hd) (d a ch : Nat) (signed : Bool) (s : State) : Host.Outcome State Fault Refusal :=
  let t := s.cur.threads.headD default
  let prof := (s.ctxOf t).prof
  .next (if !cvtresOk prof s.mapout (s.counts t) a ch then
    (s.cur.threads.foldl (fun s t => s.raise t illegal9 s.cur.pc) s).settle false
  else
    let p := prof.getD default
    let wide := p.grouping != 2
    s.compute h (.fixed 4) [d] [] fun s t =>
      let n := s.num t wide a
      let x : Int := if signed then signedOf (if wide then 64 else 32) n else (n : Int)
      { regs := putNum false d (residue x (p.chans.getD ch default).mod) })

/-! Tile instructions -/

/-- TCFG (R212). -/
def execTcfg (h : Hd) (tc a : Nat) (s : State) : Host.Outcome State Fault Refusal :=
  let s1 := s.begin h [] []
  .next ((((laneOrder (s.acting s1 h)).filter fun t => t.lane < 4).foldl
    (fun z t => z.modAlloc t.pid (z.wave t.w).wg fun x =>
      { x with tcs := x.tcs.put tc ((x.tc tc).set t.lane (s.rd t a)) }) s1).settle false)

/-- TCFGRD (R212). -/
def execTcfgrd (h : Hd) (d tc : Nat) (s : State) : Host.Outcome State Fault Refusal :=
  .next (s.compute h .short [d] [] fun s t =>
    { regs := [(d, if t.lane < 4 then ((s.alloc t.pid (s.wave t.w).wg).tc tc).getD t.lane 0 else 0)] })

/-- A tile instruction that the bundle performs once, with the operands of its lowest active lane (R204): the checks of R211,
whose trap every active thread takes, then tile order. The trap of check 9 of R59 does not ask the guard: every thread takes it
(R75). A store to a SHARED_ORDERED page waits for the keystone (R304, R306). -/
def State.tileOnce (s : State) (h : Hd) (i : Instr) (addr : State → TId → DWord) (desc : State → TId → List Word) : State :=
  if (s.tileView (s.cur.threads.headD default)).illegal i then
    (s.cur.threads.foldl (fun z t => z.raise t illegal9 s.cur.pc) s).settle false
  else
  let ok (s : State) (t : TId) : Bool := ((s.tileView t).check i (addr s t) (desc s t)).isNone
  let needs := ((laneOrder (s.active h)).head?.toList).filter fun t =>
    (s.launchOf t).hdr.determ && ok s t && s.tileOrderedAt t s.cur.pc i (addr s t) (desc s t)
  let s := s.gate needs false
  let s1 := s.begin h [] []
  match laneOrder (s.acting s1 h) with
  | [] => s1.settle false
  | t :: ts =>
    match (s.tileView t).check i (addr s t) (desc s t) with
    | some tr => ((t :: ts).foldl (fun s t => s.raise t tr s.cur.pc) s1).settle false
    | none => (s1.enqueueTile t s.cur.pc i (addr s t) (desc s t) []).2.settle false

/-- TLD (R213). -/
def execTld (h : Hd) (t a : Nat) (smem : Bool) (s : State) : Host.Outcome State Fault Refusal :=
  .next (s.tileOnce h (.tld h t a smem) (fun s u => s.rd64 u a) fun _ _ => [])

/-- TLDW (R214). -/
def execTldw (h : Hd) (t a b : Nat) (smem : Bool) (s : State) : Host.Outcome State Fault Refusal :=
  .next (s.tileOnce h (.tldw h t a b smem) (fun s u => s.rd64 u a) fun s u => (List.range 4).map fun n => s.rd u (b + n))

/-- TST (R213). -/
def execTst (h : Hd) (a t : Nat) (smem : Bool) (s : State) : Host.Outcome State Fault Refusal :=
  .next (s.tileOnce h (.tst h a t smem) (fun s u => s.rd64 u a) fun _ _ => [])

/-- TZERO (R215). -/
def execTzero (h : Hd) (n : Nat) (acc : Bool) (s : State) : Host.Outcome State Fault Refusal :=
  .next (s.tileOnce h (.tzero h n acc) (fun _ _ => 0) fun _ _ => [])

/-- TPROF (R170, R171, R216): cause 1 at once; otherwise the load takes its place in tile order and among the context's loads,
and holds the bundle. -/
def execTprof (h : Hd) (a : Nat) (s : State) : Host.Outcome State Fault Refusal :=
  let s1 := s.begin h [] []
  .next (match laneOrder (s.acting s1 h) with
  | [] => s1.settle false
  | t :: ts =>
    let addr := s.rd64 t a
    let tag := (s.wave t.w).tag
    if addr.toNat % 64 != 0 then
      let s1 := s1.modCtx tag fun c => { c with pcause := 1 }
      let tr := Trap.general .profileInvalid (cause := 1) (addr := addr.toNat)
      (((t :: ts).filter fun u => u.w == t.w).foldl (fun s u => s.raise u tr s.cur.pc) s1).settle false
    else
      let (id, s1) := s1.enqueueTile t s.cur.pc (.tprof h a) addr [] []
      let s1 := (t :: ts).foldl (fun s u => s.modThread u fun th => { th with block := some .tprof }) s1
      let l : ProfLoad :=
        { pid := t.pid, op := id, addr := addr, since := s.now, begun := false, page := none, found := none }
      (s1.modCtx tag fun c => { c with loads := c.loads ++ [l] }).pumpProf tag)

/-- TMMA (R217). -/
def execTmma (h : Hd) (acc ta tb k : Nat) (sa sb : Bool) (s : State) : Host.Outcome State Fault Refusal :=
  .next (s.matrix (.tmma h acc ta tb k sa sb))

/-- TMMAS (R217). -/
def execTmmas (h : Hd) (acc ta tb k : Nat) (sa sb : Bool) (s : State) : Host.Outcome State Fault Refusal :=
  .next (s.matrix (.tmmas h acc ta tb k sa sb))

/-- TROWSUM (R218). -/
def execTrowsum (h : Hd) (acc ta k : Nat) (sa : Bool) (s : State) : Host.Outcome State Fault Refusal :=
  .next (s.matrix (.trowsum h acc ta k sa))

/-- TCOLSUM (R218). -/
def execTcolsum (h : Hd) (acc ta k : Nat) (sa : Bool) (s : State) : Host.Outcome State Fault Refusal :=
  .next (s.matrix (.tcolsum h acc ta k sa))

/-- TDRAIN (R219, R220). -/
def execTdrain (h : Hd) (d acc a k : Nat) (f : OutFmt) (target : DrainTarget) (s : State) :
    Host.Outcome State Fault Refusal :=
  .next (s.matrix (.tdrain h d acc a k f target))

/-- TDRAINA (R221). -/
def execTdraina (h : Hd) (acc a k : Nat) (f : OutFmt) (smem : Bool) (s : State) : Host.Outcome State Fault Refusal :=
  .next (s.matrix (.tdraina h acc a k f smem))

/-- TACCSV (R222). -/
def execTaccsv (h : Hd) (acc a : Nat) (smem : Bool) (s : State) : Host.Outcome State Fault Refusal :=
  .next (s.tileOnce h (.taccsv h acc a smem) (fun s u => s.rd64 u a) fun _ _ => [])

/-- TACCLD (R222). -/
def execTaccld (h : Hd) (acc a : Nat) (s : State) : Host.Outcome State Fault Refusal :=
  .next (s.tileOnce h (.taccld h acc a) (fun s u => s.rd64 u a) fun _ _ => [])

/-- A TZERO or TACCLD of an accumulator comes after its last drain among operations in tile order: it clears the drain status
(R223). -/
def clearsStatus (acc : Nat) (os : List TileOp) : Bool :=
  os.foldl
    (fun b o =>
      match o.instr with
      | .tzero _ n true | .taccld _ n _ => b || n == acc
      | i => b && !(i.isDrain && i.matrixAcc? == some acc)) false

/-- TCHK (R223): it waits for the accumulator's earlier drains, and holds its bundle meanwhile. -/
def execTchk (h : Hd) (d acc : Nat) (s : State) : Host.Outcome State Fault Refusal :=
  let s1 := s.begin h [d] []
  .next (match laneOrder (s.acting s1 h) with
  | [] => s1.settle false
  | t :: ts =>
    let g := (s.wave t.w).wg
    match (s.tileView t).check (.tchk h d acc) 0 [] with
    | some tr => ((t :: ts).foldl (fun s t => s.raise t tr s.cur.pc) s1).settle false
    | none =>
      let mine := (s.part t.pid).tileQ.filter fun o => o.wg == g
      let zero := clearsStatus acc (mine.filter fun o => !(o.begun && !o.instr.isDrain))
      match mine.filter fun o => o.instr.isDrain && o.instr.matrixAcc? == some acc with
      | [] =>
        let status := if zero then 0 else ((s.alloc t.pid g).acc acc).status
        (s1.writeNow 0 ((t :: ts).map fun u => (u, { regs := [(d, BitVec.ofNat 32 status)] }))).settle false
      | os => (t :: ts).foldl (fun s u => s.modThread u fun th => { th with block := some (.tchk acc d (os.map (·.id)) zero) }) s1)

end Sys2Proof.Machine
end

