-- ==== Sys2Proof/Machine/Sync.lean ====
section
/-!
DEFINITION. Fences (R340, R341), barriers (R342 to R349) and KPASS (R354).
-/
namespace Sys2Proof.Machine

/-! Fences -/

/-- FENCE (R340). -/
def execFence (h : Hd) (ord : FenceOrder) (sc : Scope) (s : State) : Host.Outcome State Fault Refusal :=
  let s1 := s.begin h [] []
  .next (((laneOrder (s.acting s1 h)).foldl
    (fun z t => (z.fenceBy t ord sc).releaseDrain t sc) s1).settle false)

/-- A fence entry of every named queue (R293). -/
def State.putFence (s : State) (core mask : Nat) : State :=
  let n := (s.core core).qfences
  let s := s.modCore core fun c => { c with qfences := n + 1 }
  ((maskQueues mask).foldl (fun s q => s.setQueue core q (s.queue core q ++ [.fence mask n])) s).pumpCore core

/-- QFENCE (R341): once for each wave with an active thread. -/
def execQfence (h : Hd) (mask : Nat) (s : State) : Host.Outcome State Fault Refusal :=
  let s1 := s.begin h [] []
  .next (((bySlot (s.acting s1 h)).foldl (fun z w => z.putFence (coreOf w) mask) s1).settle false)

/-! The turn-ending events (R307) -/

/-- An instruction that ends a turn: its wave's threads gather first, and the turn ends with it. -/
def State.turnEvent (s : State) (h : Hd) (f : State → State) : State :=
  let s := s.gate (s.active h) true
  let ts := s.active h
  (f s).endTurns ts

/-- KPASS (R354). -/
def execKpass (h : Hd) (s : State) : Host.Outcome State Fault Refusal :=
  .next (s.turnEvent h fun s => (s.begin h [] []).settle false)

/-! Barriers -/

/-- A thread by its wave's logical identifier (R305). -/
def State.logical (s : State) (t : TId) : TId := ⟨s.lid t.w, t.lane⟩

/-- The barrier that a thread names: of its workgroup, or of its cluster (R342). -/
def State.barrier (s : State) (t : TId) (b : Nat) : Barrier :=
  let x := s.wave t.w
  let g := s.wg x.wg
  if b < 24 then g.bars.get b {} else (s.launch x.launch).cbars.get (g.cluster * 8 + (b - 24)) {}
def State.setBarrier (s : State) (t : TId) (b : Nat) (v : Barrier) : State :=
  let x := s.wave t.w
  let g := s.wg x.wg
  if b < 24 then s.modWg x.wg fun g => { g with bars := g.bars.put b v }
  else s.modLaunch x.launch fun l => { l with cbars := l.cbars.put (g.cluster * 8 + (b - 24)) v }

/-- The workgroups of a barrier's scope. -/
def State.barScope (s : State) (t : TId) (b : Nat) : List Nat :=
  let x := s.wave t.w
  let g := s.wg x.wg
  if b < 24 then [x.wg] else (s.wgs.filter fun e => e.2.launch == x.launch && e.2.cluster == g.cluster).map (·.1)

/-- The resident threads of a scope. -/
def State.scopeThreads (s : State) (gs : List Nat) : List TId :=
  (s.waves.filter fun e => gs.contains e.2.wg).flatMap fun e => e.2.live?.map (⟨e.1, ·⟩)

/-- Every thread of a scope that has not EXITED, a saved workgroup's among them, by logical identifier. -/
def State.scopeIds (s : State) (gs : List Nat) : List TId :=
  (s.scopeThreads gs).map s.logical ++
    gs.flatMap fun g =>
      let G := s.wg g
      G.image.flatMap fun x => x.live?.map (⟨G.lin * (s.launch G.launch).wpw + x.idx, ·⟩)

/-- The scope at which a barrier synchronises (R347). -/
def barSync (b : Nat) : Scope := if b < 24 then .workgroup else .cluster

/-- A thread of a barrier joins the snapshots of a completion (R299, R347). -/
def State.barJoin (s : State) (t : TId) (b : Nat) (snaps : List RelSnap) : State :=
  snaps.foldl (fun s x => s.joinSnap t.w (barSync b) x) s

def Thread.ticket (th : Thread) (b : Nat) : Option Word := th.tickets.find? b
def Thread.setTicket (th : Thread) (b : Nat) (p : Word) : Thread := { th with tickets := th.tickets.put b p }
def Thread.dropTicket (th : Thread) (b : Nat) : Thread := { th with tickets := th.tickets.del b }

/-- A thread that waits at a barrier is released at its next instruction (R346). -/
def State.barRelease (s : State) (t : TId) (b : Nat) (snaps : List RelSnap) : State :=
  let s := s.barJoin t b snaps
  (s.modThread t fun th =>
    let pr := (th.bwait.map (·.pr)).getD 0
    { (th.dropTicket b).setPred pr true with bwait := none, pc := th.pc + 8 }).release t

/-- The threads that wait at a barrier. -/
def State.barWaiters (s : State) (t : TId) (b : Nat) : List TId :=
  (s.scopeThreads (s.barScope t b)).filter fun u => (s.thread u).st == .barrier b

/-! Trim (R423) -/

/-- The steps of TIME in 100 ns, after which a trim takes effect. -/
def trimDelay : Nat := 2000

/-- The members of a thread's cluster: member number and core. -/
def State.memberCores (s : State) (t : TId) : List (Nat × Nat) :=
  (s.barScope t 31).map fun g => ((s.wg g).member, (s.wg g).core)

/-- The member of a thread. -/
def State.memberOf (s : State) (t : TId) : Nat := (s.wg (s.wave t.w).wg).member

/-- An arrival at a barrier as the trim sees it: the TIMEs of each member's first and last. -/
def Barrier.note (v : Barrier) (member now : Nat) : Barrier :=
  { v with first := if (v.first.find? member).isSome then v.first else v.first.put member now, last := v.last.put member now }

/-- The laggard of a completion at the present TIME, and the leader. -/
def Barrier.laggard (v : Barrier) (now member : Nat) : Nat :=
  v.last.foldl (fun m e => if e.2 == now then max m e.1 else m) (if v.last.any fun e => e.2 == now then 0 else member)
def Barrier.leader (v : Barrier) : Option (Nat × Nat) :=
  v.first.foldl
    (fun best e =>
      match best with
      | none => some e
      | some b => if e.2 < b.2 then some e else some b) none

/-- The trims that a completion sets, by core. -/
def trimsOf (lag lead : Option Nat) (ms : List (Nat × Nat)) : List (Nat × Int) :=
  ms.map fun (m, core) => (core, if lag == some m then -1 else if lead == some m then 1 else 0)

/-- The controller at the completion of a cluster barrier in all-threads mode. -/
def State.trimAt (s : State) (t : TId) (b : Nat) (v : Barrier) : State :=
  let ms := s.memberCores t
  if b < 24 || v.target != 0 || (s.launchOf t).members < 2 then s
  else
    let lag := v.laggard s.now (s.memberOf t)
    let lead := (v.leader.map (·.1)).getD lag
    let act := v.lag == some lag && lead != lag
    let trims := trimsOf (if act then some lag else none) (if act then some lead else none) ms
    let s := trims.foldl (fun s x => s.at (s.now + trimDelay) (.trimApply x.1 x.2)) s
    s.setBarrier t b { s.barrier t b with lag := some lag }

/-- A barrier completes (R345, R347). -/
def State.barComplete (s : State) (t : TId) (b : Nat) : State :=
  let v := s.barrier t b
  let s := s.setBarrier t b
    { v with
      phase := v.phase + 1, count := 0, arrived := [], snaps := [], done := v.done ++ [(v.phase.toNat, v.snaps)]
      first := [], last := [] }
  let s := s.trimAt t b v
  let s := if b < 24 && v.target == 0 then s.modWg (s.wave t.w).wg fun g => { g with phase := g.phase + 1 } else s
  ((s.barWaiters t b).filter fun u => (s.thread u).ticket b == some v.phase).foldl (fun s u => s.barRelease u b v.snaps) s

/-- Every thread of the required set of an all-threads barrier has arrived. -/
def State.barFull (s : State) (t : TId) (b : Nat) : Bool :=
  let v := s.barrier t b
  v.target == 0 && !v.arrived.isEmpty && (s.scopeIds (s.barScope t b)).all v.arrived.contains

/-- An arrival (R345). -/
def State.barArrive (s : State) (t : TId) (b weight : Nat) : State :=
  let v := s.barrier t b
  if v.target == 0 && (s.thread t).ticket b == some v.phase then s.raise t (.general .barrierFault (cause := 2) (reg := b)) s.cur.pc
  else
    let (snap, s) := s.releaseBy t (barSync b) false
    let v :=
      if v.target == 0 then { v with arrived := v.arrived ++ [s.logical t], snaps := v.snaps ++ [snap] }
      else { v with count := v.count + max 1 weight, snaps := v.snaps ++ [snap] }
    let v := if b < 24 then v else v.note (s.memberOf t) s.now
    let s := s.setBarrier t b v
    let s := s.modThread t fun th => th.setTicket b v.phase
    if (v.target == 0 && s.barFull t b) || (v.target != 0 && v.target ≤ v.count) then s.barComplete t b else s

/-- The core cycle at whose end a wait with a retry predicate expires (R348). -/
def State.barExpiry (s : State) (t : TId) (pr : Nat) : Option Nat :=
  let tmo := (s.core t.core).xlcfg.toNat % 2 ^ 16
  if pr == 0 || tmo == 0 then none else some (s.cycOf t + 64 * tmo)

/-- A wait (R346): a ticket already passed goes on, and otherwise the thread waits at its BAR. -/
def State.barWait (s : State) (t : TId) (b pr : Nat) (arrwait : Bool) : State :=
  let v := s.barrier t b
  let enter (s : State) : State :=
    (s.modThread t fun th =>
      { th with st := .barrier b, pc := s.cur.pc, bwait := some ⟨pr, s.barExpiry t pr, arrwait⟩ }).leaveBundle t
  match (s.thread t).ticket b with
  | none =>
    if v.target == 0 then
      (s.modThread t fun th => { th with bwait := none }).raise t (.general .barrierFault (cause := 3) (reg := b)) s.cur.pc
    else enter (s.modThread t fun th => th.setTicket b v.phase)
  | some p =>
    if p == v.phase then enter s
    else
      let snaps := ((v.done.find? fun d => d.1 == p.toNat).map (·.2)).getD []
      (s.barJoin t b snaps).modThread t fun th => { (th.dropTicket b).setPred pr true with bwait := none }

/-- Threads that arrive, in ascending lane order. -/
def State.arriveAll (s0 : State) (b a : Nat) (s : State) (ts : List TId) : State :=
  (laneOrder ts).foldl (fun s t => s.barArrive t b ((s0.rd t a).toNat % 2 ^ 16)) s

/-- BAR.arrive (R345). -/
def execBarArrive (h : Hd) (a bar : Nat) (s : State) : Host.Outcome State Fault Refusal :=
  let s1 := s.begin h [] []
  .next ((s.arriveAll bar a s1 (s.acting s1 h)).settle false)

/-- BAR.wait (R346). -/
def execBarWait (h : Hd) (bar pr : Nat) (s : State) : Host.Outcome State Fault Refusal :=
  .next (s.turnEvent h fun s =>
    let s1 := s.begin h [] [pr]
    ((laneOrder (s.acting s1 h)).foldl (fun z t => z.barWait t bar pr false) s1).settle false)

/-- BAR.arrwait (R346). A thread whose wait a pre-emption halt withdrew does not arrive again (R348). -/
def execBarArrwait (h : Hd) (a bar pr : Nat) (s : State) : Host.Outcome State Fault Refusal :=
  .next (s.turnEvent h fun s =>
    let s1 := s.begin h [] [pr]
    let ts := laneOrder (s.acting s1 h)
    let s2 := s.arriveAll bar a s1 (ts.filter fun t => (s.thread t).bwait.isNone)
    ((ts.filter fun t => !s2.trapped t).foldl (fun z t => z.barWait t bar pr true) s2).settle false)

/-- BARINIT (R344). -/
def execBarinit (h : Hd) (a bar : Nat) (s : State) : Host.Outcome State Fault Refusal :=
  let s1 := s.begin h [] []
  .next (match laneOrder (s.acting s1 h) with
  | [] => s1.settle false
  | t :: ts =>
    let n := (s.rd t a).toNat
    if 2 ^ 16 ≤ n then
      ((t :: ts).foldl (fun s u => s.raise u (.general .barrierFault (cause := 1) (reg := bar) (lane := t.lane)) s.cur.pc) s1).settle false
    else
      let v := s1.barrier t bar
      let ws := s1.barWaiters t bar
      let s2 := s1.setBarrier t bar { phase := v.phase + 1, target := n }
      let s2 := (s2.scopeThreads (s2.barScope t bar)).foldl (fun s u => s.modThread u fun th => th.dropTicket bar) s2
      let s2 := (s2.barScope t bar).foldl
        (fun s g => s.modWg g fun x =>
          { x with image := x.image.map fun w => { w with threads := w.threads.map fun th => th.dropTicket bar } }) s2
      (ws.foldl
        (fun s u =>
          match (s.thread u).bwait with
          | some b =>
            if b.pr == 0 then
              (s.modThread u fun th => { th with bwait := none }).trapNow u (.general .barrierFault (cause := 4) (reg := bar)) (s.thread u).pc
            else (s.modThread u fun th => { (th.setPred b.pr false) with bwait := none, pc := th.pc + 8 }).release u
          | none => s) s2).settle false)

/-- BARRIER_RETRY_TIMEOUT (R348): the thread goes on with its retry predicate false. -/
def execBarrierRetryTimeout (core part slot lane : Nat) (s : State) : Host.Outcome State Fault Refusal :=
  let t : TId := ⟨(core * 4 + part) * 24 + slot, lane⟩
  .next (match (s.thread t).st, (s.thread t).bwait with
  | .barrier _, some b =>
    (s.modThread t fun th => { (th.setPred b.pr false) with bwait := none, pc := th.pc + 8 }).release t
  | _, _ => s)

/-- The barriers of a scope that an EXIT may complete (R345). -/
def State.barExit (s : State) (t : TId) : State :=
  (List.range 32).foldl (fun s b => if s.barFull t b then s.barComplete t b else s) s

end Sys2Proof.Machine
end

