-- ==== Sys2Proof/Machine/Control.lean ====
section
/-!
DEFINITION. Masks (R239 to R242) and control flow (R246 to R260).
-/
namespace Sys2Proof.Machine

/-! Masks -/

/-- The lanes of some threads of a wave as a mask. -/
def lanesOf (ts : List TId) (w : Nat) : Word :=
  BitVec.ofNat 32 ((ts.filter fun t => t.w == w).foldl (fun m t => m + 2 ^ t.lane) 0)

/-- An instruction that writes a mask of each wave with an active thread (R239, R240). -/
def State.maskWrite (s : State) (h : Hd) (k : Nat) (f : Wave → List TId → Nat → Word) : State :=
  let s1 := s.begin h [] []
  let ts := laneOrder (s.acting s1 h)
  ((wavesOf ts).foldl (fun z w => z.setMask w k (f (s.wave w) ts w)) s1).settle false

/-- JOIN (R239). -/
def execJoin (h : Hd) (k : Nat) (s : State) : Host.Outcome State Fault Refusal :=
  .next (s.maskWrite h k fun x ts w => x.mask k ||| lanesOf ts w)

/-- LEAVE (R239, R241). -/
def execLeave (h : Hd) (k : Nat) (s : State) : Host.Outcome State Fault Refusal :=
  .next (s.maskWrite h k fun x ts w => x.mask k &&& ~~~ lanesOf ts w)

/-- KMOV (R240). -/
def execKmov (h : Hd) (d a : Nat) (dir : KmovDir) (s : State) : Host.Outcome State Fault Refusal :=
  .next (match dir with
  | .kk => s.maskWrite h d fun x _ _ => x.mask a
  | .kv => s.maskWrite h d fun _ ts w => ((ts.find? fun t => t.w == w).map fun t => s.rd t a).getD 0
  | .vk => s.compute h .short [d] [] fun s t => { regs := [(d, (s.wave t.w).mask a)] })

/-- KAND (R240). -/
def execKand (h : Hd) (d a b : Nat) (s : State) : Host.Outcome State Fault Refusal :=
  .next (s.maskWrite h d fun x _ _ => x.mask a &&& x.mask b)

/-- KOR (R240). -/
def execKor (h : Hd) (d a b : Nat) (s : State) : Host.Outcome State Fault Refusal :=
  .next (s.maskWrite h d fun x _ _ => x.mask a ||| x.mask b)

/-- KANDN (R240). -/
def execKandn (h : Hd) (d a b : Nat) (s : State) : Host.Outcome State Fault Refusal :=
  .next (s.maskWrite h d fun x _ _ => x.mask a &&& ~~~ x.mask b)

/-- KPOP (R240). -/
def execKpop (h : Hd) (d a : Nat) (s : State) : Host.Outcome State Fault Refusal :=
  .next (s.compute h .short [d] [] fun s t =>
    { regs := putNum false d ((List.range 32).filter fun i => ((s.wave t.w).mask a).getLsbD i).length })

/-- WAITM (R242): a member waits; a thread outside the mask goes on. -/
def execWaitm (h : Hd) (p k timeout : Nat) (s : State) : Host.Outcome State Fault Refusal :=
  let s1 := s.begin h [] [p]
  let ts := s.acting s1 h
  let (mem, out) := ts.partition fun t => s1.isMember t k
  let s2 := out.foldl (fun s t => s.modThread t fun th => th.setPred p true) s1
  let wait : MaskWait := ⟨k, p, s.cycle + timeout⟩
  let s2 := mem.foldl
    (fun s t => (s.modThread t fun th => { th with st := .maskwait, mwait := some wait }).leaveBundle t) s2
  .next (((wavesOf mem).foldl (fun s w => s.tryMaskWait w k) s2).settle false)

/-! Branches -/

/-- Changes each acting thread by `f`, after the others' program counters have gone on. -/
def State.eachThread (s : State) (h : Hd) (f : State → TId → Thread → Thread) : State :=
  let s1 := s.begin h [] []
  ((s.acting s1 h).foldl (fun z t => z.modThread t (f s t)) s1).settle false

/-- An access of the call stack (R251). -/
def State.stackAccess (s : State) (addr : DWord) (kind : AccKind) : Access :=
  { scratch := false, const := false, addr := addr, size := 16, kind := kind, scope := .thread, acq := false, rel := false
    pc := s.cur.pc, half := 0 }

/-- The read by which a thread with open loops learns the loop depth of its call frame, when its newest call entry is a spilled
one (R251, R255, R256; log 32). -/
def State.frameRead (s : State) (t : TId) : Option Access :=
  let th := s.thread t
  if th.calls.isEmpty && th.spilled != 0 && !th.loops.isEmpty then
    some (s.stackAccess (th.spillAddr (th.spilled - 1)) (.again false))
  else none

/-- The threads that cannot read their frame now: each traps, or parks and issues the instruction again (log 32). -/
def State.frameStops (s : State) (ts : List TId) : State :=
  let s := ts.foldl
    (fun s t =>
      match s.frameRead t with
      | none => s
      | some a =>
        match s.judge t a with
        | .trap tr => s.raise t tr s.cur.pc
        | .page va level => (s.parkPage t va a.kind.accType.code level a).leaveBundle t
        | .wait p => s.parkAccess t a p
        | .go _ => s) s
  { s with cur := { s.cur with threads := s.cur.threads.filter fun t => !s.trapped t && (s.thread t).pend.isNone } }

/-- The loop depth of the present call frame: the depth of the newest call entry (R255, R256), which may be a spilled one. What
another device's memory holds is free (log 17). -/
def State.frameDepth (s : State) (t : TId) : Nat :=
  let th := s.thread t
  match th.calls, s.frameRead t with
  | e :: _, _ => e.depth
  | [], none => 0
  | [], some a =>
    match s.judge t a with
    | .go (.phys pa _) => s.readNat (pa + 8) 4 % 8
    | .go (.bank core bank off) => wordOfBytes (s.bankRead core bank (off + 8) 4) % 8
    | .go (.peer _ _) => (Config.freeByte s.freeCtr).toNat % 8
    | _ => 0

/-- Pops the loops whose ranges a branch leaves, down to a depth (R256). -/
def cutLoops (target : DWord) (depth : Nat) : List Loop → List Loop
  | [] => []
  | l :: ls =>
    if depth < ls.length + 1 && (target < l.head || l.last < target) then cutLoops target depth ls else l :: ls

/-- A taken branch (R247, R256). -/
def State.branch (s : State) (t : TId) (target : DWord) (th : Thread) : Thread :=
  { th with pc := target, loops := cutLoops target (s.frameDepth t) th.loops }

/-- The target of a word offset. -/
def State.target (s : State) (off : Int) : DWord := s.cur.pc + BitVec.ofInt 64 (8 * off)

/-- BRA (R247). -/
def execBra (h : Hd) (off : Int) (s : State) : Host.Outcome State Fault Refusal :=
  .next ((s.frameStops (s.active h)).eachThread h fun s t th => s.branch t (s.target off) th)

/-- The first word of a thread's kernel code. -/
def State.codeBase (s : State) (t : TId) : DWord := BitVec.ofNat 64 ((s.launchOf t).khdr + 1024)

/-- The trap of a computed target that is not in the code (R248): in every active thread, naming the lowest offending lane. -/
def State.badTarget (s : State) (ts : List TId) (a : Nat) : Option Trap :=
  ((laneOrder ts).find? fun t =>
    let n := (s.rd t a).toNat
    n % 8 != 0 || (s.launchOf t).hdr.codesz ≤ n).map fun t =>
      .general .branchTarget (lane := t.lane) (aux := (s.rd t a).toNat)

/-- The target of BRX and CALLX. -/
def State.codeAt (s : State) (t : TId) (a : Nat) : DWord := s.codeBase t + BitVec.ofNat 64 (s.rd t a).toNat

/-- A computed branch or call: the trap of a bad target, or `f`. -/
def State.computed (s : State) (h : Hd) (a : Nat) (f : State → State) : State :=
  match s.badTarget (s.active h) a with
  | none => f s
  | some tr =>
    let s1 := s.begin h [] []
    ((s.acting s1 h).foldl (fun z t => z.raise t tr s.cur.pc) s1).settle false

/-- BRX (R248). -/
def execBrx (h : Hd) (a : Nat) (s : State) : Host.Outcome State Fault Refusal :=
  .next (s.computed h a fun s => (s.frameStops (s.active h)).eachThread h fun s t th => s.branch t (s.codeAt t a) th)

/-! Calls -/

/-- Performs an access of the call stack, or parks or traps its thread. -/
def State.doStack (s : State) (t : TId) (a : Access) : State :=
  match s.judge t a with
  | .trap tr => s.raise t tr a.pc
  | .page va level => (s.parkPage t va a.kind.accType.code level a).leaveBundle t
  | .wait p => s.parkAccess t a p
  | .go p =>
    match s.perform t a p with
    | (some bs, s) => s.finishAccess t a bs
    | (none, s) => (s.modThread t fun th => { th with st := .parked .reply }).leaveBundle t

/-- The spill that a call needs: the access, or the overflow (R251, R252). -/
def State.spillOf (s : State) (t : TId) (target : DWord) : Option (Except Trap Access) :=
  let th := s.thread t
  if th.calls.length < 8 then none
  else if th.stackZ < 16 * (th.spilled + 1) then
    some (.error (.general .stackOverflow (aux := th.spilled) (addr := (th.spillAddr th.spilled).toNat)))
  else some (.ok (s.stackAccess (th.spillAddr th.spilled) (.spill th.spillBytes target)))

/-- CALL of one thread. -/
def State.callOne (s0 : State) (tgt : TId → DWord) (s : State) (t : TId) : State :=
  match s0.spillOf t (tgt t) with
  | none => s.modThread t fun th => th.pushCall (s0.cur.pc + 8) (tgt t)
  | some (.error tr) => s.raise t tr s0.cur.pc
  | some (.ok a) => s.doStack t a

/-- CALL and CALLX (R250 to R252): a spill to a SHARED_ORDERED page is an ordered operation (R304). -/
def State.calls (s : State) (h : Hd) (tgt : State → TId → DWord) : State :=
  let needs := (s.active h).filter fun t =>
    match s.spillOf t 0 with
    | some (.ok a) => s.isOrdered t a
    | _ => false
  let s := s.gate needs false
  let s1 := s.begin h [] []
  ((laneOrder (s.acting s1 h)).foldl (s.callOne (tgt s)) s1).settle false

/-- CALL (R250). -/
def execCall (h : Hd) (off : Int) (s : State) : Host.Outcome State Fault Refusal :=
  .next (s.calls h fun s _ => s.target off)

/-- CALLX (R248, R250). -/
def execCallx (h : Hd) (a : Nat) (s : State) : Host.Outcome State Fault Refusal :=
  .next (s.computed h a fun s => s.calls h fun s t => s.codeAt t a)

/-- RET of one thread (R250 to R252). -/
def State.retOne (pc : DWord) (s : State) (t : TId) : State :=
  let th := s.thread t
  match th.calls with
  | e :: es => s.modThread t fun th => ({ th with calls := es }).returnTo e.ret e.depth
  | [] =>
    if th.spilled == 0 then s.raise t (.general .stackUnderflow (addr := th.stackB.toNat)) pc
    else s.doStack t (s.stackAccess (th.spillAddr (th.spilled - 1)) .fill)

/-- RET (R250). -/
def execRet (h : Hd) (s : State) : Host.Outcome State Fault Refusal :=
  let s1 := s.begin h [] []
  .next (((laneOrder (s.acting s1 h)).foldl (State.retOne s.cur.pc) s1).settle false)

/-- REFORM (R253). -/
def execReform (h : Hd) (s : State) : Host.Outcome State Fault Refusal :=
  .next ((s.begin h [] []).settle true)

/-! Loops -/

/-- LOOP for one active thread (R254): a trap's cause, or the thread. -/
def Thread.loop (th : Thread) (pc : DWord) (count : Int) (off : Int) : Except Nat Thread :=
  let last := pc + BitVec.ofInt 64 (8 * off)
  if off ≤ 0 then .error 5
  else if count < 0 then .error 1
  else if count == 0 then .ok { th with pc := last + 8 }
  else if 4 ≤ th.loops.length then .error 2
  else .ok { th with pc := pc + 8, loops := ⟨pc + 8, last, count.toNat⟩ :: th.loops }

/-- LOOP (R254); an inactive thread passes the LEND. -/
def execLoop (h : Hd) (a : Nat) (off : Int) (s : State) : Host.Outcome State Fault Refusal :=
  let s1 := s.begin h [] []
  let act := s.active h
  .next ((s.cur.threads.foldl
    (fun z t =>
      if z.trapped t then z
      else if !act.contains t then
        if off ≤ 0 then z else z.modThread t fun th => { th with pc := s.target off + 8 }
      else
        match (s.thread t).loop s.cur.pc (signedOf 32 (s.rd t a).toNat) off with
        | .error c =>
          z.raise t (.general .loopFault (cause := c) (aux := if c == 1 then (s.rd t a).toNat else 0)) s.cur.pc
        | .ok th' => z.modThread t fun th => { th with pc := th'.pc, loops := th'.loops }) s1).settle false)

/-- LEND for one active thread (R255). -/
def Thread.lend (th : Thread) (depth : Nat) (pc head : DWord) : Except Nat Thread :=
  match th.loops with
  | [] => .error 4
  | l :: ls =>
    if th.loops.length ≤ depth then .error 4
    else if l.last != pc || l.head != head then .error 3
    else if 1 < l.count then .ok { th with pc := l.head, loops := { l with count := l.count - 1 } :: ls }
    else .ok { th with pc := pc + 8, loops := ls }

/-- LEND (R255); an inactive thread leaves the loop. -/
def execLend (h : Hd) (off : Int) (s : State) : Host.Outcome State Fault Refusal :=
  let s := s.frameStops s.cur.threads
  let s1 := s.begin h [] []
  let act := s.active h
  .next ((s.cur.threads.foldl
    (fun z t =>
      let depth := s.frameDepth t
      if z.trapped t then z
      else if !act.contains t then
        z.modThread t fun th => { th with loops := if depth < th.loops.length then th.loops.tail else th.loops }
      else
        match (s.thread t).lend depth s.cur.pc (s.target off) with
        | .error c => z.raise t (.general .loopFault (cause := c)) s.cur.pc
        | .ok th' => z.modThread t fun th => { th with pc := th'.pc, loops := th'.loops }) s1).settle false)

/-! The end of threads -/

/-- A thread is EXITED (R258). -/
def Thread.ended (th : Thread) : Thread :=
  { th with st := .exited, calls := [], spilled := 0, loops := [], windows := [], grant := false }

/-- The masks of a wave lose its exited lanes (R230, R241). -/
def State.cutMasks (s : State) (w : Nat) : State :=
  (List.range 12).foldl
    (fun s k =>
      let m := (s.wave w).mask k
      if m &&& (s.wave w).live == m then s else s.setMask w k m) s

/-- What a draining wave has issued is acknowledged (R258): its stores at peers, its engine commands and tile operations. -/
def State.drained (s : State) (w : Nat) : Bool :=
  let x := s.wave w
  x.draining && x.state [] == .draining && x.acks == 0 && !((s.part (pidOf w)).tileQ.any fun o => o.t.w == w) &&
    !((s.core (coreOf w)).wcb.any fun e => e.waves.contains w) &&
    !((s.core (coreOf w)).queues.any fun q => q.2.any fun e =>
      match e with
      | .cmd c => c.issuer.tag == x.tag && c.issuer.wid == x.wid
      | .fence _ _ => false)

/-- A wave whose last thread has exited enters DRAINING: its stores in the write-combining buffer are sent (R459), and it leaves
the ring (R305). -/
def State.waveEnds (s : State) (w : Nat) : State :=
  let s := s.wcbDrain (coreOf w) fun e => e.waves.contains w
  let s := s.modWave w fun x => { x with draining := true }
  let s := if (s.launch (s.wave w).launch).hdr.determ then (s.turnEnd w).keyLeave (s.wave w).launch (s.lid w) else s
  s.push [.waveDrainEnd (coreOf w) (pidOf w % 4) (w % 24)]

/-- EXIT (R258). -/
def execExit (h : Hd) (s : State) : Host.Outcome State Fault Refusal :=
  let s1 := s.begin h [] []
  let ts := s.acting s1 h
  let s2 := ts.foldl (fun s t => (s.modThread t Thread.ended).leaveBundle t) s1
  let ws := wavesOf ts
  let s2 := ws.foldl (fun s w => s.cutMasks w) s2
  let s2 := ws.foldl (fun s w => s.barExit ⟨w, 0⟩) s2
  let s2 := ws.foldl
    (fun s w =>
      if (s.wave w).hasThread then (if (s.launch (s.wave w).launch).hdr.determ then s.serve w else s) else s.waveEnds w) s2
  .next (s2.settle false)

/-- TRAP (R259). -/
def execTrap (h : Hd) (code : Nat) (s : State) : Host.Outcome State Fault Refusal :=
  let s1 := s.begin h [] []
  .next (((s.acting s1 h).foldl (fun z t => z.raise t (.general .userTrap (aux := code)) s.cur.pc) s1).settle false)

/-- BKPT (R259, R432, R500; the record is zero, log 74): the trap, after an event under OBSERVE; under HALT the workgroup halts at it. -/
def execBkpt (h : Hd) (s : State) : Host.Outcome State Fault Refusal :=
  let s1 := s.begin h [] []
  let ts := s.acting s1 h
  let observe (z : State) : State :=
    if s.debug != 1 then z
    else
      (wavesOf ts).foldl
        (fun z w =>
          z.event .breakpoint (z.wave w).tag 1 (pidOf w)
            (bytesOfWord 8 (z.wave w).wid.toNat ++ bytesOfWord 8 s.cur.pc.toNat)) z
  .next (if s.debug == 2 && !ts.isEmpty then
    let t := ts.headD default
    let g := (s.wave t.w).wg
    let s2 := ts.foldl (fun z t => (z.modThread t fun th => { th with pc := s.cur.pc }).leaveBundle t) s1
    ((s2.modWg g fun x => { x with st := .debugged }).push [.preemptionHalt g]).settle false
  else
    (observe (ts.foldl (fun z t => z.raise t (.general .breakpoint) s.cur.pc) s1)).settle false)

/-- NOP (R260). -/
def execNop (h : Hd) (s : State) : Host.Outcome State Fault Refusal :=
  .next ((s.begin h [] []).settle false)

end Sys2Proof.Machine
end

