-- ==== Sys2Proof/Machine/Errors.lean ====
section
/-!
DEFINITION. Errors of the storage arrays and what they end (R467 to R479): lost lines, lost workgroups, device-fatal errors,
and the patrol scrub.
-/
namespace Sys2Proof.Machine

/-- What a device that has met a device-fatal error still does (R469). -/
def survivesFatal : Instr → Bool
  | .hostRead .. | .powerLoss => true
  | _ => false

def isColdReset : Instr → Bool
  | .coldReset => true
  | _ => false

/-- The events due that `p` keeps, with all from the next cold reset on. -/
def keepUntilReset (p : Instr → Bool) : List Due → List Due
  | [] => []
  | d :: ds => if isColdReset d.ev then d :: ds else if p d.ev then d :: keepUntilReset p ds else keepUntilReset p ds

/-- A device-fatal error (R469, R493): the event and the freeze, the end of every context with CODE 9, the end of all issue,
and the interrupt. `cause` is DATA of the event: 1 an error, 2 a temperature. -/
def State.goFatal (s : State) (cause cls src : Nat) : State :=
  if s.fatal then s
  else
    let s := (s.event .fatal 0 cls src [BitVec.ofNat 8 cause]).freeze 1
    let s := (s.ctxs.map (·.1)).foldl (fun s t => (s.endContext t 9).modCtx t fun c => { c with ended := true }) s
    let s := s.interrupt 2
    { s with fatal := true, todo := [], losses := [], agenda := keepUntilReset survivesFatal s.agenda }

/-- A fault-queue entry of KIND 8 (R468). -/
def State.dataLost (s : State) (tag access src lin line : Nat) : State :=
  s.fqPost tag (fqEntry .dataLost 0 access tag src lin (line * 128))

/-- Steps 4 and 5 of R471: the owner's context ends, unless it is ended already (R472). -/
def State.settleLoss (s : State) (x : Loss) : State :=
  let slice := sliceOf (x.line * 128)
  let c := s.ctx x.tag
  let s :=
    if x.tag == 0 || (s.ctxs.find? x.tag).isNone || c.ended then s
    else ((s.dataLost x.tag 0 0 0 x.line).endContext x.tag 9).modCtx x.tag fun c => { c with ended := true }
  let s := s.event .dataLost x.tag 2 slice
    (bytesOfWord 2 slice ++ bytesOfWord 2 (fld x.line 6 11) ++ bytesOfWord 4 (x.way % 256) ++ bytesOfWord 8 (x.line * 128))
  s.interrupt 2

/-- A workgroup that has lost its registers, tiles or banks ends (R467): CODE 6, and the entry by `access`. -/
def State.loseWg (s : State) (g access src : Nat) : State :=
  let G := s.wg g
  let s := s.dataLost (s.launch G.launch).tag access src (if src == 0 then 0 else G.lin) 0
  (s.endWg g).failLaunch G.launch 6

/-- The workgroup that owns what an error of a core's arrays hits, with the ACCESS code and the WID of a wave (R467, R468). -/
def State.upsetOwner (s : State) : Upset → Option (Nat × Nat × Nat)
  | .regs w _ => (s.waves.find? w).map fun x => (x.wg, 1, x.wid.toNat)
  | .tile pid g _ => if ((s.part pid).allocs.find? g).isSome then some (g, 2, 0) else none
  | .sram core bank _ => (((s.core core).banks.get bank {}).owner).map fun o => (o.1, 3, 0)
  | _ => none

def Upset.hard : Upset → Bool
  | .plane .. | .tags _ => true
  | .line _ _ _ h | .regs _ h | .tile _ _ h | .sram _ _ h | .shadow _ h | .dline _ _ h | .cline _ _ h | .control h => h

/-- The core whose arrays an error is in; the plinth's errors are met with those of core 0. -/
def Upset.core? : Upset → Option Nat
  | .regs w _ => some (coreOf w)
  | .tile pid _ _ | .shadow pid _ => some (pid / 4)
  | .sram core _ _ | .dline core _ _ | .cline core _ _ => some core
  | .control _ => some 0
  | .line _ _ _ _ | .plane .. | .tags _ => none

/-- An uncorrectable error of a line in a core's data cache: a clean one is dropped, a dirty one goes by R471 with the core's
copy (R467). -/
def State.loseCopy (s : State) (core line : Nat) : State :=
  match (s.core core).dlines.find? line with
  | none => s
  | some d =>
    let s := s.modCore core fun c => { c with dlines := c.dlines.del line }
    if d.dirty && (s.dirty.find? line).isSome then (s.addUed).loseLine line else s.addUec

/-- An uncorrectable error of a line in a core's constant cache: it is dropped (R467). -/
def State.loseConst (s : State) (core line : Nat) : State :=
  if (s.core core).consts.any fun e => e.1 == line then
    (s.modCore core fun c => { c with consts := c.consts.filter fun e => e.1 != line }).addUec
  else s

/-- An error of a core's arrays, or of the plinth, is found (R467). One of the shadow storage waits for the restore. -/
def State.meetUpset (s : State) (u : Upset) : State :=
  if !u.hard then s.addCe
  else
    match u with
    | .control _ => s.goFatal 1 5 0
    | .dline core n _ => s.loseCopy core n
    | .cline core n _ => s.loseConst core n
    | .shadow _ _ | .line _ _ _ _ | .plane .. | .tags _ => { s with upsets := u :: s.upsets }
    | u =>
      match s.upsetOwner u with
      | some (g, access, src) => (s.addUec).loseWg g access src
      | none => s

/-- The errors of a core's arrays are found. -/
def State.meetCore (s : State) (core : Nat) : State :=
  if s.upsets.isEmpty then s
  else
    let mine := s.upsets.filter fun u => u.core? == some core
    mine.foldl State.meetUpset { s with upsets := s.upsets.filter fun u => u.core? != some core }

/-- The shadow storage of a workgroup's partitions has lost its content (R467): the errors are found and leave the list. -/
def State.shadowLost (s : State) (pids : List Nat) : Bool × State :=
  let here (u : Upset) : Bool :=
    match u with
    | .shadow pid hard => hard && pids.contains pid
    | _ => false
  if s.upsets.any here then (true, { s with upsets := s.upsets.filter fun u => !here u }.addUec) else (false, s)

/-- 10 ms in steps of TIME. -/
def patrolUnit : Nat := 200000000

/-- The next patrol of a slice (R477, R478). -/
def State.nextPatrol (s : State) (slice : Nat) : State :=
  let n := fld s.errcfg.toNat 48 8
  if n == 0 then s else s.at (s.now + n * patrolUnit) (.patrolScrub slice)

/-- PATROL_SCRUB (R470, R471, R477): the slice acts on lines that have been lost, or on an error in its control state; or else it
reads every line of its array, of which those with errors are found, until its next patrol. -/
def execPatrolScrub (slice : Nat) (s : State) : Host.Outcome State Fault Refusal :=
  .next (if s.upsets.contains (.control true) then
    ({ s with upsets := s.upsets.filter (· != .control true) } : State).goFatal 1 2 slice
  else if !s.losses.isEmpty then s.losses.foldl State.settleLoss { s with losses := [] }
  else
    let lines := s.upsets.filterMap fun u =>
      match u with
      | .line n _ false _ | .tags n => if sliceOf (n * 128) == slice then some n else none
      | _ => none
    (s.meetLines lines).nextPatrol slice)

/-- ERRSUM_CLR (R479). -/
def execErrsumClr (s : State) : Host.Outcome State Fault Refusal := .next { s with ued := 0, uec := 0, ce := 0 }

end Sys2Proof.Machine
end

