-- ==== Sys2Proof/Machine/Commit.lean ====
section
/-!
DEFINITION. The end of a partition's core cycle: results commit, accesses that wait for a page park, and traps are taken
(R51, R53, R54, R266, R510).
-/
namespace Sys2Proof.Machine

/-- A thread whose closed window waits for a page parks, and its access is tried (R54). -/
def State.parkClosed (s : State) (t : TId) (a : Access) : State :=
  ((s.unfile t).modThread t fun th => { th with pend := some a }).retryAccess t

/-- The access for which a thread parks: of the first of its closed windows that waits for a page (R54). -/
def Thread.closedPend (th : Thread) : Option Access :=
  if th.st != .ready || th.pend.isSome then none else th.closedWindows.findSome? (·.pend)

/-- The threads of a partition's waves. -/
def State.threadsOn (s : State) (pid : Nat) : List TId :=
  (s.waves.filter fun e => pidOf e.1 == pid).flatMap fun e => (List.range 32).map fun i => ⟨e.1, i⟩

/-- The bin of BUNDLE state that holds a thread. -/
def Part.bundleOf (p : Part) (t : TId) : Option Nat := (p.bins.first fun e => e.2.st == .bundle && e.2.threads.contains t).map (·.1)

/-- Threads with a trap to take and no result to come take it, those of a bundle together (R510). -/
def State.takeTraps (s : State) (pid : Nat) : State :=
  ((s.threadsOn pid).filter fun t => s.trapped t && (s.thread t).windows.isEmpty && (s.thread t).st == .ready && !(s.wave t.w).halted).foldl
    (fun s t =>
      if !s.trapped t then s
      else
        match (s.part pid).bundleOf t with
        | some b => s.settleTraps pid b
        | none => s.enterAlone t) s

/-- The instruction that issued in this cycle is taken out before X1: in each of its threads the trap that it raised has given way
to that of an older one (R21, R511). -/
def State.removed (s s' : State) (core part : Nat) : Bool :=
  s.cur.core == core && s.cur.part == part && !s.cur.threads.isEmpty &&
    s.cur.threads.all fun t => s.trapped t && (s.thread t).trapQ != (s'.thread t).trapQ

/-- LONG_LATENCY_COMMIT (R51, R266): the results that have arrived for closed windows of a partition are committed. -/
def execLongLatencyCommit (core part : Nat) (s : State) : Host.Outcome State Fault Refusal :=
  let pid := core * 4 + part
  let failed := (s.part pid).unionFail
  let s0 := s.modPart pid fun p => { p with unionFail := [] }
  let s := s0.commit failed (s0.dueCommits pid (s.core core).cyc.toNat)
  let s := if s0.removed s core part then s.modPart pid fun p => { p with issued := none } else s
  let s := (s.threadsOn pid).foldl
    (fun s t =>
      match (s.thread t).closedPend with
      | some a => if (s.wave t.w).halted then s else s.parkClosed t a
      | none => s) s
  .next (s.takeTraps pid)

end Sys2Proof.Machine
end

