-- ==== Sys2Proof/Machine/Compress.lean ====
section
/-!
DEFINITION. The compression engine (R378 to R383): ZCOMP, ZEXP and ZBOOK.
-/
namespace Sys2Proof.Machine

/-- Cuts bytes into pieces of `k`. -/
def pieces (k : Nat) : Nat → List Byte → List (List Byte)
  | 0, _ => []
  | n + 1, bs => bs.take k :: pieces k n (bs.drop k)

/-- The codebooks of a command: those of its beginning (R383). -/
def QCmd.books (c : QCmd) (s : State) : List Book := (c.began.map (·.books)).getD s.liveBooks

/-- ZCOMP (R380). -/
def zcompCmd (s : State) (c : QCmd) : Eng EngEnd :=
  match (c.books s).find? fun b => b.gen == fld c.p 32 32 with
  | none => .error (.codebook 0)
  | some b =>
    (s.engRead c.issuer c.a0 (fld c.p 0 32)).map fun bs =>
      let img := imageOf b (pieces 4096 (bs.length / 4096) bs)
      { status := 1, count := img.length, writes := [(c.a1, img)] }

/-- The lines of consecutive sectors, the first at offset `at_` (R381). -/
def expand (books : List Book) : Nat → List (List Byte) → Eng (List Byte)
  | _, [] => .ok []
  | at_, x :: xs =>
    match decodeSector books x with
    | .missing _ => .error (.codebook at_)
    | .corrupt => .error (.status 5 at_)
    | .lines ls => (expand books (at_ + 128) xs).map fun rest => ls.flatMap id ++ rest

/-- ZEXP (R381). -/
def zexpCmd (s : State) (c : QCmd) : Eng EngEnd :=
  let n := fld c.p 32 32
  let len := fld c.p 0 32
  match s.engRead c.issuer c.a0 (128 * n) with
  | .error e => .error e
  | .ok bs =>
    (expand (c.books s) 0 (pieces 128 n bs)).map fun out =>
      let d := out.length
      { status := if d == len then 1 else if d < len then 2 else 3
        flags := if d == len then 0 else 32
        count := len
        detail := if d == len then 0 else d
        info := d
        writes := [(c.a1, out.take len ++ List.replicate (len - d) 0)] }

/-- ZBOOK (R383): the words of the dictionary. -/
def zbookCmd (s : State) (c : QCmd) : Eng EngEnd :=
  (s.engRead c.issuer c.a0 128).map fun bs =>
    { status := 1, book := some ⟨fld c.p 0 32, lineWords bs⟩ }

/-- ZCOMP (R380), and a command of the compression engine with an unknown OPC (R366). -/
def execZcomp (core q : Nat) (s : State) : Host.Outcome State Fault Refusal :=
  .next (s.runHead core q (fun c => c.engine == 3 && (c.opc == 1 || !c.known))
    (fun c =>
      [(4, fld c.p 0 32 % 4096 != 0), (5, c.a0 % 4096 != 0 || c.a1 % 4096 != 0),
       (6, isAperture c.a1 || reachesWindow [(c.a0, fld c.p 0 32)])])
    (fun _ c => [(c.a0, fld c.p 0 32)]) zcompCmd)

/-- ZEXP (R381). -/
def execZexp (core q : Nat) (s : State) : Host.Outcome State Fault Refusal :=
  .next (s.runHead core q (fun c => c.engine == 3 && c.opc == 2)
    (fun c =>
      [(4, fld c.p 32 32 == 0), (5, c.a0 % 128 != 0),
       (6, reachesWindow [(c.a0, 128 * fld c.p 32 32), (c.a1, fld c.p 0 32)])])
    (fun _ c => [(c.a0, 128 * fld c.p 32 32), (c.a1, fld c.p 0 32)]) zexpCmd)

/-- ZBOOK (R383). -/
def execZbook (core q : Nat) (s : State) : Host.Outcome State Fault Refusal :=
  .next (s.runHead core q QCmd.isBook s.bookChecks (fun _ c => [(c.a0, 128)]) zbookCmd)

end Sys2Proof.Machine
end

