-- ==== Sys2Proof/Machine/Conversion.lean ====
section
/-!
DEFINITION. The conversion engine (R370 to R372): CONVRES and CONVBIN.
-/
namespace Sys2Proof.Machine

/-- The conversion block (R370). -/
structure ConvBlock where
  rows    : Nat
  cols    : Nat
  bstride : Nat
  pstride : Nat
  anchor  : Int
  group   : Nat
  fmt     : Nat
  fmul    : Nat
  scale   : Nat
  deriving DecidableEq, Repr

def convBlock (bs : List Byte) : ConvBlock :=
  { rows := bfld bs 0 4, cols := bfld bs 4 4, bstride := bfld bs 8 4, pstride := bfld bs 12 4
    anchor := signedOf 16 (bfld bs 16 2), group := bfld bs 18 1, fmt := bfld bs 19 1, fmul := bfld bs 20 4
    scale := bfld bs 24 8 }

/-- The row of the binary side in bytes; the scale bytes per row. -/
def ConvBlock.binRow (b : ConvBlock) (res : Bool) : Nat :=
  if res then 2 * b.cols else outRowSize (OutFmt.ofCode b.fmt) b.cols
def ConvBlock.scaleRow (b : ConvBlock) : Nat := (b.cols + 31) / 32
def ConvBlock.planeSize (b : ConvBlock) : Nat := 2 * b.rows * b.cols

/-- The addresses of the planes of `n` channels and of the rows of the binary side. -/
def ConvBlock.planes (b : ConvBlock) (base n : Nat) : Ranges :=
  (List.range n).map fun k => (engAddr base ((k * b.pstride : Nat) : Int), b.planeSize)
def ConvBlock.binary (b : ConvBlock) (base : Nat) (res : Bool) : Ranges :=
  (List.range b.rows).map fun i => (engAddr base ((i * b.bstride : Nat) : Int), b.binRow res)

/-- Every range of a command, the destination last. -/
def ConvBlock.ranges (b : ConvBlock) (c : QCmd) (res : Bool) (n : Nat) : Ranges × Ranges :=
  let sc := if res && b.fmt == 1 then [(b.scale, b.rows * b.scaleRow)] else []
  if res then (sc ++ b.binary c.a0 true, b.planes c.a1 n) else (b.planes c.a0 n, b.binary c.a1 false)

/-- The profile and GEN that a conversion works under: those of its beginning (R370). -/
def QCmd.profile (c : QCmd) (s : State) : Option Profile × Word :=
  match c.began with
  | some b => (b.prof, b.gen)
  | none => ((s.ctx c.issuer.tag).prof, (s.ctx c.issuer.tag).gen)

/-- The channels of the command's group under its profile (R366 status 8). -/
def State.convGroup (s : State) (c : QCmd) (g : Nat) : Option (Profile × List (Nat × Chan)) :=
  match (c.profile s).1 with
  | some p => if g < groupCount p.grouping then some (p, p.group g) else none
  | none => none

/-- The checks of the conversion block, in ascending cause number. -/
def checkConv (res : Bool) (c : QCmd) (n : Nat) (bs : List Byte) : Eng Unit :=
  let b := convBlock bs
  let (rd, wr) := b.ranges c res n
  let small : Bool := 0 < b.rows && b.rows < 65536 && 0 < b.cols && b.cols < 65536
  blockBad
    [(2, bfld bs 32 32 != 0),
     (4, !small || b.pstride < b.planeSize || b.anchor < -256 || 255 < b.anchor ||
       (if res then 1 else 8) < b.fmt),
     (6, small && reachesWindow (rd ++ wr))]

/-- The block of a conversion with the channels of its group. -/
def State.convStart (s : State) (res : Bool) (c : QCmd) : Eng (ConvBlock × Profile × List (Nat × Chan)) :=
  match s.cmdBlock c with
  | .error e => .error e
  | .ok bs =>
    let g := s.convGroup c (convBlock bs).group
    match checkConv res c ((g.map fun x => x.2.length).getD 0) bs with
    | .error e => .error e
    | .ok _ =>
      match g with
      | none => .error .noProfile
      | some (p, chans) => .ok (convBlock bs, p, chans)

/-- The ranges that a conversion names. -/
def convNames (res : Bool) (s : State) (c : QCmd) : Ranges :=
  match s.convStart res c with
  | .ok (b, _, chans) =>
    let (rd, wr) := b.ranges c res chans.length
    (c.p, 64) :: rd ++ wr
  | .error _ => [(c.p, 64)]

/-- Reads rows one after another. -/
def State.readRanges (s : State) (i : Issuer) (rs : Ranges) : Eng (List (List Byte)) :=
  rs.foldr
    (fun (a, n) r =>
      match s.engRead i a n with
      | .error e => .error e
      | .ok bs => r.map fun rest => bs :: rest) (.ok [])

/-- The 16-bit words of some bytes. -/
def words16 (bs : List Byte) : List Nat := (List.range (bs.length / 2)).map fun k => wordOfBytes ((bs.drop (2 * k)).take 2)

/-- The substitute of a NaN or an infinity by a code of SUBST (R371). -/
def convSubst (W code : Nat) (dflt : Int) : Int :=
  match code with
  | 0 => dflt
  | 1 => 0
  | 2 => 2 ^ W - 1
  | _ => -(2 ^ W - 1)

/-- An element of CONVRES: its aligned integer and flags (R371). -/
def convElem (W subst : Nat) (anchor : Int) (e : Elem) : Int × Nat :=
  let (x, fl) := splitElem W anchor e
  match e with
  | .nan => (convSubst W (fld subst 2 2) x, fl)
  | .inf _ => (convSubst W (subst % 4) x, fl)
  | .num _ _ => (x, fl)

/-- A BF16 element with a scale byte, none under FMT 0 (R371). -/
def scaledElem (bits : Nat) (X : Option Nat) : Elem :=
  match bf16Elem bits, X with
  | e, none => e
  | .num m f, some x => if x == 255 then .nan else .num m (f + x - 127)
  | e, some x => if x == 255 then .nan else e

/-- CONVRES. -/
def convresCmd (s : State) (c : QCmd) : Eng EngEnd :=
  match s.convStart true c with
  | .error e => .error e
  | .ok (b, p, chans) =>
    match s.readRanges c.issuer (b.binary c.a0 true) with
    | .error e => .error e
    | .ok rows =>
      match if b.fmt == 1 then s.engRead c.issuer b.scale (b.rows * b.scaleRow) else .ok [] with
      | .error e => .error e
      | .ok sc =>
        let W := windowW p.grouping
        let es := (List.range b.rows).flatMap fun i =>
          let ws := words16 (rows.getD i [])
          (List.range b.cols).map fun j =>
            let X := if b.fmt == 1 then some (sc.getD (i * b.scaleRow + j / 32) 0).toNat else none
            convElem W c.subst b.anchor (scaledElem (ws.getD j 0) X)
        .ok
          { status := 1
            flags := es.foldl (fun m e => Nat.lor m e.2) 0
            count := chans.length * b.planeSize
            info := (c.profile s).2.toNat * 2 ^ 32
            writes := (List.zip (b.planes c.a1 chans.length) chans).map fun (r, ch) =>
              (r.1, es.flatMap fun e => bytesOfWord 2 (residue e.1 ch.2.mod)) }

/-- A floating-point output of CONVBIN: S × FMUL × 2^ANCHOR, rounded once (R372, R188). -/
def convbinFloat (f : OutFmt) (r : RM) (subst : Nat) (E : Int) (fmul : Nat) (v : Stage5) : Nat × Nat :=
  match v with
  | .none => ((outFmt f).nanBits, 0)
  | .huge neg =>
    let (x, fl) := convFloat (outFmt f) r subst false (hugeFl neg)
    (x, fl.bits)
  | .value z =>
    let x := Fl.mul (.num (z < 0) z.natAbs E) (fmt32.read fmul)
    let x := match x with
      | .num n m e => if m == 0 then Fl.num false 0 0 else .num n m e
      | y => y
    let (y, fl) := convFloat (outFmt f) r subst false x
    (y, fl.bits)

/-- An output element of CONVBIN. -/
def convbinElem (b : ConvBlock) (r : RM) (subst : Nat) (v : Stage5) : Nat × Nat :=
  let f := OutFmt.ofCode b.fmt
  match outInt f with
  | some _ => scalarOut f r b.anchor {} v
  | none => convbinFloat f r subst b.anchor b.fmul v

/-- What an element passes on (R188). -/
def Recon.stage5 (x : Recon) : Stage5 :=
  match x.out with
  | .uncorrectable => .none
  | .overflow => .huge (x.S < 0)
  | _ => .value x.S

/-- CONVBIN. -/
def convbinCmd (s : State) (c : QCmd) : Eng EngEnd :=
  match s.convStart false c with
  | .error e => .error e
  | .ok (b, p, chans) =>
    match s.readRanges c.issuer (b.planes c.a0 chans.length) with
    | .error e => .error e
    | .ok planes =>
      let ws : Tab (List Nat) := (List.zip chans planes).map fun (ch, bs) => (ch.1, words16 bs)
      let es := (List.range b.rows).map fun i =>
        (List.range b.cols).map fun j => reconstruct p b.group fun ch => ((ws.get ch []).getD (i * b.cols + j) 0) % 512
      let outs := es.map fun row => row.map fun e => convbinElem b (rmOf c.roundCode) c.subst e.stage5
      let count (o : Outcome) : Nat := min 65535 ((es.flatten.filter fun e => e.out == o).length)
      let n := outBytes (OutFmt.ofCode b.fmt)
      .ok
        { status := 1
          flags := outs.foldl (fun m row => row.foldl (fun m o => Nat.lor m o.2) m) 0
          count := b.rows * b.cols * n
          info := count .corrected * 2 ^ 48 + count .overflow * 2 ^ 32 + count .uncorrectable * 2 ^ 16
          fixes := (es.flatten.filter fun e => e.out == .corrected).map (·.chan)
          writes := (List.zip (b.binary c.a1 false) outs).map fun (r, row) =>
            (r.1, row.flatMap fun o => bytesOfWord n o.1) }

/-- CONVRES (R371), and a command of the conversion engine with an unknown OPC (R366). -/
def execConvres (core q : Nat) (s : State) : Host.Outcome State Fault Refusal :=
  .next (s.runHead core q (fun c => c.engine == 1 && (c.opc == 1 || !c.known)) (fun _ => []) (convNames true) convresCmd)

/-- CONVBIN (R372). -/
def execConvbin (core q : Nat) (s : State) : Host.Outcome State Fault Refusal :=
  .next (s.runHead core q (fun c => c.engine == 1 && c.opc == 2) (fun _ => []) (convNames false) convbinCmd)

end Sys2Proof.Machine
end

