-- ==== Sys2Proof/Machine/Convert.lean ====
section
/-!
DEFINITION. Conversions of one lane, random numbers, and the counters (R130, R132, R134 to R138).
-/
namespace Sys2Proof.Machine

/-- What CVT reads (R77, R130): an exact value, or an integer. -/
def TY.value (t : TY) (n : Nat) : Fl :=
  match t with
  | .int i => Fl.ofInt (i.read n)
  | .f32 => fmt32.read (n % 2 ^ 32)
  | .f64 => fmt64.read n
  | .bf16 => fmt16.read (n % 2 ^ 16)

/-- The rank of a floating-point format by width, for the exact conversions of R99. -/
def TY.rank : TY → Nat
  | .bf16 => 1 | .f32 => 2 | .f64 => 3 | .int _ => 0

/-- CVT on the bits of one lane (R99, R102, R130). -/
def cvtBits (dty sty : TY) (r : RM) (n : Nat) : Nat :=
  let x := TY.value sty n
  let widen := TY.rank sty != 0 && TY.rank sty ≤ TY.rank dty
  match dty, sty with
  | .int t, .int u => t.result true (u.read n)
  | .int t, _ => t.result false (convInt t.width t.signed r 0 x).1
  | .f32, _ => (convFloat fmt32 r 0 widen x).1
  | .f64, _ => (convFloat fmt64 r 0 widen x).1
  | .bf16, _ => (convFloat fmt16 r 0 widen x).1

/-- CVT (R130). -/
def execCvt (h : Hd) (d a : Nat) (dty sty : TY) (r : RM) (s : State) :
    Host.Outcome State Fault Refusal :=
  .next (s.compute h (.fixed 4) (dests dty.wide d) [] fun s u =>
    { regs := putNum dty.wide d (cvtBits dty sty r (s.num u sty.wide a)) })

/-- CVTMX in the decoding direction (R132, R90). -/
def execCvtmxDec (h : Hd) (d a b : Nat) (r : RM) (s : State) :
    Host.Outcome State Fault Refusal :=
  .next (s.compute h (.fixed 6) [d] [] fun s u =>
    { regs := putNum false d (fmt32.round r (mxValue (fld (s.num u false b) 0 8) (signedOf 8 (s.num u false a)))) })

/-- A generator moves on by one word (R135). -/
def Thread.drawn (th : Thread) : Thread :=
  if th.rngI == 3 then { th with rngI := 0, rngB := th.rngB + 1 } else { th with rngI := th.rngI + 1 }

/-- The global thread identifier (R404). -/
def State.globalId (s : State) (t : TId) : Nat :=
  let x := s.wave t.w
  ((s.wg x.wg).lin * (s.launch x.launch).wpw + x.idx) * 32 + t.lane

/-- The next word of a thread's generator (R134, R135). -/
def State.draw (s : State) (t : TId) : Nat :=
  let th := s.thread t
  philoxWord th.rngS.toNat th.rngB.toNat (s.globalId t) th.rngI

/-- RNG and RNGF: the word at issue, and the advance of the state (R135, R136). -/
def State.random (s : State) (h : Hd) (d : Nat) (f : Nat → Nat) : State :=
  let s1 := s.begin h [d] []
  let ts := s.acting s1 h
  let s2 := ts.foldl (fun s t => s.modThread t Thread.drawn) s1
  (s2.deliver s.cur.half h.la (.fixed 6) [d] [] (ts.map fun t => (t, { regs := putNum false d (f (s.draw t)) }))).settle
    false

/-- An instruction that changes the state of its active threads' generators alone (R135). -/
def State.reseed (s : State) (h : Hd) (f : TId → Thread → Thread) : State :=
  let s1 := s.begin h [] []
  ((s.acting s1 h).foldl (fun s t => s.modThread t (f t)) s1).settle false

/-- RNGSEED (R135). -/
def execRngseed (h : Hd) (a : Nat) (s : State) :
    Host.Outcome State Fault Refusal :=
  .next (s.reseed h fun t th => { th with rngS := s.rd64 t a, rngB := 0, rngI := 0 })

/-- RNG (R135). -/
def execRng (h : Hd) (d : Nat) (s : State) :
    Host.Outcome State Fault Refusal :=
  .next (s.random h d id)

/-- RNGF: word / 2^8 / 2^24 as binary32, exact (R135). -/
def execRngf (h : Hd) (d : Nat) (s : State) :
    Host.Outcome State Fault Refusal :=
  .next (s.random h d fun w => fmt32.round .rn (.num false (w / 2 ^ 8) (-24)))

/-- RNGSKIP (R135). -/
def execRngskip (h : Hd) (a : Nat) (s : State) :
    Host.Outcome State Fault Refusal :=
  .next (s.reseed h fun t th =>
    let n := 4 * th.rngB.toNat + th.rngI + (s.rd64 t a).toNat
    { th with rngB := BitVec.ofNat 64 (n / 4), rngI := n % 4 })

/-- TIME at the start of the next core cycle of the core that issues (R27). -/
def State.timeX1 (s : State) : Nat := (s.core s.cur.core).start + (s.core s.cur.core).len

/-- A counter sampled at the start of the cycle in which the instruction is in X1 (R27): the present cycle is then
complete. -/
def State.counter (s : State) : Counter → Nat
  | .cyc => s.cycle + 1
  | .time => s.timeX1
  | .cls n => ((s.core s.cur.core).cls.getD n 0).toNat + (if (s.core s.cur.core).cmax == n then 1 else 0)

/-- CLKRD (R137). -/
def execClkrd (h : Hd) (d : Nat) (c : Counter) (s : State) :
    Host.Outcome State Fault Refusal :=
  .next (s.compute h .short (dests true d) [] fun s _ => { regs := putNum true d (s.counter c) })

/-- TSTAMP (R138). -/
def execTstamp (h : Hd) (d : Nat) (s : State) :
    Host.Outcome State Fault Refusal :=
  .next (s.compute h .short (dests true d) [] fun s _ => { regs := putNum true d (s.timeX1 + (s.offset s.timeX1).toNat) })


end Sys2Proof.Machine
end

