-- ==== Sys2Proof/Machine/Float.lean ====
section
/-!
DEFINITION. Binary32, BF16 pair and binary64 arithmetic (R121 to R129).
-/
namespace Sys2Proof.Machine

/-- Binary32 instructions of one, two and three sources (R121). -/
def State.float1 (s : State) (h : Hd) (m : Option LaneMod) (lat : Latency) (d a : Nat) (op : Nat → Nat) : State :=
  s.compute h lat [d] [] fun s u => { regs := putNum false d (op (s.numA m u false a)) }
def State.float2 (s : State) (h : Hd) (m : Option LaneMod) (lat : Latency) (d a b : Nat) (op : Nat → Nat → Nat) : State :=
  s.compute h lat [d] [] fun s u => { regs := putNum false d (op (s.numA m u false a) (s.numB m u false b)) }
def State.float3 (s : State) (h : Hd) (m : Option LaneMod) (lat : Latency) (d a b c : Nat) (op : Nat → Nat → Nat → Nat) :
    State :=
  s.compute h lat [d] [] fun s u =>
    { regs := putNum false d (op (s.numA m u false a) (s.numB m u false b) (s.num u false c)) }

/-- Binary64 instructions, on pairs (R129). -/
def State.double2 (s : State) (h : Hd) (m : Option LaneMod) (d a b : Nat) (op : Nat → Nat → Nat) : State :=
  s.compute h (.fixed 6) (dests true d) [] fun s u => { regs := putNum true d (op (s.numA m u true a) (s.numB m u true b)) }

/-- Sum, product and fused product-sum of a format, rounded once (R85, R86, R121). -/
def Fmt.addBits (f : Fmt) (r : RM) (a b : Nat) : Nat := f.round r (Fl.add r (f.read a) (f.read b))
def Fmt.subBits (f : Fmt) (r : RM) (a b : Nat) : Nat := f.round r (Fl.add r (f.read a) (f.read b).negate)
def Fmt.mulBits (f : Fmt) (r : RM) (a b : Nat) : Nat := f.round r ((f.read a).mul (f.read b))
def Fmt.fmaBits (f : Fmt) (r : RM) (a b c : Nat) : Nat := f.round r (Fl.add r ((f.read a).mul (f.read b)) (f.read c))

/-- An operation on the two elements of a .bf16x2 operand (R88). -/
def halves2 (op : Nat → Nat → Nat) (a b : Nat) : Nat :=
  op (fld a 0 16) (fld b 0 16) + op (fld a 16 16) (fld b 16 16) * 2 ^ 16
def halves3 (op : Nat → Nat → Nat → Nat) (a b c : Nat) : Nat :=
  op (fld a 0 16) (fld b 0 16) (fld c 0 16) + op (fld a 16 16) (fld b 16 16) (fld c 16 16) * 2 ^ 16

/-- FADD (R121). -/
def execFadd (h : Hd) (m : Option LaneMod) (d a b : Nat) (r : RM) (s : State) :
    Host.Outcome State Fault Refusal :=
  .next (s.float2 h m (.fixed 4) d a b (fmt32.addBits r))

/-- FSUB (R121). -/
def execFsub (h : Hd) (m : Option LaneMod) (d a b : Nat) (r : RM) (s : State) :
    Host.Outcome State Fault Refusal :=
  .next (s.float2 h m (.fixed 4) d a b (fmt32.subBits r))

/-- FMUL (R121). -/
def execFmul (h : Hd) (m : Option LaneMod) (d a b : Nat) (r : RM) (s : State) :
    Host.Outcome State Fault Refusal :=
  .next (s.float2 h m (.fixed 4) d a b (fmt32.mulBits r))

/-- FFMA (R121, R86). -/
def execFfma (h : Hd) (m : Option LaneMod) (d a b c : Nat) (r : RM) (s : State) :
    Host.Outcome State Fault Refusal :=
  .next (s.float3 h m (.fixed 4) d a b c (fmt32.fmaBits r))

/-- FMIN (R125, R87). -/
def execFmin (h : Hd) (m : Option LaneMod) (d a b : Nat) (s : State) :
    Host.Outcome State Fault Refusal :=
  .next (s.float2 h m (.fixed 4) d a b (fmt32.pick false))

/-- FMAX (R125, R87). -/
def execFmax (h : Hd) (m : Option LaneMod) (d a b : Nat) (s : State) :
    Host.Outcome State Fault Refusal :=
  .next (s.float2 h m (.fixed 4) d a b (fmt32.pick true))

/-- FSET (R126). -/
def execFset (h : Hd) (m : Option LaneMod) (p a b : Nat) (cc : CC) (s : State) :
    Host.Outcome State Fault Refusal :=
  .next (s.compute h (.fixed 4) [] [p] fun s u =>
    { preds := [(p, Fl.test cc (fmt32.read (s.numA m u false a)) (fmt32.read (s.numB m u false b)))] })

/-- FRND (R124). -/
def execFrnd (h : Hd) (m : Option LaneMod) (d a : Nat) (r : RM) (s : State) :
    Host.Outcome State Fault Refusal :=
  .next (s.float1 h m (.fixed 4) d a (frndBits r))

/-- FCLASS (R127). -/
def execFclass (h : Hd) (m : Option LaneMod) (d a : Nat) (s : State) :
    Host.Outcome State Fault Refusal :=
  .next (s.float1 h m (.fixed 4) d a fclassBits)

/-- FDIV (R121, R123). -/
def execFdiv (h : Hd) (m : Option LaneMod) (d a b : Nat) (r : RM) (s : State) :
    Host.Outcome State Fault Refusal :=
  .next (s.float2 h m (.fixed 20) d a b fun x y => fmt32.div r (fmt32.read x) (fmt32.read y))

/-- FRCP (R121, R123). -/
def execFrcp (h : Hd) (m : Option LaneMod) (d a : Nat) (r : RM) (s : State) :
    Host.Outcome State Fault Refusal :=
  .next (s.float1 h m (.fixed 12) d a fun x => fmt32.div r (Fl.ofInt 1) (fmt32.read x))

/-- FRSQ (R121, R123). -/
def execFrsq (h : Hd) (m : Option LaneMod) (d a : Nat) (r : RM) (s : State) :
    Host.Outcome State Fault Refusal :=
  .next (s.float1 h m (.fixed 12) d a fun x => fmt32.rsqrt r (fmt32.read x))

/-- FSQRT (R121, R123). -/
def execFsqrt (h : Hd) (m : Option LaneMod) (d a : Nat) (r : RM) (s : State) :
    Host.Outcome State Fault Refusal :=
  .next (s.float1 h m (.fixed 16) d a fun x => fmt32.sqrt r (fmt32.read x))

/-- FEXP2 (R122, R123). -/
def execFexp2 (h : Hd) (m : Option LaneMod) (d a : Nat) (s : State) :
    Host.Outcome State Fault Refusal :=
  .next (s.float1 h m (.fixed 12) d a fexp2Bits)

/-- FLOG2 (R122, R123). -/
def execFlog2 (h : Hd) (m : Option LaneMod) (d a : Nat) (s : State) :
    Host.Outcome State Fault Refusal :=
  .next (s.float1 h m (.fixed 12) d a flog2Bits)

/-- FSIN (R122, R123). -/
def execFsin (h : Hd) (m : Option LaneMod) (d a : Nat) (s : State) :
    Host.Outcome State Fault Refusal :=
  .next (s.float1 h m (.fixed 12) d a (ftrigBits false))

/-- FCOS (R122, R123). -/
def execFcos (h : Hd) (m : Option LaneMod) (d a : Nat) (s : State) :
    Host.Outcome State Fault Refusal :=
  .next (s.float1 h m (.fixed 12) d a (ftrigBits true))

/-- HADD2 (R128, R88). -/
def execHadd2 (h : Hd) (m : Option LaneMod) (d a b : Nat) (r : RM) (s : State) :
    Host.Outcome State Fault Refusal :=
  .next (s.float2 h m (.fixed 4) d a b (halves2 (fmt16.addBits r)))

/-- HMUL2 (R128, R88). -/
def execHmul2 (h : Hd) (m : Option LaneMod) (d a b : Nat) (r : RM) (s : State) :
    Host.Outcome State Fault Refusal :=
  .next (s.float2 h m (.fixed 4) d a b (halves2 (fmt16.mulBits r)))

/-- HFMA2 (R128, R88). -/
def execHfma2 (h : Hd) (m : Option LaneMod) (d a b c : Nat) (r : RM) (s : State) :
    Host.Outcome State Fault Refusal :=
  .next (s.float3 h m (.fixed 4) d a b c (halves3 (fmt16.fmaBits r)))

/-- HMAX2 (R128, R87). -/
def execHmax2 (h : Hd) (m : Option LaneMod) (d a b : Nat) (s : State) :
    Host.Outcome State Fault Refusal :=
  .next (s.float2 h m (.fixed 4) d a b (halves2 (fmt16.pick true)))

/-- DADD (R129). -/
def execDadd (h : Hd) (m : Option LaneMod) (d a b : Nat) (r : RM) (s : State) :
    Host.Outcome State Fault Refusal :=
  .next (s.double2 h m d a b (fmt64.addBits r))

/-- DMUL (R129). -/
def execDmul (h : Hd) (m : Option LaneMod) (d a b : Nat) (r : RM) (s : State) :
    Host.Outcome State Fault Refusal :=
  .next (s.double2 h m d a b (fmt64.mulBits r))

/-- DFMA (R129). -/
def execDfma (h : Hd) (m : Option LaneMod) (d a b c : Nat) (r : RM) (s : State) :
    Host.Outcome State Fault Refusal :=
  .next (s.compute h (.fixed 6) (dests true d) [] fun s u =>
    { regs := putNum true d (fmt64.fmaBits r (s.numA m u true a) (s.numB m u true b) (s.num u true c)) })

/-- DSET (R129). -/
def execDset (h : Hd) (m : Option LaneMod) (p a b : Nat) (cc : CC) (s : State) :
    Host.Outcome State Fault Refusal :=
  .next (s.compute h (.fixed 6) [] [p] fun s u =>
    { preds := [(p, Fl.test cc (fmt64.read (s.numA m u true a)) (fmt64.read (s.numB m u true b)))] })


end Sys2Proof.Machine
end

