-- ==== Sys2Proof/Machine/Integer.lean ====
section
/-!
DEFINITION. Moves, integer arithmetic, comparisons and predicate logic (R111 to R117, R120).
-/
namespace Sys2Proof.Machine

/-- An instruction of two sources of an integer type (R112): `op` on the exact values. -/
def State.int2 (s : State) (h : Hd) (m : Option LaneMod) (lat : Latency) (d a b : Nat) (sat : Bool) (t : IT)
    (op : Int → Int → Int) : State :=
  s.compute h lat (dests t.wide d) [] fun s u =>
    { regs := putNum t.wide d (t.result sat (op (t.read (s.numA m u t.wide a)) (t.read (s.numB m u t.wide b)))) }

/-- One source of an integer type (R112). -/
def State.int1 (s : State) (h : Hd) (m : Option LaneMod) (d a : Nat) (sat : Bool) (t : IT) (op : Int → Int) : State :=
  s.compute h .short (dests t.wide d) [] fun s u =>
    { regs := putNum t.wide d (t.result sat (op (t.read (s.numA m u t.wide a)))) }

/-- Three sources of an integer type (R114). -/
def State.int3 (s : State) (h : Hd) (m : Option LaneMod) (lat : Latency) (d a b c : Nat) (t : IT)
    (op : Int → Int → Int → Int) : State :=
  s.compute h lat (dests t.wide d) [] fun s u =>
    { regs := putNum t.wide d
        (t.result false (op (t.read (s.numA m u t.wide a)) (t.read (s.numB m u t.wide b)) (t.read (s.num u t.wide c)))) }

/-- A register and an immediate of 32 bits, read as signed numbers (R44, R116). -/
def State.intImm (s : State) (h : Hd) (lat : Latency) (d a : Nat) (op : Int → Int) : State :=
  s.compute h lat [d] [] fun s u => { regs := putNum false d (IT.result .s32 false (op (IT.read .s32 (s.num u false a)))) }

/-- The quotient of R113, of the type with `w` bits. -/
def divInt (w : Nat) (signed : Bool) (a b : Int) : Int :=
  if b == 0 then (if signed then -1 else ((2 ^ w - 1 : Nat) : Int)) else Int.tdiv a b

/-- The remainder of R113. -/
def remInt (a b : Int) : Int := if b == 0 then a else Int.tmod a b

/-- The latency of IDIV and IREM (R71). -/
def divLatency (t : IT) : Latency := .fixed (if t.wide then 40 else 24)

/-- MOVI (R111). -/
def execMovi (h : Hd) (d : Nat) (imm : Int) (s : State) :
    Host.Outcome State Fault Refusal :=
  .next (s.compute h .short [d] [] fun _ _ => { regs := putNum false d (wrapNat 32 imm) })

/-- MOVH (R111). -/
def execMovh (h : Hd) (d imm : Nat) (s : State) :
    Host.Outcome State Fault Refusal :=
  .next (s.compute h .short [d] [] fun _ _ => { regs := putNum false d (imm % 2 ^ 16 * 2 ^ 16) })

/-- MOV (R111). -/
def execMov (h : Hd) (m : Option LaneMod) (d a : Nat) (w : Bool) (s : State) :
    Host.Outcome State Fault Refusal :=
  .next (s.compute h .short (dests w d) [] fun s u => { regs := putNum w d (s.numA m u w a) })

/-- IADD with an immediate (R116). -/
def execIaddImm (h : Hd) (d a : Nat) (imm : Int) (s : State) :
    Host.Outcome State Fault Refusal :=
  .next (s.intImm h .short d a fun x => x + imm)

/-- IMUL with an immediate (R116). -/
def execImulImm (h : Hd) (d a : Nat) (imm : Int) (s : State) :
    Host.Outcome State Fault Refusal :=
  .next (s.intImm h (.fixed 4) d a fun x => x * imm)

/-- IADD (R112). -/
def execIadd (h : Hd) (m : Option LaneMod) (d a b : Nat) (sat : Bool) (t : IT) (s : State) :
    Host.Outcome State Fault Refusal :=
  .next (s.int2 h m .short d a b sat t fun x y => x + y)

/-- ISUB (R112). -/
def execIsub (h : Hd) (m : Option LaneMod) (d a b : Nat) (sat : Bool) (t : IT) (s : State) :
    Host.Outcome State Fault Refusal :=
  .next (s.int2 h m .short d a b sat t fun x y => x - y)

/-- IMIN (R112). -/
def execImin (h : Hd) (m : Option LaneMod) (d a b : Nat) (t : IT) (s : State) :
    Host.Outcome State Fault Refusal :=
  .next (s.int2 h m .short d a b false t fun x y => min x y)

/-- IMAX (R112). -/
def execImax (h : Hd) (m : Option LaneMod) (d a b : Nat) (t : IT) (s : State) :
    Host.Outcome State Fault Refusal :=
  .next (s.int2 h m .short d a b false t fun x y => max x y)

/-- IABS (R112). -/
def execIabs (h : Hd) (m : Option LaneMod) (d a : Nat) (sat : Bool) (t : IT) (s : State) :
    Host.Outcome State Fault Refusal :=
  .next (s.int1 h m d a sat t fun x => (x.natAbs : Int))

/-- INEG (R112). -/
def execIneg (h : Hd) (m : Option LaneMod) (d a : Nat) (sat : Bool) (t : IT) (s : State) :
    Host.Outcome State Fault Refusal :=
  .next (s.int1 h m d a sat t fun x => -x)

/-- IMUL (R112). -/
def execImul (h : Hd) (m : Option LaneMod) (d a b : Nat) (t : IT) (s : State) :
    Host.Outcome State Fault Refusal :=
  .next (s.int2 h m (.fixed 4) d a b false t fun x y => x * y)

/-- IMULH: the high w bits of the product (R112). -/
def execImulh (h : Hd) (m : Option LaneMod) (d a b : Nat) (t : IT) (s : State) :
    Host.Outcome State Fault Refusal :=
  .next (s.int2 h m (.fixed 4) d a b false t fun x y => Int.fdiv (x * y) ((2 ^ t.width : Nat) : Int))

/-- IDIV (R113). -/
def execIdiv (h : Hd) (m : Option LaneMod) (d a b : Nat) (t : IT) (s : State) :
    Host.Outcome State Fault Refusal :=
  .next (s.int2 h m (divLatency t) d a b false t fun x y => divInt t.width t.signed x y)

/-- IREM (R113). -/
def execIrem (h : Hd) (m : Option LaneMod) (d a b : Nat) (t : IT) (s : State) :
    Host.Outcome State Fault Refusal :=
  .next (s.int2 h m (divLatency t) d a b false t fun x y => remInt x y)

/-- ISUM (R114). -/
def execIsum (h : Hd) (m : Option LaneMod) (d a b c : Nat) (t : IT) (s : State) :
    Host.Outcome State Fault Refusal :=
  .next (s.int3 h m .short d a b c t fun x y z => x + y + z)

/-- IMAD (R114). -/
def execImad (h : Hd) (m : Option LaneMod) (d a b c : Nat) (t : IT) (s : State) :
    Host.Outcome State Fault Refusal :=
  .next (s.int3 h m (.fixed 4) d a b c t fun x y z => x * y + z)

/-- ISAD (R114). -/
def execIsad (h : Hd) (m : Option LaneMod) (d a b c : Nat) (t : IT) (s : State) :
    Host.Outcome State Fault Refusal :=
  .next (s.int3 h m .short d a b c t fun x y z => ((x - y).natAbs : Int) + z)

/-- LEA (R115). -/
def execLea (h : Hd) (m : Option LaneMod) (d a b sh : Nat) (w : Bool) (s : State) :
    Host.Outcome State Fault Refusal :=
  .next (s.compute h .short (dests w d) [] fun s u =>
    { regs := putNum w d ((s.numA m u w a + s.numB m u w b * 2 ^ sh) % 2 ^ 64) })

/-- ISET (R117). -/
def execIset (h : Hd) (m : Option LaneMod) (d a b : Nat) (cc : CC) (t : IT) (s : State) :
    Host.Outcome State Fault Refusal :=
  .next (s.compute h .short (dests t.wide d) [] fun s u =>
    let x := intTest cc (t.read (s.numA m u t.wide a)) (t.read (s.numB m u t.wide b))
    { regs := putNum t.wide d (if x then 2 ^ 64 - 1 else 0) })

/-- SEL (R117). -/
def execSel (h : Hd) (m : Option LaneMod) (d a b : Nat) (w neg : Bool) (p : Nat) (s : State) :
    Host.Outcome State Fault Refusal :=
  .next (s.compute h .short (dests w d) [] fun s u =>
    { regs := putNum w d (if (s.thread u).pred p != neg then s.numA m u w a else s.numB m u w b) })

/-- PSET (R120). -/
def execPset (h : Hd) (m : Option LaneMod) (p a b : Nat) (cc : CC) (t : IT) (s : State) :
    Host.Outcome State Fault Refusal :=
  .next (s.compute h .short [] [p] fun s u =>
    { preds := [(p, intTest cc (t.read (s.numA m u t.wide a)) (t.read (s.numB m u t.wide b)))] })

/-- The predicate-logic instructions (R120). -/
def State.predOp (s : State) (h : Hd) (p a b : Nat) (negA negB : Bool) (op : Bool → Bool → Bool) : State :=
  s.compute h .short [] [p] fun s u =>
    { preds := [(p, op ((s.thread u).pred a != negA) ((s.thread u).pred b != negB))] }

/-- PAND (R120). -/
def execPand (h : Hd) (p a b : Nat) (negA negB : Bool) (s : State) :
    Host.Outcome State Fault Refusal :=
  .next (s.predOp h p a b negA negB fun x y => x && y)

/-- POR (R120). -/
def execPor (h : Hd) (p a b : Nat) (negA negB : Bool) (s : State) :
    Host.Outcome State Fault Refusal :=
  .next (s.predOp h p a b negA negB fun x y => x || y)

/-- PXOR (R120). -/
def execPxor (h : Hd) (p a b : Nat) (negA negB : Bool) (s : State) :
    Host.Outcome State Fault Refusal :=
  .next (s.predOp h p a b negA negB fun x y => x != y)

/-- PNOT (R120). -/
def execPnot (h : Hd) (p a : Nat) (negA : Bool) (s : State) :
    Host.Outcome State Fault Refusal :=
  .next (s.compute h .short [] [p] fun s u => { preds := [(p, !((s.thread u).pred a != negA))] })


end Sys2Proof.Machine
end

