-- ==== Sys2Proof/Machine/Logic.lean ====
section
/-!
DEFINITION. Bitwise instructions, shifts and bit fields (R116, R118, R119).
-/
namespace Sys2Proof.Machine

/-- The width of a W bit (R118). -/
def wbits (w : Bool) : Nat := if w then 64 else 32

/-- A bitwise instruction of two sources of W bits (R118). -/
def State.bits2 (s : State) (h : Hd) (m : Option LaneMod) (d a b : Nat) (w : Bool) (op : Nat → Nat → Nat) : State :=
  s.compute h .short (dests w d) [] fun s u => { regs := putNum w d (op (s.numA m u w a) (s.numB m u w b)) }

/-- A shift of W bits by a register of 32 bits (R118). -/
def State.shift (s : State) (h : Hd) (m : Option LaneMod) (d a b : Nat) (w : Bool) (op : Nat → Nat → Nat) : State :=
  s.compute h .short (dests w d) [] fun s u => { regs := putNum w d (op (s.numA m u w a) (s.numB m u false b)) }

/-- One source of W bits (R118). -/
def State.bits1 (s : State) (h : Hd) (m : Option LaneMod) (d a : Nat) (w wideDest : Bool) (op : Nat → Nat) : State :=
  s.compute h .short (dests wideDest d) [] fun s u => { regs := putNum wideDest d (op (s.numA m u w a)) }

/-- A register and an immediate (R116). -/
def State.bitsImm (s : State) (h : Hd) (d a : Nat) (op : Nat → Nat) : State :=
  s.compute h .short [d] [] fun s u => { regs := putNum false d (op (s.num u false a)) }

/-- The shifts on `w` bits (R118). -/
def shlBits (w a n : Nat) : Nat := if w ≤ n then 0 else a * 2 ^ n % 2 ^ w
def shrBits (w a n : Nat) : Nat := if w ≤ n then 0 else a / 2 ^ n
def sarBits (w a n : Nat) : Nat := wrapNat w (Int.fdiv (signedOf w a) ((2 ^ min n (w - 1) : Nat) : Int))
def rolBits (w a n : Nat) : Nat :=
  let k := n % w
  (a * 2 ^ k + a / 2 ^ (w - k)) % 2 ^ w

/-- The count of one bits among the low `n`. -/
def popBits (a : Nat) : Nat → Nat
  | 0 => 0
  | n + 1 => a % 2 + popBits (a / 2) n
def clzBits (w a : Nat) : Nat := if a == 0 then w else w - 1 - Nat.log2 a
/-- The low `n` bits in reverse order. -/
def revBits (a : Nat) : Nat → Nat
  | 0 => 0
  | n + 1 => a % 2 * 2 ^ n + revBits (a / 2) n

/-- Position and length of a bit field, clamped to `w` bits (R119). -/
def fieldPos (w b : Nat) : Nat := min (fld b 0 8) w
def fieldLen (w b : Nat) : Nat := min (fld b 8 8) (w - fieldPos w b)
def bfeInt (w : Nat) (signed : Bool) (a b : Nat) : Int :=
  let len := fieldLen w b
  let f := a / 2 ^ fieldPos w b % 2 ^ len
  if len == 0 then 0 else if signed then signedOf len f else (f : Int)
def bfiBits (w a b c : Nat) : Nat :=
  let pos := fieldPos w b
  let mask := (2 ^ fieldLen w b - 1) * 2 ^ pos
  Nat.lor (Nat.land c (2 ^ w - 1 - mask)) (Nat.land (a * 2 ^ pos) mask)

/-- AND with an immediate (R116). -/
def execAndImm (h : Hd) (d a : Nat) (imm : Int) (s : State) :
    Host.Outcome State Fault Refusal :=
  .next (s.bitsImm h d a fun x => Nat.land x (wrapNat 32 imm))

/-- OR with an immediate (R116). -/
def execOrImm (h : Hd) (d a : Nat) (imm : Int) (s : State) :
    Host.Outcome State Fault Refusal :=
  .next (s.bitsImm h d a fun x => Nat.lor x (wrapNat 32 imm))

/-- XOR with an immediate (R116). -/
def execXorImm (h : Hd) (d a : Nat) (imm : Int) (s : State) :
    Host.Outcome State Fault Refusal :=
  .next (s.bitsImm h d a fun x => Nat.xor x (wrapNat 32 imm))

/-- SHL with an immediate (R116, R118). -/
def execShlImm (h : Hd) (d a n : Nat) (s : State) :
    Host.Outcome State Fault Refusal :=
  .next (s.bitsImm h d a fun x => shlBits 32 x n)

/-- SHR with an immediate (R116, R118). -/
def execShrImm (h : Hd) (d a n : Nat) (s : State) :
    Host.Outcome State Fault Refusal :=
  .next (s.bitsImm h d a fun x => shrBits 32 x n)

/-- SAR with an immediate (R116, R118). -/
def execSarImm (h : Hd) (d a n : Nat) (s : State) :
    Host.Outcome State Fault Refusal :=
  .next (s.bitsImm h d a fun x => sarBits 32 x n)

/-- AND (R118). -/
def execAnd (h : Hd) (m : Option LaneMod) (d a b : Nat) (w : Bool) (s : State) :
    Host.Outcome State Fault Refusal :=
  .next (s.bits2 h m d a b w Nat.land)

/-- OR (R118). -/
def execOr (h : Hd) (m : Option LaneMod) (d a b : Nat) (w : Bool) (s : State) :
    Host.Outcome State Fault Refusal :=
  .next (s.bits2 h m d a b w Nat.lor)

/-- XOR (R118). -/
def execXor (h : Hd) (m : Option LaneMod) (d a b : Nat) (w : Bool) (s : State) :
    Host.Outcome State Fault Refusal :=
  .next (s.bits2 h m d a b w Nat.xor)

/-- ANDN (R118). -/
def execAndn (h : Hd) (m : Option LaneMod) (d a b : Nat) (w : Bool) (s : State) :
    Host.Outcome State Fault Refusal :=
  .next (s.bits2 h m d a b w fun x y => Nat.land x (2 ^ 64 - 1 - y))

/-- NOT (R118). -/
def execNot (h : Hd) (m : Option LaneMod) (d a : Nat) (w : Bool) (s : State) :
    Host.Outcome State Fault Refusal :=
  .next (s.bits1 h m d a w w fun x => 2 ^ wbits w - 1 - x)

/-- SHL (R118). -/
def execShl (h : Hd) (m : Option LaneMod) (d a b : Nat) (w : Bool) (s : State) :
    Host.Outcome State Fault Refusal :=
  .next (s.shift h m d a b w (shlBits (wbits w)))

/-- SHR (R118). -/
def execShr (h : Hd) (m : Option LaneMod) (d a b : Nat) (w : Bool) (s : State) :
    Host.Outcome State Fault Refusal :=
  .next (s.shift h m d a b w (shrBits (wbits w)))

/-- SAR (R118). -/
def execSar (h : Hd) (m : Option LaneMod) (d a b : Nat) (w : Bool) (s : State) :
    Host.Outcome State Fault Refusal :=
  .next (s.shift h m d a b w (sarBits (wbits w)))

/-- ROL (R118). -/
def execRol (h : Hd) (m : Option LaneMod) (d a b : Nat) (w : Bool) (s : State) :
    Host.Outcome State Fault Refusal :=
  .next (s.shift h m d a b w (rolBits (wbits w)))

/-- POPC (R118). -/
def execPopc (h : Hd) (m : Option LaneMod) (d a : Nat) (w : Bool) (s : State) :
    Host.Outcome State Fault Refusal :=
  .next (s.bits1 h m d a w false fun x => popBits x (wbits w))

/-- CLZ (R118). -/
def execClz (h : Hd) (m : Option LaneMod) (d a : Nat) (w : Bool) (s : State) :
    Host.Outcome State Fault Refusal :=
  .next (s.bits1 h m d a w false (clzBits (wbits w)))

/-- BREV (R118). -/
def execBrev (h : Hd) (m : Option LaneMod) (d a : Nat) (w : Bool) (s : State) :
    Host.Outcome State Fault Refusal :=
  .next (s.bits1 h m d a w w fun x => revBits x (wbits w))

/-- BFE (R119). -/
def execBfe (h : Hd) (m : Option LaneMod) (d a b : Nat) (t : IT) (s : State) :
    Host.Outcome State Fault Refusal :=
  .next (s.compute h .short (dests t.wide d) [] fun s u =>
    { regs := putNum t.wide d (t.result false (bfeInt t.width t.signed (s.numA m u t.wide a) (s.numB m u false b))) })

/-- BFI (R119). -/
def execBfi (h : Hd) (m : Option LaneMod) (d a b c : Nat) (w : Bool) (s : State) :
    Host.Outcome State Fault Refusal :=
  .next (s.compute h .short (dests w d) [] fun s u =>
    { regs := putNum w d (bfiBits (wbits w) (s.numA m u w a) (s.numB m u false b) (s.num u w c)) })


end Sys2Proof.Machine
end

