-- ==== Sys2Proof/Machine/Dual.lean ====
section
/-!
DEFINITION. The dual word (R55 to R58, R74).
-/
namespace Sys2Proof

/-- The 32-bit integer type of a half. -/
def halfType (u : Bool) : IT := if u then .z32 else .s32

/-- An integer operation of a half on the exact values (R112). -/
def halfInt (u sat : Bool) (op : Int → Int → Int) (a b : Nat) : Nat :=
  (halfType u).result sat (op ((halfType u).read a) ((halfType u).read b))

namespace Machine

/-- The result of a half that makes no access, from v(DST) and v(SRC) (R74, R110). -/
def HalfOp.value (o : HalfOp) (a b : Nat) : Nat :=
  match o with
  | .iadd sat u => halfInt u sat (fun x y => x + y) a b
  | .isub sat u => halfInt u sat (fun x y => x - y) a b
  | .imin u => halfInt u false (fun x y => min x y) a b
  | .imax u => halfInt u false (fun x y => max x y) a b
  | .imul u => halfInt u false (fun x y => x * y) a b
  | .and => Nat.land a b
  | .or => Nat.lor a b
  | .xor => Nat.xor a b
  | .andn => Nat.land a (2 ^ 32 - 1 - b)
  | .shl => shlBits 32 a b
  | .shr => shrBits 32 a b
  | .sar => sarBits 32 a b
  | .mov => b
  | .fadd r => fmt32.addBits r a b
  | .fmul r => fmt32.mulBits r a b
  | .fmin => fmt32.pick false a b
  | .fmax => fmt32.pick true a b
  | .hadd2 r => halves2 (fmt16.addBits r) a b
  | .hmul2 r => halves2 (fmt16.mulBits r) a b
  | .nop | .ld _ | .st _ | .lds _ | .sts _ => 0

/-- The halves of a dual word that are active on a thread, each with its number (R56). -/
def State.halvesOn (s : State) (h1 h2 : Half) (t : TId) : List (Nat × Half) :=
  [(1, h1), (2, h2)].filter fun e => (s.thread t).pred e.2.pred

/-- The access of the memory half `k` of a thread (R74). -/
def State.halfAccess (s : State) (t : TId) (k : Nat) (h : Half) : Option Access :=
  let acc (scratch : Bool) (addr : DWord) (mt : MT) (kind : AccKind) : Option Access :=
    some (s.memAccess t scratch addr mt.bytes kind .thread false false k)
  match h.op with
  | .ld mt => acc false (s.rd64 t h.src) mt (loadKind h.dst mt)
  | .lds mt => acc true (BitVec.ofNat 64 (s.rd t h.src).toNat) mt (loadKind h.dst mt)
  | .st mt => acc false (s.rd64 t h.dst) mt (.store (s.storeData t h.src mt))
  | .sts mt => acc true (BitVec.ofNat 64 (s.rd t h.dst).toNat) mt (.store (s.storeData t h.src mt))
  | _ => none

/-- The access of the memory half that is active on a thread. -/
def State.dualAccess (s : State) (h1 h2 : Half) (t : TId) : Option Access :=
  (s.halvesOn h1 h2 t).findSome? fun (k, h) => s.halfAccess t k h

/-- What a half that makes no access gives a thread. -/
def State.halfOut (s : State) (t : TId) (h : Half) : List (Nat × Word) :=
  if h.writes.isEmpty || h.isMem then []
  else [(h.dst, BitVec.ofNat 32 (HalfOp.value h.op (s.rd t h.dst).toNat (s.rd t h.src).toNat))]

/-- The issue of a dual word: a thread of which an active half writes the destination of an open window traps (R51). -/
def State.beginDual (s : State) (h1 h2 : Half) : State :=
  s.cur.threads.foldl
    (fun s t =>
      match (s.halvesOn h1 h2 t).findSome? fun (k, h) => ((s.thread t).conflict h.writes []).map fun c => (k, c) with
      | some (k, x, r) => s.raise t (.general .lookahead (half := k) (reg := r) (iaddr := x.pc.toNat)) s.cur.pc
      | none => s.stepThread [] [] false t) s

/-- A long-latency half of a thread that makes no access opens its window. -/
def State.longHalf (s z : State) (t : TId) (k : Nat) (h : Half) : State :=
  if h.op.timing.2.long && !h.isMem then
    z.openWindow k 0 (some (s.cycle + 4)) t h.writes [] { regs := s.halfOut t h }
  else z

/-- What the other half gives a thread whose access has to wait. -/
def State.restOf (s : State) (h1 h2 : Half) (t : TId) : Option Rest :=
  ((s.halvesOn h1 h2 t).find? fun e => !e.2.isMem && !e.2.writes.isEmpty).map fun (k, h) =>
    { half := k, long := h.op.timing.2.long, regs := s.halfOut t h }

/-- The access of a thread and its long-latency half, in the order of the halves. When the access traps, neither half has an
effect (R58); when it has to wait, it is kept with its operands and with what the other half gives, which is executed when the
access passes its checks (R281, R434, R445). `s` is the state before the instruction. -/
def State.dualThread (s : State) (h1 h2 : Half) (ready : Nat) (z : State) (t : TId) : State :=
  match s.dualAccess h1 h2 t with
  | none => (s.halvesOn h1 h2 t).foldl (fun z (k, h) => s.longHalf z t k h) z
  | some a =>
    let z := z.meetAccess t a
    match z.judge t a with
    | .trap tr => z.raise t tr a.pc
    | .page _ _ | .wait _ => z.accessOne 0 ready t { a with rest := s.restOf h1 h2 t }
    | .go _ =>
      (s.halvesOn h1 h2 t).foldl (fun z (k, h) => if h.isMem then z.accessOne 0 ready t a else s.longHalf z t k h) z

/-- A thread whose memory half waits with what the other half gives. -/
def Thread.defers (th : Thread) (pc : DWord) : Bool :=
  let waits (a : Access) : Bool := a.pc == pc && a.rest.isSome
  (th.pend.map waits).getD false || th.windows.any fun x => (x.pend.map waits).getD false

/-- A SHAPE trap of a half: the thread, the half, the register. -/
structure HalfShape where
  t    : TId
  half : Nat
  reg  : Nat
  deriving DecidableEq, Repr, Inhabited

/-- Performs both halves on the threads that none of `bad` names, while the due results of `cs` are tested with them (R266). A
short-latency half whose result fails the test raises SHAPE in every thread on which it is active, and then neither half has an
effect there (R58): the others are performed anew without those threads, and without the due results that have failed, which
`out` holds. `s` is the state before the instruction, `s1` that after its issue. -/
def State.dualRun (s s1 : State) (h1 h2 : Half) (ready : Nat) :
    Nat → List HalfShape → List Commit → List (Commit × Nat) → State
  | 0, _, _, _ => s1
  | fuel + 1, bad, cs, out =>
    let ts := laneOrder (s.cur.threads.filter fun t => !s1.trapped t && !(bad.any fun b => b.t == t))
    let z := ts.foldl (s.dualThread h1 h2 ready) s1
    let live := ts.filter fun t => !z.trapped t && !(z.thread t).defers s.cur.pc
    let short (t : TId) : List (Nat × Half) := (s.halvesOn h1 h2 t).filter fun e => !e.2.op.timing.2.long
    let outs := live.map fun t => (t, (short t).flatMap fun e => s.halfOut t e.2)
    let ps := outs.flatMap fun (t, o) => z.puts t o
    let (fails, new) := z.testUnion ps cs
    let shapes := live.filterMap fun t =>
      (short t).findSome? fun (k, h) =>
        (h.writes.find? fun r => fails.any fun f => f.2 == r && ps.any fun p => (p.w, p.reg) == f).map fun r => (⟨t, k, r⟩ : HalfShape)
    if new.isEmpty && shapes.isEmpty then
      let z := outs.foldl (fun z (t, o) => z.putThread t o) ((z.noteFailed out).putAll ps)
      bad.foldl (fun z b => z.raise b.t (.general .shape (half := b.half) (reg := b.reg)) s.cur.pc) z
    else State.dualRun s s1 h1 h2 ready fuel (bad ++ shapes) (without cs new) (out ++ new)

/-- The due results with which the halves are tested (R266): where one has a register that a half of short latency may write. -/
def State.dualRivals (s s1 : State) (h1 h2 : Half) : List Commit :=
  s1.rivals (s.cur.threads.flatMap fun t =>
    s1.puts t (((s.halvesOn h1 h2 t).filter fun e => !e.2.op.timing.2.long).flatMap fun e => s.halfOut t e.2))

/-- DUAL_WORD (R55 to R58). -/
def execDualWord (h1 h2 : Half) (s : State) : Host.Outcome State Fault Refusal :=
  let needs := s.cur.threads.filter fun t => ((s.dualAccess h1 h2 t).map (s.isOrdered t)).getD false
  let s := s.gate needs false
  let s1 := s.beginDual h1 h2
  let lat := if h1.isMem then h1.op.timing.2 else if h2.isMem then h2.op.timing.2 else .short
  let (n, s1) := s1.latency lat
  let cs := s.dualRivals s1 h1 h2
  .next ((s.dualRun s1 h1 h2 (s.cycle + n) (s.cur.threads.length + cs.length + 2) [] cs []).settle false)

end Machine

end Sys2Proof
end

