-- ==== Sys2Proof/Machine/Jpeg.lean ====
section
/-!
DEFINITION. The streams of DECJPEG (R374, R375): markers and segments, Huffman codes, the exact inverse transform, and
the samples of a page. The stream format is that of ISO/IEC 10918-1, which R374 names (log 20).
-/
namespace Sys2Proof.Machine

/-- Why a stream is not decoded: outside the subset, or not decodable, with the byte offset and, for T.6, the row (R366). -/
inductive StreamErr where
  | unsupported (off : Nat)
  | corrupt (row off : Nat)
  deriving DecidableEq, Repr, Inhabited

/-- A page of pixels: width, height, components, and the value at (x, y) of a component. -/
structure Page where
  w   : Nat
  h   : Nat
  c   : Nat
  pix : Nat → Nat → Nat → Nat

/-- Bytes that remain, with the offset of the first. -/
structure Src where
  at_ : Nat
  bs  : List Byte
  deriving DecidableEq, Repr

def Src.skip (s : Src) (n : Nat) : Src := ⟨s.at_ + n, s.bs.drop n⟩
def Src.u8 (s : Src) (n : Nat) : Nat := (s.bs.getD n 0).toNat
def Src.u16 (s : Src) (n : Nat) : Nat := s.u8 n * 256 + s.u8 (n + 1)

/-! Huffman codes -/

/-- A code: its length, its bits, its symbol. -/
abbrev Huff := List (Nat × Nat × Nat)

/-- The codes by length, in the order of the symbols; none when they do not fit. -/
def huffFrom : Nat → Nat → List Nat → List Nat → Option Huff
  | _, _, [], _ => some []
  | len, code, n :: ns, vals =>
    if 2 ^ len < code + n || vals.length < n then none
    else
      (huffFrom (len + 1) (2 * (code + n)) ns (vals.drop n)).map fun t =>
        ((List.range n).map fun i => (len, code + i, vals.getD i 0)) ++ t

def huffTable (counts vals : List Nat) : Option Huff := huffFrom 1 0 counts vals

/-- The bits of an entropy-coded segment: bytes with their offsets, and the bits of the first that are used; `stop` is the
offset of what follows. -/
structure Bits where
  bytes : List (Nat × Nat)
  used  : Nat
  stop  : Nat
  deriving DecidableEq, Repr

def Bits.pos (b : Bits) : Nat := (b.bytes.head?.map (·.1)).getD b.stop

def Bits.next (b : Bits) : Option (Nat × Bits) :=
  match b.bytes with
  | [] => none
  | (_, x) :: rest =>
    let v := x / 2 ^ (7 - b.used) % 2
    some (v, if b.used == 7 then { b with bytes := rest, used := 0 } else { b with used := b.used + 1 })

/-- `n` bits, the first the highest. -/
def Bits.take : Nat → Nat → Bits → Option (Nat × Bits)
  | 0, acc, b => some (acc, b)
  | n + 1, acc, b =>
    match b.next with
    | none => none
    | some (v, b) => Bits.take n (2 * acc + v) b

/-- A symbol by a table. -/
def Bits.sym (t : Huff) : Nat → Nat → Nat → Bits → Option (Nat × Bits)
  | 0, _, _, _ => none
  | fuel + 1, len, code, b =>
    match b.next with
    | none => none
    | some (v, b) =>
      let code := 2 * code + v
      match t.find? fun e => e.1 == len && e.2.1 == code with
      | some e => some (e.2.2, b)
      | none => Bits.sym t fuel (len + 1) code b

def Bits.symbol (b : Bits) (t : Huff) : Option (Nat × Bits) := b.sym t 16 1 0

/-- A signed value of a category. -/
def jpegExtend (v t : Nat) : Int := if t != 0 && v < 2 ^ (t - 1) then (v : Int) - 2 ^ t + 1 else v

/-- The AC coefficients of a block from index `k` on, as (index, value). -/
def jpegAc (t : Huff) : Nat → Nat → Bits → Option (List (Nat × Int) × Bits)
  | 0, _, b => some ([], b)
  | fuel + 1, k, b =>
    if 64 ≤ k then some ([], b)
    else
      match b.symbol t with
      | none => none
      | some (rs, b) =>
        let r := rs / 16
        let n := rs % 16
        if n == 0 then (if r == 0 then some ([], b) else if r == 15 then (if 64 ≤ k + 15 then none else jpegAc t fuel (k + 16) b) else none)
        else if 10 < n || 64 ≤ k + r then none
        else
          match b.take n 0 with
          | none => none
          | some (v, b) => (jpegAc t fuel (k + r + 1) b).map fun (cs, b) => ((k + r, jpegExtend v n) :: cs, b)

/-- A block: its DC value, its AC coefficients. -/
def jpegBlock (dc ac : Huff) (pred : Int) (b : Bits) : Option (Int × List (Nat × Int) × Bits) :=
  match b.symbol dc with
  | none => none
  | some (n, b) =>
    if 11 < n then none
    else
      match b.take n 0 with
      | none => none
      | some (v, b) =>
        let d := pred + jpegExtend v n
        (jpegAc ac 64 1 b).map fun (cs, b) => (d, cs, b)

/-! The inverse transform (R375) -/

/-- The natural place of zigzag index `k`, as 8 * row + column. -/
def zigzag : List Nat :=
  [0, 1, 8, 16, 9, 2, 3, 10, 17, 24, 32, 25, 18, 11, 4, 5, 12, 19, 26, 33, 40, 48, 41, 34, 27, 20, 13, 6, 7, 14, 21, 28, 35,
    42, 49, 56, 57, 50, 43, 36, 29, 22, 15, 23, 30, 37, 44, 51, 58, 59, 52, 45, 38, 31, 39, 46, 53, 60, 61, 54, 47, 55, 62, 63]

/-- floor (cos (k π / 16) 2^512) for k from 1 to 7. -/
def cosTable : List Nat :=
  [0xfb14be7fbae581562172a361fd2a722ec5f40e3fd8f18ae1b1997321b48e8b1b947a5373353c45a48d5b15eaa58368eeaad7ae31c0ebddc08255136ae6a20ffb,
    0xec835e79946a31457e610231ac1d6180f0a83d3cd0dae9b5db897c2384083746a6340cb65c4b11d5b1ec03e9739998c8d8c97a34ea8113245cf9e6da96d39959,
    0xd4db3148750d1819f630e8b6dac83e68b4691d2f99ec9eaaac08e58a7cd395443f46de4fbafdc08bc63df891efb87d5ba56cf9a8e223dc1023e02bda7b6ec1e7,
    0xb504f333f9de6484597d89b3754abe9f1d6f60ba893ba84ced17ac85833399154afc83043ab8a2c3a8b1fe6fdc83db390f74a85e439c7b4a780487363dfa2768,
    0x8e39d9cd73464364bba4cfecbff548677ca7d749adfba33eca996068c296fd797f9152cba72ae50cdf93eac8ec561d40eb7664f126ca8e14df8074293a2da499,
    0x61f78a9abaa58b4698916152cf7eee1bbdf1f5b4ab3de24c3a3c159062718f716d12d59bba9c48817b8a103264edaf263501a3abe3508e699dc79a6a2282b0ba,
    0x31f17078d34c156c9732300393f33613f394e58d12972f1d39438767895414c1a28fbdbe7eb1987e24859793181c371817e3a9504e35212b9f83c1d478b49797]

/-- cos (k π / 16) as a sign and one of the basis 0 to 8, the last of which is 0. -/
def cosBasis (k : Nat) : Int × Nat :=
  let k := k % 32
  if k ≤ 8 then (1, k) else if k ≤ 16 then (-1, 16 - k) else if k ≤ 24 then (-1, k - 16) else (1, 32 - k)

/-- The factor of frequency u at place x is cos (cosArg u x π / 16), C(u) with it. -/
def cosArg (u x : Nat) : Nat := if u == 0 then 4 else (2 * x + 1) * u

/-- Eight times the sum at (x, y), as integers over the basis. -/
def idctBasis (cs : List (Nat × Int)) (x y : Nat) : List Int :=
  let terms := cs.flatMap fun (p, F) =>
    let a := cosArg (p % 8) x
    let b := cosArg (p / 8) y
    [(cosBasis (a + b), F), (cosBasis (max a b - min a b), F)]
  (List.range 8).map fun n => terms.foldl (fun m t => if t.1.2 == n then m + t.1.1 * t.2 else m) 0

/-- A sample: the exact sum plus 128, rounded to nearest with ties upwards, and clamped (R375). The basis numbers 1 and
cos (k π / 16), k = 1 to 7, are independent over the rationals, and a sum of them with coefficients below 2^42 that is not
zero is above 2^-294: so 512 bits of the cosines decide the rounding. -/
def idctSample (cs : List (Nat × Int)) (x y : Nat) : Nat :=
  let ns := idctBasis cs x y
  let s := (List.zipWith (fun (n : Int) (c : Nat) => n * (c : Int)) ns.tail cosTable).foldl (· + ·) 0
  let v := ((ns.headD 0 + 1028) * 2 ^ 512 + s).fdiv (2 ^ 515)
  (max 0 (min 255 v)).toNat

/-- The samples of a block of coefficients in zigzag order, dequantised. -/
def idctBlock (q : List Nat) (cs : List (Nat × Int)) : List Nat :=
  let cs := (cs.filter fun c => c.2 != 0).map fun (k, v) => (zigzag.getD k 0, v * (q.getD k 0 : Int))
  (List.range 64).map fun i => idctSample cs (i % 8) (i / 8)

/-! Frames and scans -/

structure JComp where
  id : Nat
  h  : Nat
  v  : Nat
  tq : Nat
  deriving DecidableEq, Repr, Inhabited

structure JFrame where
  w  : Nat
  h  : Nat
  cs : List JComp
  deriving DecidableEq, Repr, Inhabited

def JFrame.hmax (f : JFrame) : Nat := (f.cs.headD default).h
def JFrame.vmax (f : JFrame) : Nat := (f.cs.headD default).v

/-- The blocks of a component in coded order: in an interleaved scan by units of h × v blocks, `bw` units to a row. -/
structure JPlane where
  h  : Nat
  v  : Nat
  bw : Nat
  blocks : List (List Nat)
  deriving DecidableEq, Repr, Inhabited

/-- The sample at (x, y) of a component. -/
def JPlane.sample (p : JPlane) (x y : Nat) : Nat :=
  let bx := x / 8
  let by_ := y / 8
  let n := (by_ / p.v * p.bw + bx / p.h) * (p.h * p.v) + by_ % p.v * p.h + bx % p.h
  (p.blocks.getD n []).getD (y % 8 * 8 + x % 8) 0

/-- What the segments so far have given. -/
structure Jpeg where
  qt  : Tab (List Nat) := []
  dc  : Tab Huff := []
  ac  : Tab Huff := []
  dri : Nat := 0
  frame : Option JFrame := none
  planes : Tab JPlane := []
  deriving DecidableEq, Repr

abbrev Stream (α : Type) := Except StreamErr α

/-- The bytes of an entropy-coded segment up to the next marker, stuffing removed. -/
def entropy : Nat → Src → Stream (List (Nat × Nat) × Src)
  | 0, s => .error (.corrupt 0 s.at_)
  | fuel + 1, s =>
    match s.bs with
    | [] => .error (.corrupt 0 s.at_)
    | b :: rest =>
      if b != 0xFF then (entropy fuel (s.skip 1)).map fun (bs, r) => ((s.at_, b.toNat) :: bs, r)
      else
        match rest with
        | [] => .error (.corrupt 0 (s.at_ + 1))
        | c :: _ =>
          if c == 0 then (entropy fuel (s.skip 2)).map fun (bs, r) => ((s.at_, 255) :: bs, r)
          else if c == 0xFF then entropy fuel (s.skip 1)
          else .ok ([], s)

/-- A component of a scan: its number in the frame, its tables, its quantiser, blocks per unit. -/
structure ScanComp where
  n  : Nat
  dc : Huff
  ac : Huff
  q  : List Nat
  blocks : Nat
  deriving DecidableEq, Repr

/-- One block of each of a component's places in a unit. -/
def scanBlocks (c : ScanComp) : Nat → Int → Bits → Stream (Int × List (List Nat) × Bits)
  | 0, pred, b => .ok (pred, [], b)
  | n + 1, pred, b =>
    match jpegBlock c.dc c.ac pred b with
    | none => .error (.corrupt 0 b.pos)
    | some (d, cs, b) => (scanBlocks c n d b).map fun (p, bl, b) => (p, idctBlock c.q ((0, d) :: cs) :: bl, b)

/-- One unit: the blocks of each component, with the predictions. -/
def scanUnit : List ScanComp → List Int → Bits → Stream (List Int × List (List (List Nat)) × Bits)
  | [], _, b => .ok ([], [], b)
  | c :: cs, ps, b =>
    match scanBlocks c c.blocks (ps.headD 0) b with
    | .error e => .error e
    | .ok (p, bl, b) => (scanUnit cs ps.tail b).map fun (ps, bls, b) => (p :: ps, bl :: bls, b)

/-- `n` units of one restart interval, the blocks appended to those of each component. -/
def scanUnits (cs : List ScanComp) : Nat → List Int → List (List (List Nat)) → Bits → Stream (List (List (List Nat)) × Bits)
  | 0, _, acc, b => .ok (acc, b)
  | n + 1, ps, acc, b =>
    match scanUnit cs ps b with
    | .error e => .error e
    | .ok (ps, bls, b) => scanUnits cs n ps (List.zipWith (fun a x => a ++ x) acc bls) b

/-- The restart intervals of a scan of `total` units: `k` is the number of the interval. -/
def scanIntervals (cs : List ScanComp) (ri : Nat) : Nat → Nat → Nat → List (List (List Nat)) → Src →
    Stream (List (List (List Nat)) × Src)
  | 0, _, _, acc, s => .ok (acc, s)
  | fuel + 1, k, total, acc, s =>
    match entropy (s.bs.length + 1) s with
    | .error e => .error e
    | .ok (bytes, r) =>
      let n := if ri == 0 then total else min ri total
      match scanUnits cs n (cs.map fun _ => 0) acc ⟨bytes, 0, r.at_⟩ with
      | .error e => .error e
      | .ok (acc, b) =>
        let left := if b.used == 0 then b.bytes else b.bytes.tail
        if !left.isEmpty then .error (.corrupt 0 ((left.headD (0, 0)).1))
        else if total ≤ n then .ok (acc, r)
        else if r.u8 1 != 0xD0 + k % 8 then .error (.corrupt 0 r.at_)
        else scanIntervals cs ri fuel (k + 1) (total - n) acc (r.skip 2)

/-- A frame header (R374): `at_` is the offset of its marker. -/
def jpegFrame (s : Src) (at_ : Nat) : Stream JFrame :=
  let nf := s.u8 7
  let f : JFrame :=
    { h := s.u16 3, w := s.u16 5
      cs := (List.range nf).map fun i =>
        ⟨s.u8 (8 + 3 * i), s.u8 (9 + 3 * i) / 16, s.u8 (9 + 3 * i) % 16, s.u8 (10 + 3 * i)⟩ }
  let shape := f.cs.map fun c => (c.h, c.v)
  let luma := [(1, 1), (2, 1), (2, 2)].contains (shape.headD (0, 0))
  if s.u16 0 != 8 + 3 * nf then .error (.corrupt 0 at_)
  else if s.u8 2 != 8 || f.w == 0 || f.h == 0 || 16384 < f.w || 16384 < f.h || (nf != 1 && nf != 3) || !luma ||
      shape.tail.any (· != (1, 1)) then .error (.unsupported at_)
  else if f.cs.any fun c => 3 < c.tq then .error (.corrupt 0 at_)
  else .ok f

/-- Quantisation tables of a DQT segment's payload. -/
def jpegTables : Nat → Src → Tab (List Nat) → Stream (Tab (List Nat))
  | 0, _, t => .ok t
  | fuel + 1, s, t =>
    if s.bs.isEmpty then .ok t
    else if 16 ≤ s.u8 0 then .error (.unsupported s.at_)
    else if 3 < s.u8 0 || s.bs.length < 65 then .error (.corrupt 0 s.at_)
    else jpegTables fuel (s.skip 65) (t.put (s.u8 0) ((List.range 64).map fun i => s.u8 (1 + i)))

/-- Huffman tables of a DHT segment's payload: 0 and 1 of each class (R374). -/
def jpegHuffs : Nat → Src → Jpeg → Stream Jpeg
  | 0, _, j => .ok j
  | fuel + 1, s, j =>
    if s.bs.isEmpty then .ok j
    else
      let counts := (List.range 16).map fun i => s.u8 (1 + i)
      let n := counts.foldl (· + ·) 0
      if s.bs.length < 17 + n || 1 < s.u8 0 / 16 then .error (.corrupt 0 s.at_)
      else if 1 < s.u8 0 % 16 then .error (.unsupported s.at_)
      else
        match huffTable counts ((List.range n).map fun i => s.u8 (17 + i)) with
        | none => .error (.corrupt 0 s.at_)
        | some t =>
          jpegHuffs fuel (s.skip (17 + n))
            (if s.u8 0 / 16 == 0 then { j with dc := j.dc.put (s.u8 0 % 16) t } else { j with ac := j.ac.put (s.u8 0 % 16) t })

/-- The scan that starts at an SOS segment `s`, whose marker is at `at_`. -/
def jpegScan (j : Jpeg) (f : JFrame) (s : Src) (at_ : Nat) : Stream (Jpeg × Src) :=
  let ns := s.u8 2
  let ids := (List.range ns).map fun i => (s.u8 (3 + 2 * i), s.u8 (4 + 2 * i))
  let found := ids.filterMap fun (id, t) =>
    (((List.range f.cs.length).find? fun n => (f.cs.getD n default).id == id).map fun n => (n, t))
  let tail := (s.u8 (3 + 2 * ns), s.u8 (4 + 2 * ns), s.u8 (5 + 2 * ns))
  if s.u16 0 != 6 + 2 * ns then .error (.corrupt 0 at_)
  else if tail != (0, 63, 0) || (ns != 1 && ns != f.cs.length) then .error (.unsupported at_)
  else if found.length != ns || (found.map (·.1)).eraseDups.length != ns || found.any fun e => (j.planes.find? e.1).isSome then
    .error (.corrupt 0 at_)
  else
    let inter := ns != 1
    let comps := found.filterMap fun (n, t) =>
      let c := f.cs.getD n default
      match j.dc.find? (t / 16), j.ac.find? (t % 16), j.qt.find? c.tq with
      | some dc, some ac, some q => some (ScanComp.mk n dc ac q (if inter then c.h * c.v else 1))
      | _, _, _ => none
    if comps.length != ns then .error (.corrupt 0 at_)
    else
      let c0 := f.cs.getD ((found.headD (0, 0)).1) default
      let up (a b : Nat) : Nat := (a + b - 1) / b
      let bw := if inter then up f.w (8 * f.hmax) else up (up (f.w * c0.h) f.hmax) 8
      let bh := if inter then up f.h (8 * f.vmax) else up (up (f.h * c0.v) f.vmax) 8
      match scanIntervals comps j.dri (bw * bh + 1) 0 (bw * bh) (comps.map fun _ => []) (s.skip (6 + 2 * ns)) with
      | .error e => .error e
      | .ok (bls, r) =>
        .ok
          ({ j with
             planes := (List.zip comps bls).foldl
               (fun t (c, bl) =>
                 let k := f.cs.getD c.n default
                 t.put c.n (if inter then ⟨k.h, k.v, bw, bl⟩ else ⟨1, 1, bw, bl⟩)) j.planes }, r)

/-- Markers outside the subset (R374): SOF1 to SOF15, JPG, DAC, DNL, DHP and EXP. -/
def jpegOther (m : Nat) : Bool :=
  (0xC1 ≤ m && m ≤ 0xCF && m != 0xC4) || m == 0xDC || m == 0xDE || m == 0xDF

/-- The segments of a stream up to EOI. -/
def jpegSegments : Nat → Jpeg → Src → Stream (Jpeg × JFrame)
  | 0, _, s => .error (.corrupt 0 s.at_)
  | fuel + 1, j, s =>
    match s.bs with
    | [] => .error (.corrupt 0 s.at_)
    | b :: rest =>
      if b != 0xFF then .error (.corrupt 0 s.at_)
      else
        match rest with
        | [] => .error (.corrupt 0 (s.at_ + 1))
        | m :: _ =>
          let m := m.toNat
          let p := s.skip 2
          let len := p.u16 0
          let body : Src := ⟨p.at_ + 2, (p.bs.drop 2).take (len - 2)⟩
          let next := p.skip len
          if m == 0xFF then jpegSegments fuel j (s.skip 1)
          else if jpegOther m then .error (.unsupported s.at_)
          else if m == 0xD9 then
            match j.frame with
            | some f => if j.planes.length == f.cs.length then .ok (j, f) else .error (.corrupt 0 s.at_)
            | none => .error (.corrupt 0 s.at_)
          else if !([0xC0, 0xC4, 0xDA, 0xDB, 0xDD, 0xFE].contains m || (0xE0 ≤ m && m ≤ 0xEF)) then .error (.corrupt 0 s.at_)
          else if len < 2 then .error (.corrupt 0 s.at_)
          else if p.bs.length < len then .error (.corrupt 0 (s.at_ + s.bs.length))
          else if m == 0xC0 then
            if j.frame.isSome then .error (.corrupt 0 s.at_)
            else
              match jpegFrame p s.at_ with
              | .error e => .error e
              | .ok f => jpegSegments fuel { j with frame := some f } next
          else if m == 0xC4 then
            match jpegHuffs (body.bs.length + 1) body j with
            | .error e => .error e
            | .ok j => jpegSegments fuel j next
          else if m == 0xDB then
            match jpegTables (body.bs.length + 1) body j.qt with
            | .error e => .error e
            | .ok t => jpegSegments fuel { j with qt := t } next
          else if m == 0xDD then (if len != 4 then .error (.corrupt 0 s.at_) else jpegSegments fuel { j with dri := body.u16 0 } next)
          else if m == 0xDA then
            match j.frame with
            | none => .error (.corrupt 0 s.at_)
            | some f =>
              match jpegScan j f p s.at_ with
              | .error e => .error e
              | .ok (j, r) => jpegSegments fuel j r
          else jpegSegments fuel j next

/-- A converted pixel (R375): R, G or B from Y, Cb, Cr. -/
def jpegRgb (k y cb cr : Nat) : Nat :=
  let b : Int := (cb : Int) - 128
  let r : Int := (cr : Int) - 128
  let d : Int :=
    match k with
    | 0 => 91881 * r + 32768
    | 1 => -22554 * b - 46802 * r + 32768
    | _ => 116130 * b + 32768
  (max 0 (min 255 ((y : Int) + d.fdiv 65536))).toNat

/-- The page of a stream (R374, R375). -/
def jpegPage (bs : List Byte) (rgb : Bool) : Stream Page :=
  let s : Src := ⟨0, bs⟩
  if bs.length < 2 then .error (.corrupt 0 bs.length)
  else if s.u16 0 != 0xFFD8 then .error (.corrupt 0 0)
  else
    match jpegSegments (bs.length + 1) {} (s.skip 2) with
    | .error e => .error e
    | .ok (j, f) =>
      let n := f.cs.length
      let comp (k x y : Nat) : Nat :=
        let c := f.cs.getD k default
        (j.planes.get k default).sample (x * c.h / f.hmax) (y * c.v / f.vmax)
      .ok
        { w := f.w, h := f.h, c := n
          pix := fun x y k =>
            if rgb && n == 3 then jpegRgb k (comp 0 x y) (comp 1 x y) (comp 2 x y) else comp k x y }

end Sys2Proof.Machine
end

