-- ==== Sys2Proof/Machine/Fax.lean ====
section
/-!
DEFINITION. The streams of DECG4 (R376): ITU-T T.6 two-dimensional coding. The codes are those of T.6, which R376 names
(log 20).
-/
namespace Sys2Proof.Machine

/-! The run codes: each number is a 1 and then the bits of the code; entries 0 to 63 are terminating codes, 64 to 103 the
make-up codes of 64 to 2,560 -/

def whiteCodes : List Nat :=
  [309, 71, 23, 24, 27, 28, 30, 31, 51, 52, 39, 40, 72, 67, 116, 117, 106, 107, 167, 140, 136, 151, 131, 132, 168,
    171, 147, 164, 152, 258, 259, 282, 283, 274, 275, 276, 277, 278, 279, 296, 297, 298, 299, 300, 301, 260, 261, 266,
    267, 338, 339, 340, 341, 292, 293, 344, 345, 346, 347, 330, 331, 306, 307, 308, 59, 50, 87, 183, 310, 311, 356,
    357, 360, 359, 716, 717, 722, 723, 724, 725, 726, 727, 728, 729, 730, 731, 664, 665, 666, 88, 667, 2056, 2060,
    2061, 4114, 4115, 4116, 4117, 4118, 4119, 4124, 4125, 4126, 4127]

def blackCodes : List Nat :=
  [1079, 10, 7, 6, 11, 19, 18, 35, 69, 68, 132, 133, 135, 260, 263, 536, 1047, 1048, 1032, 2151, 2152, 2156, 2103,
    2088, 2071, 2072, 4298, 4299, 4300, 4301, 4200, 4201, 4202, 4203, 4306, 4307, 4308, 4309, 4310, 4311, 4204, 4205,
    4314, 4315, 4180, 4181, 4182, 4183, 4196, 4197, 4178, 4179, 4132, 4151, 4152, 4135, 4136, 4184, 4185, 4139, 4140,
    4186, 4198, 4199, 1039, 4296, 4297, 4187, 4147, 4148, 4149, 8300, 8301, 8266, 8267, 8268, 8269, 8306, 8307, 8308,
    8309, 8310, 8311, 8274, 8275, 8276, 8277, 8282, 8283, 8292, 8293, 2056, 2060, 2061, 4114, 4115, 4116, 4117, 4118,
    4119, 4124, 4125, 4126, 4127]

/-- The bits of a stream (R376): of each byte from the most significant end, or from the least. -/
def faxBits (lsb : Bool) (bs : List Byte) : List Bool :=
  bs.flatMap fun b => (List.range 8).map fun i => b.getLsbD (if lsb then i else 7 - i)

/-- What is left of a stream, with the place of its first bit. -/
structure FaxSrc where
  at_  : Nat
  bits : List Bool
  deriving DecidableEq, Repr

def FaxSrc.skip (s : FaxSrc) (n : Nat) : FaxSrc := ⟨s.at_ + n, s.bits.drop n⟩

/-- One run code of a colour: its run and the rest; none for an invalid code or at the end. -/
def faxCode (codes : List Nat) : Nat → Nat → FaxSrc → Option (Nat × FaxSrc)
  | 0, _, _ => none
  | fuel + 1, v, s =>
    match s.bits with
    | [] => none
    | b :: _ =>
      let v := 2 * v + (if b then 1 else 0)
      match codes.findIdx? (· == v) with
      | some i => some (if i < 64 then i else (i - 63) * 64, s.skip 1)
      | none => faxCode codes fuel v (s.skip 1)

/-- A run: make-up codes and a terminating code, up to `lim` pixels. -/
def faxRun (codes : List Nat) (lim : Nat) : Nat → Nat → FaxSrc → Option (Nat × FaxSrc)
  | 0, _, _ => none
  | fuel + 1, n, s =>
    match faxCode codes 13 1 s with
    | none => none
    | some (k, r) => if lim < n + k then none else if k < 64 then some (n + k, r) else faxRun codes lim fuel (n + k) r

/-- The modes of T.6. -/
inductive FaxMode where
  | pass | horiz
  | vert (d : Int)
  | extension
  | eofb
  deriving DecidableEq, Repr

def eofbBits : List Bool :=
  let h := List.replicate 11 false ++ [true]
  h ++ h

/-- The mode code at the start of a stream. -/
def faxMode (s : FaxSrc) : Option (FaxMode × FaxSrc) :=
  match s.bits with
  | true :: _ => some (.vert 0, s.skip 1)
  | false :: true :: true :: _ => some (.vert 1, s.skip 3)
  | false :: true :: false :: _ => some (.vert (-1), s.skip 3)
  | false :: false :: true :: _ => some (.horiz, s.skip 3)
  | false :: false :: false :: true :: _ => some (.pass, s.skip 4)
  | false :: false :: false :: false :: true :: true :: _ => some (.vert 2, s.skip 6)
  | false :: false :: false :: false :: true :: false :: _ => some (.vert (-2), s.skip 6)
  | false :: false :: false :: false :: false :: true :: true :: _ => some (.vert 3, s.skip 7)
  | false :: false :: false :: false :: false :: true :: false :: _ => some (.vert (-3), s.skip 7)
  | bs =>
    if bs.take 10 == [false, false, false, false, false, false, true, true, true, true] then some (.extension, s.skip 10)
    else if bs.take 24 == eofbBits then some (.eofb, s.skip 24)
    else none

/-- A row of pixels: the places at which the colour changes, from white. -/
abbrev FaxRow := List Nat

/-- The colour changes at `n`; a change at the place of the last one undoes it. -/
def FaxRow.turn (r : FaxRow) (n : Nat) : FaxRow := if r.getLast? == some n then r.dropLast else r ++ [n]

def FaxRow.black (r : FaxRow) (x : Nat) : Bool := (r.filter (· ≤ x)).length % 2 == 1

/-- b1 and b2: the first change of the reference row beyond a0 to the colour that is not a0's, and the next. -/
def FaxRow.ref (r : FaxRow) (w : Nat) (a0 : Int) (black : Bool) : Nat × Nat :=
  let n := r.length
  match (List.range n).find? fun k => a0 < (r.getD k 0 : Int) && (k % 2 == 1) == black with
  | some k => (r.getD k w, r.getD (k + 1) w)
  | none => (w, w)

/-- Decodes the rest of a row: `a0` the place, `black` the colour, `out` what there is. None ahead of EOFB. -/
def faxRow (w row : Nat) (prev : FaxRow) : Nat → Int → Bool → FaxRow → FaxSrc → Stream (Option FaxRow × FaxSrc)
  | 0, _, _, _, s => .error (.corrupt row (s.at_ / 8))
  | fuel + 1, a0, black, out, s =>
    let bad : Stream (Option FaxRow × FaxSrc) := .error (.corrupt row (s.at_ / 8))
    if a0 == w then .ok (some (out.filter (· < w)), s)
    else
      let (b1, b2) := prev.ref w a0 black
      match faxMode s with
      | none => bad
      | some (.extension, _) => .error (.unsupported (s.at_ / 8))
      | some (.eofb, r) => if a0 == -1 then .ok (none, r) else bad
      | some (.pass, r) => if b2 == w then bad else faxRow w row prev fuel b2 black out r
      | some (.vert d, r) =>
        let a1 := (b1 : Int) + d
        if a1 ≤ a0 || (w : Int) < a1 then bad else faxRow w row prev fuel a1 (!black) (out.turn a1.toNat) r
      | some (.horiz, r) =>
        let p := a0.toNat
        let codes (b : Bool) := if b then blackCodes else whiteCodes
        match faxRun (codes black) (w - p) (w + 1) 0 r with
        | none => bad
        | some (m, r) =>
          match faxRun (codes !black) (w - p - m) (w + 1) 0 r with
          | none => bad
          | some (n, r) => faxRow w row prev fuel (p + m + n : Nat) black ((out.turn (p + m)).turn (p + m + n)) r

/-- The rows of a page up to row `h` or EOFB. -/
def faxRows (w : Nat) : Nat → Nat → FaxRow → FaxSrc → Stream (List FaxRow)
  | 0, _, _, _ => .ok []
  | n + 1, row, prev, s =>
    match faxRow w row prev (w + 2) (-1) false [] s with
    | .error e => .error e
    | .ok (none, _) => .ok []
    | .ok (some r, s) => (faxRows w n (row + 1) r s).map fun rs => r :: rs

/-- The page of a T.6 stream (R376), and the rows that it has coded. -/
def faxPage (lsb : Bool) (w h : Nat) (bs : List Byte) : Stream (Page × Nat) :=
  (faxRows w h 0 [] ⟨0, faxBits lsb bs⟩).map fun rows =>
    ({ w := w, h := h, c := 1, pix := fun x y _ => if (rows.getD y []).black x then 0 else 255 }, rows.length)

end Sys2Proof.Machine
end

