-- ==== Sys2Proof/Machine/Decoder.lean ====
section
/-!
DEFINITION. The decode engine (R373 to R377): DECJPEG and DECG4, and the form of their output.
-/
namespace Sys2Proof.Machine

/-- The decode block (R373). -/
structure DecBlock where
  slen  : Nat
  w     : Nat
  h     : Nat
  patch : Bool
  ps    : Nat
  sc    : Nat
  opt   : Nat
  pmax  : Nat
  pad   : Byte
  pitch : Nat
  pos   : Nat
  deriving DecidableEq, Repr

def decBlock (bs : List Byte) : DecBlock :=
  { slen := bfld bs 0 4, w := bfld bs 4 2, h := bfld bs 6 2, patch := bfld bs 8 1 == 1, ps := bfld bs 9 1, sc := bfld bs 10 1
    opt := bfld bs 11 1, pmax := bfld bs 12 2, pad := bs.getD 14 0, pitch := bfld bs 16 4, pos := bfld bs 24 8 }

/-- OPT (R373): RGB, LSBFIRST, PACK1. -/
def DecBlock.rgb (b : DecBlock) : Bool := bitAt b.opt 0
def DecBlock.lsb (b : DecBlock) : Bool := bitAt b.opt 1
def DecBlock.pack1 (b : DecBlock) : Bool := bitAt b.opt 2

/-- The checks of the decode block, in ascending cause number. -/
def checkDec (jpeg : Bool) (c : QCmd) (bs : List Byte) : Eng Unit :=
  let b := decBlock bs
  let mode := bfld bs 8 1
  blockBad
    [(2, bfld bs 15 1 != 0 || bfld bs 20 4 != 0 || bfld bs 32 32 != 0 || b.opt / 8 != 0),
     (4, b.slen == 0 || 1 < mode || (if b.patch then b.ps != 14 && b.ps != 16 else b.ps != 0) || b.sc == 0 || 4 < b.sc ||
       b.pmax == 0),
     (4, if jpeg then b.w != 0 || b.h != 0 || b.lsb || b.pack1
         else b.w == 0 || 16384 < b.w || b.h == 0 || b.rgb || (b.pack1 && (b.patch || b.sc != 1))),
     (5, b.patch && b.pos % 4 != 0),
     (6, reachesWindow [(c.a0, b.slen)] || (b.patch && isAperture b.pos))]

/-- The box average of the block of `s` by `s` source pixels at output pixel (x, y) (R377). -/
def Page.box (p : Page) (s x y k : Nat) : Nat :=
  let xs := (List.range s).filterMap fun i => if s * x + i < p.w then some (s * x + i) else none
  let ys := (List.range s).filterMap fun j => if s * y + j < p.h then some (s * y + j) else none
  let n := xs.length * ys.length
  let sum := ys.foldl (fun a j => xs.foldl (fun a i => a + p.pix i j k) a) 0
  (sum + n / 2) / n

/-- The page at scale `s` (R377). -/
def Page.scaled (p : Page) (s : Nat) : Page :=
  { w := (p.w + s - 1) / s, h := (p.h + s - 1) / s, c := p.c, pix := p.box s }

/-- The bytes of one pixel, its components in order. -/
def Page.bytes (p : Page) (x y : Nat) : List Byte := (List.range p.c).map fun k => BitVec.ofNat 8 (p.pix x y k)

/-- A row of pixels, as bytes or packed (R376). -/
def Page.row (p : Page) (pack1 : Bool) (y : Nat) : List Byte :=
  if pack1 then
    (List.range ((p.w + 7) / 8)).map fun n =>
      BitVec.ofNat 8
        ((List.range 8).foldl (fun a i => 2 * a + (if 8 * n + i < p.w && p.pix (8 * n + i) y 0 == 0 then 1 else 0)) 0)
  else (List.range p.w).flatMap fun x => p.bytes x y

/-- A patch: `ps` by `ps` pixels with PAD beyond the page (R377). -/
def Page.patch (p : Page) (ps : Nat) (pad : Byte) (row col : Nat) : List Byte :=
  (List.range ps).flatMap fun j =>
    (List.range ps).flatMap fun i =>
      let x := col * ps + i
      let y := row * ps + j
      if x < p.w && y < p.h then p.bytes x y else List.replicate p.c pad

/-- The columns and the number of patches of a page at a scale. -/
def Page.patchCols (p : Page) (ps s : Nat) : Nat := ((p.w + s - 1) / s + ps - 1) / ps
def Page.patchCount (p : Page) (ps s : Nat) : Nat := p.patchCols ps s * (((p.h + s - 1) / s + ps - 1) / ps)

/-- The output of a decoded page (R377). -/
def decOutput (b : DecBlock) (dst : Nat) (p : Page) : Eng EngEnd :=
  let end_ (s patches : Nat) (ws : List EngWrite) : Eng EngEnd :=
    if ws.any fun w => isAperture w.1 || isAperture (w.1 + w.2.length - 1) then .error (.bad 6)
    else
      .ok
        { status := 1, count := ws.foldl (fun n w => n + w.2.length) 0
          info := p.w * 2 ^ 48 + p.h * 2 ^ 32 + (s - 1) * 2 ^ 30 + patches, writes := ws }
  if b.patch then
    match ((List.range b.sc).map (· + 1)).find? fun s => p.patchCount b.ps s ≤ b.pmax with
    | none => .error (.status 10 0)
    | some s =>
      let q := p.scaled s
      let cols := p.patchCols b.ps s
      let n := p.patchCount b.ps s
      let size := b.ps * b.ps * p.c
      end_ s n
        ((List.range n).flatMap fun i =>
          [(dst + i * size, q.patch b.ps b.pad (i / cols) (i % cols)),
           (b.pos + 4 * i, bytesOfWord 4 ((s - 1) * 2 ^ 30 + i / cols * 2 ^ 15 + i % cols))])
  else
    let q := p.scaled b.sc
    end_ b.sc 0 ((List.range q.h).map fun y => (dst + y * b.pitch, q.row b.pack1 y))

/-- The block of a decode and its stream. -/
def State.decStart (s : State) (jpeg : Bool) (c : QCmd) : Eng (DecBlock × List Byte) :=
  match s.cmdBlock c with
  | .error e => .error e
  | .ok bs =>
    match checkDec jpeg c bs with
    | .error e => .error e
    | .ok _ => (s.engRead c.issuer c.a0 (decBlock bs).slen).map fun st => (decBlock bs, st)

/-- How a stream that is not decoded ends its command (R366). -/
def StreamErr.eng : StreamErr → EngErr
  | .unsupported off => .status 4 off
  | .corrupt row off => .status 5 (row * 2 ^ 32 + off)

/-- DECJPEG (R374, R375). -/
def decjpegCmd (s : State) (c : QCmd) : Eng EngEnd :=
  match s.decStart true c with
  | .error e => .error e
  | .ok (b, st) =>
    match jpegPage st b.rgb with
    | .error e => .error e.eng
    | .ok p => decOutput b c.a1 p

/-- DECG4 (R376). -/
def decg4Cmd (s : State) (c : QCmd) : Eng EngEnd :=
  match s.decStart false c with
  | .error e => .error e
  | .ok (b, st) =>
    match faxPage b.lsb b.w b.h st with
    | .error e => .error e.eng
    | .ok (p, n) =>
      (decOutput b c.a1 p).map fun e => if n < b.h then { e with status := 2, flags := 32, detail := n } else e

/-- The ranges that a decode names: its block and its stream. -/
def decNames (s : State) (c : QCmd) : Ranges :=
  match s.cmdBlock c with
  | .error _ => [(c.p, 64)]
  | .ok bs => [(c.p, 64), (c.a0, (decBlock bs).slen)]

/-- DECJPEG (R374), and a command of the decode engine with an unknown OPC (R366). -/
def execDecjpeg (core q : Nat) (s : State) : Host.Outcome State Fault Refusal :=
  .next (s.runHead core q (fun c => c.engine == 2 && (c.opc == 1 || !c.known)) (fun c => [(6, isAperture c.a1)]) decNames
    decjpegCmd)

/-- DECG4 (R376). -/
def execDecg4 (core q : Nat) (s : State) : Host.Outcome State Fault Refusal :=
  .next (s.runHead core q (fun c => c.engine == 2 && c.opc == 2) (fun c => [(6, isAperture c.a1)]) decNames decg4Cmd)

end Sys2Proof.Machine
end

