-- ==== Sys2Proof/Machine/Fifo.lean ====
section
/-!
DEFINITION. The SRAM banks: BANKCFG (R274 to R276, R353), FIFO banks with FPUSH and FPOP (R283, R284, R352), and the lines
that land in the scratchpad (R280, R281).
-/
namespace Sys2Proof.Machine

def State.bank (s : State) (core bank : Nat) : Bank := (s.core core).banks.get bank {}
def State.modBank (s : State) (core bank : Nat) (f : Bank → Bank) : State :=
  s.modCore core fun c => { c with banks := c.banks.put bank (f (c.banks.get bank {})) }

/-- The physical bank of a logical bank of the workgroup of the bundle (R273); none at or above s + f. -/
def State.bankOf (s : State) (lb : Nat) : Option Nat := (s.wg (s.wave (s.cur.threads.headD default).w).wg).banks[lb]?

/-- A BANK_CONFIG trap (R276). -/
def bankTrap (cause lb : Nat) : Trap := .general .bankConfig (cause := cause) (reg := lb)

/-- Every partition tries its tile operations again. -/
def State.pumpAllTiles (s : State) : State := (s.parts.map (·.1)).foldl (fun s p => s.pumpTiles p) s

/-! FIFO -/

/-- The words of a push or of a pop of some threads. -/
def fifoNeed (wide : Bool) (ts : List TId) : Nat := (if wide then 2 else 1) * ts.length

/-- The words that threads push, in ascending lane order (R283). -/
def State.fifoWords (s : State) (a : Nat) (wide : Bool) (ts : List TId) : List Word :=
  ts.flatMap fun t => if wide then [s.rd t a, s.rd t (a + 1)] else [s.rd t a]

/-- The words that threads take from the front (R283). -/
def fifoOuts (d : Nat) (wide : Bool) : List TId → List Word → List (TId × Out)
  | [], _ => []
  | t :: ts, ws =>
    let n := if wide then 2 else 1
    (t, { regs := (List.range n).map fun i => (d + i, ws.getD i 0) }) :: fifoOuts d wide ts (ws.drop n)

/-- Threads that waited on a FIFO bank go on behind their instruction. -/
def State.passFifo (s : State) (w : FifoWait) : State :=
  w.threads.foldl
    (fun s t =>
      (s.modThread t fun th => { th with pc := w.pc + 8, windows := th.countWindows }).release t) s

/-- Threads that waited on a FIFO bank trap at their instruction. -/
def State.trapFifo (s : State) (w : FifoWait) (tr : Trap) : State := w.threads.foldl (fun s t => s.trapNow t tr w.pc) s

/-- A parked push or pop is performed (R283); a pop whose words do not fit the destination's shape is not (R352). -/
def State.runFifo (s : State) (core bank : Nat) (w : FifoWait) : State :=
  match w.push with
  | some ws => (s.modBank core bank fun b => { b with fifo := b.fifo ++ ws }).passFifo w
  | none =>
    let n := fifoNeed w.wide w.threads
    let outs := fifoOuts w.dest w.wide w.threads ((s.bank core bank).fifo.take n)
    let ps := outs.flatMap fun (t, o) => s.puts t o.regs
    match (putRegs ps).find? fun (v, r) => !s.fits ps v r with
    | some (_, r) => s.trapFifo w (.general .shape (reg := r))
    | none =>
      let s := outs.foldl (fun s (t, o) => s.putThread t o.regs) (s.putAll ps)
      (s.modBank core bank fun b => { b with fifo := b.fifo.drop n }).passFifo w

/-- Serves the parked pushes and pops of a FIFO bank while the first push has room or the first pop its words (R283,
R284). -/
def State.serveFifo : Nat → Nat → Nat → State → State
  | 0, _, _, s => s
  | fuel + 1, core, bank, s =>
    let b := s.bank core bank
    if b.switching.isSome || b.mode != .fifo then s
    else
      let push := (b.waits.find? (·.push.isSome)).filter fun w => b.fifo.length + (w.push.getD []).length ≤ 8192
      let pop := (b.waits.find? (·.push.isNone)).filter fun w => fifoNeed w.wide w.threads ≤ b.fifo.length
      match pop <|> push with
      | none => s
      | some w => State.serveFifo fuel core bank ((s.modBank core bank fun b => { b with waits := b.waits.erase w }).runFifo core bank w)

def State.serveBank (s : State) (core bank : Nat) : State := s.serveFifo ((s.bank core bank).waits.length + 1) core bank

/-- Why a push or a pop of a bundle parks (R275, R283): the bank switches, an earlier one of its side waits, or the bank has no
room or too few words. -/
def Bank.fifoParks (b : Bank) (push : Bool) (need : Nat) : Bool :=
  b.switching.isSome ||
    (b.mode == .fifo &&
      (b.waits.any (fun w => w.push.isSome == push) || (if push then 8192 < b.fifo.length + need else b.fifo.length < need)))

/-- FPUSH or FPOP of the bundle: `dr` the destinations; `act` performs it for the threads that take part. -/
def State.fifoOp (s : State) (h : Hd) (lb : Nat) (dr : List Nat) (mk : List TId → FifoWait)
    (act : Nat → State → List TId → State) : State :=
  let go := laneOrder ((s.active h).filter fun t => ((s.thread t).conflict dr []).isNone)
  if go.isEmpty then (s.begin h dr []).settle false
  else
    match s.bankOf lb with
    | none =>
      let s1 := s.begin h dr []
      (go.foldl (fun s t => s.raise t (bankTrap 1 lb) s.cur.pc) s1).settle false
    | some pb =>
      let w := mk go
      let need := match w.push with
        | some ws => ws.length
        | none => fifoNeed w.wide go
      let b := s.bank s.cur.core pb
      if b.fifoParks w.push.isSome need then
        let s1 := (s.cur.threads.filter fun t => !go.contains t).foldl (fun z t => z.stepThread dr [] ((s.active h).contains t) t) s
        let s1 := s1.modBank s.cur.core pb fun b => { b with waits := b.waits ++ [w] }
        (go.foldl
          (fun s t => (s.modThread t fun th => { th with st := .parked (.fifo s.cur.core pb) }).leaveBundle t) s1).settle false
      else if b.mode != .fifo then
        let s1 := s.begin h dr []
        (go.foldl (fun s t => s.raise t (bankTrap 2 lb) s.cur.pc) s1).settle false
      else ((act pb (s.begin h dr []) go).settle false).serveBank s.cur.core pb

/-- FPUSH (R283, R352). -/
def execFpush (h : Hd) (a bank : Nat) (w : Bool) (s : State) : Host.Outcome State Fault Refusal :=
  .next (s.fifoOp h bank []
    (fun ts => { bank := bank, threads := ts, push := some (s.fifoWords a w ts), dest := 0, wide := w, pc := s.cur.pc })
    fun pb z ts => z.modBank s.cur.core pb fun b => { b with fifo := b.fifo ++ s.fifoWords a w ts })

/-- FPOP (R283, R352): on a SHAPE trap the words stay in the bank. -/
def execFpop (h : Hd) (d bank : Nat) (w : Bool) (s : State) : Host.Outcome State Fault Refusal :=
  .next (s.fifoOp h bank (dests w d)
    (fun ts => { bank := bank, threads := ts, push := none, dest := d, wide := w, pc := s.cur.pc })
    fun pb z ts =>
      let n := fifoNeed w ts
      let z := z.writeNow 0 (fifoOuts d w ts ((s.bank s.cur.core pb).fifo.take n))
      if ts.any z.trapped then z else z.modBank s.cur.core pb fun b => { b with fifo := b.fifo.drop n })

/-! Switching -/

/-- A switch of a bank can be over: no copy is pending into it (R274). -/
def Bank.idle (b : Bank) : Bool := b.mode != .scratch || b.pend.all fun e => e.2 == 0

/-- The step that ends a switch, once the bank is idle. -/
def State.switchSoon (s : State) (core bank : Nat) : State :=
  if (s.bank core bank).switching.isSome && (s.bank core bank).idle then
    let (d, s) := s.takeDelay
    s.at (s.now + d) (.bankSwitchDone core bank)
  else s

/-- A switch begins (R274): the bundles parked on a FIFO that goes away raise BANK_CONFIG (R276). -/
def State.startSwitch (s : State) (core bank : Nat) (m : BankMode) : State :=
  let b := s.bank core bank
  if b.mode == m then s
  else
    let s := s.modBank core bank fun b => { b with switching := some m, waits := [] }
    let s := if b.mode == .cache then s.modCore core fun c => c.dropWays [bank] else s
    (b.waits.foldl (fun s w => s.trapFifo w (bankTrap 3 w.bank)) s).switchSoon core bank

/-- The threads that wait for a bank. -/
def State.bankWaiters (s : State) (core bank : Nat) : List TId :=
  s.parkedOn (· == .switching core bank) ++ (s.bank core bank).waits.flatMap (·.threads)

/-- BANKCFG (R274, R275, R353): once for the bundle. -/
def execBankcfg (h : Hd) (bank : Nat) (mode : BankMode) (s : State) : Host.Outcome State Fault Refusal :=
  let s1 := s.begin h [] []
  let act := s.acting s1 h
  .next (if act.isEmpty then s1.settle false
  else
    match s.bankOf bank with
    | none => (act.foldl (fun z t => z.raise t (bankTrap 1 bank) s.cur.pc) s1).settle false
    | some pb =>
      let core := s.cur.core
      (if (s.bank core pb).switching.isSome then
        s1.modBank core pb fun b => { b with later := b.later ++ [(mode, s.bankWaiters core pb)] }
      else s1.startSwitch core pb mode).settle false)

/-- What waited for a bank is performed in bank order (R275): the accesses ahead of the next BANKCFG under the mode that the bank
serves, then that BANKCFG, up to one that has work to do. `ws` are the bundles that wait with a FIFO operation. -/
def State.serveModes : Nat → Nat → Nat → List FifoWait → State → State
  | 0, _, _, _, s => s
  | fuel + 1, core, bank, ws, s =>
    let b := s.bank core bank
    if b.switching.isSome then s.modBank core bank fun b => { b with waits := b.waits ++ ws }
    else
      let mine (t : TId) : Bool :=
        match b.later with
        | (_, ts) :: _ => ts.contains t
        | [] => true
      let (now, rest) := ws.partition fun w => w.threads.all mine
      let s :=
        if b.mode == .fifo then (s.modBank core bank fun b => { b with waits := b.waits ++ now }).serveBank core bank
        else now.foldl (fun s w => s.trapFifo w (bankTrap 2 w.bank)) s
      let s := ((s.parkedOn (· == .switching core bank)).filter mine).foldl (fun s t => s.retryAccess t) s
      match (s.bank core bank).later with
      | [] => s
      | (m, _) :: xs =>
        State.serveModes fuel core bank rest ((s.modBank core bank fun b => { b with later := xs }).startSwitch core bank m)

/-- BANK_SWITCH_DONE (R274 to R276): the bank serves its new mode, empty, and what waited for it goes on. -/
def execBankSwitchDone (core bank : Nat) (s : State) : Host.Outcome State Fault Refusal :=
  let b := s.bank core bank
  .next (match b.switching with
  | none => s
  | some m =>
    if !b.idle then s
    else
      let s := s.modBank core bank fun b => { b with mode := m, bytes := [], pend := [], fifo := [], switching := none, waits := [] }
      (s.serveModes (b.later.length + 1) core bank b.waits).pumpAllTiles)

/-- The bank of a line that a command names: of a core, or of a workgroup that is saved (R280, R282). -/
def State.lineBank (s : State) (core bank : Nat) : Bank :=
  if awayCore < core then (s.wg (core - awayCore - 1)).imgBanks.get bank {} else s.bank core bank
def State.modLineBank (s : State) (core bank : Nat) (f : Bank → Bank) : State :=
  if awayCore < core then
    s.modWg (core - awayCore - 1) fun g => { g with imgBanks := g.imgBanks.put bank (f (g.imgBanks.get bank {})) }
  else s.modBank core bank f

/-- LINE_LANDED (R280, R281): the count of a line falls; at zero the accesses that waited for it are performed. -/
def execLineLanded (core bank line : Nat) (s : State) : Host.Outcome State Fault Refusal :=
  let n := (s.lineBank core bank).pend.get line 0 - 1
  let s := s.modLineBank core bank fun b => { b with pend := if n == 0 then b.pend.del line else b.pend.put line n }
  .next (if n == 0 then ((s.wake (· == .presence core bank line)).switchSoon core bank).pumpAllTiles else s)

end Sys2Proof.Machine
end

