-- ==== Sys2Proof/Machine/Window.lean ====
section
/-!
DEFINITION. LDS and STS (R332, R333), and the engine window with its EGO (R355 to R360, R363).
-/
namespace Sys2Proof.Machine

/-! Window accesses (R356) -/

/-- The offset in the window of a scratchpad address, none outside it. -/
def winOffset (addr : Nat) : Option Nat := if 0xFFFFFF00 ≤ addr then some (addr - 0xFFFFFF00) else none

/-- The window threads of a wave among some threads: aligned, with addresses of the window. -/
def winThreads (addr : TId → Nat) (size w : Nat) (ts : List TId) : List TId :=
  ts.filter fun t => t.w == w && addr t % size == 0 && (winOffset (addr t)).isSome

/-- The offset at which the window threads of a wave make their access, none when it is not one the window has (R356). -/
def winAccess (addr : TId → Nat) (f : MemForm) (w : Nat) (ts : List TId) : Option Nat :=
  match (winThreads addr f.mt.bytes w ts).map addr with
  | [] => none
  | a :: as =>
    if f.mt == .b64 && !f.ordered && as.all (· == a) then
      (winOffset a).filter fun o => [0, 8, 16, 24, 32, 40].contains o
    else none

/-- ESTAT (R359). -/
def EWindow.estat (x : EWindow) : DWord :=
  BitVec.ofNat 64 (x.seq.toNat * 2 ^ 32 + x.written.toNat * 2 ^ 16 + x.last)

/-- What a load of a window register returns (R355). -/
def EWindow.load (x : EWindow) (o : Nat) : DWord :=
  if o < 32 then x.ecmd.getD (o / 8) 0 else if o == 40 then x.estat else 0

/-- Latches a command word (R355). -/
def EWindow.latch (x : EWindow) (n : Nat) (v : DWord) : EWindow :=
  { x with ecmd := x.ecmd.set n v, written := setBit x.written n true }

/-! EGO (R357, R358) -/

/-- The value stored to EGO has no reserved bit set and names an engine. -/
def egoValid (v : DWord) : Bool := fld v.toNat 8 56 == 0 && !bitAt v.toNat 3 && fld v.toNat 4 4 < 5

/-- The command that an EGO places: the issuer as it stands (R299). -/
def State.egoCmd (s : State) (t : TId) (v : DWord) (ecmd : List DWord) (seq : Word) : QCmd :=
  let x := s.wave t.w
  let y := s.who t.w
  { engine := fld v.toNat 4 4, ecmd := ecmd, seq := seq
    issuer :=
      { tag := x.tag, wid := x.wid, wg := x.wg, wave := x.idx, launch := x.launch, priv := s.privileged t, epoch := y.epoch
        clock := y.clock, vec := y.vec, phase := y.phase, heard := x.heard }
    pre := .none, lines := [], begun := false, refused := none }

/-- The destination of a command is in the scratchpad, and its block is read by the EGO (R363). -/
def QCmd.readsAtEgo (c : QCmd) : Bool := c.isBlock && isAperture c.a1 && c.p % 64 == 0

/-- The one range that bounds some ranges. -/
def bounding (rs : Ranges) : Ranges :=
  match rs with
  | [] => []
  | r :: _ =>
    let lo := rs.foldl (fun m x => min m x.1) r.1
    [(lo, rs.foldl (fun m x => max m (x.1 + x.2)) lo - lo)]

/-- The bounding ranges of the bytes that a command may write at its destination, with its block (R280, R363). -/
def State.destRanges (s : State) (c : QCmd) (bs : List Byte) : Ranges :=
  match c.engine, c.opc with
  | 0, 1 => [(c.a1, fld c.p 0 40)]
  | 0, 5 => [(c.a1, c.a0)]
  | 0, 4 => [(bounds2D false true c (block2D bs)).2]
  | 0, _ => [(bounds2D false false c (block2D bs)).2]
  | 1, o =>
    let b := convBlock bs
    bounding (b.ranges c (o == 1) (((s.convGroup c b.group).map fun g => g.2.length).getD 0)).2
  | 2, _ => [(c.a1, 1)]
  | 3, 1 => [(c.a1, 4096 + 2 * fld c.p 0 32)]
  | 3, 2 => [(c.a1, fld c.p 0 32)]
  | 4, 1 => [(c.a1, (collBlock bs).size true)]
  | _, _ => []

/-- The scratchpad lines of a range, within `.scratch`: core, bank and line (R278, R280). -/
def State.rangeLines (s : State) (i : Issuer) (r : Nat × Nat) : List (Nat × Nat × Nat) :=
  let g := s.wg i.wg
  let L := s.launch i.launch
  let lo := max r.1 apertureBase - apertureBase
  let hi := min (r.1 + r.2 - apertureBase) L.hdr.scratch
  if r.2 == 0 || hi ≤ lo then []
  else
    (List.range ((hi + 127) / 128 - lo / 128)).filterMap fun k =>
      let (member, lb, off) := scratchMap (max 1 L.members) ((lo / 128 + k) * 128)
      (s.memberWg i.launch g.cluster member).bind fun (n, h) =>
        if h.closed || h.st == .ended then none
        else match h.st with
          | .saved _ => some (awayBanks n, lb, off / 128)
          | _ => h.banks[lb]?.map fun b => (h.core, b, off / 128)

/-- The lines whose counts a command raises. -/
def State.egoLines (s : State) (c : QCmd) (bs : List Byte) : List (Nat × Nat × Nat) :=
  if isAperture c.a1 && c.known then ((s.destRanges c bs).flatMap (s.rangeLines c.issuer)).eraseDups else []

/-- Why an EGO does not read its command's block: the page of a replayable fault, or a member whose banks are away. -/
inductive EgoStop where
  | page (va level : Nat)
  | away (lin : Nat)
  deriving DecidableEq, Repr, Inhabited

/-- The linear index of the member whose scratchpad holds an aperture address. -/
def State.memberLin (s : State) (i : Issuer) (va : Nat) : Nat :=
  let (member, _, _) := scratchMap (max 1 (s.launch i.launch).members) (va - apertureBase)
  ((s.memberWg i.launch (s.wg i.wg).cluster member).map (·.2.lin)).getD 0

/-- The read of a command's block by the EGO: its bytes, the end of the command, or what it waits for (R363, R366). -/
def State.egoBlock (s : State) (c : QCmd) (refused : Bool) : Except EgoStop PreBlock :=
  if !c.readsAtEgo then .ok .none
  else if refused then .ok (.fails 7 c.p)
  else
    match s.engRead c.issuer c.p 64 with
    | .ok bs => .ok (.read bs)
    | .error (.page va level _) => .error (.page va level)
    | .error .wait => .error (.away (s.memberLin c.issuer c.p))
    | .error e => .ok (.fails e.result.status e.result.detail)

def PreBlock.bytes : PreBlock → List Byte
  | .read bs => bs
  | _ => []

/-- The lines of a command whose block is read, none after a fault. -/
def State.preLines (s : State) (c : QCmd) (p : PreBlock) : List (Nat × Nat × Nat) :=
  match p with
  | .fails _ _ => []
  | p => s.egoLines c p.bytes

/-- The queue of an EGO. -/
def egoQueue (v : DWord) : Nat := fld v.toNat 0 3

/-- There is room for one entry more in the queue and in the counts of the lines (R280, R341): `qs` and `ls` are the queues
and lines that other EGOs of the same instruction take. -/
def State.egoRoom (s : State) (core : Nat) (v : DWord) (lines : List (Nat × Nat × Nat)) (qs : List Nat)
    (ls : List (Nat × Nat × Nat)) : Bool :=
  (s.queue core (egoQueue v)).length + (qs.filter (· == egoQueue v)).length < 64 &&
    lines.all fun l => (s.lineBank l.1 l.2.1).pend.get l.2.2 0 + (ls.filter (· == l)).length < 15

def State.modWin (s : State) (w : Nat) (f : EWindow → EWindow) : State :=
  s.modWave w fun x => { x with ewin := f x.ewin }

/-- An EGO whose command is placed (R358): the release, the counts, the queue, the window. -/
def State.placeCmd (s : State) (t : TId) (v : DWord) (c : QCmd) (p : PreBlock) : State :=
  let lines := s.preLines c p
  let (_, s) := s.releaseBy t .device false
  let s := s.releaseDrain t .device
  let s := lines.foldl
    (fun s (k, b, l) => s.modLineBank k b fun x => { x with pend := x.pend.put l (x.pend.get l 0 + 1) }) s
  let s := s.modWin t.w fun x => { x with last := 1, written := 0, seq := c.seq }
  let q := egoQueue v
  (s.setQueue t.core q (s.queue t.core q ++ [.cmd { c with pre := p, lines := lines }])).pumpCore t.core

/-- The access by which a thread waits at its EGO (R363). -/
def egoAccess (pc : DWord) (v : DWord) (ecmd : List DWord) (seq : Word) : Access :=
  { scratch := true, const := false, addr := 0xFFFFFF20, size := 8, kind := .ego v ecmd seq false, scope := .device
    acq := false, rel := true, pc := pc, half := 0 }

/-- A thread waits at its EGO for what its block needs (R363). -/
def State.egoParks (s : State) (t : TId) (a : Access) : EgoStop → State
  | .page va level => s.parkPage t va AccType.engineRead.code level a
  | .away lin => s.modThread t fun th => { th with st := .parked (.switching awayCore lin), pend := some a }

/-- What a command of which the output depends on its source would write if it began now; what it writes at least, while its source
cannot be read. -/
def outputNow (c : QCmd) : Eng EngEnd → Ranges
  | .ok e => e.writes.map fun w => (w.1, w.2.length)
  | .error (.page ..) | .error .wait => [(c.a1, 1)]
  | .error _ => []

/-- The bytes that a command writes at its destination, as far as they are known at its EGO (R304; log 88). -/
def State.writesOf (s : State) (c : QCmd) (bs : List Byte) : Ranges :=
  let b := block2D bs
  match c.engine, c.opc with
  | 0, 2 | 0, 3 => (List.range b.rows).map fun (k : Nat) => (engAddr c.a1 (k * b.dstride), b.rowBytes)
  | 0, 4 => (List.range b.rows).filterMap fun (k : Nat) =>
    match s.index2D c.issuer b k with
    | .ok (some n) => some (engAddr c.a1 (n * b.dstride + b.colOff), b.rowBytes)
    | _ => none
  | 1, o =>
    let b := convBlock bs
    (b.ranges c (o == 1) (((s.convGroup c b.group).map fun g => g.2.length).getD 0)).2
  | 2, 1 => outputNow c (decjpegCmd s c)
  | 2, _ => outputNow c (decg4Cmd s c)
  | 3, 1 => outputNow c (zcompCmd s c)
  | _, _ => s.destRanges c bs

/-- An EGO is an ordered operation (R304): its command writes a SHARED_ORDERED page, its completion record included (R358), in a
deterministic launch. -/
def State.egoOrdered (s : State) (c : QCmd) : Bool :=
  (s.launch c.issuer.launch).hdr.determ &&
    (let bs : List Byte := if c.isBlock then
        match s.engRead c.issuer c.p 64 with
        | .ok bs => bs
        | .error _ => []
      else []
     ((c.cra, 32) :: (if c.known then s.writesOf c bs else [])).any fun (a, n) => s.sordRange none c.issuer.tag c.issuer.priv a n)

/-- An accepted EGO: it is placed, or its thread waits for its block and the EGO is performed after that (R363). -/
def State.egoAccepted (s : State) (t : TId) (v : DWord) (ecmd : List DWord) (seq : Word) : State :=
  let c := s.egoCmd t v ecmd seq
  match s.egoBlock c false with
  | .error e => (s.egoParks t { egoAccess ((s.thread t).pc - 8) v ecmd seq with unseen := !s.egoOrdered c } e).unfile t
  | .ok p => s.placeCmd t v c p

/-- A tile store of a wave has not started (R207). -/
def State.storesDue (s : State) (w : Nat) : Bool :=
  (s.part (pidOf w)).tileQ.any fun o => o.t.w == w && !o.begun && o.storesTo

/-- An EGO whose thread has waited for its block goes on (R363): it is placed once there is room, or waits anew; or it is seen to be
an ordered operation, which its thread reaches then (R304, R306). -/
def State.egoAgain (s : State) (t : TId) (a : Access) (v : DWord) (ecmd : List DWord) (seq : Word) (refused : Bool) : State :=
  let c := s.egoCmd t v ecmd seq
  match s.egoBlock c refused with
  | .error e => s.egoParks t a e
  | .ok p =>
    if a.unseen && s.egoOrdered c then s.issueAgain t a
    else if s.egoRoom t.core v (s.preLines c p) [] [] && !s.storesDue t.w && s.peersTake ((s.core t.core).wcb.map (·.peer)) then
      ((s.placeCmd t v c p).modThread t fun th => { th with pend := none }).release t
    else s.at (s.now + 1) (.ego t.core (t.pid % 4) (t.w % 24) t.lane v)

/-- EGO (R358): of a thread that waits at one, or of the thread that has stored it. -/
def execEgo (core part slot lane : Nat) (v : DWord) (s : State) : Host.Outcome State Fault Refusal :=
  let t : TId := ⟨core * 96 + part * 24 + slot, lane⟩
  .next (if (s.waves.find? t.w).isNone then s
  else
    match (s.thread t).pend with
    | some a =>
      match a.kind with
      | .ego v ecmd seq refused => s.egoAgain t a v ecmd seq refused
      | _ => s
    | none =>
      let x := (s.wave t.w).ewin
      if x.written != 15 then s.modWin t.w fun x => { x with last := 2, written := 0 }
      else if !egoValid v then s.modWin t.w fun x => { x with last := 3, written := 0 }
      else s.egoAccepted t v x.ecmd (x.seq + 1))

/-- ECMD_STORE (R355). -/
def execEcmdStore (core part slot n : Nat) (v : DWord) (s : State) : Host.Outcome State Fault Refusal :=
  .next (s.modWin (core * 96 + part * 24 + slot) fun x => x.latch n v)

/-! LDS and STS -/

/-- A thread of a wave waits at an EGO, which is performed before the wave's later window accesses (R360). -/
def State.egoWaits (s : State) (w : Nat) : Bool :=
  (s.wave w).threads.any fun th =>
    match th.pend with
    | some a => (a.kind matches .ego ..)
    | none => false

/-- Window accesses of the bundle come after an EGO of their wave that waits. -/
def State.windowFree (s : State) (addr : TId → Nat) (ts : List TId) : Bool :=
  ts.all fun t => (winOffset (addr t)).isNone || !s.egoWaits t.w

/-- LDS (R278 to R281, R332, R356). -/
def execLds (h : Hd) (d a : Nat) (off : Int) (f : MemForm) (s : State) : Host.Outcome State Fault Refusal :=
  let addr (t : TId) : Nat := (s.saddr t a off).toNat
  let kind := loadKind d f.mt
  let s1 := s.begin h kind.dests []
  let ts := laneOrder (s.acting s1 h)
  let (n, s1) := s1.latency (.atLeast 8)
  .next ((ts.foldl
    (fun z t =>
      match (winOffset (addr t)).bind fun _ => winAccess addr f t.w ts with
      | some o =>
        if addr t % 8 == 0 then
          z.openWindow 0 h.la (some (s.cycle + n)) t kind.dests [] { regs := putNum true d ((s.wave t.w).ewin.load o).toNat }
        else z.accessOne h.la (s.cycle + n) t (s.memAccess t true (s.saddr t a off) f.mt.bytes kind f.scope f.ordered false 0)
      | none => z.accessOne h.la (s.cycle + n) t (s.memAccess t true (s.saddr t a off) f.mt.bytes kind f.scope f.ordered false 0))
    s1).settle false)

/-- The EGO that each wave's window threads store: the thread, the value, and the command if the EGO will be accepted. -/
def State.egosOf (s : State) (addr : TId → Nat) (val : TId → DWord) (f : MemForm) (ts : List TId) : List (TId × DWord × QCmd) :=
  (bySlot ts).filterMap fun w =>
    match winAccess addr f w ts, (winThreads addr f.mt.bytes w ts).head? with
    | some 32, some t =>
      let x := (s.wave w).ewin
      if x.written == 15 && egoValid (val t) then some (t, val t, s.egoCmd t (val t) x.ecmd (x.seq + 1)) else none
    | _, _ => none

/-- Every EGO of the instruction has room, and no tile store of its wave waits to start before the release (R207, R280, R341). -/
def State.egosReady (s : State) (es : List (TId × DWord × QCmd)) : Bool :=
  (es.foldl
    (fun (ok, qs, ls) (t, v, c) =>
      match s.egoBlock c false with
      | .error _ => (ok, qs, ls)
      | .ok p =>
        let lines := s.preLines c p
        (ok && !s.storesDue t.w && s.egoRoom t.core v lines qs ls, egoQueue v :: qs, lines ++ ls)) (true, ([] : List Nat), ([] : List (Nat × Nat × Nat)))).1

/-- STS (R278 to R281, R333, R356): a store to the window is a step of its own for the wave. -/
def execSts (h : Hd) (d a : Nat) (off : Int) (f : MemForm) (s : State) : Host.Outcome State Fault Refusal :=
  let addr (t : TId) : Nat := (s.saddr t a off).toNat
  let es := s.egosOf addr (fun t => s.rd64 t d) f (laneOrder (s.active h))
  .next (
    let s := s.gate ((es.filter fun e => s.egoOrdered e.2.2).map (·.1)) false
    let s1 := s.begin h [] []
    let ts := laneOrder (s.acting s1 h)
    let store (z : State) (t : TId) : State :=
      z.accessOne h.la s.cycle t
        (s.memAccess t true (s.saddr t a off) f.mt.bytes (.store (s.storeData t d f.mt)) f.scope false f.ordered 0)
    let z := ts.foldl
      (fun z t =>
        match (winOffset (addr t)).bind fun _ => winAccess addr f t.w ts with
        | some _ => if addr t % 8 == 0 then z else store z t
        | none => store z t) s1
    let evs := (bySlot ts).filterMap fun w =>
      match winAccess addr f w ts, (winThreads addr f.mt.bytes w ts).head? with
      | some o, some t =>
        if o < 32 then some (.ecmdStore t.core (t.pid % 4) (t.w % 24) (o / 8) (s.rd64 t d))
        else if o == 32 then some (.ego t.core (t.pid % 4) (t.w % 24) t.lane (s.rd64 t d))
        else none
      | _, _ => none
    (z.push evs).settle false)

end Sys2Proof.Machine
end

