-- ==== Sys2Proof/Machine/Cycle.lean ====
section
/-!
DEFINITION. The core cycle: its length (R19 to R26), the run selector (R28 to R31), the droop response (R32 to R38), and
the PC bins (R231 to R237), with the active set (R269, R270).
-/
namespace Sys2Proof

/-- Instructions whose effects come after the accesses before them (R290, R291): releases, fences and arrivals; an EGO is one by
its address. An IFENCE waits for the thread's earlier stores, its atomics at peers among them (R449). -/
def Instr.orders : Instr → Bool
  | .st _ _ _ _ f | .sts _ _ _ _ f => f.ordered
  | .atom _ _ _ _ _ _ o _ _ | .red _ _ _ _ _ o _ _ => o.rel
  | .fence .. | .barArrive .. | .barArrwait .. | .waitm .. | .ifence _ => true
  | _ => false

/-- The turn-ending events (R307). -/
def Instr.endsTurn : Instr → Bool
  | .kpass _ | .waitu .. | .barWait .. | .barArrwait .. | .exit _ => true
  | _ => false

/-- Memory instructions, which come after an acquire (R291). -/
def Instr.accesses : Instr → Bool
  | .ld .. | .st .. | .lds .. | .sts .. | .ldc .. | .atom .. | .red .. | .fence .. | .waitu .. | .fpush .. | .fpop .. => true
  | .dualWord h1 h2 => h1.isMem || h2.isMem
  | i => i.isTile

/-- The windows that an instruction may open (R50, R53). -/
def Instr.opens : Instr → Nat
  | .dualWord h1 h2 => b2n h1.op.timing.2.long + b2n h2.op.timing.2.long
  | i => b2n i.timing.2.long

namespace Machine

/-! Readiness (R28) -/

/-- The instruction that a bundle would issue: none when a thread's fetch or a check fails. Threads of a bundle differ
for these only by handler mode. -/
def State.bundleInstr (s : State) (b : Bin) : Option Instr :=
  let reps := ((b.threads.find? fun t => (s.thread t).hand.isNone).toList ++ (b.threads.find? fun t => (s.thread t).hand.isSome).toList)
  let is := reps.map s.nextInstr
  if is.all (·.isSome) then is.headD none else none

/-! What an instruction does to memory, as far as its threads' registers tell before it issues -/

/-- The access that an instruction makes on a thread, of those that make one. -/
def State.accessOf (s : State) (t : TId) : Instr → Option Access
  | .ld _ d a off f => some (s.ldAccess t d a off f)
  | .st _ d a off f => some (s.stAccess t d a off f)
  | .ldc _ d a off _ mt => some (s.ldcAccess t d a off mt)
  | .atom _ d a b off op o sc ty => some (s.atomAccess t a b off op o sc ty (some d))
  | .red _ a b off op o sc ty => some (s.atomAccess t a b off op o sc ty none)
  | .lds _ d a off f => some (s.memAccess t true (s.saddr t a off) f.mt.bytes (loadKind d f.mt) f.scope f.ordered false 0)
  | .sts _ d a off f =>
    some (s.memAccess t true (s.saddr t a off) f.mt.bytes (.store (s.storeData t d f.mt)) f.scope false f.ordered 0)
  | .waitu _ _ a _ off _ w _ => some (s.memAccess t false (s.gaddr t a off) (if w then 8 else 4) (.again false) .system true false 0)
  | .call .. | .callx .. =>
    match s.spillOf t 0 with
    | some (.ok a) => some a
    | _ => none
  | .ret _ | .bra .. | .brx .. | .lend .. =>
    let th := s.thread t
    if th.calls.isEmpty && th.spilled != 0 then some (s.stackAccess (th.spillAddr (th.spilled - 1)) .fill) else none
  | .dualWord h1 h2 => s.dualAccess h1 h2 t
  | _ => none

/-- An instruction is active on a thread: a dual word has no guard of its own, and an inactive LEND reads its frame too. -/
def State.activeIn (s : State) (i : Instr) (t : TId) : Bool :=
  match i with
  | .dualWord .. | .lend .. => true
  | i => (i.hd?.map (s.thread t).guard).getD true

/-- A thread stores EGO (R358): a release at device scope. -/
def State.storesEgo (s : State) (i : Instr) (t : TId) : Bool :=
  match i with
  | .sts _ _ a off f =>
    f.mt == .b64 && !f.ordered && s.activeIn i t && winOffset (s.saddr t a off).toNat == some 32
  | _ => false

/-- Bytes of two accesses to memory may be the same: the page of one is not present, so its physical address is not known, but its
place in its page is. -/
def Access.mayMeet (a b : Access) : Bool :=
  !a.scratch && !b.scratch &&
    (let x := a.addr.toNat % 4096
     let y := b.addr.toNat % 4096
     x < y + b.size && y < x + a.size)

/-- An access of the thread that waits for the close of its window comes before an instruction, which may touch the same bytes
(R289), or, in a deterministic launch, is an ordered operation or ends the turn (R306, R307). A tile operation and an EGO may
touch any bytes. -/
def State.afterPending (s : State) (i : Instr) (t : TId) : Bool :=
  let ps := (s.thread t).windows.filterMap (·.pend)
  if ps.isEmpty || !s.activeIn i t then false
  else
    i.isTile || s.storesEgo i t ||
      ((s.launchOf t).hdr.determ && (ps.any fun a => a.kind.isAtomic) &&
        (i.endsTurn || ((s.accessOf t i).map fun a => s.isOrdered t a).getD false)) ||
      match s.accessOf t i with
      | some a => ps.any a.mayMeet
      | none => false

/-- The windows that close before a thread can issue an instruction: all at a closing instruction (R52), and the oldest
when there would be more than four (R53). One that comes after a load whose result is out closes them too (R290, R291), and one
that comes after an access that waits for the close (R289; log 86). A closing instruction closes the windows of inactive threads as
well, and it issues in a cycle after their commits even when every result has arrived; an instruction of long latency counts as the
fifth whether or not it will open a window (log 73). -/
def State.closeFor (s : State) (i : Instr) (t : TId) : Thread :=
  let th := s.thread t
  let out := th.windows.any fun x => x.ready.isNone
  if i.closes || (out && (i.orders || s.storesEgo i t)) || s.afterPending i t then th.close
  else
    let n := th.windows.length + i.opens - 4
    { th with windows := (th.windows.take n).map (Window.shut th.nextOrder) ++ th.windows.drop n }

/-- An acquire of the thread is under way at a fabric peer. -/
def State.acquiring (s : State) (t : TId) : Bool :=
  s.remotes.any fun r =>
    match r.by_ with
    | some (u, a) => u == t && a.acq
    | none => false

/-- A tile operation of a thread that may write memory has not started (R207). -/
def State.tileStoreDue (s : State) (t : TId) : Bool :=
  (s.part t.pid).tileQ.any fun o => o.t == t && !o.begun && o.storesTo

/-- An ordered operation of a wave of a deterministic launch is in tile order and has not started: its turn goes on (R304, R306,
R512). -/
def State.orderedTileDue (s : State) (w : Nat) : Bool :=
  (s.launch (s.wave w).launch).hdr.determ && (s.part (pidOf w)).tileQ.any fun o => o.t.w == w && !o.begun && s.tileOrdered o

/-- The tile control of a thread's allocation is not settled: a header is to come (R211), or a profile is being computed
(R171). -/
def State.tileUnsettled (s : State) (t : TId) : Bool :=
  (s.ctxOf t).computing || (s.part t.pid).tileQ.any fun o => o.header && o.wg == (s.wave t.w).wg

/-- A thread keeps its bundle from issuing. -/
def State.holdsUp (s : State) (i : Option Instr) (t : TId) : Bool :=
  let th := s.thread t
  th.windows.any (·.closed) || th.trapQ.isSome || th.block.isSome || (s.wave t.w).halted ||
    match i with
    | none => false
    | some i =>
      ((i.accesses || (s.accessOf t i).isSome) && s.acquiring t) ||
      ((i.orders || match i with
        | .exit _ => true
        | _ => false) && s.tileStoreDue t) ||
      (i.endsTurn && s.orderedTileDue t.w) ||
      (match i with
       | .cvtres .. => s.tileUnsettled t
       | i => i.isTile && s.tileUnsettled t)

/-- The peers to which an instruction sends requests that are counted (R461), `s` with its bundle as the present one. -/
def State.sendsFor (s : State) (i : Instr) : List Nat :=
  let ts := s.cur.threads.filter (s.activeIn i)
  let all := (s.core s.cur.core).wcb.map (·.peer)
  match i with
  | .fence _ _ sc => if Scope.widest sc && !ts.isEmpty then all else []
  | .ifence _ => if ts.isEmpty then [] else all
  | i =>
    if ts.any (s.storesEgo i) then all
    else s.sendsTo s.cur.core (ts.filterMap fun t => (s.accessOf t i).map fun a => (t, a))

/-- What keeps an instruction from issuing besides its threads, `s` with its bundle as the present one: a queue or a presence
count without room (R341, R358), a peer with 256 requests (R461), to which a release has to drain the buffer (R294). -/
def State.roomFor (s : State) (i : Instr) : Bool :=
  s.peersTake (s.sendsFor i) &&
    match i with
    | .qfence h mask =>
      (maskQueues mask).all fun q => (s.queue s.cur.core q).length + (wavesOf (s.active h)).length ≤ 64
    | .sts h d a off f =>
      s.windowFree (fun t => (s.saddr t a off).toNat) (s.active h) &&
        s.egosReady (s.egosOf (fun t => (s.saddr t a off).toNat) (fun t => s.rd64 t d) f (laneOrder (s.active h)))
    | .lds h _ a off _ => s.windowFree (fun t => (s.saddr t a off).toNat) (s.active h)
    | _ => true

/-- A bundle as the present one. -/
def State.withBundle (s : State) (core part bin : Nat) : State :=
  let b := (s.part (core * 4 + part)).bins.get bin {}
  { s with cur := { core := core, part := part, bin := bin, threads := b.threads, pc := b.key, half := 0 } }

/-- Check 9 of R59 fails, `s` with the bundle as the present one: for CVTRES by the loaded profile (R133), for a tile instruction
by the state that R211 names; a matrix instruction is checked in its active signers. -/
def State.failsNine (s : State) (i : Instr) : Bool :=
  let t := s.cur.threads.headD default
  match i with
  | .cvtres _ _ a ch _ => !cvtresOk (s.ctxOf t).prof s.mapout (s.counts t) a ch
  | .tldw .. => (s.tileView t).illegal i
  | i =>
    match i.matrixMask? with
    | none => false
    | some k =>
      (s.drainRange t i).isSome ||
        (s.active i.signHd).any fun u => s.isMember u k && (s.tileView u).illegal i

/-- A bundle is ready (R28). -/
def State.binReady (s : State) (core k n : Nat) (i : Option Instr) : Bool :=
  let b := (s.part (core * 4 + k)).bins.get n {}
  b.st == .bundle && !(b.threads.any (s.holdsUp i)) && (i.map (s.withBundle core k n).roomFor).getD true

/-- Closes what a bundle's next instruction closes, and notes whether the bundle is ready, and since when. -/
def State.readyBin (core pid : Nat) (s : State) (n : Nat) : State :=
  let b := (s.part pid).bins.get n {}
  if b.st != .bundle then s
  else
    let i := s.bundleInstr b
    let s :=
      match i with
      | none => s
      | some i => b.threads.foldl (fun s t => s.modThread t fun _ => s.closeFor i t) s
    let r := if s.binReady core (pid % 4) n i then some (b.ready.getD (s.core core).cyc.toNat) else none
    s.modPart pid fun p => { p with bins := p.bins.upd n fun b => { b with ready := r } }

/-- The class of a bundle's next instruction: none when the word fails a check of R59 or its fetch faults (R28). -/
def State.bundleClass (s : State) (core k n : Nat) : Option Nat :=
  match s.bundleInstr ((s.part (core * 4 + k)).bins.get n {}) with
  | some i => if (s.withBundle core k n).failsNine i then none else some i.effClass
  | none => none

/-- A ready bundle as the run selector sees it. -/
structure Cand where
  part : Nat
  bin  : Nat
  cls  : Option Nat
  age  : Nat
  deriving DecidableEq, Repr, Inhabited

def State.cands (s : State) (core : Nat) : List Cand :=
  (List.range 4).flatMap fun k =>
    (List.range 16).filterMap fun n =>
      let b := (s.part (core * 4 + k)).bins.get n {}
      b.ready.map fun r => ⟨k, n, s.bundleClass core k n, (s.core core).cyc.toNat - r⟩

/-! The run selector (R30) -/

/-- The oldest of some bundles, the lower class winning on equal age, then the lower partition and bin. -/
def oldest : List Cand → Option Cand
  | [] => none
  | x :: xs =>
    match oldest xs with
    | none => some x
    | some y => if x.age > y.age || (x.age == y.age && x.cls.getD 4 ≤ y.cls.getD 4) then some x else some y

/-- The ready bundles of an age of 64 or more. -/
def aged (cs : List Cand) : List Cand := cs.filter fun x => 64 ≤ x.age

/-- BUNDLE_AGE_OVERRIDE (R30 rule 1): the class of the oldest becomes the run class, and it issues first. -/
def State.overrideAge (s : State) (core : Nat) : State :=
  match oldest (aged (s.cands core)) with
  | none => s
  | some x =>
    s.modCore core fun c =>
      { c with
        forced := some (x.part, x.bin)
        run := x.cls.getD c.run
        runLen := if x.cls.getD c.run == c.run then c.runLen + 1 else 1 }

def execBundleAgeOverride (core : Nat) (s : State) : Host.Outcome State Fault Refusal := .next (s.overrideAge core)

/-- The class with the most ready bundles, the lower winning (R30 rule 3). -/
def mostOf (cs : List Cand) : Nat :=
  (List.range 4).foldl
    (fun best k =>
      let n (k : Nat) : Nat := (cs.filter fun x => x.cls == some k).length
      if n best < n k then k else best) 0

/-- Rules 2 and 3 of R30. -/
def Core.choose (c : Core) (cs : List Cand) : Core :=
  if c.forced.isSome then c
  else
    let mine := cs.any fun x => x.cls == some c.run
    let k := if (c.runLen < 8 && mine) || !(cs.any fun x => x.cls.isSome) then c.run else mostOf cs
    { c with run := k, runLen := if k == c.run then c.runLen + 1 else 1 }

/-! The droop response (R32 to R38) -/

def Core.drpEn (c : Core) : Bool := bitAt c.drpcfg.toNat 31
def Core.drpScyc (c : Core) : Nat := fld c.drpcfg.toNat 8 4
def Core.drpThresh (c : Core) : Nat := max 1 (fld c.drpcfg.toNat 0 8)
/-- HCYC and SSTEPS of the response that runs: as they stood at its latest alarm (R36). -/
def Core.drpHcyc (c : Core) : Nat := fld c.drprun.toNat 16 12
def Core.drpSsteps (c : Core) : Nat := fld c.drprun.toNat 12 4

/-- The setpoint of a core in mV: the voltage of its group's operating point (R416). -/
def State.setpoint (s : State) (core : Nat) : Nat := (s.opts.getD (s.groups.get (core / 8) {}).oc (0, [])).1

/-- One sample (R32, R33, R37): `deep` mV below the setpoint at the deepest. With EN = 0 it leaves DRPSTAT as it is (R394). -/
def Core.sample (c : Core) (now deep : Nat) : Core :=
  if !c.drpEn then c
  else
    let c := { c with deepest := max c.deepest (min deep 255) }
    if deep < c.drpThresh then c
    else
      { c with
        alarms := min (c.alarms + 1) 65535
        droop := .stretch
        dcount := c.drpScyc
        drprun := c.drpcfg
        drpoff := false
        alarmAt := some now }

/-- The partition islands of a core are off: the device is GATED or OFF, or has not come back from it (R32, R501). -/
def State.islandsOff (s : State) (core : Nat) : Bool :=
  2 ≤ s.mg.power || ((s.core core).phase == 0 && decide (s.now < (s.core core).start))

/-- DROOP_ALARM (R32, R33, R38): the readings of the sensors at the next channel-cycle boundary; a cycle that ends or begins at
that step does so first. Samples at the setpoint change nothing, and are no events (log 77). -/
def execDroopAlarm (core mv0 mv1 mv2 mv3 : Nat) (s : State) : Host.Outcome State Fault Refusal :=
  let c := s.core core
  let low := min (min mv0 mv1) (min mv2 mv3)
  let c2 := c.sample s.now (s.setpoint core - low)
  .next (if s.now % 8 != 0 then s.at ((s.now + 7) / 8 * 8) (.droopAlarm core mv0 mv1 mv2 mv3)
  else if s.islandsOff core then s
  else if !c.gated && !s.fatal && c.start + c.len ≤ s.now then
    { s with todo := .event (.coreCycle core) :: .event (.droopAlarm core mv0 mv1 mv2 mv3) :: s.todo }
  else
    let s := s.setCore core c2
    if c.droop == .normal && c2.droop == .stretch then s.event .droop 0 0 core (bytesOfWord 2 (low % 65536)) else s)

/-- STRETCH_END (R33): the end of a stretched cycle without an alarm. -/
def execStretchEnd (core : Nat) (s : State) : Host.Outcome State Fault Refusal :=
  .next (s.modCore core fun c =>
    if c.droop != .stretch then c
    else if 1 < c.dcount then { c with dcount := c.dcount - 1 }
    else { c with droop := .half, hcount := c.drpHcyc, hnum := 0 })

/-- HALF_END (R33, R35): the end of a cycle of the half-issue phase without an alarm. -/
def execHalfEnd (core : Nat) (s : State) : Host.Outcome State Fault Refusal :=
  .next (s.modCore core fun c =>
    if c.droop != .half then c
    else if 1 < c.hcount then { c with hcount := c.hcount - 1, hnum := c.hnum + 1 }
    else { c with droop := .normal })

/-! Bins (R234, R235, R237) -/

/-- The number of the FILLING bin filed first, the lower number winning, among those that `p` allows. -/
def Part.oldestFilling (x : Part) (p : Bin → Bool) : Option Nat :=
  (List.range 16).foldl
    (fun best n =>
      let b := x.bins.get n {}
      if b.st != .filling || !p b then best
      else
        match best with
        | none => some n
        | some m => if b.filed < (x.bins.get m {}).filed then some n else some m) none

/-- Places a thread (R234); none when it has to queue. -/
def Part.place (x : Part) (key : DWord) (wg : Nat) (t : TId) (cycle : Nat) : Option Part :=
  match x.oldestFilling fun b => b.key == key && b.wg == wg && b.threads.all fun u => u.lane != t.lane with
  | some n => some { x with bins := x.bins.upd n fun b => { b with threads := b.threads ++ [t] } }
  | none =>
    ((List.range 16).find? fun n => (x.bins.get n {}).st == .empty).map fun n =>
      { x with
        bins := x.bins.put n
          { st := .filling, key := key, wg := wg, threads := [t], filed := cycle, ready := none, evict := false } }

/-- The order of R234: the bundle's threads by lane, then released ones by slot and lane. -/
def Filing.key (f : Filing) : Nat := f.group * 2 ^ 32 + (if f.group == 2 then f.t.lane * 2 ^ 16 + f.t.w else f.t.w * 32 + f.t.lane)
def insertFiling (f : Filing) : List Filing → List Filing
  | [] => [f]
  | g :: gs => if f.key < g.key then f :: g :: gs else g :: insertFiling f gs

/-- Places the queue, then the threads filed in the cycle that has ended (R234). -/
def State.placeAll (s : State) (pid : Nat) : State :=
  let p := s.part pid
  if p.queue.isEmpty && p.filings.isEmpty then s
  else
    let cyc := (s.core (pid / 4)).cyc.toNat - 1
    let all := (p.queue.map fun (t, c) => (t, cyc, c)) ++
      (p.filings.foldr insertFiling []).map fun f => (f.t, f.cycle, f.cycle)
    let p := all.foldl
      (fun (x : Part) (t, filed, since) =>
        (x.place (s.thread t).pc (s.wave t.w).wg t filed).getD { x with queue := x.queue ++ [(t, since)] })
      { p with queue := [], filings := [] }
    s.setPart pid { p with held := p.held.filter fun t => p.queue.any fun q => q.1 == t }

/-- A FILLING bin becomes a bundle. -/
def Part.form (x : Part) (n : Nat) : Part := { x with bins := x.bins.upd n fun b => if b.st == .filling then { b with st := .bundle } else b }

/-- Full bins form (R235). -/
def Part.formFull (x : Part) : Part :=
  (List.range 16).foldl (fun x n => if (x.bins.get n {}).threads.length == 32 then x.form n else x) x

def Bin.aged (b : Bin) (cyc : Nat) : Bool := b.st == .filling && 17 ≤ cyc - b.filed

/-- BIN_AGE_FORM (R235). -/
def execBinAgeForm (core part bin : Nat) (s : State) : Host.Outcome State Fault Refusal :=
  let pid := core * 4 + part
  .next (if ((s.part pid).bins.get bin {}).aged (s.core core).cyc.toNat then s.modPart pid fun p => p.form bin else s)

/-- The bins of a partition at the start of a cycle: readiness, and the last two rows of R235. -/
def State.formBins (core : Nat) (s : State) (k : Nat) : State :=
  let pid := core * 4 + k
  let look (s : State) : State := (List.range 16).foldl (State.readyBin core pid) s
  let oldest (s : State) : State :=
    match (s.part pid).oldestFilling fun _ => true with
    | some n => s.modPart pid fun p => p.form n
    | none => s
  if (s.part pid).bins.isEmpty then s
  else
    let s := look s
    let s := if (List.range 16).any fun n => ((s.part pid).bins.get n {}).ready.isSome then s else oldest s
    let s := if (s.part pid).queue.isEmpty then s else oldest s
    look s

/-- The partition evicts the bundle that next issues (R237). -/
def Part.evicts (x : Part) (cyc : Nat) : Bool :=
  x.held.isEmpty && (x.oldestFilling fun _ => true).isNone &&
    match x.queue with
    | (_, since) :: _ => 64 ≤ cyc - since
    | [] => false

/-- FILING_EVICTION (R237): whichever bundle issues in this cycle is evicted. -/
def execFilingEviction (core part : Nat) (s : State) : Host.Outcome State Fault Refusal :=
  let pid := core * 4 + part
  .next (if (s.part pid).evicts (s.core core).cyc.toNat then
    s.modPart pid fun p => { p with bins := p.bins.map fun (n, b) => (n, if b.st == .bundle then { b with evict := true } else b) }
  else s)

/-! Issue (R29, R35, R236, R270, R491) -/

/-- The partition may issue in the present cycle. -/
def State.mayIssue (s : State) (core k : Nat) : Bool :=
  let c := s.core core
  !(c.droop == .half && c.hnum % 2 == 1) && !((s.therms.get (core * 4 + k) {}).thr && c.cyc.toNat % 2 == 1)

/-- The oldest of a partition's bundles, the lower bin winning (R236). -/
def firstBin (mine : List Cand) : Option Nat :=
  (mine.foldl
    (fun (best : Option Cand) x =>
      match best with
      | none => some x
      | some y => if y.age < x.age then some x else some y) none).map (·.bin)

/-- The bundle that the issue unit picks (R236, R270): one that has woken its waves, then the one of the age override, then the
oldest. -/
def State.pick (s : State) (core k : Nat) (cs : List Cand) : Option Nat :=
  let c := s.core core
  let mine := cs.filter fun x => x.part == k && (x.cls == some c.run || x.cls.isNone)
  let named (n : Option Nat) : Option Nat := n.filter fun n => mine.any fun x => x.bin == n
  let forced := c.forced.bind fun x => if x.1 == k then some x.2 else none
  let woken := mine.filter fun x => ((s.part (core * 4 + k)).bins.get x.bin {}).woken
  ((firstBin woken).orElse fun _ => named forced).orElse fun _ => firstBin mine

/-- The member of an active set that issued longest ago, the lower slot winning (R270). -/
def State.leastRecent (s : State) (ws : List Nat) : Option Nat :=
  ws.foldl
    (fun best w =>
      match best with
      | none => some w
      | some u =>
        let a := (s.wave w).lastIssue
        let b := (s.wave u).lastIssue
        if a < b || (a == b && w < u) then some w else some u) none

/-- Waves enter a partition's active set (R270). -/
def State.enterActive (s : State) (pid : Nat) (ws : List Nat) : State :=
  let p := s.part pid
  let evict : Nat → List Nat → List Nat := fun n old =>
    (List.range n).foldl (fun old _ => match s.leastRecent old with
      | some w => old.filter (· != w)
      | none => old) old
  let old := evict (p.active.length + ws.length - 8) p.active
  s.setPart pid { p with active := old ++ ws, drowsy := p.drowsy + BitVec.ofNat 64 ws.length }

/-- What a partition does in its cycle: the bundle that it issues, or none. A bundle that has woken its waves issues, whichever
waves have left the set since (R270). -/
def State.issueOf (core : Nat) (cs : List Cand) (s : State) (k : Nat) : Option Nat × State :=
  let pid := core * 4 + k
  if !s.mayIssue core k then (none, s)
  else
    match s.pick core k cs with
    | none => (none, s)
    | some n =>
      let b := (s.part pid).bins.get n {}
      let ws := ((b.threads.map (·.w)).eraseDups).filter fun w => !(s.part pid).active.contains w
      if b.woken || ws.isEmpty then (some n, s)
      else (none, (s.enterActive pid ws).modPart pid fun p => { p with bins := p.bins.upd n fun b => { b with woken := true } })

/-! The cycle -/

/-- The instructions of the partition move to the next execute stage (R19). -/
def Part.shift (p : Part) : Part := { p with stages := p.issued :: p.stages.take 3, issued := none }

/-- cmax (R22). -/
def State.cmax (s : State) (core : Nat) : Nat :=
  (List.range 4).foldl
    (fun m k => ((s.part (core * 4 + k)).stages).foldl (fun m x => max m (x.getD 0)) m) 0

/-- The length of a cycle in steps (R22, R34). -/
def Core.length (c : Core) (cmax : Nat) (stretched : Bool) : Nat :=
  let n := ((c.steps.getD cmax 0 : Int) + c.trim).toNat
  max 6 n + (if stretched then c.drpSsteps else 0)

/-- The events at the end of a cycle: the timeouts that end with it (R146, R242, R348), and the droop response (R33). -/
def State.cycleEnds (s : State) (core : Nat) : List Instr :=
  let c := s.core core
  let cyc := c.cyc.toNat
  let waves := s.waves.filter fun e => coreOf e.1 == core
  let due (x : Session) : Bool := (x.expiry.map fun e => decide (e ≤ cyc)).getD false
  let ofWave := waves.flatMap fun e => (e.2.sessions.filter due).map fun x => Instr.signTimeout core (pidOf e.1 % 4) x.id
  let ofTile := (List.range 4).flatMap fun k =>
    (s.part (core * 4 + k)).allocs.flatMap fun e => (e.2.sessions.filter due).map fun x => Instr.signTimeout core k x.id
  let lanes (e : Nat × Wave) (p : Thread → Bool) : List Nat := (List.range 32).filter fun i => p (e.2.thread i)
  let masks := waves.flatMap fun e =>
    (lanes e fun th => th.st == .maskwait && (th.mwait.map fun m => decide (m.expiry ≤ cyc)).getD false).map fun i =>
      Instr.waitmTimeout core (pidOf e.1 % 4) (e.1 % 24) i
  let bars := waves.flatMap fun e =>
    (lanes e fun th => (th.bwait.map fun b => (b.expiry.map fun x => decide (x ≤ cyc)).getD false).getD false).map fun i =>
      Instr.barrierRetryTimeout core (pidOf e.1 % 4) (e.1 % 24) i
  let droop :=
    if c.alarmAt.isSome then []
    else if c.droop == .stretch && c.stretched then [Instr.stretchEnd core]
    else if c.droop == .half then [Instr.halfEnd core]
    else []
  ofWave ++ ofTile ++ masks ++ bars ++ droop

/-- The counters at the end of a cycle (R26), and the droop response held at NORMAL (R33). -/
def Core.countCycle (c : Core) : Core :=
  let c := if c.phase == 2 then
      { c with cyc := c.cyc + 1, cls := c.cls.set c.cmax (c.cls.getD c.cmax 0 + 1) }
    else c
  let c := { c with alarmAt := none, forced := none }
  if c.drpEn && !c.drpoff then c else { c with droop := .normal, drpoff := false }

/-- What the boundary applies: a mapping, and a trim (R23, R25). -/
def Core.applyClock (c : Core) : Core :=
  { c with steps := c.newSteps.getD c.steps, newSteps := none, trim := c.newTrim.getD c.trim, newTrim := none }

/-- Steps that come before what else there is to do. -/
def State.before (s : State) (es : List Instr) : State := { s with todo := es.map Todo.event ++ s.todo }

/-- The next part of the same core cycle, after some events. -/
def State.andThen (s : State) (core phase : Nat) (es : List Instr) : State :=
  (s.modCore core fun c => { c with phase := phase }).before (es ++ [.coreCycle core])

/-- Between two cycles: counters and clock; errors of the core's arrays are found; what waits outside the threads goes on; the
threads filed are placed, and full bins form. Then the aged bins form. -/
def State.startCycle (s : State) (core : Nat) : State :=
  let s := (s.modCore core fun c => c.countCycle.applyClock).meetCore core
  let s := s.fqRetry
  let s := if ((s.core core).queues.any fun e => !e.2.isEmpty) then s.pumpCore core else s
  let pids := (List.range 4).map (core * 4 + ·)
  let s := pids.foldl
    (fun s pid => if (s.parts.find? pid).isNone then s else
      s.modPart pid fun p => { p with bins := p.bins.map fun (n, b) => (n, { b with evict := false }) }) s
  let s := pids.foldl (fun s pid => s.placeAll pid) s
  let s := pids.foldl (fun s pid => if (s.parts.find? pid).isNone then s else s.modPart pid Part.formFull) s
  let cyc := (s.core core).cyc.toNat
  let out := (s.waves.filter fun e => coreOf e.1 == core && s.drained e.1).map fun e =>
    Instr.waveDrainEnd core (pidOf e.1 % 4) (e.1 % 24)
  s.andThen core 3
    (out ++ (List.range 4).flatMap fun k =>
      ((List.range 16).filter fun n => ((s.part (core * 4 + k)).bins.get n {}).aged cyc).map fun n => .binAgeForm core k n)

/-- The bundles at the start of a cycle; then evictions and the age override. -/
def State.formCycle (s : State) (core : Nat) : State :=
  let s := (List.range 4).foldl (State.formBins core) s
  let cyc := (s.core core).cyc.toNat
  s.andThen core 4
    (((List.range 4).filter fun k => (s.part (core * 4 + k)).evicts cyc).map (Instr.filingEviction core) ++
      (if (aged (s.cands core)).isEmpty then [] else [.bundleAgeOverride core]))

/-- The run class, the picks and the length of a cycle (R22, R30, R236); then the partitions issue, and results commit,
partition by partition (log 81). -/
def State.runCycle (s : State) (core : Nat) : State :=
  let cs := s.cands core
  let s := s.modCore core fun c => c.choose cs
  let (picks, s) := (List.range 4).foldl
    (fun (out, s) k =>
      let (n, s) := s.issueOf core cs k
      (out ++ [n], s)) (([] : List (Option Nat)), s)
  let s := (List.range 4).foldl
    (fun s k => if (s.parts.find? (core * 4 + k)).isNone then s else s.modPart (core * 4 + k) Part.shift) s
  let m := s.cmax core
  let s := s.modCore core fun c =>
    let stretched := c.droop == .stretch
    { c with phase := 1, cmax := m, start := s.now, len := c.length m stretched, stretched := stretched }
  let used (k : Nat) : Bool := s.waves.any fun e => pidOf e.1 == core * 4 + k
  { s with
    todo := ((List.range 4).flatMap fun k =>
      ((picks.getD k none).map fun n => Todo.issue core k n).toList ++
        (if used k then [Todo.event (.longLatencyCommit core k)] else [])) ++ s.todo }

/-- The issue of a bundle: held when an earlier issue of the same cycle has taken the room that it needs (R341, R358); one that
fails check 9 never enters X1 (R21, R28). -/
def State.issueBundle (s : State) (core part bin : Nat) : Except State (Instr × State) :=
  let z := s.withBundle core part bin
  let i := s.bundleInstr ((s.part (core * 4 + part)).bins.get bin {})
  if (i.map z.roomFor).getD true then
    (s.fetchBundle core part bin).map fun (i, t) =>
      (i, if z.failsNine i then t.modPart (core * 4 + part) fun p => { p with issued := none } else t)
  else .error s

/-- CORE_CYCLE: a boundary between two cycles of a core, in parts between which the events of the boundary come. -/
def execCoreCycle (core : Nat) (s : State) : Host.Outcome State Fault Refusal :=
  .next (match (s.core core).phase with
  | 1 => s.andThen core 2 (s.cycleEnds core)
  | 3 => s.formCycle core
  | 4 => s.runCycle core
  | _ => s.startCycle core)

end Machine

end Sys2Proof
end

