-- ==== Sys2Proof/Machine/Room.lean ====
section
/-!
DEFINITION. What there is room for (R396, R406, R413, R417, R419, R420): resolved budgets, what is used or reserved of them and
of partitions, cores and core groups, and the cores for some workgroups of a launch.
-/
namespace Sys2Proof.Machine

/-! Resolved fields (R396) -/

/-- The device total of a budget: wave slots, banks, energy, current. -/
def State.deviceTotal (s : State) (k : Nat) : Nat :=
  match k with
  | 0 => 13824
  | 1 => 4032
  | 2 => s.groups.foldl (fun n g => n + g.2.ebud) 0
  | _ => s.groups.foldl (fun n g => n + g.2.ibud) 0

def Region.budget (r : Region) (k : Nat) : Nat :=
  match k with
  | 0 => r.wslots
  | 1 => r.banks
  | 2 => r.energy
  | _ => r.current

/-- A resolved budget of a region. -/
def State.budget (s : State) (tag rcb k : Nat) : Nat :=
  (s.ctx tag).resolve k (fun r => r.budget k) (s.deviceTotal k) (s.ctx tag).depth rcb

/-- The regions from one to its root. -/
def Ctx.path (c : Ctx) : Nat → Nat → List Nat
  | 0, _ => []
  | fuel + 1, rcb =>
    match c.regions.find? rcb with
    | none => []
    | some r => rcb :: (if r.parent == 0 then [] else Ctx.path c fuel r.parent)

def State.path (s : State) (tag rcb : Nat) : List Nat := (s.ctx tag).path (s.ctx tag).depth rcb

/-- The priority of a region, raised while its WAKE is non-zero (R410). -/
def State.priority (s : State) (tag rcb : Nat) : Nat :=
  let c := s.ctx tag
  let wake := ((c.regions.find? rcb).map (·.wake)).getD 0
  min 15 (c.prioOf rcb + (if wake == 0 then 0 else 1))

/-- The operating class of a launch (R396). -/
def State.classOf (s : State) (l : Launch) : Nat :=
  (s.ctx l.tag).resolve 5 (·.opclass) l.hdr.opclass (s.ctx l.tag).depth l.rcb

/-- The declaration of a launch's workgroups (R419). -/
def State.declares (s : State) (l : Launch) : Nat × Nat :=
  (if l.hdr.energy == 0 then s.budget l.tag l.rcb 2 else l.hdr.energy,
    if l.hdr.current == 0 then s.budget l.tag l.rcb 3 else l.hdr.current)

/-- What one workgroup needs of the four budgets. -/
def State.needs (s : State) (l : Launch) : List Nat :=
  let (de, di) := s.declares l
  [l.wpw, l.hdr.s + l.hdr.f, de, di]

/-- The rows of a wave (R268). -/
def KHdr.rows (k : KHdr) : Nat :=
  let n (x : Shape) : Nat := ((List.range k.regs).filter fun r => k.tags.get r .general == x).length
  n .general + (n .uniform + 2 * n .affine + 31) / 32

/-- The waves of a workgroup on one partition (R405). -/
def Launch.perPart (l : Launch) : Nat := (l.wpw + l.np - 1) / l.np

/-- The grid of clusters. -/
def Launch.clusters (l : Launch) : Nat × Nat × Nat := (l.gx / l.hdr.cx, l.gy / l.hdr.cy, l.gz / l.hdr.cz)
def Launch.clusterCount (l : Launch) : Nat :=
  let (nx, ny, nz) := l.clusters
  nx * ny * nz

/-! The reservation of a deterministic launch (R413; log 91) -/

/-- The workgroups of the window, and the whole clusters in it. -/
def Launch.winSize (l : Launch) : Nat := min l.ordwin l.total
def Launch.sets (l : Launch) : Nat := max 1 (l.winSize / max 1 l.members)

/-- A cluster that is not admitted yet will come to place `j`: cluster c comes to place c mod `sets`, and to what is left of the
window beside whole clusters none does, as long as clusters remain. -/
def Launch.comesTo (l : Launch) (j : Nat) : Bool :=
  let k := l.sets
  if k ≤ j then l.admitted < l.clusterCount else l.admitted + (j + k - l.admitted % k) % k < l.clusterCount

/-- The cores with their partitions that a launch has reserved and does not use: those of no workgroup that is still to finish. -/
def State.reservedBy (s : State) (id : Nat) (l : Launch) : List (Nat × List Nat) :=
  if l.over then []
  else
    (List.range l.places.length).flatMap fun j =>
      let set := l.places.getD j []
      if !l.comesTo j then []
      else
        (List.range set.length).filterMap fun i =>
          if s.wgs.any fun e => e.2.launch == id && e.2.cluster % l.sets == j && e.2.member == i && !e.2.over then none
          else set[i]?

/-- Every reserved core, with the launch. -/
def State.reserved (s : State) : List (Launch × Nat × List Nat) :=
  s.launches.flatMap fun (id, l) => if l.places.isEmpty then [] else (s.reservedBy id l).map fun x => (l, x)

/-- What reservations take of a partition, a core or a group. -/
def State.kept (s : State) (here : Nat → List Nat → Bool) (n : Launch → Nat) : Nat :=
  (s.reserved.filter fun x => here x.2.1 x.2.2).foldl (fun k x => k + n x.1) 0

/-! Room (R406, R413) -/

/-- The largest of the numbers up to `n` for which `p` holds with all below it. -/
def countUp (p : Nat → Bool) : Nat → Nat → Nat
  | 0, k => k
  | n + 1, k => if p (k + 1) then countUp p n (k + 1) else k

/-- Of `caps` units, how many takers of `m` different units each there is room for. -/
def sharesOf (caps : List Nat) (m bound : Nat) : Nat :=
  countUp (fun t => t * m ≤ caps.foldl (fun n c => n + min c t) 0) bound 0

/-- Workgroups resident, on the way out or on the way back: what they hold counts against every budget. -/
def Wg.holds (g : Wg) : Bool :=
  match g.st with
  | .resident | .halting _ | .saving _ | .reloading | .restoring _ | .debugged => true
  | _ => false

/-- What is used or reserved of a partition: wave slots, rows, tiles and accumulators (R406). -/
def State.slotsUsed (s : State) (pid : Nat) : Nat :=
  (s.waves.filter fun e => pidOf e.1 == pid).length + s.kept (fun _ ps => ps.contains pid) (·.perPart)
def State.rowsUsed (s : State) (pid : Nat) : Nat :=
  (s.waves.filter fun e => pidOf e.1 == pid).foldl (fun n e => n + (s.launch e.2.launch).hdr.rows) 0 +
    s.kept (fun _ ps => ps.contains pid) fun l => l.perPart * l.hdr.rows
def State.hdrOfWg (s : State) (g : Nat) : KHdr := (s.launch (s.wg g).launch).hdr
def State.tilesUsed (s : State) (pid : Nat) : Nat :=
  (s.part pid).allocs.foldl (fun n e => n + (s.hdrOfWg e.1).tiles) 0 + s.kept (fun _ ps => ps.contains pid) (·.hdr.tiles)
def State.accsUsed (s : State) (pid : Nat) : Nat :=
  (s.part pid).allocs.foldl (fun n e => n + (s.hdrOfWg e.1).accs) 0 + s.kept (fun _ ps => ps.contains pid) (·.hdr.accs)

/-- Banks owned or reserved on a core (R273). -/
def State.banksUsed (s : State) (core : Nat) : Nat :=
  ((s.core core).banks.filter fun e => e.2.owner.isSome).length + s.kept (fun c _ => c == core) fun l => l.hdr.s + l.hdr.f

/-- How many workgroups of a launch a partition has room for. -/
def State.partRoom (s : State) (l : Launch) (pid : Nat) : Nat :=
  let h := l.hdr
  let div (a b : Nat) : Nat := if b == 0 then 24 else a / b
  min (min (div (24 - s.slotsUsed pid) l.perPart) (div (2048 - s.rowsUsed pid) (l.perPart * h.rows)))
    (min (div (16 - s.tilesUsed pid) h.tiles) (div (4 - s.accsUsed pid) h.accs))

/-- How many workgroups of a launch a core has room for. -/
def State.coreRoom (s : State) (l : Launch) (core : Nat) : Nat :=
  let banks := l.hdr.s + l.hdr.f
  let parts := (List.range 4).map fun k => s.partRoom l (core * 4 + k)
  let most := if banks == 0 then 96 else (28 - s.banksUsed core) / banks
  min most (sharesOf parts l.np 96)

/-- What is left of a group's budgets: EBUD and IBUD less debts and the declarations of residents and reservations (R420). -/
def State.groupLeft (s : State) (group : Nat) (energy : Bool) : Int :=
  let g := s.groups.get group {}
  let wgs := s.wgs.filter fun e => e.2.core / 8 == group && e.2.holds
  let kept := s.kept (fun c _ => c / 8 == group) fun l => if energy then (s.declares l).1 else (s.declares l).2
  if energy then (g.ebud : Int) - g.debtE - ((wgs.foldl (fun n e => n + e.2.de) kept : Nat) : Int)
  else (g.ibud : Int) - g.debtI - ((wgs.foldl (fun n e => n + e.2.di) kept : Nat) : Int)

/-- What is used of a region's budget `k`: by workgroups that are resident, banks also by those in shadow storage (R435), and
by reservations. -/
def State.used (s : State) (tag rcb k : Nat) : Nat :=
  let under (l : Launch) : Bool := l.tag == tag && (s.path tag l.rcb).contains rcb
  let held := s.wgs.foldl
    (fun n e =>
      let l := s.launch e.2.launch
      let counts := e.2.holds || (k == 1 && e.2.st == .shadow)
      if counts && under l then n + (match k with
        | 0 => l.wpw
        | 1 => l.hdr.s + l.hdr.f
        | 2 => e.2.de
        | _ => e.2.di) else n) 0
  s.reserved.foldl (fun n x => if under x.1 then n + (s.needs x.1).getD k 0 else n) held

/-- `n` workgroups of a launch fit every budget on the path to the root. -/
def State.pathFits (s : State) (l : Launch) (n : Nat) (needs : List Nat) : Bool :=
  (s.path l.tag l.rcb).all fun x =>
    let r := ((s.ctx l.tag).regions.find? x).getD {}
    (List.range 4).all fun k =>
      let debt := if k == 2 then r.debtE else if k == 3 then r.debtI else 0
      let need := n * needs.getD k 0
      need == 0 || s.used l.tag x k + debt + need ≤ s.budget l.tag x k

/-! Cores (R406) -/

/-- The partitions of a core with room for a workgroup, and the lowest that it takes. -/
def State.partsFor (s : State) (l : Launch) (core : Nat) : Option (List Nat) :=
  let ps := ((List.range 4).map (core * 4 + ·)).filter fun p => 0 < s.partRoom l p
  if s.coreRoom l core == 0 then none else some (ps.take l.np)

/-- A group may take `n` workgroups of a launch: its class, its state, its budgets (R417, R420). -/
def State.groupTakes (s : State) (l : Launch) (n group : Nat) : Bool :=
  let g := s.groups.get group {}
  let (de, di) := s.declares l
  g.oc == s.classOf l && g.st == 0 && ((n * de : Nat) : Int) ≤ s.groupLeft group true && ((n * di : Nat) : Int) ≤ s.groupLeft group false

/-- The lowest cores of a group for `n` workgroups, with their partitions. -/
def State.coresIn (s : State) (l : Launch) (n group : Nat) : Option (List (Nat × List Nat)) :=
  let cs := (List.range 8).filterMap fun i => (s.partsFor l (8 * group + i)).map fun ps => (8 * group + i, ps)
  if n ≤ cs.length then some (cs.take n) else none

/-- The cores for `n` workgroups of a launch: of the lowest group that will do among some. -/
def State.coresFor (s : State) (l : Launch) (n : Nat) (groups : List Nat) : Option (List (Nat × List Nat)) :=
  groups.findSome? fun k => if s.groupTakes l n k then s.coresIn l n k else none

/-- Some cores with their partitions have room for a workgroup of a launch each. -/
def State.coresTake (s : State) (l : Launch) (cs : List (Nat × List Nat)) : Bool :=
  (cs.head?.map fun c => s.groupTakes l cs.length (c.1 / 8)).getD false &&
    cs.all fun (core, ps) => s.coreRoom l core != 0 && ps.all fun p => s.partRoom l p != 0

/-- Reserves cores for clusters of the given sizes, each the lowest there are (R413). -/
def State.reserve (id : Nat) : List Nat → State → Option State
  | [], s => some s
  | n :: ns, s =>
    (s.coresFor (s.launch id) n (List.range 18)).bind fun cs =>
      State.reserve id ns (s.modLaunch id fun l => { l with places := l.places ++ [cs] })

/-- The sizes of the clusters in a launch's window, and of what is left of it. -/
def Launch.sizes (l : Launch) : List Nat :=
  let m := max 1 l.members
  List.replicate (l.winSize / m) m ++ (if l.winSize % m == 0 then [] else [l.winSize % m])

/-- The device with nothing on it, at the class of a launch, which is its launch 0. -/
def State.emptyFor (s : State) (l : Launch) : State :=
  { s with
    waves := [], wgs := [], launches := [(0, { l with admitted := 0, retired := 0, places := [] })]
    parts := s.parts.map fun (n, p) => (n, { p with allocs := [] })
    cores := s.cores.map fun (n, c) => (n, { c with banks := [] })
    groups := (List.range 18).map fun k => (k, { s.groups.get k {} with oc := s.classOf l, st := 0, debtE := 0, debtI := 0 }) }

/-- PROFILE and RESOURCES (R403): 0 when the launch may be admitted. A declaration that no core group's budgets hold can never
fit (R419). -/
def State.gateCode (s : State) (l : Launch) : Nat :=
  let h := l.hdr
  let c := s.ctx l.tag
  let (de, di) := s.declares l
  let path := s.path l.tag l.rcb
  let m := l.members
  let wavesBad := 2048 < l.perPart * h.rows || 24 < l.perPart
  let banksBad := 28 < h.s + h.f || m * h.s * 32768 < h.scratch
  let declBad := !((List.range 18).any fun k =>
      decide (de ≤ (s.groups.get k {}).ebud) && decide (di ≤ (s.groups.get k {}).ibud)) ||
    path.any fun x => s.budget l.tag x 2 < de || s.budget l.tag x 3 < di
  let windowBad := h.determ && (l.ordwin < m ||
    (path.any fun x => (List.range 4).any fun k => s.budget l.tag x k < l.winSize * (s.needs l).getD k 0) ||
    (State.reserve 0 l.sizes (s.emptyFor l)).isNone)
  if h.profile != 3 && (match c.prof with
      | some p => p.grouping != h.profile || c.loads.any (·.begun)
      | none => true) then 4
  else if wavesBad || banksBad || declBad || windowBad then 5
  else 0

end Sys2Proof.Machine
end

