-- ==== Sys2Proof/Machine/Region.lean ====
section
/-!
DEFINITION. Regions and launches as the scheduler reads them (R395 to R403): control blocks and anchor watches, launch
records and kernel headers with their checks, and SCHEDULER_WATCH.
-/
namespace Sys2Proof.Machine

/-! Reading the context's memory as the scheduler (R397, R400, R427) -/

/-- Reads bytes line by line; none on a fault of either class, and on a line that answers no read (R473). -/
def State.readBlock (s : State) (tag va n : Nat) : Option (List Byte) :=
  (rangeChunks va n).foldl
    (fun r (a, k) =>
      r.bind fun bs =>
        match s.xlat none tag true .read a with
        | .ok pa _ => if s.lineBad (pa / 128) then none else some (bs ++ s.read pa k)
        | .fault _ _ => none) (some [])

/-- The 8-byte words of some bytes. -/
def wordsOf (bs : List Byte) : List Nat := (List.range (bs.length / 8)).map fun i => wordOfBytes ((bs.drop (8 * i)).take 8)

def State.readWords (s : State) (tag va n : Nat) : Option (List Nat) := (s.readBlock tag va (8 * n)).map wordsOf

/-- The 56-bit address of a field. -/
def adr (w : List Nat) (n : Nat) : Nat := fld (w.getD n 0) 0 56

/-! Headers (R402) -/

/-- The header of a kernel. -/
def parseHdr (bs : List Byte) : KHdr :=
  let w (a n : Nat) : Nat := bfld bs a n
  let code (r : Nat) : Nat := fld (w (64 + r / 4) 1) (2 * (r % 4)) 2
  let regs := w 12 1
  { codesz := w 4 4, entry := w 8 4, regs := regs, tiles := w 13 1, accs := w 14 1, opclass := fld (w 15 1) 5 3
    determ := bitAt (w 15 1) 4, profile := fld (w 15 1) 0 2, scratch := w 16 4, s := w 20 1, f := w 21 1, cx := w 22 1
    cy := w 23 1, cz := w 24 1, energy := w 28 4, current := w 32 4, patmask := w 36 2
    tags := (List.range regs).foldl
      (fun t r => if code r == 1 then t.put r .uniform else if code r == 2 then t.put r .affine else t) []
    pats := (List.range 16).foldl
      (fun t n =>
        if bitAt (w 36 2) n then t.put n ((List.range 32).map fun l => (w (128 + 32 * n + l) 1) % 32) else t) [] }

/-- A header field is out of range, misaligned or reserved (R402, R403). -/
def hdrBad (bs : List Byte) (k : KHdr) : Bool :=
  let w (a n : Nat) : Nat := bfld bs a n
  w 0 4 != 1 || k.codesz < 8 || k.codesz % 8 != 0 || k.entry % 8 != 0 || k.codesz ≤ k.entry || k.regs == 0 ||
    16 < k.tiles || 4 < k.accs || fld (w 15 1) 2 2 != 0 || k.scratch % 128 != 0 || 32 < k.s + k.f ||
    k.cx == 0 || k.cy == 0 || k.cz == 0 || 8 < k.cx * k.cy * k.cz || w 25 3 != 0 || w 38 26 != 0 || w 640 384 != 0 ||
    ((List.range k.regs).any fun r => fld (w (64 + r / 4) 1) (2 * (r % 4)) 2 == 3) ||
    (List.range 512).any fun i => 32 ≤ w (128 + i) 1

/-! Records (R401, R403) -/

/-- The launch of a record and a header. -/
def State.newLaunch (s : State) (tag rcb record : Nat) (w : List Nat) (hdr : KHdr) : Launch :=
  { tag := tag, rcb := rcb, record := record, khdr := adr w 1, args := BitVec.ofNat 64 (w.getD 2 0)
    gx := fld (w.getD 3 0) 0 16, gy := fld (w.getD 3 0) 16 16, gz := fld (w.getD 3 0) 32 16
    stackz := fld (w.getD 4 0) 32 32, ordwin := fld (w.getD 4 0) 16 16, serial := bitAt (w.getD 4 0) 15
    np := 2 ^ fld (w.getD 4 0) 12 3, tpw := fld (w.getD 4 0) 0 11, stackbase := adr w 5, hdr := hdr, since := s.now }

/-- A record's field is out of range, misaligned or reserved. -/
def recordBad (record : Nat) (w : List Nat) (l : Launch) : Bool :=
  let h := l.hdr
  record % 128 != 0 || fld (w.getD 0 0) 56 8 != 0 || adr w 0 % 128 != 0 || fld (w.getD 1 0) 56 8 != 0 || l.khdr % 1024 != 0 ||
    fld (w.getD 3 0) 48 16 != 0 || l.stackz % 16 != 0 || 2 < fld (w.getD 4 0) 12 3 || bitAt (w.getD 4 0) 11 || l.tpw == 0 ||
    1024 < l.tpw || fld (w.getD 5 0) 56 8 != 0 || l.stackbase % 16 != 0 || w.getD 7 0 != 0 || l.gx == 0 || l.gy == 0 ||
    l.gz == 0 || l.gx % h.cx != 0 || l.gy % h.cy != 0 || l.gz % h.cz != 0 || (l.ordwin != 0) != h.determ

/-- The code with which a record fails its checks, or 0, and the launch that it describes: its words and its header are read
(R403). -/
def State.checkRecord (s : State) (tag rcb record : Nat) (words : Option (List Nat)) : Nat × Launch :=
  let w := words.getD []
  match words.bind fun w => s.readBlock tag (adr w 1) 1024 with
  | none => (3, s.newLaunch tag rcb record w (parseHdr []))
  | some bs =>
    let l := s.newLaunch tag rcb record w (parseHdr bs)
    (if hdrBad bs l.hdr || recordBad record w l then 1 else s.gateCode l, l)

/-! Activity -/

/-- A region is ACTIVE while a launch of it is POSTED or ADMITTED (R398). -/
def State.activity (s : State) (tag rcb : Nat) : State :=
  match (s.ctx tag).regions.find? rcb with
  | none => s
  | some r =>
    let n := if (s.launchesOf tag rcb).isEmpty then 0 else 1
    if r.st ≤ 1 && r.st != n then s.setRegion tag rcb n r.code else s

/-- A record is consumed (R400, R403): the launch joins its region's queue, or fails. -/
def State.postLaunch (s : State) (tag rcb record : Nat) (words : Option (List Nat)) : State :=
  let (code, l) := s.checkRecord tag rcb record words
  let (id, s) := s.newId
  let s := { s with launches := s.launches.put id l }
  let s := (s.modRegion tag rcb fun r => { r with queue := r.queue ++ [id] }).activity tag rcb
  if code == 0 then s else (s.failLaunch id code).activity tag rcb

/-- Steps enough to follow every link that memory holds. -/
def State.links (s : State) : Nat := 256 * (s.mem.length + 2)

/-- Consumes the records from one on (R400), to the first that cannot be read; the last record consumed. -/
def State.consume (tag rcb : Nat) : Nat → List Nat → Nat → Nat → State → Nat × State
  | 0, _, cursor, _, s => (cursor, s)
  | fuel + 1, seen, cursor, n, s =>
    if n == 0 || seen.contains n then (cursor, s)
    else
      match s.readWords tag n 8 with
      | none => (n, s.postLaunch tag rcb n none)
      | some w => State.consume tag rcb fuel (n :: seen) n (adr w 0) (s.postLaunch tag rcb n (some w))

/-! Control blocks (R395, R397) -/

/-- A control block breaks R397. -/
def rcbBad (root : Bool) (w : List Nat) : Bool :=
  ((List.range 5).any fun k => fld (w.getD k 0) 56 8 != 0) || bitAt (w.getD 5 0) 27 || (w.drop 11).any (· != 0) ||
    (!root && fld (w.getD 5 0) 8 8 != 0) || adr w 3 == 0 || adr w 3 % 8 != 0

/-- The anchor word's place in device memory. -/
def State.anchorAt (s : State) (tag va : Nat) : Option Nat :=
  match s.xlat none tag true .read va with
  | .ok pa _ => if deviceMem pa then some pa else none
  | .fault _ _ => none

/-- A region with the fields that software writes. -/
def Region.load (r : Region) (parent : Nat) (w : List Nat) : Region :=
  let x := w.getD 5 0
  { r with
    parent := parent, child := adr w 1, sibling := adr w 2, anchor := adr w 3, lqhead := adr w 4
    wslots := fld x 48 16, banks := fld x 32 16, prio := fld x 28 4, opclass := fld x 24 3, fdom := fld x 16 8
    enable := bitAt x 7, ovr := fld x 0 7, energy := fld (w.getD 6 0) 32 32, current := fld (w.getD 6 0) 0 32, linked := true }

/-- A region that joins the tree takes what its block holds in the device's fields, which software may have written before
(R395; log 90). -/
def Region.join (r : Region) (w : List Nat) : Region :=
  let x := w.getD 7 0
  { r with
    lret := fld x 32 32, code := fld x 8 8, st := fld x 0 8, wake := BitVec.ofNat 64 (w.getD 8 0)
    consumed := BitVec.ofNat 64 (w.getD 9 0), cursor := adr w 10, cut := false, held := false }

/-- A region is FAULTED for its block (R397). -/
def State.cutRegion (s : State) (tag rcb code : Nat) : State :=
  (s.modRegion tag rcb fun r => { r with cut := true }).setRegion tag rcb 2 code

/-- Reads a region's block (R397). 0, or the CODE with which the region is FAULTED: 2 for a block that breaks the rule, of which
the links are known, and 3 for one that cannot be read, below `parent`. -/
def State.readRegion (s : State) (tag rcb parent : Nat) : Nat × State :=
  let c := s.ctx tag
  let old := c.regions.find? rcb
  let put (r : Region) : State := s.modCtx tag fun c => { c with regions := c.regions.put rcb r }
  match s.readWords tag rcb 16 with
  | none => (3, (put (old.getD { parent := parent })).cutRegion tag rcb 3)
  | some w =>
    let root := c.root == rcb
    let kept := (old.map (·.linked)).getD false
    let r := old.getD {}
    let s := put ((if kept then r else r.join w).load (if root then 0 else adr w 0) w)
    let s := if kept then s else (s.clearWake tag rcb).activity tag rcb
    if rcb % 128 != 0 || rcbBad root w || (s.anchorAt tag (adr w 3)).isNone || (s.path tag rcb).tail.contains rcb then
      (2, s.cutRegion tag rcb 2)
    else (0, s)

/-- A region below one whose block could not be taken is not scheduled (R397). -/
def State.cutOff (s : State) (tag rcb : Nat) : Bool :=
  (s.path tag rcb).tail.any fun x => (((s.ctx tag).regions.find? x).map (·.cut)).getD false

/-- Arms a region's anchor watch (R326, R398): ne against the value last consumed. A watch that has to wait gives CODE 11. -/
def State.armRegion (s : State) (tag rcb : Nat) : State :=
  match (s.ctx tag).regions.find? rcb with
  | none => s
  | some r =>
    match if r.anchor == 0 then none else s.anchorAt tag r.anchor with
    | none => s
    | some pa =>
      let s := (s.modRegion tag rcb fun r => { r with watched := true }).schedWatch pa true r.consumed (.region tag rcb)
      if s.arming.any fun e => e.waiter == .region tag rcb then s.setRegion tag rcb r.st 11 else s

/-- A region to visit: its address, the region above it, whether a watch of it is armed, and the regions whose links lead here,
the last first. -/
structure Visit where
  rcb    : Nat
  parent : Nat
  arm    : Bool
  trail  : List Nat
  deriving DecidableEq, Repr, Inhabited

/-- Walks the regions below one (R397, R398): each is read again, and a child of the region itself that has no watch is
armed, as is a region that was held. A link that leads back faults the region that holds it. The regions met, and those below
which the walk has not come. -/
def State.walkTree (tag : Nat) : Nat → List Nat → List Nat → List Visit → State → (List Nat × List Nat) × State
  | 0, seen, cuts, _, s => ((seen, cuts), s)
  | _, seen, cuts, [], s => ((seen, cuts), s)
  | fuel + 1, seen, cuts, v :: vs, s =>
    if v.rcb == 0 then State.walkTree tag fuel seen cuts vs s
    else if v.trail.contains v.rcb then State.walkTree tag fuel seen cuts vs (s.cutRegion tag (v.trail.headD 0) 2)
    else if seen.contains v.rcb then State.walkTree tag fuel seen cuts vs s
    else
      let (code, s) := s.readRegion tag v.rcb v.parent
      let r := ((s.ctx tag).regions.find? v.rcb).getD {}
      let next : Visit := ⟨r.sibling, v.parent, v.arm, v.rcb :: v.trail⟩
      let down : Visit := ⟨r.child, v.rcb, false, v.rcb :: v.trail⟩
      let seen := v.rcb :: seen
      match code with
      | 0 =>
        let s := if (v.arm || r.held) && !r.watched && !s.cutOff tag v.rcb then s.armRegion tag v.rcb else s
        State.walkTree tag fuel seen cuts (next :: down :: vs) s
      | 2 => State.walkTree tag fuel seen (v.rcb :: cuts) (next :: vs) s
      | _ => State.walkTree tag fuel seen (v.parent :: cuts) vs s

/-- Regions below one that a walk would have met lose their watches (R326): they have left the tree. -/
def State.dropUnlinked (s : State) (tag rcb : Nat) (seen cuts : List Nat) : State :=
  let below := ((s.ctx tag).regions.map (·.1)).filter fun x =>
    let p := s.path tag x
    x != rcb && p.contains rcb && !seen.contains x && !p.any cuts.contains
  below.foldl
    (fun s x =>
      (s.withdrawWatches fun i => i == .region tag x).modRegion tag x fun r =>
        { r with watched := false, linked := false, held := false }) s

/-- A region FAULTED or KILLED that software has enabled again is IDLE (R412). -/
def State.reenable (s : State) (tag rcb : Nat) : State :=
  match (s.ctx tag).regions.find? rcb with
  | some r =>
    if 2 ≤ r.st && r.enable && !(s.ctx tag).ended then
      (s.modRegion tag rcb fun r => { r with cut := false }).setRegion tag rcb 0 0
    else s
  | none => s

/-- The anchor value `a` is consumed, and the watch is armed against it (R400). -/
def State.consumed (s : State) (tag rcb : Nat) (a : DWord) : State :=
  ((s.modRegion tag rcb fun r => { r with consumed := a }).writeVaWord tag (rcb + 72) 8 a.toNat).armRegion tag rcb

/-- One satisfaction of a region's watch, with the value `a` (R397, R398, R400). Below a block that could not be taken it is
kept until that has changed. -/
def State.regionFired (s : State) (tag rcb : Nat) (a : DWord) : State :=
  match (s.ctx tag).regions.find? rcb with
  | none => s
  | some old =>
    let s := s.modRegion tag rcb fun r => { r with watched := false, held := false }
    match s.readRegion tag rcb old.parent with
    | (0, s) =>
      if s.cutOff tag rcb then s.modRegion tag rcb fun r => { r with held := true }
      else
        let s := s.reenable tag rcb
        let r := ((s.ctx tag).regions.find? rcb).getD {}
        let ((seen, cuts), s) := State.walkTree tag s.links [rcb] [] [⟨r.child, rcb, true, s.path tag rcb⟩] s
        let s := s.dropUnlinked tag rcb seen cuts
        let r := ((s.ctx tag).regions.find? rcb).getD {}
        let first := if r.cursor == 0 then some r.lqhead else (s.readWords tag r.cursor 1).map fun w => adr w 0
        let (cur, s) := if 2 ≤ r.st then (r.cursor, s) else State.consume tag rcb s.links [] r.cursor (first.getD 0) s
        let s := (s.modRegion tag rcb fun r => { r with cursor := cur }).writeVaWord tag (rcb + 80) 8 cur
        (s.consumed tag rcb a).at s.now .admission
    | (_, s) => s.consumed tag rcb a

/-- SCHEDULER_WATCH (R400): the anchor watch of a region is satisfied. -/
def execSchedulerWatch (tag rcb : Nat) (s : State) : Host.Outcome State Fault Refusal :=
  .next (match s.watches.find? fun e => e.waiter == .region tag rcb && e.st != .armed with
  | none => s
  | some e =>
    let a := match e.st with
      | .satisfied x => x
      | _ => 0
    (s.freeWatch e).regionFired tag rcb a)

end Sys2Proof.Machine
end

