-- ==== Sys2Proof/Machine/Waiting.lean ====
section
/-!
DEFINITION. WAITU (R350, R351), and what ends its waits: satisfied and expired entries (R318, R319, R322, R324, R415),
the arming list (R326), and the response to a replayable fault (R445).
-/
namespace Sys2Proof.Machine

/-- What a WAITU's address gives a thread (R329, R351): the physical address and leaf, a trap, or a page to wait for. -/
inductive WatchAt where
  | at_ (pa pte : Nat)
  | trap (tr : Trap)
  | page (va level : Nat)
  deriving DecidableEq, Repr, Inhabited

/-- The checks of R351 in the order of R329; the registration is an atomic read at system scope (R317). -/
def State.watchAt (s : State) (t : TId) (va size : Nat) : WatchAt :=
  if va % size != 0 then .trap (.general .misaligned (aux := size) (addr := va))
  else if isAperture va then .trap (.general .watchTarget (addr := va))
  else
    match s.xlat (some t.core) (s.wave t.w).tag (s.privileged t) .read va with
    | .fault 1 level => .page va level
    | .fault cause level => .trap (.translation .read cause level va)
    | .ok pa pte =>
      if !deviceMem pa then .trap (.general .watchTarget (addr := va))
      else if s.lineBad (pa / 128) then .trap (.translation .read 12 0 va)
      else
        match if pteChk pte then s.raceCheck t 0 pa size va false false (some .system) else none with
        | some tr => .trap tr
        | none => .at_ pa pte

/-- What the threads of a bundle that share a watch have in common, besides the comparison and the width (R312). -/
structure WatchKey where
  w    : Nat
  pa   : Nat
  y    : DWord
  d    : Nat
  deriving DecidableEq, Repr

/-- A thread at a watch: its virtual address, and whether its page is checked. -/
structure Watcher where
  t   : TId
  va  : Nat
  chk : Bool
  deriving DecidableEq, Repr

/-- The threads of each watch, in the order of their first lanes. -/
def watchGroups : List (WatchKey × Watcher) → List (WatchKey × List Watcher)
  | [] => []
  | (k, t) :: rest =>
    let mine := rest.filter fun e => e.1 == k
    (k, t :: mine.map (·.2)) :: (watchGroups rest).filterMap fun g => if g.1 == k then none else some g

/-- The lowest linear index above a workgroup's that has not been admitted, in a deterministic launch (R415). -/
def State.inversion (s : State) (launch lin : Nat) : Option Nat :=
  let L := s.launch launch
  let n := L.admitted * L.members
  if !L.hdr.determ then none else if max n (lin + 1) < L.total then some (max n (lin + 1)) else none

def inversionTrap (k : Nat) (va pc : DWord) : Trap :=
  .general .orderInversion (aux := k) (addr := va.toNat) (iaddr := pc.toNat)

/-- The threads of a wave acquire what the satisfying write carries (R291, R317). -/
def State.watchAcquire (s : State) (ts : List TId) (snaps : List RelSnap) : State :=
  ts.foldl
    (fun s t =>
      let s := s.modThread t fun th => { th with readRels := (th.readRels ++ snaps.filter (·.fence)).eraseDups }
      s.acquireFrom t.w .system snaps) s

/-- What a WAITU writes (R314, R350). -/
def watchOut (d : WatchDest) (x : DWord) (ok : Bool) : Out := { regs := putNum d.wide d.dest x.toNat, preds := [(d.ps, ok)] }

/-- The threads of one watch register it (R313): those that go on at once, with what they write. -/
def State.waitGroup (s : State) (h : WatchDest) (cm : CM) (k : WatchKey) (ws : List Watcher) : List (TId × Out) × State :=
  let x := s.wave k.w
  let ts := ws.map (·.t)
  let chk := ws.any (·.chk)
  let s := if chk then s.raceNote (s.who k.w) 0 k.pa (if h.wide then 8 else 4) false (some .system) false else s
  let lanes := BitVec.ofNat 32 ((ts.map fun t => 2 ^ t.lane).foldl (· + ·) 0)
  let (ans, s) := s.register k.pa h.wide chk cm k.y k.d (.wave x.tag x.wid lanes)
  let give (x : DWord) (ok : Bool) : List (TId × Out) := ts.map fun t => (t, watchOut h x ok)
  match ans with
  | .satisfied v => (give v true, s.watchAcquire ts (s.carried 0 k.pa (if h.wide then 8 else 4)))
  | .full v => (give v false, s)
  | .deadline v =>
    match s.inversion x.launch (s.wg x.wg).lin with
    | some n => ([], ws.foldl (fun s u => s.raise u.t (inversionTrap n (BitVec.ofNat 64 u.va) h.pc) h.pc) s)
    | none => (give v false, s)
  | .armed =>
    ([], ws.foldl
      (fun s u =>
        (s.modThread u.t fun th =>
          { th with st := .watching, pc := h.pc, wdest := some { h with va := BitVec.ofNat 64 u.va } }).leaveBundle u.t) s)

/-- WAITU (R350, R351): in a deterministic launch it ends a turn (R307). -/
def execWaitu (h : Hd) (d a b : Nat) (off : Int) (cm : CM) (w : Bool) (ps : Nat) (s : State) :
    Host.Outcome State Fault Refusal :=
  let size := if w then 8 else 4
  let va (t : TId) : Nat := (s.gaddr t a off).toNat
  let late := (s.active h).filterMap fun t =>
    match s.watchAt t (va t) size with
    | .page va level => some (t, va, level)
    | _ => none
  let s := late.foldl
    (fun s (t, va, level) =>
      let acc := { s.memAccess t false (BitVec.ofNat 64 va) size (.again false) .system true false 0 with pc := s.cur.pc }
      (s.parkPage t va AccType.read.code level acc).leaveBundle t) s
  let s := { s with cur := { s.cur with threads := s.cur.threads.filter fun t => !(late.any fun e => e.1 == t) } }
  .next (if s.cur.threads.isEmpty then s.settle false
  else
    s.turnEvent h fun s =>
      let s1 := s.begin h (dests w d) [ps]
      let ts := laneOrder (s.acting s1 h)
      let dest : WatchDest := { dest := d, wide := w, ps := ps, pc := s.cur.pc, va := 0 }
      let s1 := ts.foldl
        (fun z t =>
          match s.watchAt t (va t) size with
          | .trap tr => z.raise t tr s.cur.pc
          | _ => z) s1
      let keys := ts.filterMap fun t =>
        match s.watchAt t (va t) size with
        | .at_ pa pte =>
          some (WatchKey.mk t.w pa (if w then s.rd64 t b else BitVec.ofNat 64 (s.rd t b).toNat)
            (s.rd t (if w then b + 2 else b + 1)).toNat, (⟨t, va t, pteChk pte⟩ : Watcher))
        | _ => none
      let (outs, s1) := (watchGroups keys).foldl
        (fun ((outs, z) : List (TId × Out) × State) (k, ws) =>
          let (o, z) := z.waitGroup dest cm k ws
          (outs ++ o, z)) ([], s1)
      (s1.writeNow 0 outs).settle false)

/-! The end of a wait -/

/-- The place of a resident wave that is not halted, being saved or being restored, by context and WID. -/
def State.waveOf (s : State) (tag : Nat) (wid : BitVec 24) : Option Nat :=
  (s.waves.first fun e =>
    e.2.tag == tag && e.2.wid == wid && !e.2.halted && !((s.wg e.2.wg).image.any fun x => x.wid == wid)).map (·.1)

/-- The wake mask of the region that owns a saved wave (R324, R395). -/
def State.setWake (s : State) (tag : Nat) (wid : BitVec 24) : State :=
  match s.wgs.first fun e => (s.launch e.2.launch).tag == tag && e.2.image.any fun x => x.wid == wid with
  | none => s
  | some (_, g) =>
    let rcb := (s.launch g.launch).rcb
    let s := s.modRegion tag rcb fun r => { r with wake := setBit r.wake (g.lin % 64) true }
    let v := ((s.ctx tag).regions.find? rcb).map (·.wake)
    (s.writeVaWord tag (rcb + 64) 8 ((v.getD 0).toNat)).at s.now .admission

/-- The threads of an entry return from their WAITU (R314, R318, R351); the entry is free already. -/
def State.deliverWatch (s : State) (w : Nat) (e : Watch) : State :=
  let lanes := match e.waiter with
    | .wave _ _ l => l
    | _ => 0
  let ts : List TId := ((List.range 32).filter fun i => lanes.getLsbD i && ((s.wave w).thread i).st == .watching).map (⟨w, ·⟩)
  let outs := ts.filterMap fun t => (s.thread t).wdest.map fun d => (t, d)
  let clear (s : State) : State := ts.foldl (fun s t => s.modThread t fun th => { th with wdest := none }) s
  let give (s : State) (x : DWord) (ok : Bool) : State :=
    let vals := outs.map fun (t, d) => (t, d, watchOut d x ok)
    let ps := vals.flatMap fun (t, _, o) => s.puts t o.regs
    match (putRegs ps).find? fun (v, r) => !s.fits ps v r with
    | some (_, r) => vals.foldl (fun s (t, d, _) => s.trapNow t (.general .shape (reg := r)) d.pc) (clear s)
    | none =>
      let s := vals.foldl (fun s (t, _, o) => (s.putThread t o.regs).putPreds t o.preds) ((clear s).putAll ps)
      vals.foldl (fun s (t, d, _) => (s.modThread t fun th => { th with pc := d.pc + 8 }).release t) s
  match e.st with
  | .armed => s
  | .satisfied x => give (s.watchAcquire ts e.snaps) x true
  | .deadline x none => give s x false
  | .deadline _ (some k) => outs.foldl (fun s (t, d) => s.trapNow t (inversionTrap k d.va d.pc) d.pc) (clear s)

/-- A fired entry of a wave: delivered and freed where the wave is resident, kept with its wake bit set where it is saved
(R318, R324). -/
def State.wakeWatch (s : State) (e : Watch) : State :=
  match e.waiter with
  | .wave tag wid _ =>
    match s.waveOf tag wid with
    | some w => (s.freeWatch e).deliverWatch w ((s.entryNow e).getD e)
    | none => s.setWake tag wid
  | _ => s

/-- WATCH_WAKE (R318, R324). -/
def execWatchWake (_slice entry : Nat) (s : State) : Host.Outcome State Fault Refusal :=
  .next (match s.watches.find? fun e => e.id == entry with
  | some e => if e.st == .armed then s else s.wakeWatch e
  | none => s)

/-- An entry whose deadline has come fires with the value at the end of the slice cycle (R319, R415), which this evaluation
reads (R317). -/
def State.expireWatch (s : State) (e : Watch) : State :=
  let s := s.noteWatch e
  let inv :=
    match e.waiter with
    | .wave tag wid _ =>
      ((s.wgs.first fun g =>
        (s.launch g.2.launch).tag == tag &&
          (g.2.image.any (fun x => x.wid == wid) || s.waves.any fun x => x.2.wg == g.1 && x.2.wid == wid)).bind fun g =>
        s.inversion g.2.launch g.2.lin)
    | _ => none
  s.fire e (.deadline (s.watched e) inv)

/-- WATCH_DEADLINE (R319). -/
def execWatchDeadline (_slice entry : Nat) (s : State) : Host.Outcome State Fault Refusal :=
  .next (match s.watches.find? fun e => e.id == entry with
  | some e => if e.st == .armed then s.expireWatch e else s
  | none => s)

/-- SPILL_DEADLINE_SCAN (R320, R322): the spilled entries of a slice, as the spill area holds them, whose deadline the scan finds
reached in the slice cycle that ends. -/
def execSpillDeadlineScan (slice : Nat) (s : State) : Host.Outcome State Fault Refusal :=
  .next (((s.watches.filter fun e => e.slice == slice && e.spill.isSome).filterMap s.entryNow).foldl
    (fun s e => if e.st == .armed && (e.deadline.map fun d => decide (d < s.now)).getD false then s.expireWatch e else s) s)

/-- WTSTAT_CLR (R327): the FULL count of the context that an SWR of it names, the one of the present bundle. -/
def State.clearFull (s : State) (tag : Nat) : State := s.modCtx tag fun c => { c with wtfull := 0 }

/-- A region whose anchor watch is armed at last: CODE NOWATCH goes (R326). -/
def State.watchPlaced (s : State) (i : Waiter) : State :=
  match i with
  | .region tag rcb =>
    match (s.ctx tag).regions.find? rcb with
    | some r => if r.code == 11 then s.setRegion tag rcb r.st 0 else s
    | none => s
  | _ => s

/-- SCHEDULER_WATCH_ARM (R326): the waiting watches that find a place now, the oldest first. -/
def execSchedulerWatchArm (s : State) : Host.Outcome State Fault Refusal :=
  .next (s.arming.foldl
    (fun s e =>
      match s.tryWatch e with
      | some s => { s with arming := s.arming.filter fun x => x.id != e.id }.watchPlaced e.waiter
      | none => s) s)

/-! The response to a replayable fault (R445) -/

/-- A page of a context: the threads that wait for it. -/
def State.pageWaiters (s : State) (tag page : Nat) : List TId :=
  (s.parkedOn (· == .fault page)).filter fun t => (s.wave t.w).tag == tag

/-- A waiting access is refused (R442 cause 7): the trap, or for an EGO the command that ends with FAULT (R363). -/
def State.refuse (s : State) (t : TId) : State :=
  match (s.thread t).pend with
  | none => s.release t
  | some a =>
    match a.kind with
    | .ego v ecmd seq _ =>
      (s.modThread t fun th => { th with pend := some { a with kind := .ego v ecmd seq true } }).retryAccess t
    | k => s.failAccess t a (.translation k.accType 7 0 a.addr.toNat)

/-- A thread in a save image takes the response on its restore (R445). -/
def Thread.respond (th : Thread) (page : Nat) (refused : Bool) : Thread :=
  if th.st != .parked (.fault page) then th
  else
    match refused, th.pend with
    | true, some a =>
      match a.kind with
      | .ego v ecmd seq _ => { th with st := .ready, pend := some { a with kind := .ego v ecmd seq true } }
      | k => { (th.addTrap ⟨.translation k.accType 7 0 a.addr.toNat, a.pc, th.llSeq⟩) with st := .ready, pend := none }
    | _, _ => { th with st := .ready }

/-- Every waiting access of a page acts by the response (R445). -/
def State.answerPage (s : State) (tag page : Nat) (refused : Bool) : State :=
  let s := s.modCtx tag fun c => { c with pages := c.pages.filter fun p => p.page != page }
  let s : State := { s with
    wgs := s.wgs.map fun (n, g) =>
      (n, if (s.launch g.launch).tag == tag then
        { g with
          image := g.image.map fun x => { x with threads := x.threads.map fun th => th.respond page refused }
          imgTiles := g.imgTiles.map fun (i, o) =>
            (i, if refused && o.st == .held (.fault page) then { o with refused := some page } else o) }
        else g) }
  let s := (s.pageWaiters tag page).foldl (fun s t => if refused then s.refuse t else s.retryAccess t) s
  let queues := s.cores.flatMap fun (n, c) => (c.qhold.filter fun e => e.2.1 == tag && e.2.2 % 2 ^ 56 / 4096 == page).map fun e => (n, e.1, e.2.2)
  let s := queues.foldl
    (fun s (core, q, va) =>
      let s := s.modCore core fun c => { c with qhold := c.qhold.del q }
      if refused then s.modHead core q fun c => { c with refused := some va } else s) s
  let s : State := { s with
    parts := s.parts.map fun (n, p) =>
      (n, { p with
        tileQ := p.tileQ.map fun o =>
          if refused && o.st == .held (.fault page) && (s.wave o.t.w).tag == tag then { o with refused := some page } else o }) }
  let s :=
    match (s.ctx tag).loads with
    | l :: _ =>
      if l.page == some page then
        let s := if refused then s.modTileOp l.pid l.op fun o => { o with refused := some page } else s
        (s.modLoad tag fun l => { l with page := none }).pumpProf tag
      else s
    | [] => s
  ((s.parts.map (·.1)).foldl (fun s p => s.pumpTiles p) s).pumpEngines.fqRetry

/-- FAULT_RESPONSE (R445): RESP of an entry has become non-zero; 2 refuses, every other value replays. -/
def execFaultResponse (tag entry : Nat) (s : State) : Host.Outcome State Fault Refusal :=
  let c := s.ctx tag
  let s := (s.watches.filter fun e => e.waiter == .faultEntry tag entry).foldl (fun s e => s.freeWatch e) s
  .next (match c.pages.find? fun p => p.entry == some entry with
  | none => s
  | some p => s.answerPage tag p.page (s.readNat (c.slotAt entry + 24) 1 == 2))

end Sys2Proof.Machine
end

