-- ==== Sys2Proof/Machine/Preempt.lean ====
section
/-!
DEFINITION. Pre-emption and save areas (R434 to R439): the halt, the copy into shadow storage and back, and the save slot in
memory with its handlers.
-/
namespace Sys2Proof.Machine

/-! Blocks of memory as the device (R436) -/

/-- Writes bytes of a context as a privileged agent, line by line; none on a fault of either class. -/
def State.putBlock (s : State) (tag va : Nat) (bs : List Byte) : Option State :=
  (rangeChunks va bs.length).foldl
    (fun r (a, k) =>
      r.bind fun s =>
        match s.xlat none tag true .write a with
        | .ok pa _ => some (s.writeDev tag pa ((bs.drop (a - va)).take k))
        | .fault _ _ => none) (some s)

/-- Bytes of a device-private layout (R437, R438): the spec leaves them open. -/
def State.freeBytes (s : State) (va n : Nat) : List Byte := (List.range n).map fun i => Config.memByte s.now (va + i)

/-- Puts bytes at an offset of a block. -/
def place (block : List Byte) (a : Nat) (bs : List Byte) : List Byte := block.take a ++ bs ++ block.drop (a + bs.length)

/-- A block that ends with its check code (R438). -/
def checked (block : List Byte) : List Byte :=
  let body := block.take (block.length - 8)
  body ++ bytesOfWord 8 (Config.checkCode body)
def checkOk (block : List Byte) : Bool := checked block == block

/-! The halt (R434) -/

/-- A pre-emption request for a workgroup. -/
def State.requestHalt (s : State) (g : Nat) : State :=
  match (s.wg g).st with
  | .resident | .debugged => (s.modWg g fun x => { x with st := .halting s.now }).at s.now (.preemptionHalt g)
  | _ => s

/-- The waves' places of a workgroup, and its threads that have not exited. -/
def State.placesOf (s : State) (g : Nat) : List Nat := (s.waves.filter fun e => e.2.wg == g).map (·.1)
def State.threadsOf (s : State) (g : Nat) : List TId :=
  (s.waves.filter fun e => e.2.wg == g).flatMap fun e => e.2.live?.map (⟨e.1, ·⟩)

/-- What a halt withdraws of a thread (R245, R282, R348): it stays at its instruction. TCHK waits for drains that stop, and is
executed again. -/
def Thread.stand (th : Thread) : Thread :=
  let th := th.close
  match th.st with
  | .maskwait => { th with st := .ready, mwait := none, pc := if th.mwait.isSome then th.pc - 8 else th.pc }
  | .barrier _ => { th with st := .ready, bwait := th.bwait.filter (·.arrwait) }
  | .parked (.fifo _ _) => { th with st := .ready }
  | .ready =>
    match th.block with
    | some (.tchk ..) => { th with block := none, pc := th.pc - 8 }
    | _ => th
  | _ => th

/-- Pushes and pops of a workgroup leave the FIFO banks of its core (R282). -/
def State.dropFifo (s : State) (g core : Nat) : State :=
  let mine (w : FifoWait) : Bool := w.threads.any fun t => (s.wave t.w).wg == g
  s.modCore core fun c => { c with banks := c.banks.map fun (n, b) => (n, { b with waits := b.waits.filter fun w => !mine w }) }

/-- A window that a drain of the sequencer will fill: the drain stops (R225). -/
def State.drainWindow (s : State) (t : TId) (x : Window) : Bool :=
  (s.part t.pid).tileQ.any fun o => o.pc == x.pc && o.recvs.contains t

/-- The access for which a thread is parked is that of the window (R434, R510). -/
def Thread.awaits (th : Thread) (x : Window) : Bool :=
  (th.st matches .parked _) && x.ready.isNone && (th.pend.map fun a => a.pc == x.pc && a.half == x.half).getD false

/-- A thread at an instruction boundary: its windows have committed, or are recorded as pending. `late` when the halt has to end: the
reply of a fabric peer then reaches the thread where it is kept (log 89). -/
def State.standing (s : State) (late : Bool) (t : TId) : Bool :=
  let th := s.thread t
  (match th.closedWindows with
   | [] => th.windows.isEmpty
   | x :: _ => x.pend.isSome || s.drainWindow t x || th.awaits x || (late && x.ready.isNone)) &&
    th.block.isNone &&
    (late ||
      (!(s.remotes.any fun r => (r.by_.map fun b => b.1 == t).getD false) &&
        (th.st != .parked .reply || (th.pend.map fun a => match a.kind with
          | .ego .. => true
          | _ => false).getD false)))

/-- The steps of TIME after which a halt has to end, two core cycles before 0.8 µs have passed (R3, R434). -/
def haltTime : Nat := 15900

/-- Results on their way arrive at the latest now (R434). -/
def State.arriveNow (s : State) (g : Nat) : State :=
  let cyc := (s.core (s.wg g).core).cyc.toNat
  (s.threadsOf g).foldl
    (fun s t => s.modThread t fun th =>
      { th with windows := th.windows.map fun x => { x with ready := x.ready.map fun r => min r cyc } }) s

/-- What a wave issued has left X1 to X4 (R19, R434). -/
def State.stagesClear (s : State) (w : Nat) : Bool := (s.wave w).lastIssue + 5 ≤ (s.core (coreOf w)).cyc.toNat

/-- The halt of a workgroup's waves: what is withdrawn. Threads that a TPROF holds stay in their bundle until it completes. -/
def State.haltWaves (s : State) (g : Nat) : State :=
  let ws := s.placesOf g
  let s := ws.foldl (fun s w => s.modWave w fun x => { x with halted := true }) s
  let s := (s.withdrawSessions g).dropFifo g (s.wg g).core
  (s.threadsOf g).foldl
    (fun s t => if (s.thread t).block == some .tprof then s else (s.unfile t).modThread t Thread.stand) s

/-- The steps of TIME in 0.4 µs (R435). -/
def copyTime : Nat := 8000

/-- The waves of a halted workgroup on a partition stand, and what they issued has left X1 to X4 (R434). -/
def State.partStands (s : State) (g : Nat) (late : Bool) (pid : Nat) : Bool :=
  ((s.threadsOf g).all fun t => t.pid != pid || s.standing late t) &&
    (s.placesOf g).all fun w => pidOf w != pid || s.stagesClear w

/-- The fast path applies to a workgroup (R435): it goes on, or every shadow slot that it needs is free. -/
def State.fastPath (s : State) (g : Nat) : Bool :=
  let G := s.wg g
  !G.needBanks && (!G.copies.isEmpty || !G.copied.isEmpty || G.pids.all fun p => (s.part p).shadow.isNone)

/-- The copies of some partitions begin; the first of them takes every shadow slot of the workgroup (R435). -/
def State.beginCopies (s : State) (g : Nat) (pids : List Nat) : State :=
  let s := (s.wg g).pids.foldl (fun s p => s.modPart p fun q => { q with shadow := some g }) s
  (s.modWg g fun x => { x with copies := x.copies ++ pids.map (·, s.now + copyTime) }).at (s.now + copyTime) (.shadowSave g)

/-- PREEMPTION_HALT (R434, R500): the waves stop. Each partition whose waves stand begins its copy into shadow storage (R435); or once
all stand the slow path begins (R436). A workgroup halted at a BKPT stays. -/
def execPreemptionHalt (g : Nat) (s : State) : Host.Outcome State Fault Refusal :=
  .next (match (s.wg g).st with
  | .halting _ | .debugged =>
    let late :=
      match (s.wg g).st with
      | .halting since => decide (since + haltTime ≤ s.now)
      | _ => false
    let s := s.haltWaves g
    let s := if late then s.arriveNow g else s
    let G := s.wg g
    let c := s.core G.core
    let fast := G.st != .debugged && s.fastPath g
    let begun (p : Nat) : Bool := G.copied.contains p || G.copies.any fun e => e.1 == p
    let ready := G.pids.filter fun p => !begun p && s.partStands g late p
    let s := if fast && !ready.isEmpty then s.beginCopies g ready else s
    if !(G.pids.all fun p => begun p || ready.contains p) then s.at (max (c.start + c.len) s.now + 1) (.preemptionHalt g)
    else if G.st == .debugged || fast then s
    else s.push [.slowSave g]
  | _ => s)

/-! Leaving the device -/

/-- Requests to peers and combined stores name a wave by another key. -/
def State.renameWave (s : State) (old new : Nat) : State :=
  let f (ws : List Nat) : List Nat := ws.map fun w => if w == old then new else w
  { s with
    remotes := s.remotes.map fun r =>
      { r with waves := f r.waves, by_ := r.by_.map fun (t, a) => (if t.w == old then ⟨new, t.lane⟩ else t, a) }
    cores := s.cores.map fun (n, c) => (n, { c with wcb := c.wcb.map fun e => { e with waves := f e.waves } }) }

/-- The threads of a halted wave as they are kept: results that have come stay so. -/
def Wave.kept (x : Wave) : Wave :=
  { x with
    threads := x.threads.map fun th =>
      { th with
        windows := th.windows.map fun y => { y with ready := y.ready.map fun _ => 0 }
        st := if th.st == .halted then .ready else th.st } }

/-- The waves of a workgroup on the device by their index. -/
def State.wavesByIdx (s : State) (g : Nat) : List (Nat × Wave) :=
  (List.range (s.launch (s.wg g).launch).wpw).filterMap fun i => s.waves.first fun e => e.2.wg == g && e.2.idx == i

/-- The waves of a workgroup on some of its partitions join those that are kept (R435, R437). -/
def State.keepWaves (s : State) (g : Nat) (pids : List Nat) : State :=
  let ws := (s.wavesByIdx g).filter fun e => pids.contains (pidOf e.1)
  let n := (s.launch (s.wg g).launch).wpw
  s.modWg g fun x =>
    let all := x.image ++ ws.map fun e => e.2.kept
    { x with image := (List.range n).filterMap fun i => all.find? fun y => y.idx == i }

/-- A stopped operation with its threads by the index of their waves. -/
def TileOp.byIdx (o : TileOp) (f : Nat → Nat) : TileOp :=
  { o with t := ⟨f o.t.w, o.t.lane⟩, recvs := o.recvs.map fun t => ⟨f t.w, t.lane⟩ }

/-- Where a number stands in a list. -/
def indexOf (ns : List Nat) (n : Nat) : Nat := ns.findIdx (· == n)

/-- The place of a wave of a workgroup by its index. -/
def State.placeAt (s : State) (g idx : Nat) : Nat := ((s.waves.first fun e => e.2.wg == g && e.2.idx == idx).map (·.1)).getD 0

/-- A workgroup leaves some of its partitions (R435, R436): allocations and stopped operations are kept, waves and places go. -/
def State.takeOff (s : State) (g : Nat) (pids : List Nat) : State :=
  let G := s.wg g
  let ws := (s.placesOf g).filter fun w => pids.contains (pidOf w)
  let s := ws.foldl (fun s w => s.wcbDrain (coreOf w) fun e => e.waves.contains w) s
  let s := ws.foldl (fun s w => s.renameWave w (awayKey g (s.wave w).idx)) s
  let s := ((List.range G.pids.length).filter fun i => pids.contains (G.pids.getD i 0)).foldl
    (fun s i =>
      let pid := G.pids.getD i 0
      let p := s.part pid
      let ops := (p.tileQ.filter fun o => o.wg == g && !o.ahead).map fun o => (i, o.byIdx fun w => (s.wave w).idx)
      let s := s.modWg g fun x =>
        { x with imgAllocs := x.imgAllocs.put i (p.allocs.get g {}), imgTiles := x.imgTiles ++ ops }
      (s.pullTiles pid fun o => o.wg == g).modPart pid fun p => { p with allocs := p.allocs.del g }) s
  let s := s.vacate ws
  (s.watches.filter fun e => e.st != .armed).foldl
    (fun s e =>
      match e.waiter with
      | .wave tag wid _ => if G.image.any fun x => x.tag == tag && x.wid == wid then s.setWake tag wid else s
      | _ => s) s

/-- A copy overwrites what the shadow storage of some partitions held, errors included. -/
def State.overwritten (s : State) (pids : List Nat) : State :=
  { s with
    upsets := s.upsets.filter fun u =>
      match u with
      | .shadow pid _ => !pids.contains pid
      | _ => true }

/-- SHADOW_SAVE (R435): the copies of some partitions have ended, and their places are free; after the last the workgroup is
saved. -/
def execShadowSave (g : Nat) (s : State) : Host.Outcome State Fault Refusal :=
  .next (match (s.wg g).st with
  | .halting _ =>
    let pids := ((s.wg g).copies.filter fun e => e.2 ≤ s.now).map (·.1)
    let s := ((s.overwritten pids).keepWaves g pids).takeOff g pids
    let s := s.modWg g fun x => { x with copies := x.copies.filter fun e => s.now < e.2, copied := x.copied ++ pids }
    let G := s.wg g
    (if G.pids.all G.copied.contains then
      (s.modWg g fun x => { (x.leaves s.now) with st := .shadow, copied := [] }).clearTrims G.launch G.cluster
    else s).at s.now .admission
  | _ => s)

/-- The workgroup in shadow storage that has been lost ends (R467): CODE 6, and the entry with ACCESS 5. -/
def State.loseShadow (s : State) (g : Nat) : State :=
  let G := s.wg g
  (s.dataLost (s.launch G.launch).tag 5 ((G.image.headD {}).wid.toNat) G.lin 0).failLaunch G.launch 6

/-! Coming back -/

/-- Registrations that fired while their wave was away are delivered (R324). -/
def State.deliverFired (s : State) (w : Nat) : State :=
  let x := s.wave w
  (s.watches.filter fun e =>
    e.st != .armed &&
      match e.waiter with
      | .wave tag wid _ => tag == x.tag && wid == x.wid
      | _ => false).foldl (fun s e => s.wakeWatch e) s

/-- A thread goes on: with its trap, with its pending access, or at its instruction. -/
def State.resumeThread (s : State) (t : TId) : State :=
  let th := s.thread t
  match th.st with
  | .parked _ => s.retryAccess t
  | .ready => if th.trapQ.isSome then s.enterAlone t else if th.pend.isSome then s.retryAccess t else s.file t 3
  | _ => s

/-- The waves go on. -/
def State.resumeWaves (s : State) (ws : List Nat) : State :=
  let s := ws.foldl (fun s w => s.modWave w fun x => { x with halted := false }) s
  ws.foldl
    (fun s w =>
      let s := ((s.wave w).live?).foldl (fun s i => s.resumeThread ⟨w, i⟩) s
      let s := s.deliverFired w
      if (s.wave w).draining then s.push [.waveDrainEnd (coreOf w) (pidOf w % 4) (w % 24)] else s) s

/-- A workgroup is resident again: the ring, the sequencer, the engines, and members that waited for its banks go on. -/
def State.backAgain (s : State) (g : Nat) : State :=
  let s := s.modWg g fun x => { x with st := .resident, needBanks := false }
  let G := s.wg g
  let s := (s.placesOf g).foldl (fun s w => s.keyArrive w) s
  let s := G.pids.foldl (fun s p => s.pumpTiles p) s
  let L := s.launch G.launch
  ((s.pumpCore G.core).wake (· == .switching awayCore G.lin)).clearWake L.tag L.rcb

/-- The lowest free wave slot of a partition, as a place. -/
def State.freePlace (s : State) (pid : Nat) : Nat :=
  ((List.range Config.slots).map (pid * Config.slots + ·)).find? (fun w => (s.waves.find? w).isNone) |>.getD (pid * Config.slots)

/-- Puts waves on partitions of a workgroup: wave i on partition i mod NP, each in the lowest free slot (R405). -/
def State.seat (s : State) (g : Nat) (xs : List Wave) : State :=
  let G := s.wg g
  xs.foldl
    (fun s x =>
      let w := s.freePlace (G.pids.getD (x.idx % G.pids.length) 0)
      let s := s.setWave w x
      s.modWg g fun y => { y with waves := y.waves ++ [w] }) (s.modWg g fun y => { y with waves := [] })

/-- The requests to peers name the waves by their places again. -/
def State.returnAcks (s : State) (g : Nat) : State :=
  (s.placesOf g).foldl (fun s w => s.renameWave (awayKey g (s.wave w).idx) w) s

/-- Stopped operations stand in tile order again, before any that the workgroup's threads issue from now on (R225); they go on
when it is resident. -/
def State.returnTiles (s : State) (g : Nat) : State :=
  let G := s.wg g
  let ops := G.imgTiles.map fun (i, o) => (G.pids.getD i 0, o.byIdx fun k => s.placeAt g k)
  let s := s.modWg g fun x => { x with imgTiles := [] }
  ops.foldl
    (fun s (pid, o) =>
      s.modPart pid fun p =>
        { p with tileQ := p.tileQ ++ [if o.st == .started then { o with st := .stopped } else o] }) s

/-- The ends of operations that had started are due again. -/
def State.restartTiles (s : State) (g : Nat) : State :=
  (s.wg g).pids.foldl
    (fun s pid =>
      ((s.part pid).tileQ.filter fun o => o.wg == g && o.st == .stopped).foldl
        (fun s o =>
          let s := s.modTileOp pid o.id fun o => { o with st := .started }
          let s := if o.instr.isDrain then s.at (s.now + 8) (.drainComplete (pid / 4) (pid % 4) o.id) else s
          s.at (s.now + 8) (.tileOperationComplete (pid / 4) (pid % 4) o.id)) s) s

/-- A workgroup in shadow storage begins to come back to its partitions (R435). -/
def State.beginReload (s : State) (g : Nat) : State :=
  let G := s.wg g
  let s := s.seat g (G.image.map fun x => { x with halted := true })
  let s := (List.range G.pids.length).foldl
    (fun s i => s.modPart (G.pids.getD i 0) fun p => { p with allocs := p.allocs.put g (G.imgAllocs.get i {}) }) s
  (s.modWg g fun x => { (x.enters s.now) with st := .reloading }).at (s.now + copyTime) (.shadowRestore g)

/-- SHADOW_RESTORE (R435, R467): the copy back has ended; or the shadow storage has lost its content. -/
def execShadowRestore (g : Nat) (s : State) : Host.Outcome State Fault Refusal :=
  .next (match (s.wg g).st with
  | .reloading =>
    let G := s.wg g
    match s.shadowLost G.pids with
    | (true, s) => s.loseShadow g
    | (false, s) =>
      let s := G.pids.foldl (fun s p => s.modPart p fun q => { q with shadow := none }) s
      let s := s.modWg g fun x => { x with image := [], imgAllocs := [] }
      let s := ((s.returnAcks g).returnTiles g).restartTiles g
      ((s.resumeWaves (s.wg g).waves).backAgain g).at s.now .admission
  | _ => s)

/-! The save slot (R437, R438) -/

/-- A size rounded up to a multiple of 128. -/
def align128 (n : Nat) : Nat := (n + 127) / 128 * 128

/-- The bytes of a register in the register area. -/
def regBytes (sh : Shape) : Nat :=
  match sh with
  | .uniform => 4
  | .affine => 8
  | .general => 128

/-- R of R438. -/
def KHdr.regArea (k : KHdr) : Nat :=
  align128 ((List.range (k.regs - 4)).foldl (fun n r => n + regBytes (k.tags.get (r + 4) .general)) 0)

/-- The tile area of a partition. -/
def KHdr.tileArea (k : KHdr) : Nat := align128 (k.tiles * 8192 + k.accs * 98368)

/-- The areas of a workgroup's save slot at `base`: partition blocks, banks, tile areas, wave records, and the end. -/
structure SaveMap where
  base  : Nat
  np    : Nat
  banks : Nat
  tile  : Nat
  wrec  : Nat
  waves : Nat
  deriving DecidableEq, Repr, Inhabited

def SaveMap.part (m : SaveMap) (i : Nat) : Nat := m.base + 128 + 4096 * i
def SaveMap.bank (m : SaveMap) (i : Nat) : Nat := m.part m.np + 32768 * i
def SaveMap.tiles (m : SaveMap) (i : Nat) : Nat := m.bank m.banks + m.tile * i
def SaveMap.wave (m : SaveMap) (i : Nat) : Nat := m.tiles m.np + m.wrec * i
def SaveMap.last (m : SaveMap) : Nat := m.wave m.waves

def State.saveMap (s : State) (g slot : Nat) : SaveMap :=
  let L := s.launch (s.wg g).launch
  let c := s.ctx L.tag
  { base := c.savebase + slot * c.slotsz, np := L.np, banks := L.hdr.s + L.hdr.f, tile := L.hdr.tileArea
    wrec := 8192 + L.hdr.regArea, waves := L.wpw }

/-- The lanes of a wave as bytes, `f` of each. -/
def laneBytes (f : Nat → List Byte) : List Byte := (List.range 32).flatMap f

/-- The call-stack and loop-stack images of a thread. -/
def Thread.callBytes (th : Thread) : List Byte :=
  padTo 64 ((th.calls.take 8).flatMap fun e => bytesOfWord 8 (Nat.lor e.ret.toNat e.depth))
def Thread.loopBytes (th : Thread) : List Byte :=
  padTo 64 ((th.loops.take 4).flatMap fun l =>
    bytesOfWord 8 l.head.toNat ++ bytesOfWord 4 ((l.last - l.head).toNat % 2 ^ 32) ++ bytesOfWord 4 (l.count % 2 ^ 32))

/-- The machine block of a wave (R438). -/
def Wave.block (x : Wave) (free : List Byte) : List Byte :=
  let th (i : Nat) : Thread := x.thread i
  let put (a : Nat) (bs : List Byte) (b : List Byte) : List Byte := place b a bs
  checked ((((((((((((free
    |> put 0 ((List.range 4).flatMap fun r => laneBytes fun i => bytesOfWord 4 ((x.vreg r).lane i).toNat))
    |> put 512 (laneBytes fun i => [(th i).preds]))
    |> put 544 ((List.range 12).flatMap fun k => bytesOfWord 4 (x.mask k).toNat))
    |> put 592 ((List.range 4).flatMap fun n => bytesOfWord 8 (x.ewin.ecmd.getD n 0).toNat))
    |> put 624 (bytesOfWord 8 x.ewin.written.toNat ++ bytesOfWord 8 x.ewin.estat.toNat))
    |> put 640 ((List.range 16).flatMap fun e => laneBytes fun i => bytesOfWord 1 ((x.pattern e).getD i i)))
    |> put 1152 (laneBytes fun i => bytesOfWord 8 (th i).pc.toNat))
    |> put 1408 (laneBytes fun i => bytesOfWord 8 (th i).rngS.toNat ++ bytesOfWord 8 (th i).rngB.toNat ++ bytesOfWord 4 (th i).rngI))
    |> put 2048 (laneBytes fun i => (th i).callBytes))
    |> put 4096 (laneBytes fun i => (th i).loopBytes))
    |> put 6144 (laneBytes fun i =>
      (free.drop (6144 + 8 * i)).take 1 ++ bytesOfWord 1 (th i).calls.length ++ bytesOfWord 2 (th i).loops.length ++
        bytesOfWord 4 (th i).spilled)))

/-- The device's parts of a workgroup's slot: address and bytes of each. -/
def State.saveParts (s : State) (g : Nat) (m : SaveMap) : List (Nat × List Byte) :=
  let G := s.wg g
  let L := s.launch G.launch
  let hdr := (m.base, s.freeBytes m.base 128)
  let parts := (List.range m.np).map fun i => (m.part i, checked (s.freeBytes (m.part i) 4096))
  let banks := (List.range m.banks).map fun j =>
    let b := (s.core G.core).banks.get (G.banks.getD j 0) {}
    (m.bank j, if j < L.hdr.s then b.bytes.read 0 32768 else s.freeBytes (m.bank j) 32768)
  let waves := (List.range m.waves).map fun i =>
    let x := (s.waves.first fun e => e.2.wg == g && e.2.idx == i).map (·.2)
    (m.wave i, match x with
      | some x => x.block (s.freeBytes (m.wave i) 8192)
      | none => checked (s.freeBytes (m.wave i) 8192))
  hdr :: (parts ++ banks ++ waves)

/-- The argument and the records of a save or restore handler (R436). -/
def SaveMap.trap (m : SaveMap) (code : Cause) (idx np : Nat) : Trap :=
  let tile := m.tiles (idx % np)
  { code := code, words := [lo32 tile, hi32 tile, lo32 m.base, hi32 m.base, 0, 0, 0, 0], arg := m.wave idx }

/-- Every thread of some waves enters its handler. -/
def State.enterAll (s : State) (g : Nat) (m : SaveMap) (code : Cause) : State :=
  (s.threadsOf g).foldl
    (fun s t =>
      if (s.waves.find? t.w).isNone then s
      else
        let s := s.modThread t fun th => { th with windows := [], trapQ := none, wdest := none, mwait := none, bwait := none }
        (s.enter t (m.trap code (s.wave t.w).idx m.np) (s.thread t).pc).file t 3) s

/-! The slow path (R436) -/

/-- The pre-emption is withdrawn: the waves resume. -/
def State.withdrawHalt (s : State) (g : Nat) : State :=
  let s := (s.placesOf g).foldl (fun s w => s.modWave w Wave.kept) s
  (s.resumeWaves (s.placesOf g)).backAgain g

/-- The slow path begins: the lowest free slot, the device's parts, the handlers. -/
def State.slowBegin (s : State) (g : Nat) : State :=
  let L := s.launch (s.wg g).launch
  let c := s.ctx L.tag
  match (List.range c.slots).find? fun n => !c.slotsUsed.contains n with
  | none => s.withdrawHalt g
  | some n =>
    let m := s.saveMap g n
    if c.slotsz < m.last - m.base || (s.threadsOf g).any fun t => (s.thread t).hand.isSome then s.withdrawHalt g
    else
      match (s.saveParts g m).foldl (fun r (a, bs) => r.bind fun s => s.putBlock L.tag a bs) (some s) with
      | none => s.withdrawHalt g
      | some s =>
        let s := s.modCtx L.tag fun c => { c with slotsUsed := n :: c.slotsUsed }
        let s := (s.keepWaves g (s.wg g).pids).modWg g fun x => { x with st := .saving n }
        let s := (s.placesOf g).foldl (fun s w => s.modWave w fun x => { x with halted := false, tileFault := none }) s
        let s := s.enterAll g m .save
        if (s.threadsOf g).isEmpty then s.push [.slowSave g] else s

/-- A command of a workgroup that is suspended leaves its queue with the save (R368), with its queue's number. -/
def State.takeCmds (s : State) (g core : Nat) : List (Nat × QCmd) × State :=
  let mine (c : QCmd) : Bool := c.issuer.wg == g && s.suspended c
  let cmds := (s.core core).queues.flatMap fun (q, es) =>
    es.filterMap fun e =>
      match e with
      | .cmd c => if mine c then some (q, { c with begun := false }) else none
      | .fence _ _ => none
  (cmds, s.modCore core fun c =>
    { c with
      queues := c.queues.map fun (q, es) =>
        (q, es.filter fun e =>
          match e with
          | .cmd c => !mine c
          | .fence _ _ => true) })

/-- The counts that commands have raised on the lines of some banks are named by other banks. -/
def QCmd.moveLines (core core' : Nat) (banks banks' : List Nat) (c : QCmd) : QCmd :=
  { c with
    lines := c.lines.map fun (k, b, l) =>
      if k == core && banks.contains b then (core', banks'.getD (indexOf banks b) 0, l) else (k, b, l) }
def State.moveLines (s : State) (core core' : Nat) (banks banks' : List Nat) : State :=
  s.mapCmds (QCmd.moveLines core core' banks banks')

/-- What memory and the handlers hold of an allocation leaves the device's copy. -/
def Alloc.stripped (a : Alloc) : Alloc := { a with tiles := [], accs := a.accs.map fun (n, x) => (n, { x with planes := [] }) }

/-- Every thread of the workgroup has halted: it is SAVED, and its resources are free. -/
def State.slowEnd (s : State) (g n : Nat) : State :=
  let G := s.wg g
  let banks := (List.range G.banks.length).foldl
    (fun (t : Tab Bank) j => t.put j ((s.core G.core).banks.get (G.banks.getD j 0) {})) ([] : Tab Bank)
  let s := s.moveLines G.core (awayBanks g) G.banks (List.range G.banks.length)
  let (cmds, s) := s.takeCmds g G.core
  let s := (s.takeOff g G.pids).clearTrims G.launch G.cluster
  let s := (s.freeBanks G).modWg g fun x =>
    { (x.leaves s.now) with
      st := .saved n, banks := [], imgBanks := banks, imgCmds := cmds
      imgAllocs := x.imgAllocs.map fun (i, a) => (i, a.stripped) }
  (s.pumpCore G.core).at s.now .admission

/-- SLOW_SAVE (R436): the slot is written and the handlers entered; or, when the last thread has halted, the save ends. -/
def execSlowSave (g : Nat) (s : State) : Host.Outcome State Fault Refusal :=
  .next (match (s.wg g).st with
  | .halting _ => s.slowBegin g
  | .saving n =>
    let c := s.core (s.wg g).core
    if !((s.threadsOf g).all fun t => (s.thread t).st == .halted) then s
    else if (s.wg g).pids.any fun p => (s.part p).tileQ.any fun o => o.wg == g && o.ahead && !o.begun then
      s.at (max (c.start + c.len) s.now + 1) (.slowSave g)
    else s.slowEnd g n
  | _ => s)

/-! The restore (R439) -/

/-- A field of a lane of a machine block. -/
def laneField (bs : List Byte) (at_ step lane off n : Nat) : Nat := bfld bs (at_ + step * lane + off) n

/-- A thread with the fields of its machine block; what is device-private comes from the image. -/
def Thread.load (th : Thread) (bs : List Byte) (i : Nat) : Thread :=
  let calls := laneField bs 6144 8 i 1 1
  let loops := laneField bs 6144 8 i 2 1 % 8
  { th with
    preds := BitVec.ofNat 8 (bfld bs (512 + i) 1) ||| 1
    pc := alignPc (BitVec.ofNat 64 (laneField bs 1152 8 i 0 8))
    rngS := BitVec.ofNat 64 (laneField bs 1408 20 i 0 8)
    rngB := BitVec.ofNat 64 (laneField bs 1408 20 i 8 8)
    rngI := laneField bs 1408 20 i 16 4 % 4
    spilled := laneField bs 6144 8 i 4 4
    calls := (List.range (min calls 8)).map fun n =>
      let x := laneField bs 2048 64 i (8 * n) 8
      { ret := BitVec.ofNat 64 (x / 8 * 8), depth := x % 8 }
    loops := (List.range (min loops 4)).map fun n =>
      let h := BitVec.ofNat 64 (laneField bs 4096 64 i (16 * n) 8)
      { head := h, last := h + BitVec.ofNat 64 (laneField bs 4096 64 i (16 * n + 8) 4), count := laneField bs 4096 64 i (16 * n + 12) 4 } }

/-- A restored wave: the image with what the machine block holds, and the registers that the handler has loaded. -/
def Wave.load (x live : Wave) (bs : List Byte) : Wave :=
  let regs := (List.range 4).foldl
    (fun t r =>
      let ys := (List.range 32).map fun i => BitVec.ofNat 32 (bfld bs (128 * r + 4 * i) 4)
      if 255 ≤ r then t else t.put r (((x.shape r).fit ys).getD (.general ys))) live.regs
  { x with
    regs := regs
    masks := (List.range 12).foldl (fun t k => t.put k (BitVec.ofNat 32 (bfld bs (544 + 4 * k) 4))) []
    pats := (List.range 16).foldl
      (fun t e => t.put e ((List.range 32).map fun i => bfld bs (640 + 32 * e + i) 1 % 64)) []
    ewin := { x.ewin with
      ecmd := (List.range 4).map fun n => BitVec.ofNat 64 (bfld bs (592 + 8 * n) 8)
      written := BitVec.ofNat 4 (bfld bs 624 8) }
    threads := (List.range 32).map fun i => (x.thread i).load bs i }

/-- A restore finds its slot corrupt (R439). -/
def State.saveCorrupt (s : State) (g : Nat) : State :=
  let G := s.wg g
  let L := s.launch G.launch
  let wid := ((G.image.headD {}).wid).toNat
  (s.fqPost L.tag (fqEntry .saveCorrupt 0 0 L.tag wid G.lin 0)).failLaunch G.launch 6

/-- The device's parts come back (R439): the banks, the waves with their registers at zero, the allocations; then the
handlers. -/
def State.restoreBegin (s : State) (g n : Nat) : State :=
  let G := s.wg g
  let L := s.launch G.launch
  let m := s.saveMap g n
  let parts := (List.range m.np).map fun i => s.readBlock L.tag (m.part i) 4096
  let banks := (List.range m.banks).map fun j => s.readBlock L.tag (m.bank j) 32768
  let hdr := s.readBlock L.tag m.base 128
  let blocks := (List.range m.waves).map fun i => s.readBlock L.tag (m.wave i) 8192
  if !hdr.isSome || !((parts ++ blocks).all fun b => (b.map checkOk).getD false) || !(banks.all (·.isSome)) then s.saveCorrupt g
  else
    let s := s.modCore G.core fun c =>
      { c with
        banks := (List.range G.banks.length).foldl
          (fun t j =>
            let old := G.imgBanks.get j {}
            let bytes := if j < L.hdr.s then Memory.write [] 0 ((banks.getD j none).getD []) else old.bytes
            t.put (G.banks.getD j 0) { old with owner := some (g, j), bytes := bytes }) c.banks }
    let s := s.moveLines (awayBanks g) G.core (List.range G.banks.length) G.banks
    let s := s.seat g (G.image.map fun x =>
      { (x : Wave) with
        regs := [], masks := [], pats := [], halted := false, lastIssue := 0
        threads := x.threads.map fun th =>
          if th.st == .exited then th else { pc := th.pc, stackB := th.stackB, stackZ := th.stackZ } })
    let s := (List.range G.pids.length).foldl
      (fun s i => s.modPart (G.pids.getD i 0) fun p => { p with allocs := p.allocs.put g (G.imgAllocs.get i {}) }) s
    let s := (s.returnTiles g).enterAll g m .restore
    s.push [.restore g]

/-- Every thread of a wave has returned: its machine block is loaded, and its threads go on. -/
def State.restoreWave (s : State) (g n w : Nat) : State :=
  let G := s.wg g
  let L := s.launch G.launch
  let live := s.wave w
  match G.image.find? fun x => x.idx == live.idx with
  | none => s
  | some x =>
    match s.readBlock L.tag ((s.saveMap g n).wave x.idx) 8192 with
    | none => s.saveCorrupt g
    | some bs =>
      if !checkOk bs then s.saveCorrupt g
      else
        let s := s.setWave w (x.load live bs)
        let s := s.modWg g fun y => { y with image := y.image.filter fun z => z.idx != x.idx }
        (s.renameWave (awayKey g x.idx) w).resumeWaves [w]

/-- Every wave is back: the slot is free, and what was stopped goes on. -/
def State.restoreEnd (s : State) (g n : Nat) : State :=
  let G := s.wg g
  let L := s.launch G.launch
  let s := s.modCtx L.tag fun c => { c with slotsUsed := c.slotsUsed.filter (· != n) }
  let s := (s.wg g).imgCmds.reverse.foldl (fun s (q, c) => s.setQueue G.core q (.cmd c :: s.queue G.core q)) s
  let s := (s.modWg g fun x => { x with imgAllocs := [], imgBanks := [], imgCmds := [] }).restartTiles g
  (s.backAgain g).at s.now .admission

/-- RESTORE (R439). -/
def execRestore (g : Nat) (s : State) : Host.Outcome State Fault Refusal :=
  .next (match (s.wg g).st with
  | .restoring n =>
    if (s.placesOf g).isEmpty then s.restoreBegin g n
    else
      let ready := (s.waves.filter fun e =>
        e.2.wg == g && (s.wg g).image.any (fun x => x.idx == e.2.idx) && e.2.threads.all fun th => th.st == .exited || th.st == .halted).map (·.1)
      let s := ready.foldl (fun s w => if (s.wg g).st == .restoring n then s.restoreWave g n w else s) s
      if (s.wg g).st == .restoring n && (s.wg g).image.isEmpty then s.restoreEnd g n else s
  | _ => s)

end Sys2Proof.Machine
end

