-- ==== Sys2Proof/Machine/Fabric.lean ====
section
/-!
DEFINITION. The fabric (R456 to R466): requests of peers, replies and replays of this device's requests, link failures and
the common time.
-/
namespace Sys2Proof.Machine

/-! Requests of peers (R458, R461) -/

/-- Of two sequence numbers, the first is not after the second. -/
def seqLe (a b : Nat) : Bool := (b + 2 ^ 32 - a % 2 ^ 32) % 2 ^ 32 < 2 ^ 31

/-- A drained store of a peer (R459, R473): a whole line at once, and otherwise each aligned unit of 8 bytes as one write. -/
def State.peerStore (s : State) (off : Nat) (bytes : List (Nat × Byte)) : State :=
  let at_ (j : Nat) : Option Byte := (bytes.find? fun b => b.1 == j).map (·.2)
  if off % 128 == 0 && (List.range 128).all fun j => (at_ j).isSome then
    let s := s.breakRels 0 off 128
    s.writeDev 0 off ((List.range 128).map fun j => (at_ j).getD 0)
  else
    (List.range 16).foldl
      (fun s u =>
        let js := (List.range 8).map (8 * u + ·)
        if js.any fun j => (at_ j).isSome then
          let a := off + 8 * u
          let old := s.read a 8
          (s.breakRels 0 a 8).writeDev 0 a ((List.range 8).map fun i => (at_ (8 * u + i)).getD (old.getD i 0))
        else s) s

/-- Bytes of this device as a peer reads them; a line that answers no read gives free bytes. -/
def State.peerRead (s : State) (off n : Nat) : List Byte × State :=
  let s := s.meetLines (linesOf off n)
  if (linesOf off n).any s.lineBad then
    ((List.range n).map fun i => Config.memByte s.now (off + i), s)
  else (s.read off n, s)

/-- Performs a request of a peer: the reply's data. -/
def State.peerPerform (s : State) (op : FabricOp) : List Byte × State :=
  match op with
  | .load off n => s.peerRead off n
  | .store off bs => ([], s.peerStore off bs)
  | .atomic off ao ty b c =>
    let n := ty.bytes
    let (old, s) := s.peerRead off n
    (old, s.writeDev 0 off (bytesOfWord n (AO.apply ao ty (wordOfBytes old) b.toNat c.toNat)))

/-- Sends a reply. -/
def State.reply (s : State) (src seq : Nat) (data : List Byte) : State := { s with replies := s.replies ++ [(src, seq, data)] }

/-- Performs the requests of a source that are next in order (R458). -/
def State.peerPump (s : State) (src : Nat) : Nat → State
  | 0 => s
  | fuel + 1 =>
    let x := s.sources.get src {}
    match x.early.find? x.next with
    | none => s
    | some op =>
      let (data, s) := s.peerPerform op
      let keep := match op with
        | .load _ _ => x.cache
        | _ => x.cache.put x.next data
      let s : State := { s with
        sources := s.sources.put src { x with next := (x.next + 1) % 2 ^ 32, early := x.early.del x.next, cache := keep } }
      (s.reply src x.next data).peerPump src fuel

/-- FABRIC_REQUEST (R461): `cumAck` is the source's cumulative acknowledgement, 2^32 or more while it has none. -/
def execFabricRequest (src seq cumAck : Nat) (op : FabricOp) (s : State) : Host.Outcome State Fault Refusal :=
  let x := s.sources.get src {}
  let cum := if cumAck < 2 ^ 32 then some cumAck else x.cum
  let passed (n : Nat) : Bool := (cum.map fun c => seqLe n c).getD false
  let x := { x with cum := cum, cache := x.cache.filter fun e => !passed e.1 }
  let s : State := { s with sources := s.sources.put src x }
  .next (if passed seq then s
  else
    match x.cache.find? seq with
    | some data => s.reply src seq data
    | none =>
      if seqLe x.next seq then
        let s : State := { s with sources := s.sources.put src { x with early := x.early.put seq op } }
        s.peerPump src (x.early.length + 1)
      else
        match op with
        | .load off n =>
          let (data, s) := s.peerRead off n
          s.reply src seq data
        | _ => s)

/-! Replies and replays (R460, R461) -/

/-- A wave's drained stores are acknowledged, on the device or in a saved image. -/
def State.ackWave (s : State) (w : Nat) : State :=
  match awayWg w with
  | none => s.modWave w fun x => { x with acks := x.acks - 1 }
  | some (g, i) => s.modWg g fun g => { g with image := g.image.map fun x => if x.idx == i then { x with acks := x.acks - 1 } else x }

/-- Changes a thread of a saved wave, by the wave's key. -/
def State.modAway (s : State) (w lane : Nat) (f : Thread → Thread) : State :=
  match awayWg w with
  | none => s
  | some (g, i) =>
    s.modWg g fun g =>
      { g with
        image := g.image.map fun x =>
          if x.idx == i then { x with threads := x.threads.set lane (f (x.thread lane)) } else x }

/-- The window of an access in a thread. -/
def Thread.modWindow (th : Thread) (a : Access) (f : Window → Window) : Thread :=
  { th with windows := th.windows.map fun x => if x.pc == a.pc && x.half == a.half && x.ready.isNone then f x else x }

/-- What a reply does to a thread that is saved (log 89): its result stands in its window, or its call stack has the entry. -/
def Thread.answered (th : Thread) (a : Access) (bs : List Byte) : Thread :=
  match a.kind with
  | .fill => { (th.popSpilled bs) with st := .ready, pend := none }
  | k => th.modWindow a fun x => { x with regs := k.result bs, ready := some 0, pend := none }

/-- What the failure of its access does to a thread that is saved (R461): the trap comes after its restore. -/
def Thread.failed (th : Thread) (a : Access) (tr : Trap) : Thread :=
  if th.windows.any fun x => x.pc == a.pc && x.half == a.half && x.ready.isNone then
    th.modWindow a fun x => { x with fail := some tr, ready := some 0, pend := none }
  else
    { (th.addTrap ⟨tr, a.pc, th.llSeq⟩) with st := if th.st == .parked .reply then .ready else th.st, pend := none }

/-- The request with a number leaves the list. -/
def State.takeRemote (s : State) (dst seq : Nat) : Option (Remote × State) :=
  (s.remotes.find? fun r => r.dst == dst && r.seq == seq).map fun r =>
    (r, { s with remotes := s.remotes.filter fun x => !(x.dst == dst && x.seq == seq) })

/-- The constant line that a reply brings, its bytes the line's from `off` on: it is filled once, and the LDC reads it (R285). -/
def State.constReply (s : State) (t : TId) (a : Access) (dst off : Nat) (data : List Byte) : List Byte × State :=
  let pa := 2 ^ 51 + dst * 2 ^ 39 + off
  let l := (s.wave t.w).launch
  match (s.core t.core).constAt l pa with
  | some bs => ((bs.drop (a.addr.toNat % 128)).take a.size, s)
  | none =>
    ((data.drop (a.addr.toNat % 128)).take a.size,
      if (s.waves.find? t.w).isSome then s.modCore t.core fun c => c.fillConst s.now (pa / 128) l (padTo 128 data) else s)

/-- A load or atomic returns to its thread. -/
def State.returnRemote (s : State) (r : Remote) (t : TId) (a : Access) (data : List Byte) : State :=
  let (bs, s) :=
    match a.const, r.op with
    | true, .load off _ => s.constReply t a r.dst off data
    | _, _ => (data, s)
  if (awayWg t.w).isSome then s.modAway t.w t.lane fun th => th.answered a (padTo a.size bs)
  else
  let s := s.finishAccess t a (padTo a.size bs)
  if (s.thread t).st == .parked .reply then (s.modThread t fun th => { th with pend := none }).release t else s

/-- FABRIC_REPLY (R461). -/
def execFabricReply (dst seq : Nat) (data : List Byte) (s : State) : Host.Outcome State Fault Refusal :=
  .next (match s.takeRemote dst seq with
  | none => s
  | some (r, s) =>
    let s := r.waves.foldl (fun s w => s.ackWave w) s
    (match r.by_ with
     | some (t, a) => s.returnRemote r t a data
     | none => s).wake (· == Park.room))

/-- A remote load or atomic fails (R461 UNREACHABLE): the trap at its instruction, through its window where it has one
(R54). -/
def State.unreachable (s : State) (t : TId) (a : Access) : State :=
  let tr := Trap.translation a.kind.accType 10 0 a.addr.toNat
  if (awayWg t.w).isSome then s.modAway t.w t.lane fun th => th.failed a tr
  else
  let mine (x : Window) : Bool := x.pc == a.pc && x.half == a.half && x.ready.isNone
  if (s.thread t).windows.any mine then
    s.modWindow t a fun x => { x with fail := some tr, ready := some (s.cycOf t + 1), pend := none }
  else if (s.thread t).st == .parked .reply then s.failAccess t a tr
  else s.modThread t fun th => th.addTrap ⟨tr, a.pc, th.llSeq⟩

/-- The entry of a dropped store (R460). -/
def State.fabricLost (s : State) (r : Remote) (off : Nat) : State :=
  s.fqPost r.tag (fqEntry .fabricLost (2 ^ 51 + r.dst * 2 ^ 39 + off / 128 * 128) 1 r.tag 0 0 0)

/-- FABRIC_REPLAY (R461): a request that has had no reply is sent again; after 8 replays it fails. -/
def execFabricReplay (dst seq : Nat) (s : State) : Host.Outcome State Fault Refusal :=
  .next (match s.takeRemote dst seq with
  | none => s
  | some (r, gone) =>
    if r.tries < 8 then
      ({ s with
        remotes := s.remotes.map fun (x : Remote) => if x.dst == dst && x.seq == seq then { x with tries := x.tries + 1 } else x }).at
        (s.now + replayTime) (.fabricReplay dst seq)
    else
      let s := r.waves.foldl (fun s w => s.ackWave w) gone
      (match r.by_, r.op with
       | some (t, a), _ => s.unreachable t a
       | none, .store off _ => s.fabricLost r off
       | none, _ => s).wake (· == Park.room))

/-- WCB_AGE_DRAIN (R459): an entry is drained 500 ns after its first store, or as soon after as its peer allows (R461). -/
def execWcbAgeDrain (core peer line : Nat) (s : State) : Host.Outcome State Fault Refusal :=
  let mine (e : WcEntry) : Bool := e.peer == peer && e.line == line && e.since + wcbAge ≤ s.now
  let s := s.wcbDrain core mine
  .next (if (s.core core).wcb.any mine then s.at (s.now + 400) (.wcbAgeDrain core peer line) else s)

/-! Links and time (R456, R457, R466) -/

/-- LINK_FAILURE (R456): what the port's register shows; no request is lost. -/
def execLinkFailure (port link : Nat) (s : State) : Host.Outcome State Fault Refusal :=
  let p := s.ports.get port {}
  .next { s with
    ports := s.ports.put port
      { fails := min (p.fails + 1) 65535, down := setBit p.down (link % 4) true, up := setBit p.up (link % 4) false } }

/-- The TIME from which what an exchange finds is in force: the cycles under way have ended (R138; log 76). -/
def State.syncFrom (s : State) : Nat :=
  let ends := s.cores.map fun e => if e.2.gated then 0 else e.2.start + e.2.len
  (ends ++ s.fsyncs.map (·.1)).foldl max s.now + 1

/-- FABRIC_TIME_SYNC (R466): the offset that the exchange finds; a decrease is applied over time. -/
def execFabricTimeSync (f : DWord) (s : State) : Host.Outcome State Fault Refusal :=
  .next (if s.master == some s.endpoint then s
  else
    { s with
      fclock := s.fabricClock s.now
      fsyncs := (s.fsyncs.filter fun e => s.now < e.1) ++ [(s.syncFrom, f)] })

end Sys2Proof.Machine
end

