-- ==== Sys2Proof/Machine/Place.lean ====
section
/-!
DEFINITION. Placement (R404 to R414, R417, R420): which cluster or saved workgroup comes next, where it fits, its creation,
pre-emption on its behalf; and the end of waves, workgroups and launches (R258, R408, R409).
-/
namespace Sys2Proof.Machine

/-! Placement order (R407) -/

/-- The Hilbert curve of R407 on a square of side `2 ^ k`, below step `s`. -/
def hilbertFrom (n : Nat) : Nat → Nat → Nat → Nat → Nat
  | 0, _, _, d => d
  | k + 1, u, v, d =>
    let s := 2 ^ k
    let rx := if Nat.land u s != 0 then 1 else 0
    let ry := if Nat.land v s != 0 then 1 else 0
    let d := d + s * s * Nat.xor (3 * rx) ry
    if ry == 0 then
      if rx == 1 then hilbertFrom n k (n - 1 - v) (n - 1 - u) d else hilbertFrom n k v u d
    else hilbertFrom n k u v d

/-- The distance along the curve. -/
def hilbert (k u v : Nat) : Nat := hilbertFrom (2 ^ k) k u v 0

/-- The exponent of the smallest power of two at least `n`. -/
def ceilLog (n : Nat) : Nat := if n ≤ 1 then 0 else Nat.log2 (n - 1) + 1

def insertKey (x : Nat × Nat) : List (Nat × Nat) → List (Nat × Nat)
  | [] => [x]
  | y :: ys => if x.1 < y.1 then x :: y :: ys else y :: insertKey x ys

/-- The cluster that comes `c`-th in placement order, as its number with x fastest. -/
def Launch.clusterAt (l : Launch) (c : Nat) : Nat :=
  if !l.hdr.determ then c
  else
    let (nx, ny, nz) := l.clusters
    let k := ceilLog (max nx (ny * nz))
    let key (n : Nat) : Nat := hilbert k (n % nx) (n / nx % ny + ny * (n / (nx * ny)))
    let order := ((List.range (nx * ny * nz)).map fun n => (key n, n)).foldr insertKey []
    (order.getD c (0, 0)).2

/-- The grid index of member `m` of a cluster (R404). -/
def Launch.gridOf (l : Launch) (cluster m : Nat) : Nat :=
  let (nx, ny, _) := l.clusters
  let h := l.hdr
  let x := (cluster % nx) * h.cx + m % h.cx
  let y := (cluster / nx % ny) * h.cy + m / h.cx % h.cy
  let z := (cluster / (nx * ny)) * h.cz + m / (h.cx * h.cy)
  x + l.gx * (y + l.gy * z)

/-! Creation (R404, R405) -/

/-- A WID that a wave of a context has, on the device or in a save image (R310). -/
def State.widUsed (s : State) (tag n : Nat) : Bool :=
  n == 0xFFFFFF || s.wgs.any fun e => (s.launch e.2.launch).tag == tag && (s.wavesIn e.1).any fun x => x.wid.toNat == n

/-- The next WID of a context that no wave of it has (R310). -/
def State.nextWid (s : State) (tag : Nat) : Nat → Nat → Nat
  | 0, n => n
  | fuel + 1, n => if s.widUsed tag n then s.nextWid tag fuel ((n + 1) % 2 ^ 24) else n

/-- Steps enough to pass every WID in use. -/
def State.widFuel (s : State) : Nat := s.wgs.foldl (fun m e => m + (s.wavesIn e.1).length) 2

/-- The entry registers (R405): ARGS in v0 and v1. -/
def entryRegs (h : KHdr) (args : DWord) : Tab VReg :=
  (List.range (min 2 h.regs)).foldl
    (fun t r =>
      let xs := List.replicate 32 (if r == 0 then loWord args else hiWord args)
      t.put r (((h.tags.get r .general).fit xs).getD (.general xs))) []

/-- Wave `i` of a workgroup. -/
def newWave (l : Launch) (launch g lin i wid : Nat) : Wave :=
  let first := (lin * l.wpw + i) * 32
  let live := if i + 1 == l.wpw then l.tpw - 32 * (l.wpw - 1) else 32
  { tag := l.tag, launch := launch, wg := g, idx := i, wid := BitVec.ofNat 24 wid, pats := l.hdr.pats, tags := l.hdr.tags
    regs := entryRegs l.hdr l.args, vec := List.replicate 32 none
    threads := (List.range 32).map fun n =>
      { st := if n < live then .ready else .exited
        pc := BitVec.ofNat 64 (l.khdr + 1024 + l.hdr.entry)
        stackB := BitVec.ofNat 64 (l.stackbase + (first + n) * l.stackz)
        stackZ := l.stackz } }

/-- An allocation at the start of the launch span (R196, R201). -/
def newAlloc (h : KHdr) (gen : Nat) (chmask : Nat) : Alloc :=
  { accs := (List.range h.accs).foldl (fun t n => t.put n { gen := gen, chmask := chmask }) [] }

/-- The lowest banks of a core that no allocation owns (R273). -/
def Core.freeBanks (c : Core) : List Nat := (List.range 32).filter fun b => (c.banks.get b {}).owner.isNone

/-- Gives a workgroup its banks: the scratchpad first, then the FIFOs, all empty (R273). -/
def State.giveBanks (s : State) (g : Nat) (h : KHdr) : State :=
  let G := s.wg g
  let bs := (s.core G.core).freeBanks.take (h.s + h.f)
  let s := s.modCore G.core fun c =>
    { c.dropWays bs with
      banks := (List.range bs.length).foldl
        (fun t j => t.put (bs.getD j 0) { mode := if j < h.s then .scratch else .fifo, owner := some (g, j) }) c.banks }
  s.modWg g fun x => { x with banks := bs }

/-- Creates a workgroup on a core (R405). -/
def State.createWg (s : State) (launch cluster m core : Nat) (pids : List Nat) : State :=
  let l := s.launch launch
  let g := s.wgs.fresh
  let lin := cluster * l.members + m
  let (de, di) := s.declares l
  let G : Wg :=
    { launch := launch, cluster := cluster, member := m, grid := l.gridOf (l.clusterAt cluster) m, lin := lin, core := core
      pids := pids, waves := [], banks := [], admitted := s.now, from_ := some s.now, de := de, di := di }
  let s := ({ s with wgs := s.wgs.put g G }).giveBanks g l.hdr
  let s := pids.foldl (fun s p => s.modPart p fun q => { q with allocs := q.allocs.put g (newAlloc l.hdr l.gen l.chmask) }) s
  let s := (List.range l.wpw).foldl
    (fun s i =>
      let (n, s) := s.free
      let wid := s.nextWid l.tag s.widFuel (Config.wid n).toNat
      let w := s.freePlace (pids.getD (i % pids.length) 0)
      let s := s.setWave w (newWave l launch g lin i wid)
      s.modWg g fun x => { x with waves := x.waves ++ [w] }) s
  let s := (s.threadsOf g).foldl (fun s t => s.file t 3) s
  (s.placesOf g).foldl (fun s w => s.keyArrive w) s

/-- Cores whose clocks stood still run again (R26, R501). -/
def State.ungate (s : State) : State :=
  if s.mg.power != 1 then s
  else
    let s : State := { s with
      mg := { s.mg with power := 0 }
      cores := (List.range Config.cores).foldl
        (fun t n => t.put n { t.get n {} with gated := false, phase := 0, start := s.now, len := 0 }) s.cores }
    s.event .powerState 0 5 0 [0, 1]

/-- Admits the next cluster of a launch to its cores. -/
def State.admitCluster (s : State) (launch : Nat) (cores : List (Nat × List Nat)) : State :=
  let c := (s.launch launch).admitted
  let x := s.ctx (s.launch launch).tag
  let s := s.ungate
  let s :=
    if c != 0 then s
    else s.modLaunch launch fun l => { l with gen := x.gen.toNat, chmask := (x.prof.map fun p => p.mask 0).getD 0 }
  let s := (List.range cores.length).foldl
    (fun s m =>
      let (core, pids) := cores.getD m (0, [])
      s.createWg launch c m core pids) s
  let s := s.modLaunch launch fun l => { l with admitted := c + 1, st := .admitted, since := s.now }
  (s.modCtx (s.launch launch).tag fun x => { x with lastAdmit := s.now }).writeRecord launch

/-! Fitting -/

/-- The next cluster of a launch admitted, none while it cannot be: the ordered window, the reservation, the budgets and the
cores (R406, R413, R420). A deterministic launch first reserves its window; each later cluster takes the cores that the one
`sets` before it has had, or others where those have been lost by pre-emption (log 91). -/
def State.fitsNow (s : State) (launch : Nat) : Option State :=
  let l := s.launch launch
  let m := l.members
  if l.hdr.determ && l.retired + l.ordwin < (l.admitted + 1) * m then none
  else if !l.hdr.determ then
    if s.pathFits l m (s.needs l) then (s.coresFor l m (List.range 18)).map (s.admitCluster launch) else none
  else if l.admitted == 0 then
    if s.pathFits l l.winSize (s.needs l) then
      (State.reserve launch l.sizes s).map fun s => s.admitCluster launch ((s.launch launch).places.getD 0 [])
    else none
  else
    let j := l.admitted % l.sets
    let here (cs : List (Nat × List Nat)) : State := s.modLaunch launch fun l => { l with places := l.places.set j cs }
    let cs := l.places.getD j []
    let s := here []
    if !s.pathFits l m (s.needs l) then none
    else (if s.coresTake l cs then some cs else s.coresFor l m (List.range 18)).map fun cs => (here cs).admitCluster launch cs

/-- The groups in which a saved workgroup may be placed: that of the other members on the device, or any (R406). -/
def State.groupsFor (s : State) (G : Wg) : List Nat :=
  let here (x : Wg) : Bool := x.holds || x.st == .shadow
  match s.wgs.first fun e => e.2.launch == G.launch && e.2.cluster == G.cluster && e.2.member != G.member && here e.2 with
  | some (_, x) => [x.core / 8]
  | none => List.range 18

/-- A workgroup in shadow storage fits its partitions again (R435). -/
def State.shadowFits (s : State) (G : Wg) : Bool :=
  let l := s.launch G.launch
  let n (p : Nat) : Nat := (G.image.filter fun x => G.pids.getD (x.idx % G.pids.length) 0 == p).length
  (G.pids.all fun p =>
    s.slotsUsed p + n p ≤ 24 && s.rowsUsed p + n p * l.hdr.rows ≤ 2048 && s.tilesUsed p + l.hdr.tiles ≤ 16 &&
      s.accsUsed p + l.hdr.accs ≤ 4) &&
    s.pathFits l 1 [l.wpw, 0, G.de, G.di] && (s.groups.get (G.core / 8) {}).st == 0 &&
    (G.de : Int) ≤ s.groupLeft (G.core / 8) true && (G.di : Int) ≤ s.groupLeft (G.core / 8) false

/-- Brings a saved workgroup back, if it fits. -/
def State.tryRestore (s : State) (g : Nat) : Option State :=
  let G := s.wg g
  let l := s.launch G.launch
  match G.st with
  | .shadow => if s.shadowFits G then some (s.ungate.beginReload g) else none
  | .saved n =>
    if !s.pathFits l 1 [l.wpw, l.hdr.s + l.hdr.f, G.de, G.di] then none
    else
      (s.coresFor l 1 (s.groupsFor G)).bind fun cs =>
        cs.head?.map fun (core, pids) =>
          let bs := (s.core core).freeBanks.take (l.hdr.s + l.hdr.f)
          let s := (s.ungate.modCore core fun c => c.dropWays bs).modWg g fun x =>
            { (x.enters s.now) with core := core, pids := pids, banks := bs, st := .restoring n }
          s.push [.restore g]
  | _ => none

/-! The choice (R410, R414) -/

/-- What may come next. -/
inductive Next where
  | saved (g : Nat)
  | fresh (launch : Nat)
  deriving DecidableEq, Repr, Inhabited

/-- The lesser of two keys comes first. -/
def keyLt : List Nat → List Nat → Bool
  | a :: as, b :: bs => a < b || (a == b && keyLt as bs)
  | [], _ :: _ => true
  | _, [] => false

def insertNext (x : List Nat × Next) : List (List Nat × Next) → List (List Nat × Next)
  | [] => [x]
  | y :: ys => if keyLt x.1 y.1 then x :: y :: ys else y :: insertNext x ys

/-- The launch of a region before another in record order. -/
def State.launchBefore (s : State) (tag rcb launch : Nat) : Option Nat :=
  ((s.launches.filter fun e => e.2.tag == tag && e.2.rcb == rcb && e.1 < launch).map (·.1)).getLast?

/-- The launch of a region that may admit its next cluster (R397, R409). -/
def State.regionNext (s : State) (tag : Nat) (e : Nat × Region) : Option Nat :=
  let r := e.2
  let c := s.ctx tag
  if c.ended || r.st != 1 || !r.enable || s.cutOff tag e.1 then none
  else
    (r.queue.find? fun l => (s.launch l).admitted < (s.launch l).clusterCount).filter fun l =>
      !(s.launch l).serial || (s.launchBefore tag e.1 l).all fun p => (s.launch p).over

/-- A saved workgroup that may come back (R414: in a deterministic launch in ascending linear index). -/
def State.savedNext (s : State) (e : Nat × Wg) : Bool :=
  let away (x : Wg) : Bool :=
    match x.st with
    | .shadow | .saved _ => true
    | _ => false
  away e.2 &&
    !((s.launch e.2.launch).hdr.determ &&
      s.wgs.any fun x => x.2.launch == e.2.launch && away x.2 && x.2.lin < e.2.lin)

/-- The candidates in the order of R410. -/
def State.nextOnes (s : State) : List (List Nat × Next) :=
  let saved := (s.wgs.filter s.savedNext).map fun (g, G) =>
    let l := s.launch G.launch
    let wake := (((s.ctx l.tag).regions.find? l.rcb).map (·.wake)).getD 0
    ([15 - s.priority l.tag l.rcb, 0, if wake == 0 then 1 else 0, G.lin, g], Next.saved g)
  let fresh := s.ctxs.flatMap fun (tag, c) =>
    c.regions.filterMap fun e =>
      (s.regionNext tag e).map fun l => ([15 - s.priority tag e.1, 1, (s.launch l).since, e.1, tag], Next.fresh l)
  (saved ++ fresh).foldr insertNext []

/-! Pre-emption on behalf of a candidate (R411) -/

/-- The device as it would be without some workgroups, with or without their banks. -/
def State.without (s : State) (banks : Bool) (gs : List Nat) : State :=
  gs.foldl
    (fun s g =>
      let G := s.wg g
      let ws := s.placesOf g
      let s : State := { s with waves := s.waves.filter fun e => !ws.contains e.1 }
      let s := G.pids.foldl (fun s p => s.modPart p fun q => { q with allocs := q.allocs.del g }) s
      let s := if banks then s.freeBanks G else s
      s.modWg g fun x => { x with st := if banks then .retired else .shadow }) s

/-- The workgroups that may be pre-empted for a priority: strictly lower ones, the lowest first, the most recently admitted
first. -/
def State.victims (s : State) (prio : Nat) : List Nat :=
  let of (e : Nat × Wg) : Option (List Nat × Next) :=
    let l := s.launch e.2.launch
    let p := s.priority l.tag l.rcb
    if (e.2.st == .resident || e.2.st == .debugged) && p < prio then
      some ([p, 2 ^ 64 - min e.2.admitted (2 ^ 64), 2 ^ 32 - min e.1 (2 ^ 32)], Next.saved e.1)
    else none
  ((s.wgs.filterMap of).foldr insertNext []).filterMap fun x =>
    match x.2 with
    | .saved g => some g
    | .fresh _ => none

/-- A candidate has room. -/
def State.hasRoom (s : State) : Next → Bool
  | .saved g => (s.tryRestore g).isSome
  | .fresh launch => (s.fitsNow launch).isSome

/-- The launch of a candidate. -/
def State.nextLaunch (s : State) : Next → Nat
  | .saved g => (s.wg g).launch
  | .fresh launch => launch

/-- The fewest of the victims whose absence makes room. -/
def State.enough (s : State) (x : Next) (banks : Bool) (going : List Nat) (vs : List Nat) : Option (List Nat) :=
  ((List.range (vs.length + 1)).map (vs.take ·)).find? fun take => (s.without banks (going ++ take)).hasRoom x

/-- Pre-empts what is in the way of a candidate; a copy under way may make the room by itself. -/
def State.evict (s : State) (x : Next) : State :=
  let l := s.launch (s.nextLaunch x)
  let vs := s.victims (s.priority l.tag l.rcb)
  let going := (s.wgs.filter fun e =>
    match e.2.st with
    | .halting _ | .saving _ => true
    | _ => false).map (·.1)
  match s.enough x false going vs with
  | some take => take.foldl (fun s g => s.requestHalt g) s
  | none =>
    match if l.hdr.s + l.hdr.f == 0 then none else s.enough x true going vs with
    | some take => take.foldl (fun s g => (s.modWg g fun x => { x with needBanks := true }).requestHalt g) s
    | none => s

/-! Core groups (R417) -/

/-- A group with no allocation, resident, in shadow storage or on its way out, and with nothing reserved. -/
def State.groupIdle (s : State) (group : Nat) : Bool :=
  !(s.wgs.any fun e => e.2.core / 8 == group && (e.2.holds || e.2.st == .shadow || !e.2.banks.isEmpty)) &&
    !s.reserved.any fun x => x.2.1 / 8 == group

/-- The group to move to a class of which no group takes a candidate (R417): the lowest idle one that is not SLEWING. -/
def State.groupToMove (s : State) (oc : Nat) : Option Nat :=
  (List.range 18).find? fun k =>
    let g := s.groups.get k {}
    g.st == 0 && g.oc != oc && s.groupIdle k

/-- CORE_GROUP_SLEW (R417): the group joins its new pool, and its voltage begins to move at 10 mV per µs. -/
def execCoreGroupSlew (group oc : Nat) (s : State) : Host.Outcome State Fault Refusal :=
  let old := s.groups.get group {}
  let (v0, _) := s.opts.getD old.oc (0, [])
  let (v1, steps) := s.opts.getD oc (0, [])
  let cores := (List.range 8).map (8 * group + ·)
  .next (if old.st == 1 || !s.groupIdle group then s
  else
    let s : State := { s with groups := s.groups.put group { old with st := 1, oc := oc } }
    let s := cores.foldl
      (fun s c => s.modCore c fun k =>
        { k with newTrim := some 0, newSteps := if v0 < v1 then k.newSteps else some steps }) s
    s.at (s.now + 2000 * (max v0 v1 - min v0 v1) + 40000) (.slewSettled group))

/-- SLEW_SETTLED (R417): the group is STABLE, with the mapping of its class. -/
def execSlewSettled (group : Nat) (s : State) : Host.Outcome State Fault Refusal :=
  let g := s.groups.get group {}
  let steps := (s.opts.getD g.oc (0, [])).2
  .next (if g.st != 1 then s
  else
    let s : State := { s with groups := s.groups.put group { g with st := 0 } }
    let s := (List.range 8).foldl (fun s i => s.modCore (8 * group + i) fun k => { k with newSteps := some steps }) s
    s.at s.now .admission)

/-- TRIM_APPLY (R423): the trim of a core from its next boundary on. -/
def execTrimApply (core : Nat) (trim : Int) (s : State) : Host.Outcome State Fault Refusal :=
  .next (s.modCore core fun c => { c with newTrim := some trim })

/-! Admission (R406, R410) -/

/-- What becomes of one candidate: the state after it was admitted or has failed, or none. Before the first admission of a launch
its record and header are read and checked again (R403). -/
def State.tryNext (s : State) : Next → Option State
  | .saved g => s.tryRestore g
  | .fresh launch =>
    let l := s.launch launch
    if l.admitted != 0 then s.fitsNow launch
    else
      match s.checkRecord l.tag l.rcb l.record (s.readWords l.tag l.record 8) with
      | (0, x) => (s.modLaunch launch fun l => { x with since := l.since }).fitsNow launch
      | (code, _) => some (s.failLaunch launch code)

/-- The groups of a candidate's class take it, or what a deterministic launch has to reserve for it; a candidate that is bound to a
group or to reserved cores asks for no other (R417). -/
def State.someGroup (s : State) (x : Next) : Bool :=
  let launch := s.nextLaunch x
  let l := s.launch launch
  match x with
  | .saved g => (s.wg g).st == .shadow || (s.groupsFor (s.wg g)).length != 18 || (s.coresFor l 1 (List.range 18)).isSome
  | .fresh _ =>
    if !l.hdr.determ then (s.coresFor l l.members (List.range 18)).isSome
    else !l.places.isEmpty || (State.reserve launch l.sizes s).isSome

/-- A candidate that does not fit now: a group moves to its class, or lower work is pre-empted for it (R411, R417). -/
def State.makeRoom (s : State) (x : Next) : State :=
  let l := s.launch (s.nextLaunch x)
  let shut := (x matches .fresh _) && l.hdr.determ && l.retired + l.ordwin < (l.admitted + 1) * l.members
  if shut then s
  else
    match if s.someGroup x then none else s.groupToMove (s.classOf l) with
    | some k => s.at s.now (.coreGroupSlew k (s.classOf l))
    | none => s.evict x

/-- The first candidate that can be admitted is; room is sought for those before it. While a saved workgroup of rank `wait` has no
room no new cluster of its rank is admitted (R410), but for one that has its cores reserved (R413, R414; log 92). -/
def State.choose (s : State) (wait : Option Nat) : List (Nat × Next) → State
  | [] => s
  | (p, x) :: xs =>
    if (x matches .fresh _) && wait == some p && (s.launch (s.nextLaunch x)).places.isEmpty then s.choose wait xs
    else
      match s.tryNext x with
      | some s => s.at s.now .admission
      | none => (s.makeRoom x).choose (if x matches .saved _ then some p else wait) xs

/-- ADMISSION (R406, R410): one admission choice; none during an emergency (R424), and none where no core runs. -/
def execAdmission (s : State) : Host.Outcome State Fault Refusal :=
  .next (if s.mg.emergency || s.fatal || 2 ≤ s.mg.power then s
  else s.choose none (s.nextOnes.map fun x => (x.1.headD 0, x.2)))

/-! The end of waves and workgroups (R258, R408) -/

/-- WAVE_DRAIN_END (R258): the wave leaves DRAINING, and its slot is free. -/
def execWaveDrainEnd (core part slot : Nat) (s : State) : Host.Outcome State Fault Refusal :=
  let w := core * 96 + part * 24 + slot
  .next (if (s.waves.find? w).isNone || !s.drained w then s
  else
    let x := s.wave w
    let s := (s.vacate [w]).modWg x.wg fun g => { g with gone := g.gone ++ [x.idx] }
    let s := s.at s.now .admission
    if (s.wg x.wg).gone.length == (s.launch x.launch).wpw then s.push [.workgroupFinish x.wg] else s)

/-- The clusters that have finished retire in placement order (R408). -/
def State.retireClusters (s : State) (launch : Nat) : Nat → State
  | 0 => s
  | fuel + 1 =>
    let l := s.launch launch
    let c := l.retired / max 1 l.members
    let gs := s.wgs.filter fun e => e.2.launch == launch && e.2.cluster == c
    if l.retired < l.total && gs.length == l.members && gs.all fun e => e.2.st == .finished then
      let s := gs.foldl (fun s e => s.modWg e.1 fun x => { x with st := .retired }) s
      let s := s.modLaunch launch fun l => { l with retired := l.retired + l.members }
      (s.writeRecord launch).retireClusters launch fuel
    else s

/-- A launch whose last workgroup has retired is DONE (R409): the record, then LRET. -/
def State.finishLaunch (s : State) (launch : Nat) : State :=
  let l := s.launch launch
  if l.st != .admitted || l.retired < l.total then s
  else
    let s := (s.modLaunch launch fun l => { l with st := .done }).writeRecord launch
    let s := s.modRegion l.tag l.rcb fun r => { r with lret := (r.lret + 1) % 2 ^ 32, queue := r.queue.filter (· != launch) }
    ((s.writeRegion l.tag l.rcb).activity l.tag l.rcb).endSpan launch

/-- WORKGROUP_FINISH (R408, R409, R425): the workgroup's places are free and clusters retire; at the next core cycle ingress
closes, and the banks return to the cache. -/
def execWorkgroupFinish (g : Nat) (s : State) : Host.Outcome State Fault Refusal :=
  let G := s.wg g
  let c := s.core G.core
  .next (if (s.wgs.find? g).isNone then s
  else match G.st with
  | .ended => s
  | .finished | .retired =>
    if G.closed then s
    else (((s.modWg g fun x => { x with closed := true }).freeBanks G).modWg g fun x => { x with banks := [] }).at s.now .admission
  | _ =>
    if G.gone.length != (s.launch G.launch).wpw then s
    else
      let s := G.pids.foldl
        (fun s pid => (s.pullTiles pid fun o => o.wg == g).modPart pid fun p =>
          { p with allocs := p.allocs.del g, shadow := p.shadow.filter (· != g) }) s
      let s := (s.freeSlot g).modWg g fun x => { (x.leaves s.now) with st := .finished, image := [] }
      let allOver := s.wgs.all fun e => !(e.2.launch == G.launch && e.2.cluster == G.cluster) || e.2.over
      let s := if allOver then s.clearTrims G.launch G.cluster else s
      let s := (s.retireClusters G.launch ((s.launch G.launch).total + 1)).finishLaunch G.launch
      (s.at (max (c.start + c.len) s.now) (.workgroupFinish g)).at s.now .admission)

end Sys2Proof.Machine
end

