-- ==== Sys2Proof/Machine/System.lean ====
section
/-!
DEFINITION. The special and system registers (R447, R448) and the system instructions (R433, R446, R449).
-/
namespace Sys2Proof.Machine

/-! Reading registers -/

/-- The step mapping in the layout of CLKMAP (R24). -/
def clkWord (steps : List Nat) : Nat := (List.range 4).foldl (fun n k => n + steps.getD k 0 % 32 * 2 ^ (8 * k)) 0

/-- CLKTRIM (R25). -/
def trimCode (t : Int) : Nat := if t == 1 then 1 else if t == -1 then 3 else 0

/-- DRPSTAT (R37). -/
def Core.drpstat (c : Core) : Nat :=
  (match c.droop with
   | .normal => 0
   | .stretch => 1
   | .half => 2) * 2 ^ 30 + c.deepest * 2 ^ 16 + c.alarms

/-- PROFSTAT (R174). -/
def State.profstat (s : State) (tag : Nat) : Nat :=
  let c := s.ctx tag
  let state := if c.computing then 1 else if c.prof.isSome then 2 else 0
  let active := (c.prof.map fun p =>
    (List.range 12).foldl (fun n k => n + (if (p.chans.getD k default).role == 0 then 0 else 2 ^ k)) 0).getD 0
  c.gen.toNat * 2 ^ 32 + state * 2 ^ 30 + (c.prof.map (·.grouping)).getD 0 * 2 ^ 28 + c.pcause * 2 ^ 24 +
    s.mapout.toNat * 2 ^ 12 + active

/-- WTSTAT (R327). -/
def State.wtstat (s : State) (tag : Nat) : Nat :=
  (s.watches.filter fun e => e.spill.isNone).length * 2 ^ 49 +
    (s.watches.filter fun e => e.spill.isSome && e.waiter.tag == tag).length * 2 ^ 25 + (s.ctx tag).wtfull * 2 ^ 9

/-- BANKMAP (R277). -/
def Core.bankmap (c : Core) : Nat :=
  (List.range 32).foldl
    (fun n b =>
      let k := c.banks.get b {}
      n + (if k.switching.isSome then 3 else
        match k.mode with
        | .cache => 0
        | .scratch => 1
        | .fifo => 2) * 4 ^ b) 0

/-- The workgroups resident in a core group (R418). -/
def State.residents (s : State) (group : Nat) : Nat :=
  (s.wgs.filter fun e =>
    e.2.core / 8 == group &&
      match e.2.st with
      | .resident | .halting _ | .saving _ | .reloading | .restoring _ | .debugged => true
      | _ => false).length

/-- GRPPWR (R418): debts are kept in nJ and mA; while the device is GATED or OFF (R501) the islands of every group are off. -/
def State.grppwr (s : State) (group : Nat) : Nat :=
  let g := s.groups.get group {}
  g.oc * 2 ^ 61 + (if 2 ≤ s.mg.power then 2 else g.st) * 2 ^ 59 + min (g.debtE / 1000) (2 ^ 24 - 1) * 2 ^ 32 + min (g.debtI / 1000) (2 ^ 16 - 1) * 2 ^ 16 +
    min (s.residents group) (2 ^ 16 - 1)

/-- BBRCTL (R488). -/
def BlackBox.ctl (b : BlackBox) : Nat :=
  b.events.toNat * 2 ^ 32 + b.wptr * 2 ^ 8 + b2n b.lost * 16 + b2n b.stored.isSome * 8 + b2n b.frozen * 4 + b2n b.bbmen

/-- The value of a register of the core, the partition or the device, for a context (R447). -/
def State.readUnit (s : State) (core part tag reg : Nat) : Nat :=
  let c := s.core core
  let p := s.part (core * 4 + part)
  if 0x50 ≤ reg && reg ≤ 0x5B then (p.chkcnt.get (reg - 0x50) 0).toNat
  else if 0x60 ≤ reg && reg ≤ 0x67 then
    let o := s.opts.getD (reg - 0x60) (0, [])
    o.1 * 2 ^ 32 + clkWord o.2
  else
    match reg with
    | 0x0E => p.drowsy.toNat
    | 0x40 => clkWord c.steps
    | 0x41 => trimCode c.trim
    | 0x42 => c.drpcfg.toNat
    | 0x43 => c.drpstat
    | 0x44 => c.xlcfg.toNat
    | 0x45 => s.profstat tag
    | 0x46 => p.contain.toNat
    | 0x47 => s.wtstat tag
    | 0x48 => c.bankmap
    | 0x49 => s.grppwr (core / 8)
    | 0x4A => s.bbr.ctl
    | _ => 0

/-- The value of a register for a thread of the bundle (R447): TCAUSE, TPC and TREC read zero outside handler mode. -/
def State.readReg (s : State) (t : TId) (reg : Nat) : Nat :=
  let x := s.wave t.w
  let g := s.wg x.wg
  let th := s.thread t
  let hand (f : Handler → Nat) : Nat := (th.hand.map f).getD 0
  match reg with
  | 0x00 => t.lane
  | 0x01 => x.idx
  | 0x02 => g.grid
  | 0x03 => g.cluster
  | 0x04 => x.tag
  | 0x05 => (s.launch x.launch).khdr
  | 0x08 => s.counter .cyc
  | 0x09 => s.counter .time
  | 0x0A => s.counter (.cls 0)
  | 0x0B => s.counter (.cls 1)
  | 0x0C => s.counter (.cls 2)
  | 0x0D => s.counter (.cls 3)
  | 0x0F => 4 * th.rngB.toNat + th.rngI
  | 0x10 => hand fun h => h.tcause.toNat
  | 0x11 => hand fun h => h.tpc.toNat
  | 0x12 => hand fun h => (h.trec.getD 0 0).toNat
  | 0x13 => hand fun h => (h.trec.getD 1 0).toNat
  | 0x14 => hand fun h => (h.trec.getD 2 0).toNat
  | 0x15 => hand fun h => (h.trec.getD 3 0).toNat
  | r => s.readUnit t.core (t.pid % 4) x.tag r

/-- SRD (R448). -/
def execSrd (h : Hd) (d reg : Nat) (w : Bool) (s : State) : Host.Outcome State Fault Refusal :=
  .next (s.compute h .short (dests w d) [] fun s t => { regs := putNum w d (s.readReg t reg) })

/-! Writing registers -/

/-- DRPCFG (R33, R36): reserved bits ignore the write, and EN = 0 ends the droop response with the present cycle. -/
def Core.setDrpcfg (c : Core) (v : Word) : Core :=
  { c with drpcfg := v &&& 0x8FFFFFFF, drpoff := c.drpoff || !v.getLsbD 31 }

/-- DRPSTAT.CLR (R37). -/
def Core.clearDrpstat (c : Core) : Core := { c with deepest := 0, alarms := 0 }

/-- BBRCTL (R488): FREEZE and BBMEN. -/
def State.writeBbrctl (s : State) (v : Nat) : State :=
  let s := { s with bbr := { s.bbr with bbmen := bitAt v 0 } }
  if bitAt v 1 then s.freeze 2 else s

/-- A write of a register of the core, the partition or the device by its access codes (R15, R448): every register and field
that is not named here ignores it. -/
def State.writeUnit (s : State) (core part tag reg v : Nat) : State :=
  if 0x50 ≤ reg && reg ≤ 0x5B then
    s.modPart (core * 4 + part) fun p => { p with chkcnt := p.chkcnt.put (reg - 0x50) (BitVec.ofNat 32 (v % 2 ^ 24)) }
  else
    match reg with
    | 0x42 => s.modCore core fun c => c.setDrpcfg (BitVec.ofNat 32 v)
    | 0x43 => if bitAt v 29 then s.modCore core Core.clearDrpstat else s
    | 0x44 => s.modCore core fun c => { c with xlcfg := BitVec.ofNat 32 (v % 2 ^ 16) }
    | 0x47 => if bitAt v 8 then s.clearFull tag else s
    | 0x4A => s.writeBbrctl v
    | _ => s

/-- TPC in handler mode (R447): the low word, or all of it. -/
def Thread.writeTpc (th : Thread) (v : DWord) (w : Bool) : Thread :=
  { th with hand := th.hand.map fun h => { h with tpc := if w then v else pairOf (loWord v) (hiWord h.tpc) } }

/-- SWR (R448): once for the bundle, from the lowest active lane. -/
def execSwr (h : Hd) (reg a : Nat) (w : Bool) (s : State) : Host.Outcome State Fault Refusal :=
  let s1 := s.begin h [] []
  .next ((match laneOrder (s.acting s1 h) with
  | [] => s1
  | t :: _ =>
    let v : DWord := if w then s.rd64 t a else BitVec.ofNat 64 (s.rd t a).toNat
    if reg == 0x11 then s1.modThread t fun th => th.writeTpc v w
    else s1.writeUnit t.core (t.pid % 4) (s.wave t.w).tag reg v.toNat).settle false)

/-- DRPCFG_WRITE (R36). -/
def execDrpcfgWrite (core : Nat) (v : Word) (s : State) : Host.Outcome State Fault Refusal :=
  .next (s.writeUnit core 0 0 0x42 v.toNat)

/-- DRPSTAT_CLR (R37). -/
def execDrpstatClr (core : Nat) (s : State) : Host.Outcome State Fault Refusal :=
  .next (s.writeUnit core 0 0 0x43 (2 ^ 29))

/-- WTSTAT_CLR (R327). -/
def execWtstatClr (tag : Nat) (s : State) : Host.Outcome State Fault Refusal := .next (s.writeUnit 0 0 tag 0x47 (2 ^ 8))

/-- BBRCTL_FREEZE (R487). -/
def execBbrctlFreeze (s : State) : Host.Outcome State Fault Refusal := .next (s.freeze 2)

/-! The other system instructions -/

/-- ECALL (R449): the service number in TREC0. -/
def execEcall (h : Hd) (service : Nat) (s : State) : Host.Outcome State Fault Refusal :=
  let s1 := s.begin h [] []
  .next (((s.acting s1 h).foldl
    (fun z t => z.raise t { code := .ecall, words := [service, 0, 0, 0, 0, 0, 0, 0], arg := 0 } s.cur.pc) s1).settle false)

/-- A thread leaves handler mode (R433): what its windows would still write in the banked registers goes with them. -/
def Thread.leave (th : Thread) : Thread :=
  { th.leaveHandler with windows := th.windows.map fun x => { x with regs := x.regs.filter (fun r => !(th.banked r.1)), preds := [] } }

/-- TRET of a thread (R433, R439): after RESTORE it waits until every thread of its wave has returned. -/
def State.retThread (s : State) (t : TId) : State :=
  match (s.thread t).hand with
  | none => s.raise t (.general .haltState) s.cur.pc
  | some h =>
    let s := s.modThread t Thread.leave
    if h.tcause == 49 then ((s.modThread t fun th => { th with st := .halted }).leaveBundle t).push [.restore (s.wave t.w).wg]
    else s

/-- TRET (R433). -/
def execTret (h : Hd) (s : State) : Host.Outcome State Fault Refusal :=
  let s1 := s.begin h [] []
  .next (((s.acting s1 h).foldl (fun z t => z.retThread t) s1).settle false)

/-- HALT (R449): in a SAVE handler the thread stops; else HALT_STATE. -/
def execHalt (h : Hd) (s : State) : Host.Outcome State Fault Refusal :=
  let s1 := s.begin h [] []
  .next (((s.acting s1 h).foldl
    (fun z t =>
      if ((z.thread t).hand.map (·.tcause)) == some 48 then
        ((z.modThread t fun th => { th with st := .halted }).leaveBundle t).push [.slowSave (z.wave t.w).wg]
      else z.raise t (.general .haltState) s.cur.pc) s1).settle false)

/-- IFENCE (R449): the earlier stores are performed, and the core fetches anew. -/
def execIfence (h : Hd) (s : State) : Host.Outcome State Fault Refusal :=
  let s1 := s.begin h [] []
  .next ((if (s.acting s1 h).isEmpty then s1
  else (s1.wcbDrain s.cur.core fun _ => true).modCore s.cur.core fun c => { c with icache := [] }).settle false)

/-- TLBINV (R449). -/
def execTlbinv (h : Hd) (a : Nat) (ext : TlbExtent) (s : State) : Host.Outcome State Fault Refusal :=
  let s1 := s.begin h [] []
  .next (((s.acting s1 h).foldl
    (fun z t =>
      match ext with
      | .page => z.tlbDropPage (s.wave t.w).tag (s.rd64 t a).toNat
      | .ctx => z.tlbDrop fun e => e.tag == (s.wave t.w).tag
      | .all => z.tlbDrop fun _ => true) s1).settle false)

/-- BBMARK (R449, R485, R488): one event for each wave, from its lowest active lane. -/
def execBbmark (h : Hd) (a : Nat) (s : State) : Host.Outcome State Fault Refusal :=
  let s1 := s.begin h [] []
  let ts := laneOrder (s.acting s1 h)
  .next ((if !s.bbr.bbmen then s1
  else
    (wavesOf ts).foldl
      (fun z w =>
        match ts.find? fun t => t.w == w with
        | some t =>
          z.event .bbmark (s.wave w).tag 0 s.cur.core (bytesOfWord 4 (s.wave w).wid.toNat ++ bytesOfWord 4 (s.rd t a).toNat)
        | none => z) s1).settle false)

end Sys2Proof.Machine
end

