-- ==== Sys2Proof/Machine/Host.lean ====
section
/-!
DEFINITION. The host (R450 to R454, R426, R427): accesses through BAR2 and BAR0, the register of the windows, and the commands
of the context window.
-/
namespace Sys2Proof.Machine

/-! The windows of BAR0 (R452) -/

/-- The 32 bytes of an entry of the black-box record (R484). -/
def BbEntry.bytes (e : BbEntry) : List Byte :=
  bytesOfWord 8 e.time.toNat ++ bytesOfWord 2 e.kind ++ bytesOfWord 1 e.tag ++ [0] ++ bytesOfWord 4 (e.cls * 2 ^ 24 + e.src) ++
    padTo 16 e.data

/-- Bytes of the live ring (R488). -/
def BlackBox.ringBytes (b : BlackBox) (at_ n : Nat) : List Byte :=
  let entry (k : Nat) : List Byte := ((b.ring.find? k).map BbEntry.bytes).getD (List.replicate 32 0)
  (List.range n).map fun i => (entry ((at_ + i) / 32)).getD ((at_ + i) % 32) 0

/-- THERMST (R495), THERMCFG (R494), FPORT (R457), RETLIST (R475). -/
def Therm.word (t : Therm) : Nat := t.entries * 2 ^ 32 + b2n t.thr * 2 ^ 31 + wrapNat 16 t.temp
def Mgmt.thermcfg (m : Mgmt) : Nat := m.tcrit * 2 ^ 24 + m.tuncore * 2 ^ 16 + m.tcourse * 2 ^ 8 + m.tpart
def Port.word (p : Port) : Nat := p.fails * 2 ^ 16 + p.down.toNat * 16 + p.up.toNat
def State.retlist (s : State) (n : Nat) : Nat :=
  match s.retired[n]? with
  | some f => f * 2 ^ 16 + 1
  | none => 0

/-- CWSTAT (R454). -/
def State.cwstat (s : State) : Nat := b2n s.cwrun.isSome * 2 ^ 63 + s.cwres * 2 ^ 56 + s.cwtag * 2 ^ 48

/-- An 8-byte word of BAR0; write-only and absent registers read zero. -/
def State.bar0 (s : State) (off : Nat) : Nat :=
  if 0x1000 ≤ off && off < 0x1090 then (s.ports.get ((off - 0x1000) / 8) {}).word
  else if 0x2100 ≤ off && off < 0x2900 then s.retlist ((off - 0x2100) / 8)
  else if 0x3000 ≤ off && off < 0x5000 then (s.therms.get ((off - 0x3000) / 8) {}).word
  else if 0x10000 ≤ off && off < 0x20000 then
    let e := s.coll.get ((off - 0x10000) / 16) (0, 0)
    (if off % 16 == 0 then e.1 else e.2).toNat
  else if 0x40000 ≤ off && off < 0x60000 then wordOfBytes (s.bbr.ringBytes (off - 0x40000) 8)
  else if 0x80020 ≤ off && off < 0x80040 then fld s.fqpend.toNat (8 * (off - 0x80020)) 64
  else
    match off with
    | 0x2000 => s.errcfg.toNat
    | 0x2008 => s.ued * 2 ^ 48 + s.uec * 2 ^ 33 + s.ce
    | 0x2900 => b2n s.retOvf * 2 ^ 8 + s.retired.length % 256
    | 0x2A00 => s.mg.thermcfg
    | 0x80008 => s.cwarg.toNat
    | 0x80010 => s.cwstat
    | _ => 0

/-- A field of a word with the bits that a write covers. -/
def merge (old v mask : Nat) : Nat := Nat.lor (Nat.land old (Nat.xor mask (2 ^ 64 - 1))) (Nat.land v mask)

/-- The patrols are due by the present SCRUB (R477, R478). -/
def State.restartPatrols (s : State) : State :=
  let s : State := { s with
    agenda := s.agenda.filter fun d =>
      match d.ev with
      | .patrolScrub _ => false
      | _ => true }
  (List.range Config.slices).foldl (fun s k => s.nextPatrol k) s

/-- A command ends: RESULT, TAG and MSI-X vector 0. -/
def State.endCw (s : State) (res tag : Nat) : State :=
  { s with cwres := if s.cwover then 5 else res, cwtag := tag, cwrun := none, cwover := false }.interrupt 0

/-- The command that a write of CWCMD names, with its argument; none for an OP that does not exist (R454). -/
def State.cwCommand (s : State) (v : Nat) : Option Instr :=
  let tag := fld v 48 8
  let arg := fld s.cwarg.toNat 0 56
  match fld v 56 8 with
  | 1 => some (.create s.cwarg.toNat)
  | 2 => some (.destroy tag)
  | 3 => some (.regroot tag arg)
  | 4 => some (.preempt tag arg (fld v 0 32))
  | 5 => some (.kill tag arg)
  | _ => none

/-- A write of CWCMD starts a command, which runs for a time that the environment chooses; while one runs it is ignored, and the
running one ends with OVERRUN (R454). -/
def State.cwcmd (s : State) (v : Nat) : State :=
  if s.cwrun.isSome then { s with cwover := true }
  else
    match s.cwCommand v with
    | none => s.endCw 4 (fld v 48 8)
    | some cmd =>
      let (n, s) := s.takeDelay
      let s : State := { s with cwrun := some ⟨s.now + n, cmd⟩ }
      if n == 0 then s.push [cmd] else s.at (s.now + n) cmd

/-- A write of a word of BAR0 by its access codes (R15): `mask` covers the bits written. -/
def State.writeBar0 (s : State) (off v mask : Nat) : State :=
  let w := Nat.land v mask
  if 0x1000 ≤ off && off < 0x1090 then
    { s with
      ports := s.ports.upd ((off - 0x1000) / 8) fun p => { p with down := p.down &&& ~~~ BitVec.ofNat 4 (fld w 4 4) } }
  else if 0x10000 ≤ off && off < 0x20000 then
    let k := (off - 0x10000) / 16
    let e := s.coll.get k (0, 0)
    let new (x : DWord) : DWord := BitVec.ofNat 64 (merge x.toNat v mask)
    { s with coll := s.coll.put k (if off % 16 == 0 then (new e.1, e.2) else (e.1, new e.2)) }
  else if 0x80020 ≤ off && off < 0x80040 then
    { s with fqpend := s.fqpend &&& ~~~ BitVec.ofNat 256 (w * 2 ^ (8 * (off - 0x80020))) }
  else
    match off with
    | 0x2000 =>
      let x := BitVec.ofNat 64 (Nat.land (merge s.errcfg.toNat v mask) 0x00FF000000FFFFFF)
      let old := fld s.errcfg.toNat 48 8
      let s : State := { s with errcfg := x }
      if fld x.toNat 48 8 == old then s else s.restartPatrols
    | 0x2008 => if bitAt w 32 then s.push [.errsumClr] else s
    | 0x80000 => if Nat.land mask (2 ^ 63) == 0 || s.mg.recovery then s else s.cwcmd w
    | 0x80008 => { s with cwarg := BitVec.ofNat 64 (merge s.cwarg.toNat v mask) }
    | _ => s

/-- REGISTER_WRITE (R15, R448): a write of a system register by its number, or from 0x100 on of the register at that offset of
BAR0. A fatal device accepts none (R469). -/
def execRegisterWrite (core part reg : Nat) (v : DWord) (w : Bool) (s : State) : Host.Outcome State Fault Refusal :=
  let shift := if w then 0 else 32 * (reg / 4 % 2)
  .next (if s.fatal then s
  else if reg < 0x100 then s.writeUnit core part 0 reg (if w then v.toNat else v.toNat % 2 ^ 32)
  else s.writeBar0 (reg / 8 * 8) (v.toNat % 2 ^ 64 * 2 ^ shift) (if w then 2 ^ 64 - 1 else (2 ^ 32 - 1) * 2 ^ shift))

/-! BAR2 (R452, R453) -/

/-- HOST_WRITE (R452): a write at system scope to device memory, owned by no context (R470); or a write of the host's to its own
memory, at the addresses by which the device reaches it (R450; log 72). -/
def execHostWrite (pa : Nat) (bytes : List Byte) (s : State) : Host.Outcome State Fault Refusal :=
  if s.fatal || !s.linkUp then .next s
  else if hostRow pa && hostRow (pa + bytes.length - 1) then .next { s.breakRels 0 pa bytes.length with mem := s.mem.write pa bytes }
  else if !((linesOf pa bytes.length).all fun l => deviceMem (l * 128)) then .fault (.hostUnmapped pa)
  else .next ((s.breakRels 0 pa bytes.length).writeDev 0 pa bytes).fqRetry

/-- Where the model's HOST_READ finds BAR0: above every physical address. -/
def barBase : Nat := 2 ^ 52

/-- HOST_READ (R452, R473): of device memory, of the host's own (log 72), or from `barBase` on of BAR0; the answer is kept. -/
def execHostRead (pa n : Nat) (s : State) : Host.Outcome State Fault Refusal :=
  let give (s : State) (x : Option (List Byte)) : State := { s with hostReads := s.hostReads ++ [(pa, x)] }
  if !s.linkUp then .next s
  else if barBase ≤ pa then
    let off := pa - barBase
    .next (give s (some ((List.range n).map fun i => BitVec.ofNat 8 (s.bar0 ((off + i) / 8 * 8) / 2 ^ (8 * ((off + i) % 8))))))
  else if s.fatal then .next s
  else if hostRow pa && hostRow (pa + n - 1) then .next (give s (some (s.read pa n)))
  else if !((linesOf pa n).all fun l => deviceMem (l * 128)) then .fault (.hostUnmapped pa)
  else
    let s1 := s.meetLines (linesOf pa n)
    .next (give s1 (if (linesOf pa n).any s.lineBad then none else some (s1.read pa n)))

/-- HOST_LINK_CHANGE (R450): host memory is mapped while the link is up. -/
def execHostLinkChange (up : Bool) (s : State) : Host.Outcome State Fault Refusal := .next { s with linkUp := up }

/-! The context window (R454) -/

/-- An area lies wholly in the first or the second tier (R427). -/
def inTiers (a n : Nat) : Bool :=
  n == 0 || (firstTier a && firstTier (a + n - 1)) || (secondTier a && secondTier (a + n - 1))

/-- A descriptor is refused (R427). -/
def descBad (w : List Nat) : Bool :=
  let x (n : Nat) : Nat := w.getD n 0
  fld (x 0) 52 12 != 0 || fld (x 0) 0 12 != 0 || !deviceMem (x 0) || fld (x 1) 56 8 != 0 || x 1 % 8 != 0 || fld (x 2) 56 8 != 0 ||
    x 2 % 4096 != 0 || fld (x 3) 0 32 % 4096 != 0 || fld (x 4) 52 12 != 0 || x 4 % 32 != 0 || fld (x 5) 32 32 != 0 ||
    x 5 % 64 != 0 || fld (x 6) 52 12 != 0 || x 6 % 32 != 0 || fld (x 7) 32 32 != 0 || x 7 < 16 || 65536 < x 7 ||
    2 ^ Nat.log2 (x 7) != x 7 || 1 < x 10 || (w.drop 11).any (· != 0) || !inTiers (x 4) (32 * x 5) || !inTiers (x 6) (32 * x 7)

/-- The context of a descriptor. -/
def ctxOfDesc (desc : Nat) (w : List Nat) : Ctx :=
  let x (n : Nat) : Nat := w.getD n 0
  { desc := desc, ptroot := x 0, handler := x 1, savebase := x 2, slots := fld (x 3) 32 32, slotsz := fld (x 3) 0 32
    wspill := x 4, wspilln := x 5, fqbase := x 6, fqn := x 7, priv := x 10 == 1 }

/-- A context may be created: not while the device is GATED (R501) or RETURNED (R502). -/
def Mgmt.takesContexts (m : Mgmt) : Bool := m.power < 2 && m.life != 3

/-- CREATE (R427, R454). A device in recovery ignores every command (R496). -/
def execCreate (desc : Nat) (s : State) : Host.Outcome State Fault Refusal :=
  .next (if s.mg.recovery then s
  else if !s.mg.takesContexts then s.endCw 4 0
  else
    let readable := desc % 128 == 0 && deviceMem desc
    let s := if readable then s.meetLines [desc / 128] else s
    let w := wordsOf (s.read desc 128)
    if !readable || s.lineBad (desc / 128) || descBad w then s.endCw 1 0
    else
      match (List.range 256).find? fun t => t != 0 && (s.ctxs.find? t).isNone with
      | none => s.endCw 2 0
      | some t =>
        let s := s.writeDev t (desc + 64) (bytesOfWord 8 0)
        ({ s with ctxs := s.ctxs.put t (ctxOfDesc desc w) }).endCw 0 t)

/-- A command of a context that does not exist gives NOCTX; in recovery it is ignored (R496). -/
def State.cwCtx (s : State) (tag : Nat) (f : State → State) : State :=
  if s.mg.recovery then s
  else if (s.ctxs.find? tag).isNone then s.endCw 3 tag else f s

/-- Nothing of a context is left to be done. -/
def State.dropTag (s : State) (tag : Nat) : State :=
  let gs := (s.wgs.filter fun e => (s.launch e.2.launch).tag == tag).map (·.1)
  let s := gs.foldl (fun s g => s.freeBanks (s.wg g)) s
  { s with
    wgs := s.wgs.filter fun e => !gs.contains e.1
    launches := s.launches.filter fun e => e.2.tag != tag
    ctxs := s.ctxs.del tag
    fqpend := setBit s.fqpend tag false
    parts := s.parts.map fun (n, p) => (n, { p with tileQ := p.tileQ.filter fun o => !gs.contains o.wg })
    cores := s.cores.map fun (n, c) => (n, { c with icache := c.icache.filter fun (x : Nat × Nat × Nat) => x.1 != tag })
    agenda := s.agenda.filter fun d =>
      match d.ev with
      | .profileCheck t | .profileReady t | .schedulerWatch t _ | .faultResponse t _ => t != tag
      | .workgroupFinish g => !gs.contains g
      | _ => true }

/-- The errors in shadow storage that holds workgroups of a context are found (R467). -/
def State.meetShadows (s : State) (tag : Nat) : State :=
  if s.upsets.isEmpty then s
  else
    (s.wgs.filter fun e => (e.2.st == .shadow || e.2.st == .reloading) && (s.launch e.2.launch).tag == tag).foldl
      (fun s e =>
        match s.shadowLost e.2.pids with
        | (true, s) => s.loseShadow e.1
        | (false, s) => s) s

/-- DESTROY (R426): the workgroups end, entries and commands are withdrawn, shadow slots are free, and the translations go. -/
def execDestroy (tag : Nat) (s : State) : Host.Outcome State Fault Refusal :=
  .next (s.cwCtx tag fun s =>
    let s := (s.meetShadows tag).endContext tag 7
    let s := s.withdrawWatches fun i => i.tag == tag
    let s : State := { s with cores := s.cores.map fun (n, c) => (n, withdrawQueues c fun i => i.tag == tag) }
    let s : State := { s with
      parts := s.parts.map fun (n, p) =>
        (n, { p with shadow := p.shadow.filter fun g => (s.launch (s.wg g).launch).tag != tag }) }
    let s := s.tlbDrop fun e => e.tag == tag
    ((s.dropTag tag).at s.now .admission).endCw 0 tag)

/-- REGROOT (R398): the root's watch is armed; an earlier root and its regions are forgotten. -/
def execRegroot (tag root : Nat) (s : State) : Host.Outcome State Fault Refusal :=
  .next (s.cwCtx tag fun s =>
    let s := if (s.ctx tag).root == root then s
      else
        (s.withdrawWatches fun i =>
          match i with
          | .region t _ => t == tag
          | _ => false).modCtx tag fun c => { c with regions := [] }
    let s := s.modCtx tag fun c => { c with root := root }
    let (code, s) := s.readRegion tag root 0
    let armed := (((s.ctx tag).regions.find? root).map (·.watched)).getD false
    (if code == 0 && !armed then s.armRegion tag root else s).endCw 0 tag)

/-- The launch of a context with a record that is not over. -/
def State.launchAt (s : State) (tag record : Nat) : Option Nat :=
  (s.launches.first fun e => e.2.tag == tag && e.2.record == record && !e.2.over).map (·.1)

/-- PREEMPT (R434): of a workgroup on the device; one that is saved stays so. -/
def execPreempt (tag launch index : Nat) (s : State) : Host.Outcome State Fault Refusal :=
  .next (s.cwCtx tag fun s =>
    match (s.launchAt tag launch).bind fun l => s.wgOf l index with
    | some (g, G) => if G.over then s.endCw 4 tag else (s.requestHalt g).endCw 0 tag
    | none => s.endCw 4 tag)

/-- KILL (R454): a launch, or with 0 every launch of the context, with CODE 7. -/
def execKill (tag launch : Nat) (s : State) : Host.Outcome State Fault Refusal :=
  .next (s.cwCtx tag fun s =>
    if launch == 0 then (s.endContext tag 7).endCw 0 tag
    else
      match s.launchAt tag launch with
      | some l =>
        let L := s.launch l
        ((s.failLaunch l 7).activity L.tag L.rcb).endCw 0 tag
      | none => s.endCw 4 tag)

/-- CWCMD_BADARG (R454). -/
def execCwcmdBadarg (v : DWord) (s : State) : Host.Outcome State Fault Refusal := .next (s.endCw 4 (fld v.toNat 48 8))

end Sys2Proof.Machine
end

