-- ==== Sys2Proof/Machine/Sha.lean ====
section
/-!
DEFINITION. SHA3-512 of FIPS 202, by which images are measured (R496, R497). Nothing of it is tabled: the walk of the lanes
gives the rotations and the moves, and the shift register of FIPS 202 gives the round constants.
-/
namespace Sys2Proof.Machine

/-- The sponge's 25 lanes, sheet by sheet: lane y of sheet x at 5 x + y. -/
abbrev Sponge := List (BitVec 64)

/-- The places of the walk, from lane 0 of sheet 1: lane y of sheet x is followed by lane 2 x + 3 y of sheet y. -/
def spongeWalk : Nat → Nat → Nat → List Nat
  | 0, _, _ => []
  | n + 1, x, y => (5 * x + y) :: spongeWalk n y ((2 * x + 3 * y) % 5)

/-- Every move: where a lane comes from, where it goes, and by how much it is rotated (steps rho and pi in one). -/
def spongeMoves : List (Nat × Nat × Nat) :=
  let places := spongeWalk 25 1 0
  (List.range 24).map fun t => (places.getD t 0, places.getD (t + 1) 0, (t + 1) * (t + 2) / 2 % 64)

def spongeStir (a : Sponge) : Sponge :=
  spongeMoves.foldl (fun b (from_, to_, r) => b.set to_ ((a.getD from_ 0).rotateLeft r)) a

/-- Step theta: every lane of a sheet takes the parities of the sheets beside it. -/
def spongeSpread (a : Sponge) : Sponge :=
  let parities := (List.range 5).map fun x => ((a.drop (5 * x)).take 5).foldl (· ^^^ ·) 0
  (List.range 5).flatMap fun x =>
    let mix := parities.getD ((x + 4) % 5) 0 ^^^ (parities.getD ((x + 1) % 5) 0).rotateLeft 1
    ((a.drop (5 * x)).take 5).map (· ^^^ mix)

/-- Step chi, sheet by sheet with its two followers. -/
def spongeTwist (a : Sponge) : Sponge :=
  let sheets := a ++ a.take 10
  (List.range 5).flatMap fun x =>
    let followers := ((sheets.drop (5 * x + 5)).take 5).zip ((sheets.drop (5 * x + 10)).take 5)
    ((sheets.drop (5 * x)).take 5).zipWith (fun u (v, w) => u ^^^ (w &&& ~~~v)) followers

/-- The states of the eight-bit shift register whose lowest bit is rc(t). -/
def rcStates : Nat → Nat → List Nat
  | 0, _ => []
  | n + 1, r => r :: rcStates n (if r < 128 then 2 * r else Nat.xor (2 * r - 256) 0x71)

/-- The constants of step iota: bit 2^j - 1 of the one of round k is rc(7 k + j). -/
def roundWords : List (BitVec 64) :=
  let rs := rcStates 168 1
  (List.range 24).map fun k =>
    BitVec.ofNat 64 (((List.range 7).map fun j => rs.getD (7 * k + j) 0 % 2 * 2 ^ (2 ^ j - 1)).sum)

def spongePermute (a : Sponge) : Sponge :=
  roundWords.foldl (fun a k => (spongeTwist (spongeStir (spongeSpread a))).modifyHead (· ^^^ k)) a

/-- The lane that takes word n of a block. -/
def wordPlace (n : Nat) : Nat := 5 * (n % 5) + n / 5

/-- Takes in a block of 72 bytes. -/
def spongeTake (a : Sponge) (block : List Byte) : Sponge :=
  spongePermute ((List.range 9).foldl
    (fun a n => a.modify (wordPlace n) (· ^^^ BitVec.ofNat 64 (wordOfBytes ((block.drop (8 * n)).take 8)))) a)

def spongeTakeAll : Nat → List Byte → Sponge → Sponge
  | 0, _, a => a
  | n + 1, m, a => spongeTakeAll n (m.drop 72) (spongeTake a (m.take 72))

/-- The message with the padding of SHA-3: 0x06, zeros, and the top bit of the last byte of a block. -/
def shaPadded (m : List Byte) : List Byte :=
  let zeros := List.replicate (71 - m.length % 72) (0 : Byte)
  let padded := m ++ (0x06 : Byte) :: zeros
  padded.set (padded.length - 1) (padded.getD (padded.length - 1) 0 ||| 0x80)

/-- The 64 bytes of the digest. -/
def sha3 (m : List Byte) : List Byte :=
  let p := shaPadded m
  let a := spongeTakeAll (p.length / 72) p (List.replicate 25 0)
  (List.range 8).flatMap fun n => bytesOfWord 8 (a.getD (wordPlace n) 0).toNat

end Sys2Proof.Machine
end

