-- ==== Sys2Proof/Machine/Manage.lean ====
section
/-!
DEFINITION. The management island (R483 to R506): sensors, power states, and the commands of the Dusia port.
-/
namespace Sys2Proof.Machine

/-! Sensors (R490 to R493) -/

/-- The threshold of an island in units of 0.125 degrees. -/
def Mgmt.threshold (m : Mgmt) (island : Nat) : Int :=
  8 * ((if island < 576 then m.tpart else if island < 960 then m.tcourse else m.tuncore : Nat) : Int)

/-- 10 ms and 100 µs in steps of TIME. -/
def coolTime : Nat := 200000000
def sampleTime : Nat := 2000000

/-- One sample: the sensor's new state, and 1 for an entry, 0 for an exit. -/
def Therm.sample (t : Therm) (thr reading : Int) (now : Nat) : Therm × Option Nat :=
  let t := { t with temp := reading, cool := if reading ≤ thr - 24 then t.cool + 1 else 0, next := now + sampleTime }
  if !t.thr && thr ≤ reading then ({ t with thr := true, entries := min (t.entries + 1) 65535, since := now, cool := 0 }, some 1)
  else if t.thr && 51 ≤ t.cool && t.since + coolTime ≤ now then ({ t with thr := false }, some 0)
  else (t, none)

/-- THERMAL_SAMPLE (R490 to R493): a reading that comes before the island's next sample is taken with it. -/
def execThermalSample (island : Nat) (reading : Int) (s : State) : Host.Outcome State Fault Refusal :=
  let (t, change) := (s.therms.get island {}).sample (s.mg.threshold island) reading s.now
  let s1 : State := { s with therms := s.therms.put island t }
  let s1 := match change with
    | some n =>
      s1.event .thermal 0 4 island
        (bytesOfWord 2 island ++ [BitVec.ofNat 8 n, 0] ++ bytesOfWord 2 (wrapNat 16 reading))
    | none => s1
  .next (if s.now < (s.therms.get island {}).next then s.at (s.therms.get island {}).next (.thermalSample island reading)
  else if 8 * (s.mg.tcrit : Int) ≤ reading then s1.goFatal 2 4 island else s1)

/-! Power states (R501) -/

/-- The clocks of the cores stop. -/
def State.gateCores (s : State) : State :=
  { s with cores := (List.range Config.cores).foldl (fun t n => t.put n { t.get n {} with gated := true, phase := 0 }) s.cores }

/-- A change of the power state, with its event. -/
def State.setPower (s : State) (p : Nat) : State :=
  ({ s with mg := { s.mg with power := p } }).event .powerState 0 5 0 [BitVec.ofNat 8 s.mg.power, BitVec.ofNat 8 p]

/-- Something keeps the device in RUN. -/
def State.busy (s : State) : Bool :=
  (s.wgs.any fun e => e.2.holds || e.2.st == .shadow) || s.cores.any fun c => c.2.queues.any fun q => !q.2.isEmpty

/-- ENTER_IDLE (R501). -/
def execEnterIdle (s : State) : Host.Outcome State Fault Refusal :=
  .next (if s.mg.power != 0 || s.busy || s.fatal then s else (s.gateCores).setPower 1)

/-- OFF (R501): the boot span ends; only a cold reset leads on. -/
def State.powerOff (s : State) : State :=
  { s.gateCores with mg := { s.mg with power := 3 }, todo := [], agenda := keepUntilReset (fun _ => false) s.agenda }

/-- POWER_LOSS (R501). -/
def execPowerLoss (s : State) : Host.Outcome State Fault Refusal := .next s.powerOff

/-- GATED (R501): the shared cache is written back. -/
def State.powerGate (s : State) : State :=
  let s := s.meetLines (s.dirty.map (·.1))
  ({ s.gateCores with dirty := [], stlb := [], walk := [] }).setPower 2

/-- RUN again after 2 ms with the clocks as they stood (R26, R501). -/
def State.powerRun (s : State) : State :=
  if s.mg.power == 0 then s
  else
    let wait := if s.mg.power == 2 then 40000000 else 0
    ({ s with
      cores := (List.range Config.cores).foldl
        (fun t n => t.put n { t.get n {} with gated := false, phase := 0, start := s.now + wait, len := 0 }) s.cores }).setPower 0

/-! Frames (R503) -/

/-- STATUS of a reply. -/
inductive DStatus where
  | ok | unknown | badLen | denied | badSig | busy | state | badArg
  deriving DecidableEq, Repr, Inhabited

def DStatus.code : DStatus → Nat
  | .ok => 0 | .unknown => 1 | .badLen => 2 | .denied => 3 | .badSig => 4 | .busy => 5 | .state => 6 | .badArg => 7

/-- What a command answers. -/
abbrev DAns := DStatus × List Byte × State

def State.ok (s : State) (data : List Byte := []) : DAns := (.ok, data, s)
def State.no (s : State) (d : DStatus) : DAns := (d, [], s)

/-- The commands that a device in recovery answers (R496). -/
def inRecovery (cmd : Nat) : Bool := cmd == 0x01 || cmd == 0x03 || cmd == 0x10 || cmd == 0x17

/-- A reply is sent (R503). -/
def State.sends (s : State) (cmd seq : Nat) (bs : List Byte) : State :=
  { s with mg := { s.mg with sent := s.mg.sent ++ [(cmd, seq, bs)] } }

/-- The reply of a command that has ended is sent. -/
def State.replyDue (s : State) : State :=
  match s.mg.run with
  | some (till, c, q, bs) => if till ≤ s.now then ({ s with mg := { s.mg with run := none } } : State).sends c q bs else s
  | none => s

/-- Runs a command: its reply is kept for a frame that comes again, and is sent now or when the command ends, after a time that the
environment chooses (R503, R504; log 60). -/
def State.serves (s : State) (cmd seq : Nat) (run : State → DAns) : State :=
  let (n, s) := s.takeDelay
  let (d, data, s) := run s
  let bs := BitVec.ofNat 8 d.code :: data
  let s : State := { s with mg := { s.mg with prev := some (seq, cmd + 128, bs) } }
  if n == 0 then s.sends (cmd + 128) seq bs else { s with mg := { s.mg with run := some (s.now + n, cmd + 128, seq, bs) } }

/-- A frame with a good CRC (R503, R504): BUSY while a command runs; one with the SEQ of the previous frame is answered from the
cached reply. -/
def State.frame (s : State) (cmd seq : Nat) (run : State → DAns) : State :=
  if s.fatal || s.mg.power == 3 || (s.mg.recovery && !inRecovery cmd) then s
  else
    let s := s.replyDue
    if s.mg.run.isSome then s.sends (cmd + 128) seq [BitVec.ofNat 8 DStatus.busy.code]
    else
      match s.mg.prev.filter fun x => x.1 == seq with
      | some (_, c, bs) => s.sends c seq bs
      | none => s.serves cmd seq run

/-- A command whose payload has a fixed length. -/
def State.sized (s : State) (payload : List Byte) (n : Nat) (f : State → DAns) : DAns :=
  if payload.length != n then s.no .badLen else f s

/-! Authorised commands (R505) -/

/-- The bytes of an ML-DSA-87 signature and of a public key. -/
def sigBytes : Nat := 4627
def keyBytes : Nat := 2592

/-- Whose signature a command needs. -/
inductive SigKey where
  | owner (hash : List Byte)
  | maker
  | anyone
  deriving DecidableEq, Repr, Inhabited

/-- An authorised command: it consumes the nonce, and runs on the rest of its payload if `key` of that rest has signed it. The
rest has a length that `len` allows. A command that needs no signature leaves the nonce (R504, R505). -/
def State.authorised (s : State) (cmd : Nat) (payload : List Byte) (len : Nat → Bool) (key : List Byte → SigKey)
    (run : State → List Byte → DAns) : DAns :=
  let free := key payload == .anyone
  let n := if free then payload.length else payload.length - sigBytes
  let body := payload.take n
  let sig := payload.drop n
  let nonce := s.mg.nonce
  let s : State := if free then s else { s with mg := { s.mg with nonce := none } }
  if (!free && payload.length < sigBytes) || !len n then s.no .badLen
  else
    let msg (k : List Byte) : List Byte := BitVec.ofNat 8 cmd :: body ++ k
    let good :=
      match key body, nonce with
      | .anyone, _ => true
      | .owner h, some k => !h.isEmpty && Config.ownerSig h (msg k) sig
      | .maker, some k => Config.makerSig (msg k) sig
      | _, none => false
    if good then run s body else s.no .badSig

/-- The key of the commands that name none of their own. -/
def State.ownerKey (s : State) (_ : List Byte) : SigKey := .owner s.mg.owner

def byteAt (bs : List Byte) (i : Nat) : Nat := (bs.getD i 0).toNat

/-! The commands (R504) -/

/-- STATUS: lifecycle, debug mode, power state, recovery flag, BBRCTL. -/
def execStatus (seq : Nat) (payload : List Byte) (s : State) : Host.Outcome State Fault Refusal :=
  .next (s.frame 0x01 seq fun s =>
    s.sized payload 0 fun s =>
      s.ok ([s.mg.life, s.debug, s.mg.power, b2n s.mg.recovery].map (BitVec.ofNat 8) ++ bytesOfWord 8 s.bbr.ctl))

/-- TELEM: the sensors (the low halves of THERMST), the inlet power, ERRSUM, GRPPWR of each core group. -/
def execTelem (seq : Nat) (payload : List Byte) (s : State) : Host.Outcome State Fault Refusal :=
  .next (s.frame 0x02 seq fun s =>
    s.sized payload 0 fun s =>
      s.ok (((List.range 1024).flatMap fun i => bytesOfWord 4 ((s.therms.get i {}).word % 2 ^ 32)) ++ bytesOfWord 4 s.mg.inlet ++
        bytesOfWord 8 (s.bar0 0x2008) ++ (List.range 18).flatMap fun g => bytesOfWord 8 (s.grppwr g)))

/-- BBR_READ: 4,096 bytes of the live ring from an entry on. -/
def execBbrRead (seq : Nat) (payload : List Byte) (s : State) : Host.Outcome State Fault Refusal :=
  .next (s.frame 0x03 seq fun s =>
    s.sized payload 4 fun s =>
      let n := wordOfBytes payload
      if 4096 ≤ n then s.no .badArg
      else s.ok ((List.range 128).flatMap fun i => s.bbr.ringBytes (32 * ((n + i) % 4096)) 32))

/-- The entries of a ring in write order, then in ascending TIME (R489). -/
def insertByTime (e : BbEntry) : List BbEntry → List BbEntry
  | [] => [e]
  | x :: xs => if e.time ≤ x.time then e :: x :: xs else x :: insertByTime e xs
def ringEntries (ring : Tab BbEntry) (wptr : Nat) : List BbEntry :=
  (((ring.filter fun e => wptr ≤ e.1) ++ ring.filter fun e => e.1 < wptr).map (·.2)).foldr insertByTime []

/-- The bytes of a signed export (R489). -/
def State.exportOf (s : State) (stored : Bool) (time : DWord) (entries : List BbEntry) (nonce : List Byte) : List Byte :=
  let hdr := padTo 128
    (bytesOfWord 4 0x42425650 ++ bytesOfWord 4 1 ++ bytesOfWord 8 (Config.serial % 2 ^ 64) ++
      [s.mg.life, s.debug, b2n stored, 0].map (BitVec.ofNat 8) ++ bytesOfWord 4 entries.length ++ bytesOfWord 8 time.toNat ++
      padTo 32 nonce)
  let msg := hdr ++ entries.flatMap BbEntry.bytes
  msg ++ padTo sigBytes (Config.identitySig msg)

/-- EXPORT_BEGIN (R489): the stored record or a snapshot; without an identity key there is no signature (R498). -/
def execExportBegin (seq : Nat) (payload : List Byte) (s : State) : Host.Outcome State Fault Refusal :=
  .next (s.frame 0x04 seq fun s =>
    s.sized payload 33 fun s =>
      let nonce := payload.drop 1
      let built (bs : List Byte) : DAns :=
        ({ s with mg := { s.mg with exp := bs, expAt := 0 } }).ok (bytesOfWord 4 bs.length)
      if !s.mg.ident then s.no .state
      else
        match byteAt payload 0, s.bbr.stored with
        | 0, _ => built (s.exportOf false s.time (ringEntries s.bbr.ring s.bbr.wptr) nonce)
        | 1, some (t, w, ring) => built (s.exportOf true t (ringEntries ring w) nonce)
        | 1, none => s.no .state
        | _, _ => s.no .badArg)

/-- EXPORT_READ: the next 4,096 bytes. -/
def execExportRead (seq : Nat) (payload : List Byte) (s : State) : Host.Outcome State Fault Refusal :=
  .next (s.frame 0x05 seq fun s =>
    s.sized payload 0 fun s =>
      if s.mg.exp.isEmpty then s.no .state
      else ({ s with mg := { s.mg with expAt := s.mg.expAt + 4096 } }).ok ((s.mg.exp.drop s.mg.expAt).take 4096))

/-- EXPORT_ACK (R489): STORED and LOST are cleared. -/
def execExportAck (seq : Nat) (payload : List Byte) (s : State) : Host.Outcome State Fault Refusal :=
  .next (s.frame 0x06 seq fun s =>
    s.authorised 0x06 payload (· == 0) s.ownerKey fun s _ => ({ s with bbr := { s.bbr with stored := none, lost := false } }).ok)

/-- ATTEST (R498): the report in the order in which the rule lists it. -/
def execAttest (seq : Nat) (payload : List Byte) (s : State) : Host.Outcome State Fault Refusal :=
  .next (s.frame 0x07 seq fun s =>
    s.sized payload 32 fun s =>
      if !s.mg.ident then s.no .state
      else
        let report := payload ++ [s.mg.life, s.debug].map (BitVec.ofNat 8) ++ s.mg.meas.flatMap id ++
          s.mg.flash.flatMap (fun i => bytesOfWord 4 (Config.imageVersion i % 2 ^ 32)) ++ bytesOfWord 2 s.mapout.toNat ++
          bytesOfWord 1 (s.retired.length % 256) ++ bytesOfWord 8 s.now
        s.ok (report ++ padTo sigBytes (Config.identitySig report)))

/-- CHALLENGE: a fresh nonce of 32 bytes. -/
def execChallenge (seq : Nat) (payload : List Byte) (s : State) : Host.Outcome State Fault Refusal :=
  .next (s.frame 0x10 seq fun s =>
    s.sized payload 0 fun s =>
      let nonce := (List.range 32).map fun i => Config.freeByte (s.freeCtr + i)
      ({ s with freeCtr := s.freeCtr + 32, mg := { s.mg with nonce := some nonce } }).ok nonce)

/-- The moves of the lifecycle (R499). -/
def lifeMove (old new : Nat) : Bool :=
  match old, new with
  | 0, 1 | 0, 2 | 1, 2 | 2, 3 => true
  | _, _ => false

/-- LIFECYCLE (R499): the new state, out of BLANK with the owner's public key. -/
def execLifecycle (seq : Nat) (payload : List Byte) (s : State) : Host.Outcome State Fault Refusal :=
  .next (s.frame 0x11 seq fun s =>
    let old := s.mg.life
    let key (b : List Byte) : SigKey :=
      if old == 0 then .owner (sha3 ((b.drop 1).take keyBytes)) else if old == 2 then .maker else .owner s.mg.owner
    if payload.isEmpty then ({ s with mg := { s.mg with nonce := none } }).no .badLen
    else if !lifeMove old (byteAt payload 0) || s.mg.moves.isSome then ({ s with mg := { s.mg with nonce := none } }).no .denied
    else
      s.authorised 0x11 payload (· == if old == 0 then 1 + keyBytes else 1) key fun s b =>
        let new := byteAt b 0
        let owner := if old == 0 then sha3 (b.drop 1) else s.mg.owner
        (({ s with mg := { s.mg with moves := some new, owner := owner } }).event .lifecycle 0 5 0
          [BitVec.ofNat 8 old, BitVec.ofNat 8 new]).ok)

/-- DEBUG (R500, R502). -/
def execDebug (seq : Nat) (payload : List Byte) (s : State) : Host.Outcome State Fault Refusal :=
  .next (s.frame 0x12 seq fun s =>
    let life := s.mg.life
    let key (_ : List Byte) : SigKey := if life == 0 then .anyone else if life == 3 then .maker else .owner s.mg.owner
    s.authorised 0x12 payload (· == 1) key fun s b =>
      let new := byteAt b 0
      if 2 < new then s.no .badArg
      else if life == 2 && new == 2 then s.no .denied
      else
        (({ s with debug := new }).event .debug 0 5 0 [BitVec.ofNat 8 s.debug, BitVec.ofNat 8 new]).ok)

/-- POWER (R501): RUN, GATED without a context, OFF. -/
def execPower (seq : Nat) (payload : List Byte) (s : State) : Host.Outcome State Fault Refusal :=
  .next (s.frame 0x13 seq fun s =>
    s.authorised 0x13 payload (· == 1) s.ownerKey fun s b =>
      match byteAt b 0 with
      | 0 => s.powerRun.ok
      | 2 => if s.mg.power == 2 then s.ok else if s.ctxs.isEmpty then s.powerGate.ok else s.no .state
      | 3 => s.powerOff.ok
      | _ => s.no .badArg)

/-- BUDGET (R418): a core group, EBUD and IBUD; the sums stay within the module's limits. -/
def execBudget (seq : Nat) (payload : List Byte) (s : State) : Host.Outcome State Fault Refusal :=
  .next (s.frame 0x14 seq fun s =>
    s.authorised 0x14 payload (· == 9) s.ownerKey fun s b =>
      let k := byteAt b 0
      let g := { s.groups.get k {} with ebud := bfld b 1 4, ibud := bfld b 5 4 }
      let groups := s.groups.put k g
      let sum (f : Group → Nat) : Nat := groups.foldl (fun n e => n + f e.2) 0
      if 18 ≤ k || Config.energyLimit < sum (·.ebud) || Config.currentLimit < sum (·.ibud) then s.no .badArg
      else (({ s with groups := groups }).at s.now .admission).ok)

/-- MAPOUT (R480). -/
def execMapout (seq : Nat) (payload : List Byte) (s : State) : Host.Outcome State Fault Refusal :=
  .next (s.frame 0x15 seq fun s =>
    s.authorised 0x15 payload (· == 1) s.ownerKey fun s b =>
      if 12 ≤ byteAt b 0 then s.no .badArg else (s.mapOut (byteAt b 0) 3 5 0).ok)

/-- THERM (R494): the fields of THERMCFG. -/
def execTherm (seq : Nat) (payload : List Byte) (s : State) : Host.Outcome State Fault Refusal :=
  .next (s.frame 0x16 seq fun s =>
    s.authorised 0x16 payload (· == 4) s.ownerKey fun s b =>
      let m := { s.mg with tpart := byteAt b 0, tcourse := byteAt b 1, tuncore := byteAt b 2, tcrit := byteAt b 3 }
      if m.tcrit ≤ m.tpart || m.tcrit ≤ m.tcourse || m.tcrit ≤ m.tuncore || 125 < m.tcrit then s.no .badArg
      else ({ s with mg := m }).ok)

/-! Firmware (R496, R497, R506) -/

/-- An image passes its checks. -/
def Mgmt.accepts (m : Mgmt) (i : Nat) (image : List Byte) : Bool :=
  (Config.imageSigned image || (m.life == 1 && Config.imageOwner m.owner image)) && m.minver.getD i 0 ≤ Config.imageVersion image

/-- A measurement register is extended (R497). -/
def Mgmt.measure (m : Mgmt) (i : Nat) (image : List Byte) : Mgmt :=
  { m with meas := m.meas.set i (sha3 (m.meas.getD i [] ++ sha3 image)) }

/-- The 64 MiB of the staging area. -/
def stageBytes : Nat := 2 ^ 26

/-- FWLOAD (R506). -/
def execFwload (seq : Nat) (payload : List Byte) (s : State) : Host.Outcome State Fault Refusal :=
  .next (s.frame 0x17 seq fun s =>
    let i := byteAt payload 0
    let flags := byteAt payload 1
    let off := bfld payload 4 4
    let data := payload.drop 8
    let first := bitAt flags 0
    let setStage (x : Option (Nat × List Byte)) : State := { s with mg := { s.mg with stage := x } }
    if !s.mg.recovery then s.no .state
    else if payload.length < 8 then s.no .badLen
    else if 4 ≤ i || 4 ≤ flags || bfld payload 2 2 != 0 then s.no .badArg
    else
      let have_ : Option (List Byte) :=
        if first then (if off == 0 then some [] else none)
        else
          match s.mg.stage with
          | some (j, bs) => if j == i && off == bs.length then some bs else none
          | none => none
      match have_ with
      | none => (setStage none).no .badArg
      | some bs =>
        let image := bs ++ data
        if stageBytes < image.length then (setStage none).no .badArg
        else if !bitAt flags 1 then (setStage (some (i, image))).ok
        else if !s.mg.accepts i image then (setStage none).no .badSig
        else
          let m := (setStage none).mg.measure i image
          ({ s with mg := { m with flash := m.flash.set i image } }).ok)

/-! Debugging (R500) -/

/-- A special or system register as DBGREG reads it (R447): of the thread at a place, or while no wave is there, of the core, its
counters included (R26). -/
def State.peekReg (s : State) (t : TId) (reg : Nat) : Nat :=
  match reg with
  | 0x08 => (s.core t.core).cyc.toNat
  | 0x09 => s.time.toNat
  | 0x0A | 0x0B | 0x0C | 0x0D => ((s.core t.core).cls.getD (reg - 0x0A) 0).toNat
  | r => if (s.waves.find? t.w).isSome then s.readReg t r else s.readUnit t.core (t.pid % 4) 0 r

/-- A register of a thread: a vector register, from 0x100 on the predicates, 0x101 the program counter. -/
def State.peekThread (s : State) (t : TId) (reg : Nat) : Nat :=
  if reg < 255 then (s.rd t reg).toNat
  else if reg == 0x100 then (s.thread t).preds.toNat
  else if reg == 0x101 then (s.thread t).pc.toNat
  else 0

/-- Writes a register of a thread; none where the value does not fit the register's shape (R265). -/
def State.pokeThread (s : State) (t : TId) (reg v : Nat) : Option State :=
  if reg < 255 then
    if (s.thread t).banked reg then some (s.modThread t fun th => th.setBanked reg (BitVec.ofNat 32 v))
    else ((s.wave t.w).write reg [(t.lane, BitVec.ofNat 32 v)]).map fun x => s.setWave t.w x
  else if reg == 0x100 then some (s.modThread t fun th => { th with preds := BitVec.ofNat 8 v ||| 1 })
  else if reg == 0x101 then some (s.modThread t fun th => { th with pc := alignPc (BitVec.ofNat 64 v) })
  else none

/-- DBGREG (R500): [0] the operation (0 a special or system register, under OBSERVE; 1 read, 2 write a thread's, under HALT), [1] lane,
[2-3] core, [4] partition, [5] wave slot, [6-7] register, [8-15] value. -/
def execDbgreg (seq : Nat) (payload : List Byte) (s : State) : Host.Outcome State Fault Refusal :=
  .next (s.frame 0x18 seq fun s =>
    s.sized payload 16 fun s =>
      let core := bfld payload 2 2
      let part := byteAt payload 4
      let reg := bfld payload 6 2
      let t : TId := ⟨core * 96 + part * 24 + byteAt payload 5, byteAt payload 1⟩
      let exists_ := decide (core < Config.cores) && decide (part < 4) && decide (byteAt payload 5 < 24) && decide (t.lane < 32)
      let halted := exists_ && (s.wg (s.wave t.w).wg).st == .debugged && (s.waves.find? t.w).isSome
      match byteAt payload 0, s.debug with
      | 0, 1 => if exists_ then s.ok (bytesOfWord 8 (s.peekReg t reg)) else s.no .badArg
      | 1, 2 => if halted then s.ok (bytesOfWord 8 (s.peekThread t reg)) else s.no .state
      | 2, 2 =>
        if !halted then s.no .state
        else
          match s.pokeThread t reg (bfld payload 8 8) with
          | some s => s.ok
          | none => s.no .badArg
      | _, _ => s.no .state)

/-- A workgroup halted at a BKPT goes on: the threads at it continue behind it (R500). -/
def State.resumeDebug (s : State) (g : Nat) : State :=
  let s := (s.threadsOf g).foldl
    (fun s t => s.modThread t fun th => if th.st == .halted then { th with st := .ready, pc := th.pc + 8 } else th) s
  (s.resumeWaves (s.placesOf g)).backAgain g

/-- RESUME (R500). -/
def execResume (seq : Nat) (payload : List Byte) (s : State) : Host.Outcome State Fault Refusal :=
  .next (s.frame 0x19 seq fun s =>
    s.sized payload 0 fun s =>
      let gs := (s.wgs.filter fun e => e.2.st == .debugged).map (·.1)
      if gs.isEmpty then s.no .state else (gs.foldl (fun s g => s.resumeDebug g) s).ok)

/-- DUSIA_UNKNOWN (R504). -/
def execDusiaUnknown (cmd seq : Nat) (_payload : List Byte) (s : State) : Host.Outcome State Fault Refusal :=
  .next (s.frame cmd seq fun s => s.no .unknown)

/-! Cold reset (R481, R496) -/

/-- What comes to the device from outside; the rest of the agenda ends with the boot span. -/
def external : Instr → Bool
  | .droopAlarm .. | .drpcfgWrite .. | .drpstatClr .. | .registerWrite .. | .fabricRequest .. | .linkFailure .. | .fabricTimeSync ..
  | .hostWrite .. | .hostRead .. | .create .. | .destroy .. | .regroot .. | .preempt .. | .kill .. | .controlIntervalEnd ..
  | .powerEmergency .. | .emergencyEnd | .thermalSample .. | .coldReset | .powerLoss | .enterIdle | .status .. | .telem ..
  | .bbrRead .. | .exportBegin .. | .exportRead .. | .exportAck .. | .attest .. | .challenge .. | .lifecycle .. | .debug .. | .power ..
  | .budget .. | .mapout .. | .therm .. | .fwload .. | .dbgreg .. | .resume .. | .dusiaUnknown .. | .hostLinkChange ..
  | .cwcmdBadarg .. | .errsumClr | .bbrctlFreeze => true
  | _ => false

/-- A move of the lifecycle takes effect (R498, R499). -/
def Mgmt.move (m : Mgmt) : Mgmt :=
  match m.moves with
  | none => m
  | some n =>
    { m with
      life := n, moves := none, ident := n != 3
      owner := if n == 3 then [] else m.owner }

/-- Memory without the shared cache (R4): the lines that it held dirty are as their homes have them. -/
def State.homes (s : State) : Memory := s.dirty.foldl (fun m e => m.write (e.1 * 128) e.2.home) s.mem

/-- The boot span begins: what the module keeps, everything else as at reset (R4); a RETURNED device zeroes its tiers (R502),
and the lines of retired frames read as poisoned (R474). -/
def State.fresh (s : State) : State :=
  let m := s.mg.move
  { mem := if m.life == 3 then [] else s.homes
    agenda := (s.agenda.filter fun d => external d.ev && s.cwrun != some d).map fun d =>
      { d with time := d.time - s.now }
    delays := s.delays, freeCtr := s.freeCtr
    poison := s.retired.flatMap fun f => (List.range 512).map (512 * f + ·)
    linkUp := s.linkUp, endpoint := s.endpoint, fabric := s.fabric, plovar := s.plovar
    bbr := { stored := s.bbr.stored }
    mapNext := s.mapNext, retired := s.retired, upsets := s.upsets, badChans := s.badChans, badCourses := s.badCourses
    mg := { life := m.life, owner := m.owner, ident := m.ident, flash := m.flash, minver := m.minver } }

/-- The images are loaded in order, up to one that fails (R496). -/
def State.loadImages (s : State) : List Nat → State
  | [] => s
  | i :: is =>
    let image := s.mg.flash.getD i []
    if s.mg.accepts i image then
      let s : State := { s with mg := s.mg.measure i image }
      (s.event .firmware 0 5 0
        ([BitVec.ofNat 8 i, 0, 0, 0] ++ bytesOfWord 4 (Config.imageVersion image % 2 ^ 32) ++ (sha3 image).take 8)).loadImages is
    else { s with mg := { s.mg with recovery := true } }

/-- The tests of R481: courses whose bond fails lose both channels, and channels that give a wrong residue are listed. -/
def State.selfTest (s : State) : State :=
  let s := s.badCourses.foldl (fun s c => (s.mapOut (2 * c) 4 3 c).mapOut (2 * c + 1) 4 3 c) s
  let s := s.badChans.foldl (fun s ch => s.mapOut ch 2 3 (ch / 2)) s
  { s with mapout := s.mapNext }

/-- COLD_RESET (R481, R496). -/
def execColdReset (s : State) : Host.Outcome State Fault Refusal :=
  let s1 := s.fresh.loadImages [0, 1, 2, 3]
  .next (if s1.mg.recovery then s1 else s1.selfTest.restartPatrols)

end Sys2Proof.Machine
end

