-- ==== Sys2Proof/Machine/Power.lean ====
section
/-!
DEFINITION. The power controller (R421, R422, R424): control intervals, debts, overuse, and emergencies.
-/
namespace Sys2Proof.Machine

/-- The steps of TIME between two kills (R424). -/
def killGap : Nat := 100000

/-- The regions of a workgroup's launch, to the root. -/
def State.regionsOf (s : State) (g : Nat) : Nat × List Nat :=
  let l := s.launch (s.wg g).launch
  (l.tag, s.path l.tag l.rcb)

/-- Adds to the debts of the group and the regions that hold a workgroup. -/
def State.addDebt (s : State) (g oe oi : Nat) : State :=
  let k := (s.wg g).core / 8
  let x := s.groups.get k {}
  let s : State := { s with groups := s.groups.put k { x with debtE := x.debtE + oe, debtI := x.debtI + oi } }
  let (tag, path) := s.regionsOf g
  path.foldl (fun s r => s.modRegion tag r fun r => { r with debtE := r.debtE + oe, debtI := r.debtI + oi }) s

/-- Debts last for one interval. -/
def State.clearDebts (s : State) : State :=
  { s with
    groups := s.groups.map fun (n, g) => (n, { g with debtE := 0, debtI := 0 })
    ctxs := s.ctxs.map fun (n, c) => (n, { c with regions := c.regions.map fun (a, r) => (a, { r with debtE := 0, debtI := 0 }) }) }

/-- A workgroup has overused its declaration three intervals running (R422). -/
def State.powerDeclaration (s : State) (g mE mI : Nat) : State :=
  let G := s.wg g
  let l := s.launch G.launch
  let s := s.fqPost l.tag (fqEntry .powerDeclaration l.record 0 l.tag 0 G.lin (mI % 2 ^ 32 * 2 ^ 32 + mE % 2 ^ 32))
  let s := s.event .powerDeclaration l.tag 5 0 (bytesOfWord 4 G.lin ++ bytesOfWord 4 (mE % 2 ^ 32) ++ bytesOfWord 4 (mI % 2 ^ 32))
  (s.endWg g).failLaunch G.launch 6

/-- The end of an interval for one workgroup (R421): `mE` in nJ, `mI` in mA. One that is over can owe, and no more than that. -/
def State.meter (s : State) (m : Nat × Nat × Nat) : State :=
  let (g, mE, mI) := m
  let G := s.wg g
  if (s.wgs.find? g).isNone then s
  else
    let here := G.residentFor s.now
    let s := s.addDebt g (mE - G.de * here / interval) (mI - G.di)
    let tooMuch := G.de * here * 5 < mE * 4 * interval || G.di * 5 < mI * 4
    let n := if tooMuch then G.overuse + 1 else 0
    if G.over then s
    else
      let s := s.modWg g fun x => { x with overuse := n }
      if 3 ≤ n then s.powerDeclaration g mE mI else s

/-- Some group or region has a debt. -/
def State.owes (s : State) : Bool :=
  (s.groups.any fun e => e.2.debtE != 0 || e.2.debtI != 0) ||
    s.ctxs.any fun e => e.2.regions.any fun r => r.2.debtE != 0 || r.2.debtI != 0

/-- Debts end with the next interval, whether or not it has measurements. -/
def State.endDebts (s : State) : State :=
  if !s.owes || (s.agenda.any fun d => d.time == s.now + interval && (d.ev matches .controlIntervalEnd _)) then s
  else s.at (s.now + interval) (.controlIntervalEnd [])

/-- CONTROL_INTERVAL_END (R421): measurements that come within an interval are those of its end. -/
def execControlIntervalEnd (meas : List (Nat × Nat × Nat)) (s : State) : Host.Outcome State Fault Refusal :=
  .next (if s.now % interval != 0 then s.at (s.now / interval * interval + interval) (.controlIntervalEnd meas)
  else ((meas.foldl State.meter s.clearDebts).endDebts).at s.now .admission)

/-- The contexts with a resident workgroup: highest priority, TIME of the last admission, tag. -/
def State.powerTargets (s : State) : List (Nat × Nat × Nat) :=
  s.ctxs.filterMap fun (tag, c) =>
    let ps := (s.wgs.filter fun e => e.2.holds && (s.launch e.2.launch).tag == tag).map fun e =>
      s.priority tag (s.launch e.2.launch).rcb
    if ps.isEmpty then none else some (ps.foldl max 0, c.lastAdmit, tag)

/-- The context that is killed next (R424). -/
def State.powerTarget (s : State) : Option Nat :=
  (s.powerTargets.foldl
    (fun (best : Option (Nat × Nat × Nat)) x =>
      match best with
      | none => some x
      | some y =>
        if x.1 < y.1 || (x.1 == y.1 && (y.2.1 < x.2.1 || (y.2.1 == x.2.1 && y.2.2 < x.2.2))) then some x else some y) none).map (·.2.2)

/-- One kill, and the next 5 µs later while the emergency lasts. -/
def State.killOne (s : State) (watts : Nat) : State :=
  let s : State := { s with mg := { s.mg with inlet := watts } }
  match s.powerTarget with
  | none => s
  | some tag =>
    let s := (s.endContext tag 8).event .powerKill tag 5 0 (bytesOfWord 4 (watts % 2 ^ 32))
    s.at (s.now + killGap) (.powerKill watts)

/-- POWER_EMERGENCY (R424): the emergency begins, with the first kill. -/
def execPowerEmergency (watts : Nat) (s : State) : Host.Outcome State Fault Refusal :=
  .next (if s.mg.emergency then { s with mg := { s.mg with inlet := watts } }
  else { s with mg := { s.mg with emergency := true } }.killOne watts)

/-- POWER_KILL (R424): the next kill, unless the emergency is over. -/
def execPowerKill (watts : Nat) (s : State) : Host.Outcome State Fault Refusal :=
  .next (if s.mg.emergency then s.killOne watts else s)

/-- EMERGENCY_END (R424): no further kill, and admission goes on. -/
def execEmergencyEnd (s : State) : Host.Outcome State Fault Refusal :=
  .next { s with
    mg := { s.mg with emergency := false }
    agenda := insertDue ⟨s.now, .admission⟩
      (s.agenda.filter fun d =>
        match d.ev with
        | .powerKill _ => false
        | _ => true) }

end Sys2Proof.Machine
end

