-- ==== Sys2Proof/Machine/Dispatch.lean ====
section
/-!
DEFINITION. The dispatch of every instruction and step to its meaning.
-/
namespace Sys2Proof.Machine

def exec (i : Instr) (s : State) : Host.Outcome State Fault Refusal :=
  match i with
  | .movi h d imm => Sys2Proof.Machine.execMovi h d imm s
  | .movh h d imm => Sys2Proof.Machine.execMovh h d imm s
  | .iaddImm h d a imm => Sys2Proof.Machine.execIaddImm h d a imm s
  | .imulImm h d a imm => Sys2Proof.Machine.execImulImm h d a imm s
  | .andImm h d a imm => Sys2Proof.Machine.execAndImm h d a imm s
  | .orImm h d a imm => Sys2Proof.Machine.execOrImm h d a imm s
  | .xorImm h d a imm => Sys2Proof.Machine.execXorImm h d a imm s
  | .shlImm h d a n => Sys2Proof.Machine.execShlImm h d a n s
  | .shrImm h d a n => Sys2Proof.Machine.execShrImm h d a n s
  | .sarImm h d a n => Sys2Proof.Machine.execSarImm h d a n s
  | .iadd h m d a b sat t => Sys2Proof.Machine.execIadd h m d a b sat t s
  | .isub h m d a b sat t => Sys2Proof.Machine.execIsub h m d a b sat t s
  | .imin h m d a b t => Sys2Proof.Machine.execImin h m d a b t s
  | .imax h m d a b t => Sys2Proof.Machine.execImax h m d a b t s
  | .iabs h m d a sat t => Sys2Proof.Machine.execIabs h m d a sat t s
  | .ineg h m d a sat t => Sys2Proof.Machine.execIneg h m d a sat t s
  | .imul h m d a b t => Sys2Proof.Machine.execImul h m d a b t s
  | .imulh h m d a b t => Sys2Proof.Machine.execImulh h m d a b t s
  | .isum h m d a b c t => Sys2Proof.Machine.execIsum h m d a b c t s
  | .imad h m d a b c t => Sys2Proof.Machine.execImad h m d a b c t s
  | .isad h m d a b c t => Sys2Proof.Machine.execIsad h m d a b c t s
  | .idiv h m d a b t => Sys2Proof.Machine.execIdiv h m d a b t s
  | .irem h m d a b t => Sys2Proof.Machine.execIrem h m d a b t s
  | .lea h m d a b sh w => Sys2Proof.Machine.execLea h m d a b sh w s
  | .iset h m d a b cc t => Sys2Proof.Machine.execIset h m d a b cc t s
  | .sel h m d a b w neg p => Sys2Proof.Machine.execSel h m d a b w neg p s
  | .and h m d a b w => Sys2Proof.Machine.execAnd h m d a b w s
  | .or h m d a b w => Sys2Proof.Machine.execOr h m d a b w s
  | .xor h m d a b w => Sys2Proof.Machine.execXor h m d a b w s
  | .andn h m d a b w => Sys2Proof.Machine.execAndn h m d a b w s
  | .not h m d a w => Sys2Proof.Machine.execNot h m d a w s
  | .shl h m d a b w => Sys2Proof.Machine.execShl h m d a b w s
  | .shr h m d a b w => Sys2Proof.Machine.execShr h m d a b w s
  | .sar h m d a b w => Sys2Proof.Machine.execSar h m d a b w s
  | .rol h m d a b w => Sys2Proof.Machine.execRol h m d a b w s
  | .popc h m d a w => Sys2Proof.Machine.execPopc h m d a w s
  | .clz h m d a w => Sys2Proof.Machine.execClz h m d a w s
  | .brev h m d a w => Sys2Proof.Machine.execBrev h m d a w s
  | .bfe h m d a b t => Sys2Proof.Machine.execBfe h m d a b t s
  | .bfi h m d a b c w => Sys2Proof.Machine.execBfi h m d a b c w s
  | .mov h m d a w => Sys2Proof.Machine.execMov h m d a w s
  | .pset h m p a b cc t => Sys2Proof.Machine.execPset h m p a b cc t s
  | .pand h p a b negA negB => Sys2Proof.Machine.execPand h p a b negA negB s
  | .por h p a b negA negB => Sys2Proof.Machine.execPor h p a b negA negB s
  | .pxor h p a b negA negB => Sys2Proof.Machine.execPxor h p a b negA negB s
  | .pnot h p a negA => Sys2Proof.Machine.execPnot h p a negA s
  | .fadd h m d a b r => Sys2Proof.Machine.execFadd h m d a b r s
  | .fsub h m d a b r => Sys2Proof.Machine.execFsub h m d a b r s
  | .fmul h m d a b r => Sys2Proof.Machine.execFmul h m d a b r s
  | .ffma h m d a b c r => Sys2Proof.Machine.execFfma h m d a b c r s
  | .fmin h m d a b => Sys2Proof.Machine.execFmin h m d a b s
  | .fmax h m d a b => Sys2Proof.Machine.execFmax h m d a b s
  | .fset h m p a b cc => Sys2Proof.Machine.execFset h m p a b cc s
  | .frnd h m d a r => Sys2Proof.Machine.execFrnd h m d a r s
  | .fclass h m d a => Sys2Proof.Machine.execFclass h m d a s
  | .fdiv h m d a b r => Sys2Proof.Machine.execFdiv h m d a b r s
  | .frcp h m d a r => Sys2Proof.Machine.execFrcp h m d a r s
  | .frsq h m d a r => Sys2Proof.Machine.execFrsq h m d a r s
  | .fsqrt h m d a r => Sys2Proof.Machine.execFsqrt h m d a r s
  | .fexp2 h m d a => Sys2Proof.Machine.execFexp2 h m d a s
  | .flog2 h m d a => Sys2Proof.Machine.execFlog2 h m d a s
  | .fsin h m d a => Sys2Proof.Machine.execFsin h m d a s
  | .fcos h m d a => Sys2Proof.Machine.execFcos h m d a s
  | .hadd2 h m d a b r => Sys2Proof.Machine.execHadd2 h m d a b r s
  | .hmul2 h m d a b r => Sys2Proof.Machine.execHmul2 h m d a b r s
  | .hfma2 h m d a b c r => Sys2Proof.Machine.execHfma2 h m d a b c r s
  | .hmax2 h m d a b => Sys2Proof.Machine.execHmax2 h m d a b s
  | .dadd h m d a b r => Sys2Proof.Machine.execDadd h m d a b r s
  | .dmul h m d a b r => Sys2Proof.Machine.execDmul h m d a b r s
  | .dfma h m d a b c r => Sys2Proof.Machine.execDfma h m d a b c r s
  | .dset h m p a b cc => Sys2Proof.Machine.execDset h m p a b cc s
  | .cvt h d a dty sty r => Sys2Proof.Machine.execCvt h d a dty sty r s
  | .cvtbx h d a k f r => Sys2Proof.Machine.execCvtbx h d a k f r s
  | .cvtres h d a ch signed => Sys2Proof.Machine.execCvtres h d a ch signed s
  | .cvtmxEnc h d a b k r => Sys2Proof.Machine.execCvtmxEnc h d a b k r s
  | .cvtmxDec h d a b r => Sys2Proof.Machine.execCvtmxDec h d a b r s
  | .rngseed h a => Sys2Proof.Machine.execRngseed h a s
  | .rng h d => Sys2Proof.Machine.execRng h d s
  | .rngf h d => Sys2Proof.Machine.execRngf h d s
  | .rngskip h a => Sys2Proof.Machine.execRngskip h a s
  | .clkrd h d c => Sys2Proof.Machine.execClkrd h d c s
  | .tstamp h d => Sys2Proof.Machine.execTstamp h d s
  | .lget h d a b k mode pv => Sys2Proof.Machine.execLget h d a b k mode pv s
  | .pqry h d p k kind => Sys2Proof.Machine.execPqry h d p k kind s
  | .peers h d a k w => Sys2Proof.Machine.execPeers h d a k w s
  | .lfold h d a k op t => Sys2Proof.Machine.execLfold h d a k op t s
  | .scan h d a k max excl t => Sys2Proof.Machine.execScan h d a k max excl t s
  | .xlp h d a k e => Sys2Proof.Machine.execXlp h d a k e s
  | .xlpl h a e => Sys2Proof.Machine.execXlpl h a e s
  | .xpose h d a k size => Sys2Proof.Machine.execXpose h d a k size s
  | .unpk h d a k size signed => Sys2Proof.Machine.execUnpk h d a k size signed s
  | .packx h d a k size => Sys2Proof.Machine.execPackx h d a k size s
  | .ld h d a off f => Sys2Proof.Machine.execLd h d a off f s
  | .st h d a off f => Sys2Proof.Machine.execSt h d a off f s
  | .lds h d a off f => Sys2Proof.Machine.execLds h d a off f s
  | .sts h d a off f => Sys2Proof.Machine.execSts h d a off f s
  | .ldc h d a off hint t => Sys2Proof.Machine.execLdc h d a off hint t s
  | .pref h a off hint t => Sys2Proof.Machine.execPref h a off hint t s
  | .cctl h a off op => Sys2Proof.Machine.execCctl h a off op s
  | .atom h d a b off op ord sc t => Sys2Proof.Machine.execAtom h d a b off op ord sc t s
  | .red h a b off op ord sc t => Sys2Proof.Machine.execRed h a b off op ord sc t s
  | .fence h ord sc => Sys2Proof.Machine.execFence h ord sc s
  | .qfence h mask => Sys2Proof.Machine.execQfence h mask s
  | .barArrive h a bar => Sys2Proof.Machine.execBarArrive h a bar s
  | .barWait h bar pr => Sys2Proof.Machine.execBarWait h bar pr s
  | .barArrwait h a bar pr => Sys2Proof.Machine.execBarArrwait h a bar pr s
  | .barinit h a bar => Sys2Proof.Machine.execBarinit h a bar s
  | .waitu h d a b off cm w ps => Sys2Proof.Machine.execWaitu h d a b off cm w ps s
  | .fpush h a bank w => Sys2Proof.Machine.execFpush h a bank w s
  | .fpop h d bank w => Sys2Proof.Machine.execFpop h d bank w s
  | .bankcfg h bank mode => Sys2Proof.Machine.execBankcfg h bank mode s
  | .kpass h => Sys2Proof.Machine.execKpass h s
  | .tcfg h tc a => Sys2Proof.Machine.execTcfg h tc a s
  | .tcfgrd h d tc => Sys2Proof.Machine.execTcfgrd h d tc s
  | .tld h t a smem => Sys2Proof.Machine.execTld h t a smem s
  | .tldw h t a b smem => Sys2Proof.Machine.execTldw h t a b smem s
  | .tst h a t smem => Sys2Proof.Machine.execTst h a t smem s
  | .tzero h n acc => Sys2Proof.Machine.execTzero h n acc s
  | .tprof h a => Sys2Proof.Machine.execTprof h a s
  | .tmma h acc ta tb k sa sb => Sys2Proof.Machine.execTmma h acc ta tb k sa sb s
  | .tmmas h acc ta tb k sa sb => Sys2Proof.Machine.execTmmas h acc ta tb k sa sb s
  | .trowsum h acc ta k sa => Sys2Proof.Machine.execTrowsum h acc ta k sa s
  | .tcolsum h acc ta k sa => Sys2Proof.Machine.execTcolsum h acc ta k sa s
  | .tdrain h d acc a k f target => Sys2Proof.Machine.execTdrain h d acc a k f target s
  | .tdraina h acc a k f smem => Sys2Proof.Machine.execTdraina h acc a k f smem s
  | .taccsv h acc a smem => Sys2Proof.Machine.execTaccsv h acc a smem s
  | .taccld h acc a => Sys2Proof.Machine.execTaccld h acc a s
  | .tchk h d acc => Sys2Proof.Machine.execTchk h d acc s
  | .bra h off => Sys2Proof.Machine.execBra h off s
  | .brx h a => Sys2Proof.Machine.execBrx h a s
  | .call h off => Sys2Proof.Machine.execCall h off s
  | .callx h a => Sys2Proof.Machine.execCallx h a s
  | .ret h => Sys2Proof.Machine.execRet h s
  | .reform h => Sys2Proof.Machine.execReform h s
  | .join h k => Sys2Proof.Machine.execJoin h k s
  | .leave h k => Sys2Proof.Machine.execLeave h k s
  | .waitm h p k timeout => Sys2Proof.Machine.execWaitm h p k timeout s
  | .kmov h d a dir => Sys2Proof.Machine.execKmov h d a dir s
  | .kand h d a b => Sys2Proof.Machine.execKand h d a b s
  | .kor h d a b => Sys2Proof.Machine.execKor h d a b s
  | .kandn h d a b => Sys2Proof.Machine.execKandn h d a b s
  | .kpop h d a => Sys2Proof.Machine.execKpop h d a s
  | .loop h a off => Sys2Proof.Machine.execLoop h a off s
  | .lend h off => Sys2Proof.Machine.execLend h off s
  | .exit h => Sys2Proof.Machine.execExit h s
  | .trap h code => Sys2Proof.Machine.execTrap h code s
  | .bkpt h => Sys2Proof.Machine.execBkpt h s
  | .nop h => Sys2Proof.Machine.execNop h s
  | .srd h d reg w => Sys2Proof.Machine.execSrd h d reg w s
  | .swr h reg a w => Sys2Proof.Machine.execSwr h reg a w s
  | .ecall h service => Sys2Proof.Machine.execEcall h service s
  | .tret h => Sys2Proof.Machine.execTret h s
  | .ifence h => Sys2Proof.Machine.execIfence h s
  | .tlbinv h a ext => Sys2Proof.Machine.execTlbinv h a ext s
  | .bbmark h a => Sys2Proof.Machine.execBbmark h a s
  | .halt h => Sys2Proof.Machine.execHalt h s
  | .dualWord h1 h2 => Sys2Proof.Machine.execDualWord h1 h2 s
  | .coreCycle core => Sys2Proof.Machine.execCoreCycle core s
  | .tileOperationComplete core part op => Sys2Proof.Machine.execTileOperationComplete core part op s
  | .emergencyEnd => Sys2Proof.Machine.execEmergencyEnd s
  | .longLatencyCommit core part => Sys2Proof.Machine.execLongLatencyCommit core part s
  | .bundleAgeOverride core => Sys2Proof.Machine.execBundleAgeOverride core s
  | .binAgeForm core part bin => Sys2Proof.Machine.execBinAgeForm core part bin s
  | .filingEviction core part => Sys2Proof.Machine.execFilingEviction core part s
  | .droopAlarm core mv0 mv1 mv2 mv3 => Sys2Proof.Machine.execDroopAlarm core mv0 mv1 mv2 mv3 s
  | .stretchEnd core => Sys2Proof.Machine.execStretchEnd core s
  | .halfEnd core => Sys2Proof.Machine.execHalfEnd core s
  | .drpcfgWrite core v => Sys2Proof.Machine.execDrpcfgWrite core v s
  | .drpstatClr core => Sys2Proof.Machine.execDrpstatClr core s
  | .wtstatClr tag => Sys2Proof.Machine.execWtstatClr tag s
  | .registerWrite core part reg v w => Sys2Proof.Machine.execRegisterWrite core part reg v w s
  | .signTimeout core part session => Sys2Proof.Machine.execSignTimeout core part session s
  | .waitmTimeout core part slot lane => Sys2Proof.Machine.execWaitmTimeout core part slot lane s
  | .barrierRetryTimeout core part slot lane => Sys2Proof.Machine.execBarrierRetryTimeout core part slot lane s
  | .watchDeadline slice entry => Sys2Proof.Machine.execWatchDeadline slice entry s
  | .spillDeadlineScan slice => Sys2Proof.Machine.execSpillDeadlineScan slice s
  | .watchWake slice entry => Sys2Proof.Machine.execWatchWake slice entry s
  | .schedulerWatchArm => Sys2Proof.Machine.execSchedulerWatchArm s
  | .schedulerWatch tag rcb => Sys2Proof.Machine.execSchedulerWatch tag rcb s
  | .faultResponse tag entry => Sys2Proof.Machine.execFaultResponse tag entry s
  | .profileCheck tag => Sys2Proof.Machine.execProfileCheck tag s
  | .profileReady tag => Sys2Proof.Machine.execProfileReady tag s
  | .taccldHeader core part op => Sys2Proof.Machine.execTaccldHeader core part op s
  | .tileOperationStart core part op => Sys2Proof.Machine.execTileOperationStart core part op s
  | .drainComplete core part op => Sys2Proof.Machine.execDrainComplete core part op s
  | .lineLanded core bank line => Sys2Proof.Machine.execLineLanded core bank line s
  | .bankSwitchDone core bank => Sys2Proof.Machine.execBankSwitchDone core bank s
  | .ecmdStore core part slot n v => Sys2Proof.Machine.execEcmdStore core part slot n v s
  | .ego core part slot lane v => Sys2Proof.Machine.execEgo core part slot lane v s
  | .copy core q => Sys2Proof.Machine.execCopy core q s
  | .copy2d core q => Sys2Proof.Machine.execCopy2d core q s
  | .gather2d core q => Sys2Proof.Machine.execGather2d core q s
  | .scatter2d core q => Sys2Proof.Machine.execScatter2d core q s
  | .fill core q => Sys2Proof.Machine.execFill core q s
  | .convres core q => Sys2Proof.Machine.execConvres core q s
  | .convbin core q => Sys2Proof.Machine.execConvbin core q s
  | .decjpeg core q => Sys2Proof.Machine.execDecjpeg core q s
  | .decg4 core q => Sys2Proof.Machine.execDecg4 core q s
  | .zcomp core q => Sys2Proof.Machine.execZcomp core q s
  | .zexp core q => Sys2Proof.Machine.execZexp core q s
  | .zbook core q => Sys2Proof.Machine.execZbook core q s
  | .nreduce core q members problem => Sys2Proof.Machine.execNreduce core q members problem s
  | .nmcast core q problem => Sys2Proof.Machine.execNmcast core q problem s
  | .wcbAgeDrain core peer line => Sys2Proof.Machine.execWcbAgeDrain core peer line s
  | .fabricRequest src seq cumAck op => Sys2Proof.Machine.execFabricRequest src seq cumAck op s
  | .fabricReply dst seq data => Sys2Proof.Machine.execFabricReply dst seq data s
  | .fabricReplay dst seq => Sys2Proof.Machine.execFabricReplay dst seq s
  | .linkFailure port link => Sys2Proof.Machine.execLinkFailure port link s
  | .fabricTimeSync f => Sys2Proof.Machine.execFabricTimeSync f s
  | .hostWrite pa bytes => Sys2Proof.Machine.execHostWrite pa bytes s
  | .hostRead pa n => Sys2Proof.Machine.execHostRead pa n s
  | .create desc => Sys2Proof.Machine.execCreate desc s
  | .destroy tag => Sys2Proof.Machine.execDestroy tag s
  | .regroot tag root => Sys2Proof.Machine.execRegroot tag root s
  | .preempt tag launch index => Sys2Proof.Machine.execPreempt tag launch index s
  | .kill tag launch => Sys2Proof.Machine.execKill tag launch s
  | .preemptionHalt wg => Sys2Proof.Machine.execPreemptionHalt wg s
  | .shadowSave wg => Sys2Proof.Machine.execShadowSave wg s
  | .slowSave wg => Sys2Proof.Machine.execSlowSave wg s
  | .shadowRestore wg => Sys2Proof.Machine.execShadowRestore wg s
  | .restore wg => Sys2Proof.Machine.execRestore wg s
  | .admission => Sys2Proof.Machine.execAdmission s
  | .waveDrainEnd core part slot => Sys2Proof.Machine.execWaveDrainEnd core part slot s
  | .workgroupFinish wg => Sys2Proof.Machine.execWorkgroupFinish wg s
  | .coreGroupSlew group oc => Sys2Proof.Machine.execCoreGroupSlew group oc s
  | .slewSettled group => Sys2Proof.Machine.execSlewSettled group s
  | .controlIntervalEnd meas => Sys2Proof.Machine.execControlIntervalEnd meas s
  | .trimApply core trim => Sys2Proof.Machine.execTrimApply core trim s
  | .powerEmergency watts => Sys2Proof.Machine.execPowerEmergency watts s
  | .powerKill watts => Sys2Proof.Machine.execPowerKill watts s
  | .patrolScrub slice => Sys2Proof.Machine.execPatrolScrub slice s
  | .errsumClr => Sys2Proof.Machine.execErrsumClr s
  | .thermalSample island reading => Sys2Proof.Machine.execThermalSample island reading s
  | .bbrctlFreeze => Sys2Proof.Machine.execBbrctlFreeze s
  | .coldReset => Sys2Proof.Machine.execColdReset s
  | .powerLoss => Sys2Proof.Machine.execPowerLoss s
  | .enterIdle => Sys2Proof.Machine.execEnterIdle s
  | .status seq payload => Sys2Proof.Machine.execStatus seq payload s
  | .telem seq payload => Sys2Proof.Machine.execTelem seq payload s
  | .bbrRead seq payload => Sys2Proof.Machine.execBbrRead seq payload s
  | .exportBegin seq payload => Sys2Proof.Machine.execExportBegin seq payload s
  | .exportRead seq payload => Sys2Proof.Machine.execExportRead seq payload s
  | .exportAck seq payload => Sys2Proof.Machine.execExportAck seq payload s
  | .attest seq payload => Sys2Proof.Machine.execAttest seq payload s
  | .challenge seq payload => Sys2Proof.Machine.execChallenge seq payload s
  | .lifecycle seq payload => Sys2Proof.Machine.execLifecycle seq payload s
  | .debug seq payload => Sys2Proof.Machine.execDebug seq payload s
  | .power seq payload => Sys2Proof.Machine.execPower seq payload s
  | .budget seq payload => Sys2Proof.Machine.execBudget seq payload s
  | .mapout seq payload => Sys2Proof.Machine.execMapout seq payload s
  | .therm seq payload => Sys2Proof.Machine.execTherm seq payload s
  | .fwload seq payload => Sys2Proof.Machine.execFwload seq payload s
  | .dbgreg seq payload => Sys2Proof.Machine.execDbgreg seq payload s
  | .resume seq payload => Sys2Proof.Machine.execResume seq payload s
  | .dusiaUnknown cmd seq payload => Sys2Proof.Machine.execDusiaUnknown cmd seq payload s
  | .hostLinkChange up => Sys2Proof.Machine.execHostLinkChange up s
  | .cwcmdBadarg v => Sys2Proof.Machine.execCwcmdBadarg v s

end Sys2Proof.Machine
end

