-- ==== Sys2Proof/Machine/Agenda.lean ====
section
/-!
DEFINITION. What comes next: the events due and the boundaries of the core cycles.
-/
namespace Sys2Proof.Machine

/-- The TIME of the next boundary of a core's cycle: none while its clock generator stops (R26), and
after a device-fatal error (R469). -/
def State.boundary (s : State) (c : Nat) : Option Nat :=
  let x := s.core c
  if x.gated || s.fatal then none else some (x.start + x.len)

/-- The core whose cycle ends first, the lower number winning. -/
def State.firstCore (s : State) : Option (Nat × Nat) :=
  (List.range Config.cores).foldl
    (fun best c =>
      match s.boundary c, best with
      | some t, some (u, d) => if t < u then some (t, c) else some (u, d)
      | some t, none => some (t, c)
      | none, b => b) none

/-- The next event with the state in which it happens: an event of the agenda before a core boundary of the same TIME. -/
def State.nextEvent (s : State) : Option (Instr × State) :=
  match s.agenda, s.firstCore with
  | d :: ds, some (t, c) =>
    if d.time ≤ t then some (d.ev, { s with agenda := ds, now := max s.now d.time })
    else some (.coreCycle c, { s with now := max s.now t })
  | d :: ds, none => some (d.ev, { s with agenda := ds, now := max s.now d.time })
  | [], some (t, c) => some (.coreCycle c, { s with now := max s.now t })
  | [], none => none

end Sys2Proof.Machine
end

