-- ==== Sys2Proof/Machine/Load.lean ====
section
/-!
DEFINITION. A kernel of one wave, placed as the scheduler would place it, for `State.withFetchWord` (log 14): context 1
with the first 16 GiB mapped onto themselves, a launch of one workgroup, and its wave's threads in a bundle at the first
word of the code.
-/
namespace Sys2Proof.Machine

/-- The places of the page tables, the kernel header and the code. -/
def loadRoot : Nat := 0x10000
def loadHeader : Nat := 0x4000
def loadCode : Nat := loadHeader + 1024

/-- A top table, a level-4 table and a level-3 table whose first entry is a 16 GiB leaf, writable and executable
(R440, R441). -/
def loadTables : List (Nat × Nat) :=
  [(loadRoot, 0x11001), (0x11000, 0x12001), (0x12000, 0xF5)]

def loadLaunch : Launch :=
  { tag := 1, rcb := 0, record := 0, khdr := loadHeader, args := 0, gx := 1, gy := 1, gz := 1, stackz := 0, stackbase := 0
    ordwin := 0, serial := false, np := 1, tpw := 32
    hdr := { codesz := 8, regs := 255, tiles := 16, accs := 4 }, st := .admitted, admitted := 1 }

def loadWg : Wg :=
  { launch := 0, cluster := 0, member := 0, grid := 0, lin := 0, core := 0, pids := [0], waves := [0], banks := [] }

def loadWave : Wave :=
  { tag := 1, launch := 0, wg := 0, vec := List.replicate 32 none
    threads := List.replicate 32 { pc := BitVec.ofNat 64 loadCode } }

def loadBin : Bin :=
  { st := .bundle, key := BitVec.ofNat 64 loadCode, threads := (List.range 32).map fun i => ⟨0, i⟩, ready := some 0 }

/-- The state in which the next step fetches and runs the word `w` as the first instruction of a kernel. -/
def State.loadWord (s : State) (w : Nat) : State :=
  let mem := loadTables.foldl (fun m (a, e) => m.write a (bytesOfWord 8 e)) s.mem
  let s := s.tlbDrop fun e => e.tag == 1
  let s := s.modCore 0 fun c => { c with icache := c.icache.filter fun e => e.1 != 1 }
  { s with
    mem := mem.write loadCode (bytesOfWord 8 w)
    poison := s.poison.filter fun l => !([loadRoot, 0x11000, 0x12000, loadCode].map (· / 128)).contains l
    ctxs := s.ctxs.put 1 { desc := 0, ptroot := loadRoot, priv := true }
    launches := s.launches.put 0 loadLaunch
    wgs := s.wgs.put 0 loadWg
    waves := s.waves.put 0 loadWave
    parts := s.parts.put 0 { bins := [(0, loadBin)], active := [0] }
    todo := [.issue 0 0 0] }

end Sys2Proof.Machine
end

