-- ==== Sys2Proof/Machine/Step.lean ====
section
/-!
DEFINITION. One step of the machine: what is to be done first of the present core cycle, or else the next event.
-/
namespace Sys2Proof.Machine

def step (s : State) : Host.Outcome State Fault Refusal :=
  match s.todo with
  | .event i :: rest => exec i { s with todo := rest }
  | .issue core part bin :: rest =>
    match { s with todo := rest }.issueBundle core part bin with
    | .ok (i, s) => exec i s
    | .error s => .next s
  | [] =>
    match s.nextEvent with
    | some (i, s) => exec i s
    | none => .next s

/-- `s` with the instruction whose bits are `w` placed where the next step fetches it (log 14). Every instruction is one
word of 64 bits (R39), so the bits above `nbits` are zero. -/
def State.withFetchWord (s : State) (_nbits w : Nat) : State := s.loadWord (w % 2 ^ 64)

end Sys2Proof.Machine
end

