-- ==== Sys2Proof/Safety.lean ====
section
/-!
DEFINITION. What the statements ask of a state in which an instruction issues, and what they say of the state after it.
-/
namespace Sys2Proof.Machine

/-- Memory is in its canonical form. -/
def State.memOk (s : State) : Bool := Memory.wf s.mem

/-! The bundle that issues -/

/-- The partition of the bundle that issues, by its number on the device, and the bundle's bin. -/
def State.pid (s : State) : Nat := s.cur.core * 4 + s.cur.part
def State.bin (s : State) : Bin := (s.part s.pid).bins.get s.cur.bin {}

/-- The thread's wave is there, and has the thread's lane. -/
def State.seated (s : State) (u : TId) : Bool :=
  (s.waves.find? u.w).isSome && decide (u.lane < (s.wave u.w).threads.length) && decide (u.lane < 32)

/-- A bundle that issues (R236): different threads of the partition, all in the bundle's bin, none with a trap to take. -/
structure State.Bundled (s : State) : Prop where
  some_  : s.cur.threads ≠ []
  nodup  : s.cur.threads.Nodup
  seated : ∀ u ∈ s.cur.threads, s.seated u = true
  here   : ∀ u ∈ s.cur.threads, u.pid = s.pid
  clear  : ∀ u ∈ s.cur.threads, (s.thread u).trapQ = none
  bin    : s.bin.threads = s.cur.threads
  banks  : ∀ u ∈ s.cur.threads, ((s.thread u).hand.all fun x => x.v.length == 4) = true

/-- The destinations of an instruction are free for it: no open window of an active thread holds one (R51), no window of the
waves has a result for one (R266), and they are general registers (R264), so that a write of them passes the shape test. -/
structure State.Free (s : State) (h : Hd) (dr dp : List Nat) : Prop where
  conflict : ∀ u ∈ s.active h, (s.thread u).conflict dr dp = none
  alone    : ∀ e ∈ s.waves, (∃ u ∈ s.active h, u.w = e.1) → ∀ th ∈ e.2.threads, ∀ x ∈ th.windows, ∀ v ∈ x.regs, v.1 ∉ dr
  general  : ∀ u ∈ s.active h, ∀ r ∈ dr, (s.wave u.w).shape r = .general

/-! After an instruction -/

/-- A thread after the issue of an instruction at `pc` (R41, R51): the next address, and its windows count. -/
def Thread.stepped (th : Thread) (pc : DWord) : Thread := { th with pc := pc + 8, windows := th.countWindows, counted := false }

/-- Nothing but waves, partitions, the list of delays and the counts of free values and of sessions differs; of the waves, nothing but vector
registers and the bundle's threads; of the partitions, nothing but the bins and filings of the one that issues. -/
structure State.Ran (s t : State) : Prop where
  rest   : t = { s with waves := t.waves, parts := t.parts, delays := t.delays, freeCtr := t.freeCtr, ids := t.ids }
  waves  : ∀ w, t.wave w = { s.wave w with regs := (t.wave w).regs, threads := (t.wave w).threads }
  others : ∀ u, u ∉ s.cur.threads → t.thread u = s.thread u
  parts  : ∀ p, p ≠ s.pid → t.part p = s.part p
  here   : t.part s.pid = { s.part s.pid with bins := (t.part s.pid).bins, filings := (t.part s.pid).filings }

/-- A bundle whose threads are all at one address goes on there in its bin, unless it is to be evicted (R232). -/
def State.Stays (s t : State) : Prop :=
  ∀ pc, s.bin.evict = false → (∀ u ∈ s.cur.threads, (t.thread u).pc = pc) → t.part s.pid =
    { s.part s.pid with bins := (s.part s.pid).bins.put s.cur.bin { s.bin with key := pc, ready := none, woken := false } }

/-- The value that a list of writes gives a key, or else `d`. -/
def written {α : Type} (l : List (Nat × α)) (k : Nat) (d : α) : α := (l.lookup k).getD d

/-- The outcome is a next state in which the active threads have the results `out`, and which differs in nothing else
but what every issue changes. A write of v255 or p0 is discarded (R43). -/
def Writes (s : State) (h : Hd) (o : Host.Outcome State Fault Refusal) (out : TId → Out) : Prop :=
  ∃ t, o = .next t ∧ s.Ran t ∧ s.Stays t ∧ t.delays = s.delays ∧ t.freeCtr = s.freeCtr ∧ t.ids = s.ids ∧
    (∀ u r, u.lane < 32 → t.rd u r =
      if u ∈ s.active h ∧ r ≠ 255 then written (out u).regs r (s.rd u r) else s.rd u r) ∧
    (∀ u p, p < 8 → (t.thread u).pred p =
      if u ∈ s.active h ∧ p ≠ 0 then written (out u).preds p ((s.thread u).pred p) else (s.thread u).pred p) ∧
    ∀ u ∈ s.cur.threads,
      t.thread u = { (s.thread u).stepped s.cur.pc with preds := (t.thread u).preds, hand := (t.thread u).hand } ∧
        (t.thread u).hand.map (fun x => (x.tcause, x.tpc, x.trec)) = (s.thread u).hand.map fun x => (x.tcause, x.tpc, x.trec)

/-- The window that an instruction opens in a thread (R50, R51, R53): with lookahead 0 it is closed, the last of its closings. -/
def windowOf (s : State) (h : Hd) (th : Thread) (ready : Nat) (dr dp : List Nat) (o : Out) : Window :=
  { pc := s.cur.pc, half := s.cur.half, seq := th.llSeq, remaining := h.la, closed := h.la == 0
    order := if h.la == 0 then th.nextOrder else 0, dests := dr, pdests := dp
    regs := o.regs, preds := o.preds, ready := some ready, checked := false, shapeFail := none, fail := none, pend := none }

/-- The outcome is a next state in which every active thread is changed by `g` and has a window more, open for the
instruction's lookahead, that holds the results `out` for core cycle `s.cycle + n`; without a destination but v255 and p0 there
is no window (R50). -/
def Opens (s : State) (h : Hd) (n : Nat) (dr dp : List Nat) (o : Host.Outcome State Fault Refusal) (out : TId → Out)
    (g : Thread → Thread := id) : Prop :=
  ∃ t, o = .next t ∧ s.Ran t ∧ s.Stays t ∧ t.delays = s.delays ∧ t.freeCtr = s.freeCtr ∧ t.ids = s.ids ∧
    (∀ w, (t.wave w).regs = (s.wave w).regs) ∧
    ∀ u ∈ s.cur.threads,
      t.thread u =
        if u ∈ s.active h then
          if dr.filter (· != 255) = [] ∧ dp.filter (· != 0) = [] then g ((s.thread u).stepped s.cur.pc)
          else
            { g ((s.thread u).stepped s.cur.pc) with
              llSeq := (s.thread u).llSeq + 1
              windows := (s.thread u).countWindows ++
                [windowOf s h ((s.thread u).stepped s.cur.pc) (s.cycle + n) (dr.filter (· != 255)) (dp.filter (· != 0)) (out u)] }
        else (s.thread u).stepped s.cur.pc

/-- The instruction `i` writes the number `val u` to the register `d`, or to the pair, of every active thread at once. -/
def Gives (s : State) (h : Hd) (wide : Bool) (d : Nat) (i : Instr) (val : TId → Nat) : Prop :=
  s.Bundled → s.Free h (dests wide d) [] → Writes s h (exec i s) fun u => { regs := putNum wide d (val u) }

/-- The instruction `i` writes the truth `val u` to the predicate `p` of every active thread at once. -/
def Tells (s : State) (h : Hd) (p : Nat) (i : Instr) (val : TId → Bool) : Prop :=
  s.Bundled → s.Free h [] [p] → Writes s h (exec i s) fun u => { preds := [(p, val u)] }

/-- The instruction `i` opens in every active thread a window that holds the number `val u` for the register `d`, or for the
pair, for the core cycle `n` cycles on. -/
def GivesLater (s : State) (h : Hd) (n : Nat) (wide : Bool) (d : Nat) (i : Instr) (val : TId → Nat) : Prop :=
  s.Bundled → (∀ u ∈ s.active h, (s.thread u).conflict (dests wide d) [] = none) →
    Opens s h n (dests wide d) [] (exec i s) fun u => { regs := putNum wide d (val u) }

/-- The same for a predicate. -/
def TellsLater (s : State) (h : Hd) (n p : Nat) (i : Instr) (val : TId → Bool) : Prop :=
  s.Bundled → (∀ u ∈ s.active h, (s.thread u).conflict [] [p] = none) →
    Opens s h n [] [p] (exec i s) fun u => { preds := [(p, val u)] }

/-- The outcome is a next state in which each thread of the bundle is changed by `f`, given whether it is active, after the
step to the next address. -/
def Moves (s : State) (h : Hd) (o : Host.Outcome State Fault Refusal) (f : TId → Bool → Thread → Thread) : Prop :=
  ∃ t, o = .next t ∧ s.Ran t ∧ s.Stays t ∧ t.delays = s.delays ∧ t.freeCtr = s.freeCtr ∧ t.ids = s.ids ∧
    (∀ w, (t.wave w).regs = (s.wave w).regs) ∧
    ∀ u ∈ s.cur.threads, t.thread u = f u ((s.active h).contains u) ((s.thread u).stepped s.cur.pc)

/-! Traps -/

/-- A thread that has taken a trap (R429): handler mode at `handler`, the trap registers, and the handler's v0 to v3. -/
structure Thread.Entered (old new : Thread) (lane : Nat) (tr : Trap) (tpc handler : DWord) : Prop where
  rest : new = { old with hand := new.hand, pc := handler, st := .ready, trapQ := none, pend := none, block := none, grant := false
                          counted := new.counted }
  hand : ∃ x, new.hand = some x ∧ x.tcause = BitVec.ofNat 32 tr.code.code ∧ x.tpc = tpc ∧ x.trec = tr.trec ∧
    x.v = [BitVec.ofNat 32 tr.arg, BitVec.ofNat 32 (tr.arg / 2 ^ 32), BitVec.ofNat 32 tr.code.code, BitVec.ofNat 32 lane] ∧
    x.preds.getLsbD 0 = true

/-- The threads of the bundle are filed anew (R232): its bin is vacated, and those of waves that are not halted are filed. -/
def State.Files (s t : State) : Prop :=
  (t.part s.pid).bins = (s.part s.pid).bins.del s.cur.bin ∧
    (t.part s.pid).filings = (s.part s.pid).filings ++
      (s.cur.threads.filter fun u => !(s.wave u.w).halted).map fun u => ⟨u, 2, (s.core u.core).cyc.toNat⟩

/-- The active threads can take a trap: their context has a handler, they are not in handler mode, and no result of theirs
is still to come (R429, R430, R510). -/
def State.CanTrap (s : State) (h : Hd) : Prop :=
  ∀ u ∈ s.active h, (s.ctxOf u).handler ≠ 0 ∧ (s.thread u).hand = none ∧ (s.thread u).windows = []

/-- The outcome is a next state in which every active thread has taken its trap, and the others have gone on; all the
bundle's threads are filed. -/
def Traps (s : State) (h : Hd) (o : Host.Outcome State Fault Refusal) (tr : TId → Trap) : Prop :=
  ∃ t, o = .next t ∧ s.Ran t ∧ t.delays = s.delays ∧ t.ids = s.ids ∧ (∀ w, (t.wave w).regs = (s.wave w).regs) ∧ s.Files t ∧
    (∀ u ∈ s.active h, Thread.Entered (s.thread u) (t.thread u) u.lane (tr u) ((tr u).code.tpc s.cur.pc)
      (BitVec.ofNat 64 (s.ctxOf u).handler)) ∧
    ∀ u ∈ s.cur.threads, u ∉ s.active h → t.thread u = (s.thread u).stepped s.cur.pc

/-! Effects beside the issue -/

/-- What the issue of an instruction does by itself, as NOP leaves it (R41, R51, R232): the threads of the bundle go on, their
windows count, and the bundle stays in its bin. -/
structure State.Issued (s z : State) : Prop where
  ran   : s.Ran z
  stays : s.Stays z
  same  : z.delays = s.delays ∧ z.freeCtr = s.freeCtr ∧ z.ids = s.ids
  regs  : ∀ w, (z.wave w).regs = (s.wave w).regs
  steps : ∀ u ∈ s.cur.threads, z.thread u = (s.thread u).stepped s.cur.pc

/-- `l` is the active thread of the lowest lane, of the lowest wave slot on one lane (R204, R448). -/
def State.Lowest (s : State) (h : Hd) (l : TId) : Prop :=
  l ∈ s.active h ∧ ∀ u ∈ s.active h, u ≠ l → l.lane < u.lane ∨ (l.lane = u.lane ∧ l.w < u.w)

/-- The wave has an active thread. -/
def State.acts (s : State) (h : Hd) (w : Nat) : Bool := (s.active h).any fun u => u.w == w

/-- In the waves with an active thread no thread waits at WAITM for the mask, and no session is open. -/
def State.Quiet (s : State) (h : Hd) (k : Nat) : Prop :=
  ∀ u ∈ s.active h, s.maskWaiters u.w k = [] ∧ (s.wave u.w).sessions = [] ∧ (s.alloc u.pid (s.wave u.w).wg).sessions = []

/-- The outcome is a next state in which mask `k` of every wave with an active thread has the bits `bit`, those of exited lanes
clear (R230), and which differs in nothing else but what every issue changes. -/
def Masks (s : State) (h : Hd) (k : Nat) (o : Host.Outcome State Fault Refusal) (bit : Nat → Nat → Bool) : Prop :=
  ∃ z t, o = .next t ∧ s.Issued z ∧ t = { z with waves := t.waves } ∧
    (∀ w, t.wave w = { z.wave w with masks := (t.wave w).masks }) ∧
    ∀ w j i, ((t.wave w).mask j).getLsbD i =
      if j = k ∧ s.acts h w = true then bit w i && (s.wave w).live.getLsbD i else ((s.wave w).mask j).getLsbD i

/-- Threads of the bundle have left it to wait or to end: besides waves and bins nothing differs; of the waves, masks and the
bundle's threads alone. -/
structure State.Left (s t : State) (gone : List TId) : Prop where
  rest   : t = { s with waves := t.waves, parts := t.parts }
  waves  : ∀ w, t.wave w = { s.wave w with threads := (t.wave w).threads, masks := (t.wave w).masks }
  others : ∀ u, u ∉ s.cur.threads → t.thread u = s.thread u
  parts  : ∀ p, p ≠ s.pid → t.part p = s.part p
  here   : t.part s.pid = { s.part s.pid with
             bins := (t.part s.pid).bins, filings := (t.part s.pid).filings, queue := (t.part s.pid).queue
             held := (t.part s.pid).held }
  gone   : ∀ e ∈ (t.part s.pid).bins, ∀ u ∈ gone, u ∉ e.2.threads

/-- A window joins those of a thread, unless it holds no destination (R50). -/
def Thread.opened (th : Thread) (x : Window) : Thread :=
  if x.dests = [] ∧ x.pdests = [] then th else { th with llSeq := th.llSeq + 1, windows := th.windows ++ [x] }

/-- The instruction `i`, whose bundle holds every member of mask `k` of its wave `w`, is performed at once (R142, R145): the
active threads have a window with the results `out`. -/
def Shares (s : State) (h : Hd) (k w : Nat) (dr dp : List Nat) (i : Instr) (out : TId → Out) : Prop :=
  s.Bundled →
  (∀ u ∈ s.cur.threads, u.w = w ∧ (s.thread u).st ≠ .exited) →
  (∀ n, n < 32 → (⟨w, n⟩ : TId) ∈ s.cur.threads ∨ ((s.wave w).thread n).st = .exited ∨ ((s.wave w).mask k).getLsbD n = false) →
  (∀ u ∈ s.cur.threads, ((s.wave w).mask k).getLsbD u.lane = true) →
  (s.wave w).sessions = [] →
  (∀ u ∈ s.active h, (s.thread u).conflict dr dp = none) → (∀ r ∈ dr, (s.wave w).shape r = .general) →
  ∃ t, exec i s = .next t ∧ s.Ran t ∧ s.Stays t ∧ t.delays = s.delays ∧ t.freeCtr = s.freeCtr ∧
    (t.wave w).regs = (s.wave w).regs ∧
    ∀ u ∈ s.cur.threads,
      t.thread u =
        if u ∈ s.active h then
          ((s.thread u).stepped s.cur.pc).opened
            { windowOf s h ((s.thread u).stepped s.cur.pc) (s.cycle + 6) (dr.filter (· != 255)) (dp.filter (· != 0)) (out u) with
              half := 0, checked := true }
        else (s.thread u).stepped s.cur.pc

/-! Accesses -/

/-- The access of thread `u` to `n` bytes at `va` finds device memory at `pa` and nothing in its way (R329): aligned,
translated, of a page that is neither checked for races nor compressed, its line sound and not watched; no tile operation, no
store to a peer, and no deterministic launch. -/
structure State.Reaches (s : State) (u : TId) (acc : AccType) (va n pa : Nat) : Prop where
  aligned : va % n = 0
  outside : isAperture va = false
  leaf    : ∃ pte, s.xlat (some u.core) (s.wave u.w).tag (s.privileged u) acc va = .ok pa pte ∧ pteChk pte = false ∧ pteComp pte = false
  memory  : deviceMem pa = true ∧ pa % 128 + n ≤ 128
  sound   : s.upsets = [] ∧ s.lineBad (pa / 128) = false
  free    : (s.part u.pid).tileQ = [] ∧ (∀ e ∈ s.watches, e.pa / 128 ≠ pa / 128) ∧ (s.core u.core).wcb = []
  fresh   : s.carried 0 pa n = []
  plain   : (s.launchOf u).hdr.determ = false
  settled : ∀ x ∈ (s.thread u).windows, x.ready ≠ none

/-- After an access of the active thread `u`: the bundle's other threads have gone on, caches and the latency inputs may have
changed, and in memory, its dirty lines and what bytes carry what the statement says; a release may also have raised the
wave's epoch and the workgroup's clock. -/
structure State.Accessed (s t : State) (u : TId) (release : Bool) : Prop where
  rest   : t = { s with
             waves := t.waves, parts := t.parts, delays := t.delays, cores := t.cores, stlb := t.stlb, walk := t.walk
             mem := t.mem, dirty := t.dirty, rels := t.rels, wgs := t.wgs, races := t.races }
  waves  : ∀ w, t.wave w = { s.wave w with threads := (t.wave w).threads, epoch := (t.wave w).epoch }
  epochs : release = false → t.wgs = s.wgs ∧ ∀ w, (t.wave w).epoch = (s.wave w).epoch
  clocks : ∀ g, t.wg g = { s.wg g with clock := (t.wg g).clock }
  others : ∀ v, v ∉ s.cur.threads → t.thread v = s.thread v
  idle   : ∀ v ∈ s.cur.threads, v ≠ u → t.thread v = (s.thread v).stepped s.cur.pc
  parts  : ∀ p, p ≠ s.pid → t.part p = s.part p
  stays  : s.Stays t
  cores  : ∀ c, t.core c = { s.core c with
             tlb := (t.core c).tlb, dlines := (t.core c).dlines, consts := (t.core c).consts, banks := (t.core c).banks }

/-- The bytes from `pa` on as a little-endian number (R12). -/
def littleEndian (m : Memory) (pa : Nat) : Nat → Nat
  | 0 => 0
  | n + 1 => (m.byte pa).toNat + 256 * littleEndian m (pa + 1) n

/-- What a load of type `mt` gives the registers from `d` on (R332): words of four bytes, or a narrow value extended. -/
def loaded (m : Memory) (pa d : Nat) (mt : MT) : List (Nat × Word) :=
  match mt with
  | .z8 | .z16 => [(d, BitVec.ofNat 32 (littleEndian m pa mt.bytes))]
  | .s8 | .s16 => [(d, BitVec.ofInt 32 (signedOf (8 * mt.bytes) (littleEndian m pa mt.bytes)))]
  | _ => (List.range (mt.bytes / 4)).map fun j => (d + j, BitVec.ofNat 32 (littleEndian m (pa + 4 * j) 4))

/-- The registers that a load names (R43, R332). -/
def loadDests (d : Nat) (mt : MT) : List Nat := (List.range (if d = 255 then 1 else mt.regs)).map (d + ·)

/-- The byte `i` of the registers from `d` on. -/
def State.regByte (s : State) (u : TId) (d i : Nat) : Byte := BitVec.ofNat 8 ((s.rd u (d + i / 4)).toNat / 2 ^ (8 * (i % 4)))

/-- `n` bytes of a memory have new values, and no others have changed. -/
def Memory.Puts (m m' : Memory) (pa n : Nat) (b : Nat → Byte) : Prop :=
  (∀ i, i < n → m'.byte (pa + i) = b i) ∧ ∀ a, (a < pa ∨ pa + n ≤ a) → m'.byte a = m.byte a

/-- The scratchpad access of thread `u` to `n` bytes at `addr` finds bank `bank` of core `core` at `off` (R278, R279), ready
and with nothing in its way. -/
structure State.Banked (s : State) (u : TId) (addr n core bank off : Nat) : Prop where
  aligned : addr % n = 0 ∧ addr < 0xFFFFFF00
  inside  : addr + n ≤ (s.launchOf u).hdr.scratch
  member  : ∃ k G,
    s.memberWg (s.wave u.w).launch (s.wg (s.wave u.w).wg).cluster (addr / 128 % max 1 (s.launchOf u).members) = some (k, G) ∧
      G.closed = false ∧ G.st = .resident ∧ G.core = core ∧ G.banks.getD (addr / 128 / max 1 (s.launchOf u).members / 256) 0 = bank
  owner   : (s.wg (s.wave u.w).wg).launch = (s.wave u.w).launch
  offset  : off = addr / 128 / max 1 (s.launchOf u).members % 256 * 128 + addr % 128
  ready   : (s.bank core bank).switching = none ∧ (s.bank core bank).mode = .scratch ∧ (s.bank core bank).pend.get (off / 128) 0 = 0
  free    : s.races = [] ∧ (s.part u.pid).tileQ = [] ∧ s.carried (scratchSpace (s.wg (s.wave u.w).wg)) addr n = [] ∧ (s.core u.core).wcb = []
  settled : ∀ x ∈ (s.thread u).windows, x.ready ≠ none

/-! Tile order -/

/-- No operation of the partition is still to act on the control state, but those behind a TPROF (R216). -/
def State.TilesKept (s : State) (pid : Nat) : Prop := ∀ o ∈ (s.part pid).tileQ.takeWhile fun o => !o.isProf, o.late = false

/-- The operation that a tile instruction of thread `u` makes (R208), with number `id`: it keeps what it reads of the control
state of its allocation, or behind a TPROF the tile control alone (R216). -/
def State.tileOp (s : State) (u : TId) (i : Instr) (addr : DWord) (desc : List Word) (recvs : List TId) (id : Nat) : TileOp :=
  let x := s.wave u.w
  let a := s.alloc u.pid x.wg
  let n := tileNames a i
  let late := !s.inSave u && (s.part u.pid).tileQ.any TileOp.isProf
  { id := id, wg := x.wg, t := u, pc := s.cur.pc, instr := i, addr := addr, desc := desc
    tcs := (n.tw ++ n.tr).map a.tc, accs := if late then [] else (n.ar ++ n.aw).map a.acc
    prof := if late then none else (s.ctx (s.launch (s.wg x.wg).launch).tag).prof, recvs := recvs
    priv := s.privileged u, time := s.now, cycle := s.cycOf u
    header := match i with | .taccld .. => true | _ => false
    late := late, ahead := s.inSave u, st := .queued, refused := none, result := none }

/-- After `z`, the operation has entered tile order: behind the others, one of a save or restore handler behind those that have
started or been stopped (R436); the control state takes its effect, now or after the TPROF before it, and its first step is to
come. -/
def State.Queued (s z t : State) (o : TileOp) : Prop :=
  let a := s.alloc o.t.pid o.wg
  let c := s.ctx (s.launch (s.wg o.wg).launch).tag
  let q := (s.part o.t.pid).tileQ
  let first : Instr := if o.header then .taccldHeader o.t.core (o.t.pid % 4) o.id else .tileOperationStart o.t.core (o.t.pid % 4) o.id
  t = { z with ids := o.id + 1, todo := .event first :: s.todo, parts := t.parts } ∧
    (∀ p, p ≠ o.t.pid → t.part p = z.part p) ∧
    t.part o.t.pid = { z.part o.t.pid with
      tileQ := if o.ahead then q.filter (fun e => e.begun || e.ahead) ++ o :: q.filter (fun e => !(e.begun || e.ahead))
        else q ++ [o]
      allocs := if o.late then (s.part o.t.pid).allocs
        else (s.part o.t.pid).allocs.put o.wg (a.control o.instr o.tcs c.gen.toNat c.prof) }

/-! Waits that end -/

/-- Thread `u` has ended its wait: it is changed by `f`, READY, and filed with the released threads (R232, R234, R261). -/
structure State.Resumes (s t : State) (u : TId) (f : Thread → Thread) : Prop where
  rest   : t = { s with waves := t.waves, parts := t.parts }
  waves  : ∀ w, t.wave w = { s.wave w with threads := (t.wave w).threads }
  others : ∀ v, v ≠ u → t.thread v = s.thread v
  self   : t.thread u = { f (s.thread u) with st := .ready }
  parts  : ∀ p, p ≠ u.pid → t.part p = s.part p
  filed  : t.part u.pid = { s.part u.pid with filings := (s.part u.pid).filings ++ [⟨u, 3, (s.core u.core).cyc.toNat⟩] }

/-! The device -/

/-- `n` bytes of device memory at `pa` lie in one line that is sound and that nothing watches. -/
structure State.PlainLine (s : State) (pa n : Nat) : Prop where
  canon  : s.memOk = true
  memory : deviceMem pa = true ∧ 0 < n ∧ pa % 128 + n ≤ 128
  sound  : s.upsets = [] ∧ s.poison.contains (pa / 128) = false
  alone  : ∀ e ∈ s.watches, e.pa / 128 ≠ pa / 128

/-- Each wave, workgroup and launch has one entry under its number. -/
structure State.Keyed (s : State) : Prop where
  waves    : ∀ e ∈ s.waves, s.waves.find? e.1 = some e.2
  wgs      : ∀ e ∈ s.wgs, s.wgs.find? e.1 = some e.2
  launches : ∀ e ∈ s.launches, s.launches.find? e.1 = some e.2

/-- Nothing of the device waits for anything: no request to a peer, no tile operation, no engine command, no watch. -/
structure State.Still (s : State) : Prop where
  remotes : s.remotes = [] ∧ ∀ e ∈ s.cores, e.2.wcb = [] ∧ e.2.qhold = [] ∧ ∀ q ∈ e.2.queues, q.2 = []
  tiles   : ∀ e ∈ s.parts, e.2.tileQ = []
  watches : s.watches = [] ∧ s.arming = []
  sound   : s.upsets = [] ∧ s.poison = []

/-- The state after a command of the context window (R454): RESULT, which is OVERRUN when CWCMD was written meanwhile, TAG, BUSY
and MSI-X vector 0. -/
def State.cwEnds (s : State) (res tag : Nat) : State :=
  { s with cwres := if s.cwover then 5 else res, cwtag := tag, cwrun := none, cwover := false, msix := s.msix ++ [0] }

/-- A command of the Dusia port is taken: a new frame, on a device that is neither fatal nor OFF nor in recovery (R469, R496,
R501, R503). -/
structure State.Hears (s : State) (seq : Nat) : Prop where
  alive : s.fatal = false ∧ s.mg.power ≠ 3 ∧ s.mg.recovery = false
  idle  : s.mg.run = none
  fresh : ∀ q c bs, s.mg.prev = some (q, c, bs) → q ≠ seq

/-- The state `t` with the reply to command `cmd` (R503, R504): the code of the command and 128, SEQ, STATUS, and data. It is kept
for a frame that comes again; it is sent at the end of the command, after the delay that the environment chooses. -/
def State.answers (t : State) (cmd seq status : Nat) (data : List Byte) : State :=
  let x := (cmd + 128, seq, BitVec.ofNat 8 status :: data)
  let n := t.delays.headD 0
  { t with
    delays := t.delays.tail
    mg := { t.mg with
      sent := if n = 0 then t.mg.sent ++ [x] else t.mg.sent
      run := if n = 0 then t.mg.run else some (t.now + n, x)
      prev := some (seq, x.1, x.2.2) } }

end Sys2Proof.Machine
end

