-- ==== Sys2Proof/Certificates/Slice0/Obligations.lean ====
section
/-!
DEFINITION. The statements about the model, for the provers.
-/
open Sys2Proof Sys2Proof.Machine

/-! Instructions that compute -/

/-- Moves, sums, differences, minima, maxima, absolute values, negation and comparisons (R111, R112, R114 to R117): the exact
value of the sources, wrapped, or clamped with `.sat` (R78), is written at once. -/
def Obligations.IntegerResults : Prop :=
  ∀ (s : State) (h : Hd) (m : Option LaneMod) (d a b c sh p high : Nat) (imm : Int) (sat w neg : Bool) (t : IT) (cc : CC),
    let A (u : TId) : Int := t.read (s.numA m u t.wide a)
    let B (u : TId) : Int := t.read (s.numB m u t.wide b)
    let C (u : TId) : Int := t.read (s.num u t.wide c)
    Gives s h false d (.movi h d imm) (fun _ => wrapNat 32 imm) ∧
    Gives s h false d (.movh h d high) (fun _ => high % 2 ^ 16 * 2 ^ 16) ∧
    Gives s h w d (.mov h m d a w) (fun u => s.numA m u w a) ∧
    Gives s h false d (.iaddImm h d a imm) (fun u => wrapNat 32 (signedOf 32 (s.num u false a) + imm)) ∧
    Gives s h t.wide d (.iadd h m d a b sat t) (fun u => t.result sat (A u + B u)) ∧
    Gives s h t.wide d (.isub h m d a b sat t) (fun u => t.result sat (A u - B u)) ∧
    Gives s h t.wide d (.imin h m d a b t) (fun u => t.result false (min (A u) (B u))) ∧
    Gives s h t.wide d (.imax h m d a b t) (fun u => t.result false (max (A u) (B u))) ∧
    Gives s h t.wide d (.iabs h m d a sat t) (fun u => t.result sat (A u).natAbs) ∧
    Gives s h t.wide d (.ineg h m d a sat t) (fun u => t.result sat (-A u)) ∧
    Gives s h t.wide d (.isum h m d a b c t) (fun u => t.result false (A u + B u + C u)) ∧
    Gives s h t.wide d (.isad h m d a b c t) (fun u => t.result false ((A u - B u).natAbs + C u)) ∧
    Gives s h w d (.lea h m d a b sh w) (fun u => (s.numA m u w a + s.numB m u w b * 2 ^ sh) % 2 ^ 64) ∧
    Gives s h t.wide d (.iset h m d a b cc t) (fun u => if intTest cc (A u) (B u) then 2 ^ 64 - 1 else 0) ∧
    Gives s h w d (.sel h m d a b w neg p)
      (fun u => if (s.thread u).pred p != neg then s.numA m u w a else s.numB m u w b)

/-- Products, quotients and remainders (R112 to R114, R116): the exact value, wrapped, comes after the cycles of R71 in a
window. -/
def Obligations.IntegerResultsLater : Prop :=
  ∀ (s : State) (h : Hd) (m : Option LaneMod) (d a b c : Nat) (imm : Int) (t : IT),
    let A (u : TId) : Int := t.read (s.numA m u t.wide a)
    let B (u : TId) : Int := t.read (s.numB m u t.wide b)
    let C (u : TId) : Int := t.read (s.num u t.wide c)
    GivesLater s h 4 false d (.imulImm h d a imm) (fun u => wrapNat 32 (signedOf 32 (s.num u false a) * imm)) ∧
    GivesLater s h 4 t.wide d (.imul h m d a b t) (fun u => t.result false (A u * B u)) ∧
    GivesLater s h 4 t.wide d (.imulh h m d a b t) (fun u => t.result false ((A u * B u).fdiv (2 ^ t.width : Nat))) ∧
    GivesLater s h 4 t.wide d (.imad h m d a b c t) (fun u => t.result false (A u * B u + C u)) ∧
    GivesLater s h (if t.wide then 40 else 24) t.wide d (.idiv h m d a b t)
      (fun u => t.result false
        (if B u = 0 then (if t.signed then -1 else ((2 ^ t.width - 1 : Nat) : Int)) else (A u).tdiv (B u))) ∧
    GivesLater s h (if t.wide then 40 else 24) t.wide d (.irem h m d a b t)
      (fun u => t.result false (if B u = 0 then A u else (A u).tmod (B u)))

/-- The bitwise instructions and the bit fields (R116, R118, R119). -/
def Obligations.BitwiseResults : Prop :=
  ∀ (s : State) (h : Hd) (m : Option LaneMod) (d a b c : Nat) (imm : Int) (w : Bool) (t : IT),
    let A (u : TId) : Nat := s.numA m u w a
    let B (u : TId) : Nat := s.numB m u w b
    Gives s h false d (.andImm h d a imm) (fun u => s.num u false a &&& wrapNat 32 imm) ∧
    Gives s h false d (.orImm h d a imm) (fun u => s.num u false a ||| wrapNat 32 imm) ∧
    Gives s h false d (.xorImm h d a imm) (fun u => s.num u false a ^^^ wrapNat 32 imm) ∧
    Gives s h w d (.and h m d a b w) (fun u => A u &&& B u) ∧
    Gives s h w d (.or h m d a b w) (fun u => A u ||| B u) ∧
    Gives s h w d (.xor h m d a b w) (fun u => A u ^^^ B u) ∧
    Gives s h w d (.andn h m d a b w) (fun u => A u &&& (2 ^ 64 - 1 - B u)) ∧
    Gives s h w d (.not h m d a w) (fun u => 2 ^ wbits w - 1 - A u) ∧
    Gives s h false d (.popc h m d a w) (fun u => popBits (A u) (wbits w)) ∧
    Gives s h false d (.clz h m d a w) (fun u => if A u = 0 then wbits w else wbits w - 1 - Nat.log2 (A u)) ∧
    Gives s h w d (.brev h m d a w) (fun u => revBits (A u) (wbits w)) ∧
    Gives s h t.wide d (.bfe h m d a b t)
      (fun u => t.result false (bfeInt t.width t.signed (s.numA m u t.wide a) (s.numB m u false b))) ∧
    Gives s h w d (.bfi h m d a b c w) (fun u => bfiBits (wbits w) (A u) (s.numB m u false b) (s.num u w c))

/-- The shifts (R116, R118): by 32 bits of source B, as bits shifted out and zeros or signs shifted in; ROL by the number
modulo the width. -/
def Obligations.ShiftResults : Prop :=
  ∀ (s : State) (h : Hd) (m : Option LaneMod) (d a b n : Nat) (w : Bool),
    let A (u : TId) : Nat := s.numA m u w a
    let N (u : TId) : Nat := s.numB m u false b
    let K (u : TId) : Nat := N u % wbits w
    Gives s h false d (.shlImm h d a n) (fun u => if 32 ≤ n then 0 else s.num u false a * 2 ^ n % 2 ^ 32) ∧
    Gives s h false d (.shrImm h d a n) (fun u => if 32 ≤ n then 0 else s.num u false a / 2 ^ n) ∧
    Gives s h false d (.sarImm h d a n)
      (fun u => wrapNat 32 ((signedOf 32 (s.num u false a)).fdiv (2 ^ min n 31 : Nat))) ∧
    Gives s h w d (.shl h m d a b w) (fun u => if wbits w ≤ N u then 0 else A u * 2 ^ N u % 2 ^ wbits w) ∧
    Gives s h w d (.shr h m d a b w) (fun u => if wbits w ≤ N u then 0 else A u / 2 ^ N u) ∧
    Gives s h w d (.sar h m d a b w)
      (fun u => wrapNat (wbits w) ((signedOf (wbits w) (A u)).fdiv (2 ^ min (N u) (wbits w - 1) : Nat))) ∧
    Gives s h w d (.rol h m d a b w) (fun u => (A u * 2 ^ K u + A u / 2 ^ (wbits w - K u)) % 2 ^ wbits w)

/-- Comparisons into a predicate and predicate logic (R120): a written p0 is discarded (R43). -/
def Obligations.PredicateResults : Prop :=
  ∀ (s : State) (h : Hd) (m : Option LaneMod) (p a b : Nat) (na nb : Bool) (t : IT) (cc : CC),
    let X (u : TId) : Bool := (s.thread u).pred a != na
    let Y (u : TId) : Bool := (s.thread u).pred b != nb
    Tells s h p (.pset h m p a b cc t) (fun u => intTest cc (t.read (s.numA m u t.wide a)) (t.read (s.numB m u t.wide b))) ∧
    Tells s h p (.pand h p a b na nb) (fun u => X u && Y u) ∧
    Tells s h p (.por h p a b na nb) (fun u => X u || Y u) ∧
    Tells s h p (.pxor h p a b na nb) (fun u => X u != Y u) ∧
    Tells s h p (.pnot h p a na) (fun u => !X u)

/-- Binary32 arithmetic (R85 to R87, R121, R124 to R127): the exact result rounded once, 4 cycles on. -/
def Obligations.FloatResults : Prop :=
  ∀ (s : State) (h : Hd) (m : Option LaneMod) (d a b c p : Nat) (r : RM) (cc : CC),
    let A (u : TId) : Nat := s.numA m u false a
    let B (u : TId) : Nat := s.numB m u false b
    let C (u : TId) : Nat := s.num u false c
    GivesLater s h 4 false d (.fadd h m d a b r) (fun u => fmt32.round r (Fl.add r (fmt32.read (A u)) (fmt32.read (B u)))) ∧
    GivesLater s h 4 false d (.fsub h m d a b r)
      (fun u => fmt32.round r (Fl.add r (fmt32.read (A u)) (fmt32.read (B u)).negate)) ∧
    GivesLater s h 4 false d (.fmul h m d a b r) (fun u => fmt32.round r ((fmt32.read (A u)).mul (fmt32.read (B u)))) ∧
    GivesLater s h 4 false d (.ffma h m d a b c r)
      (fun u => fmt32.round r (Fl.add r ((fmt32.read (A u)).mul (fmt32.read (B u))) (fmt32.read (C u)))) ∧
    GivesLater s h 4 false d (.fmin h m d a b) (fun u => fmt32.pick false (A u) (B u)) ∧
    GivesLater s h 4 false d (.fmax h m d a b) (fun u => fmt32.pick true (A u) (B u)) ∧
    TellsLater s h 4 p (.fset h m p a b cc) (fun u => Fl.test cc (fmt32.read (A u)) (fmt32.read (B u))) ∧
    GivesLater s h 4 false d (.frnd h m d a r) (fun u => frndBits r (A u)) ∧
    GivesLater s h 4 false d (.fclass h m d a) (fun u => fclassBits (A u))

/-- Quotients, roots and elementary functions of binary32 (R121 to R123), after the cycles of R71. -/
def Obligations.FunctionResults : Prop :=
  ∀ (s : State) (h : Hd) (m : Option LaneMod) (d a b : Nat) (r : RM),
    let A (u : TId) : Nat := s.numA m u false a
    let B (u : TId) : Nat := s.numB m u false b
    GivesLater s h 20 false d (.fdiv h m d a b r) (fun u => fmt32.div r (fmt32.read (A u)) (fmt32.read (B u))) ∧
    GivesLater s h 12 false d (.frcp h m d a r) (fun u => fmt32.div r (Fl.ofInt 1) (fmt32.read (A u))) ∧
    GivesLater s h 12 false d (.frsq h m d a r) (fun u => fmt32.rsqrt r (fmt32.read (A u))) ∧
    GivesLater s h 16 false d (.fsqrt h m d a r) (fun u => fmt32.sqrt r (fmt32.read (A u))) ∧
    GivesLater s h 12 false d (.fexp2 h m d a) (fun u => fexp2Bits (A u)) ∧
    GivesLater s h 12 false d (.flog2 h m d a) (fun u => flog2Bits (A u)) ∧
    GivesLater s h 12 false d (.fsin h m d a) (fun u => ftrigBits false (A u)) ∧
    GivesLater s h 12 false d (.fcos h m d a) (fun u => ftrigBits true (A u))

/-- Pairs of BF16 (R88, R128), the low element with the low and the high with the high, and binary64 on pairs of registers
(R129). -/
def Obligations.PairAndDoubleResults : Prop :=
  ∀ (s : State) (h : Hd) (m : Option LaneMod) (d a b c p : Nat) (r : RM) (cc : CC),
    let A (u : TId) : Nat := s.numA m u false a
    let B (u : TId) : Nat := s.numB m u false b
    let C (u : TId) : Nat := s.num u false c
    let lo (n : Nat) : Fl := fmt16.read (n % 2 ^ 16)
    let hi (n : Nat) : Fl := fmt16.read (n / 2 ^ 16 % 2 ^ 16)
    let X (u : TId) : Fl := fmt64.read (s.numA m u true a)
    let Y (u : TId) : Fl := fmt64.read (s.numB m u true b)
    let Z (u : TId) : Fl := fmt64.read (s.num u true c)
    GivesLater s h 4 false d (.hadd2 h m d a b r)
      (fun u => fmt16.round r (Fl.add r (lo (A u)) (lo (B u))) + fmt16.round r (Fl.add r (hi (A u)) (hi (B u))) * 2 ^ 16) ∧
    GivesLater s h 4 false d (.hmul2 h m d a b r)
      (fun u => fmt16.round r ((lo (A u)).mul (lo (B u))) + fmt16.round r ((hi (A u)).mul (hi (B u))) * 2 ^ 16) ∧
    GivesLater s h 4 false d (.hfma2 h m d a b c r)
      (fun u => fmt16.round r (Fl.add r ((lo (A u)).mul (lo (B u))) (lo (C u))) +
        fmt16.round r (Fl.add r ((hi (A u)).mul (hi (B u))) (hi (C u))) * 2 ^ 16) ∧
    GivesLater s h 4 false d (.hmax2 h m d a b)
      (fun u => fmt16.pick true (A u % 2 ^ 16) (B u % 2 ^ 16) +
        fmt16.pick true (A u / 2 ^ 16 % 2 ^ 16) (B u / 2 ^ 16 % 2 ^ 16) * 2 ^ 16) ∧
    GivesLater s h 6 true d (.dadd h m d a b r) (fun u => fmt64.round r (Fl.add r (X u) (Y u))) ∧
    GivesLater s h 6 true d (.dmul h m d a b r) (fun u => fmt64.round r ((X u).mul (Y u))) ∧
    GivesLater s h 6 true d (.dfma h m d a b c r) (fun u => fmt64.round r (Fl.add r ((X u).mul (Y u)) (Z u))) ∧
    TellsLater s h 6 p (.dset h m p a b cc) (fun u => Fl.test cc (X u) (Y u))

/-- The integer types (R77, R78): a result reads back as itself where the type holds it; without `.sat` it reads back modulo
2^w within the range; with `.sat` it reads back as the nearest bound. A narrow result is extended to 32 bits by its sign, or
with zeros. -/
def Obligations.IntegerTypes : Prop :=
  ∀ (t : IT) (sat : Bool) (x : Int),
    let lo := intMin t.width t.signed
    let hi := intMax t.width t.signed
    (lo ≤ x → x ≤ hi → t.read (t.result sat x) = x) ∧
    (lo ≤ t.read (t.result false x) ∧ t.read (t.result false x) ≤ hi ∧
      t.read (t.result false x) % (2 ^ t.width : Nat) = x % (2 ^ t.width : Nat)) ∧
    (x < lo → t.read (t.result true x) = lo) ∧ (hi < x → t.read (t.result true x) = hi) ∧
    (t.wide = false → t.result sat x < 2 ^ 32 ∧
      (if t.signed then signedOf 32 (t.result sat x) else (t.result sat x : Int)) = t.read (t.result sat x))

/-- The integer and bitwise results on words of 32 and of 64 bits are the operations of binary arithmetic modulo 2^32 and 2^64
(R77, R78, R118). -/
def Obligations.WordArithmetic : Prop :=
  (∀ (t : IT), t = .s32 ∨ t = .z32 → ∀ (a b c : BitVec 32),
    let A := t.read a.toNat
    let B := t.read b.toNat
    BitVec.ofNat 32 (t.result false (A + B)) = a + b ∧ BitVec.ofNat 32 (t.result false (A - B)) = a - b ∧
    BitVec.ofNat 32 (t.result false (A * B)) = a * b ∧ BitVec.ofNat 32 (t.result false (A * B + t.read c.toNat)) = a * b + c ∧
    BitVec.ofNat 32 (t.result false (-A)) = -a) ∧
  (∀ (t : IT), t = .s64 ∨ t = .z64 → ∀ (a b c : BitVec 64),
    let A := t.read a.toNat
    let B := t.read b.toNat
    BitVec.ofNat 64 (t.result false (A + B)) = a + b ∧ BitVec.ofNat 64 (t.result false (A - B)) = a - b ∧
    BitVec.ofNat 64 (t.result false (A * B)) = a * b ∧ BitVec.ofNat 64 (t.result false (A * B + t.read c.toNat)) = a * b + c ∧
    BitVec.ofNat 64 (t.result false (-A)) = -a) ∧
  ∀ (w : Nat), w = 32 ∨ w = 64 → ∀ (a : BitVec w) (n : Nat),
    BitVec.ofNat w (shlBits w a.toNat n) = a <<< n ∧ BitVec.ofNat w (shrBits w a.toNat n) = a >>> n ∧
    BitVec.ofNat w (sarBits w a.toNat n) = a.sshiftRight n ∧ BitVec.ofNat w (rolBits w a.toNat n) = a.rotateLeft n ∧
    BitVec.ofNat w (2 ^ w - 1 - a.toNat) = ~~~a

/-- Conversions of one lane (R99, R102, R130, R132, R133): CVT, CVTMX in the decoding direction, and CVTRES under a loaded
profile that passes check 9 of R59. -/
def Obligations.ConversionResults : Prop :=
  ∀ (s : State) (h : Hd) (d a b ch : Nat) (dty sty : TY) (r : RM) (signed : Bool),
    GivesLater s h 4 dty.wide d (.cvt h d a dty sty r) (fun u => cvtBits dty sty r (s.num u sty.wide a)) ∧
    GivesLater s h 6 false d (.cvtmxDec h d a b r)
      (fun u => fmt32.round r (mxValue (s.num u false b % 2 ^ 8) (signedOf 8 (s.num u false a)))) ∧
    ∀ p : Profile, (s.ctxOf (s.cur.threads.headD default)).prof = some p →
      cvtresOk (some p) s.mapout (s.counts (s.cur.threads.headD default)) a ch = true →
      GivesLater s h 4 false d (.cvtres h d a ch signed) (fun u =>
        let n := s.num u (p.grouping != 2) a
        let x : Int := if signed then signedOf (if p.grouping != 2 then 64 else 32) n else n
        (x % ((p.chans.getD ch default).mod : Int)).toNat)

/-- Reading counters, masks, tile control and special registers (R27, R137, R138, R212, R240, R447, R448): a counter as it
stands at the start of the next core cycle, and the same value for every active thread. -/
def Obligations.ReadResults : Prop :=
  ∀ (s : State) (h : Hd) (d k n : Nat) (w : Bool),
    let K := s.core s.cur.core
    let next := K.start + K.len
    let P (u : TId) : Part := s.part (u.core * 4 + u.pid % 4)
    Gives s h true d (.clkrd h d .cyc) (fun _ => K.cyc.toNat + 1) ∧
    Gives s h true d (.clkrd h d .time) (fun _ => next) ∧
    Gives s h true d (.clkrd h d (.cls n)) (fun _ => (K.cls.getD n 0).toNat + if K.cmax = n then 1 else 0) ∧
    Gives s h true d (.tstamp h d) (fun _ => next + (s.offset next).toNat) ∧
    Gives s h false d (.kmov h d k .vk) (fun u => ((s.wave u.w).mask k).toNat) ∧
    Gives s h false d (.kpop h d k)
      (fun u => ((List.range 32).filter fun i => ((s.wave u.w).mask k).getLsbD i).length) ∧
    Gives s h false d (.tcfgrd h d n)
      (fun u => if u.lane < 4 then (((s.alloc u.pid (s.wave u.w).wg).tc n).getD u.lane 0).toNat else 0) ∧
    Gives s h w d (.srd h d 0x00 w) (fun u => u.lane) ∧
    Gives s h w d (.srd h d 0x01 w) (fun u => (s.wave u.w).idx) ∧
    Gives s h w d (.srd h d 0x02 w) (fun u => (s.wg (s.wave u.w).wg).grid) ∧
    Gives s h w d (.srd h d 0x03 w) (fun u => (s.wg (s.wave u.w).wg).cluster) ∧
    Gives s h w d (.srd h d 0x04 w) (fun u => (s.wave u.w).tag) ∧
    Gives s h w d (.srd h d 0x05 w) (fun u => (s.launch (s.wave u.w).launch).khdr) ∧
    Gives s h w d (.srd h d 0x08 w) (fun _ => K.cyc.toNat + 1) ∧
    Gives s h w d (.srd h d 0x09 w) (fun _ => next) ∧
    Gives s h w d (.srd h d 0x0F w) (fun u => 4 * (s.thread u).rngB.toNat + (s.thread u).rngI) ∧
    Gives s h w d (.srd h d 0x10 w) (fun u => ((s.thread u).hand.map (·.tcause.toNat)).getD 0) ∧
    Gives s h w d (.srd h d 0x11 w) (fun u => ((s.thread u).hand.map (·.tpc.toNat)).getD 0) ∧
    Gives s h w d (.srd h d 0x12 w) (fun u => ((s.thread u).hand.map fun x => (x.trec.getD 0 0).toNat).getD 0) ∧
    Gives s h w d (.srd h d 0x42 w) (fun u => (s.core u.core).drpcfg.toNat) ∧
    Gives s h w d (.srd h d 0x44 w) (fun u => (s.core u.core).xlcfg.toNat) ∧
    Gives s h w d (.srd h d 0x46 w) (fun u => (P u).contain.toNat) ∧
    (n < 12 → Gives s h w d (.srd h d (0x50 + n) w) (fun u => ((P u).chkcnt.get n 0).toNat))

/-- The generator of each active thread (R134 to R136): RNGSEED and RNGSKIP set its place; RNG and RNGF give the word there, and
leave the generator at the next, also when v255 discards the word. -/
def Obligations.RandomResults : Prop :=
  ∀ (s : State) (h : Hd) (d a : Nat), s.Bundled →
    let drawn (th : Thread) : Thread :=
      { th with rngI := if th.rngI = 3 then 0 else th.rngI + 1, rngB := if th.rngI = 3 then th.rngB + 1 else th.rngB }
    let word (u : TId) : Nat :=
      philoxWord (s.thread u).rngS.toNat (s.thread u).rngB.toNat (s.globalId u) (s.thread u).rngI
    Moves s h (exec (.rngseed h a) s)
      (fun u act th => if act then { th with rngS := s.rd64 u a, rngB := 0, rngI := 0 } else th) ∧
    Moves s h (exec (.rngskip h a) s) (fun u act th =>
      let n := 4 * th.rngB.toNat + th.rngI + (s.rd64 u a).toNat
      if act then { th with rngB := BitVec.ofNat 64 (n / 4), rngI := n % 4 } else th) ∧
    ((∀ u ∈ s.active h, (s.thread u).conflict [d] [] = none) →
      Opens s h 6 [d] [] (exec (.rng h d) s) (fun u => { regs := [(d, BitVec.ofNat 32 (word u))] }) drawn ∧
      Opens s h 6 [d] [] (exec (.rngf h d) s)
        (fun u => { regs := [(d, BitVec.ofNat 32 (fmt32.round .rn (.num false (word u / 2 ^ 8) (-24))))] }) drawn)

/-! Control flow -/

/-- Branches, calls and returns of each active thread, the others going on (R247, R248, R250, R256): a taken branch pops the
loops whose ranges it leaves; a call pushes the next address and the loop depth while the hardware stack has room; a return
goes on at its entry and cuts the loops back. NOP does nothing. -/
def Obligations.BranchEffects : Prop :=
  ∀ (s : State) (h : Hd) (a : Nat) (off : Int), s.Bundled →
    let near := s.cur.pc + BitVec.ofInt 64 (8 * off)
    let far (u : TId) : DWord := BitVec.ofNat 64 ((s.launchOf u).khdr + 1024) + BitVec.ofNat 64 (s.rd u a).toNat
    let legal := ∀ u ∈ s.active h, (s.rd u a).toNat % 8 = 0 ∧ (s.rd u a).toNat < (s.launchOf u).hdr.codesz
    let room := ∀ u ∈ s.active h, (s.thread u).calls.length < 8
    let goes (tgt : TId → DWord) (u : TId) (act : Bool) (th : Thread) : Thread :=
      if act then { th with pc := tgt u, loops := cutLoops (tgt u) (s.frameDepth u) th.loops } else th
    let calls (tgt : TId → DWord) (u : TId) (act : Bool) (th : Thread) : Thread :=
      if act then { th with pc := tgt u, calls := ⟨s.cur.pc + 8, th.loops.length⟩ :: th.calls } else th
    Moves s h (exec (.nop h) s) (fun _ _ th => th) ∧
    Moves s h (exec (.bra h off) s) (goes fun _ => near) ∧
    (legal → Moves s h (exec (.brx h a) s) (goes far)) ∧
    (room → Moves s h (exec (.call h off) s) (calls fun _ => near)) ∧
    (legal → room → Moves s h (exec (.callx h a) s) (calls far)) ∧
    ((∀ u ∈ s.active h, (s.thread u).calls ≠ []) → Moves s h (exec (.ret h) s) fun u act th =>
      let e := (s.thread u).calls.headD default
      if act then { th with pc := e.ret, calls := th.calls.tail, loops := th.loops.drop (th.loops.length - e.depth) } else th)

/-- LOOP and LEND where they raise no LOOP_FAULT (R254, R255): a zero trip count passes the LEND, another opens the loop; LEND
goes back while the count lasts, then leaves the loop. -/
def Obligations.LoopEffects : Prop :=
  ∀ (s : State) (h : Hd) (a : Nat) (off : Int), s.Bundled →
    let at_ := s.cur.pc + BitVec.ofInt 64 (8 * off)
    let count (u : TId) : Int := signedOf 32 (s.rd u a).toNat
    (0 < off → (∀ u ∈ s.active h, 0 ≤ count u ∧ (count u = 0 ∨ (s.thread u).loops.length < 4)) →
      Moves s h (exec (.loop h a off) s) fun u act th =>
        if act = true ∧ count u ≠ 0 then { th with loops := ⟨s.cur.pc + 8, at_, (count u).toNat⟩ :: th.loops }
        else { th with pc := at_ + 8 }) ∧
    ((∀ u ∈ s.active h, s.frameDepth u < (s.thread u).loops.length ∧ ((s.thread u).loops.headD default).last = s.cur.pc ∧
        ((s.thread u).loops.headD default).head = at_) →
      Moves s h (exec (.lend h off) s) fun u act th =>
        let l := (s.thread u).loops.headD default
        if act then
          if 1 < l.count then { th with pc := at_, loops := { l with count := l.count - 1 } :: th.loops.tail }
          else { th with loops := th.loops.tail }
        else { th with loops := if s.frameDepth u < th.loops.length then th.loops.tail else th.loops })

/-- The instructions whose effect is a trap (R259, R429, R431, R432, R449): TRAP with its code and BKPT, when the debug mode is
not HALT, and ECALL with its service number; TPC is the next instruction. Also where other instructions trap: HALT and TRET
outside handler mode (R433, R449), and a bad target of BRX and CALLX, in every active thread, named by the lowest lane (R248). -/
def Obligations.TrapEffects : Prop :=
  ∀ (s : State) (h : Hd) (a n : Nat), s.Bundled → s.CanTrap h → s.active h ≠ [] →
    Traps s h (exec (.trap h n) s) (fun _ => .general .userTrap (aux := n)) ∧
    (s.debug = 0 → Traps s h (exec (.bkpt h) s) fun _ => .general .breakpoint) ∧
    Traps s h (exec (.ecall h n) s) (fun _ => { code := .ecall, words := [n, 0, 0, 0, 0, 0, 0, 0], arg := 0 }) ∧
    Traps s h (exec (.halt h) s) (fun _ => .general .haltState) ∧
    Traps s h (exec (.tret h) s) (fun _ => .general .haltState) ∧
    ∀ l : TId, l ∈ s.active h → ((s.rd l a).toNat % 8 ≠ 0 ∨ (s.launchOf l).hdr.codesz ≤ (s.rd l a).toNat) →
      (∀ u ∈ s.active h, u ≠ l → (u.lane < l.lane ∨ (u.lane = l.lane ∧ u.w < l.w)) →
        (s.rd u a).toNat % 8 = 0 ∧ (s.rd u a).toNat < (s.launchOf u).hdr.codesz) →
      Traps s h (exec (.brx h a) s) (fun _ => .general .branchTarget (lane := l.lane) (aux := (s.rd l a).toNat)) ∧
      Traps s h (exec (.callx h a) s) (fun _ => .general .branchTarget (lane := l.lane) (aux := (s.rd l a).toNat))

/-- TRET (R433) and REFORM (R253): a return leaves handler mode at TPC, and what the handler's windows would still write to the banked
registers and predicates goes with it (that is the model's choice, log 26); REFORM files every thread of the bundle at the next
instruction, active or not. -/
def Obligations.ReturnEffects : Prop :=
  (∀ (s : State) (h : Hd), s.Bundled → (∀ u ∈ s.active h, ∃ x, (s.thread u).hand = some x ∧ x.tcause ≠ 49) →
      Moves s h (exec (.tret h) s) fun u act th =>
        if act then
          { th with
            hand := none
            pc := ((s.thread u).hand.getD default).tpc
            windows := th.windows.map fun x => { x with regs := x.regs.filter (fun r => 4 ≤ r.1), preds := [] } }
        else th) ∧
  (∀ (s : State) (h : Hd), s.Bundled →
      ∃ t, exec (.reform h) s = .next t ∧ s.Ran t ∧ s.Files t ∧ (∀ w, (t.wave w).regs = (s.wave w).regs) ∧
        ∀ u ∈ s.cur.threads, t.thread u = (s.thread u).stepped s.cur.pc)

/-! Masks and the end of threads -/

/-- Mask writes (R230, R239 to R241) where no thread waits on the mask: JOIN and LEAVE change the bits of the active lanes, the
others write a whole mask; bits of exited lanes stay 0. KMOV from a register takes the lowest active lane's. -/
def Obligations.MaskEffects : Prop :=
  ∀ (s : State) (h : Hd) (d a b : Nat), s.Bundled → s.Quiet h d →
    let K (w j i : Nat) : Bool := ((s.wave w).mask j).getLsbD i
    let act (w i : Nat) : Bool := decide (⟨w, i⟩ ∈ s.active h)
    Masks s h d (exec (.join h d) s) (fun w i => K w d i || act w i) ∧
    Masks s h d (exec (.leave h d) s) (fun w i => K w d i && !act w i) ∧
    Masks s h d (exec (.kmov h d a .kk) s) (fun w i => K w a i) ∧
    (∀ low : Nat → TId, (∀ w, s.acts h w = true →
        low w ∈ s.active h ∧ (low w).w = w ∧ ∀ u ∈ s.active h, u.w = w → (low w).lane ≤ u.lane) →
      Masks s h d (exec (.kmov h d a .kv) s) fun w i => (s.rd (low w) a).getLsbD i) ∧
    Masks s h d (exec (.kand h d a b) s) (fun w i => K w a i && K w b i) ∧
    Masks s h d (exec (.kor h d a b) s) (fun w i => K w a i || K w b i) ∧
    Masks s h d (exec (.kandn h d a b) s) (fun w i => K w a i && !K w b i)

/-- WAITM (R242): threads that are not members of the mask go on with the predicate true; members wait in MASKWAIT, behind the
instruction, until the cycle count has passed, when another member has not arrived. -/
def Obligations.MaskWaits : Prop :=
  ∀ (s : State) (h : Hd) (p k n : Nat), s.Bundled → s.Free h [] [p] →
    ((∀ u ∈ s.active h, s.isMember u k = false) →
      Writes s h (exec (.waitm h p k n) s) fun _ => { preds := [(p, true)] }) ∧
    (s.active h = s.cur.threads → (∀ u ∈ s.active h, s.isMember u k = true) →
      (∀ u ∈ s.active h, ∃ i, i < 32 ∧ ((s.wave u.w).mask k).getLsbD i = true ∧ ⟨u.w, i⟩ ∉ s.cur.threads ∧
        ((s.wave u.w).thread i).st ≠ .exited ∧ ((s.wave u.w).thread i).mwait = none) →
      ∃ t, exec (.waitm h p k n) s = .next t ∧ s.Left t s.cur.threads ∧ (∀ w, (t.wave w).masks = (s.wave w).masks) ∧
        ∀ u ∈ s.cur.threads,
          t.thread u = { (s.thread u).stepped s.cur.pc with st := .maskwait, mwait := some ⟨k, p, s.cycle + n⟩ })

/-- EXIT where the wave lives on (R230, R258): the active threads end with their stacks and windows, and leave the masks; the
rest of the bundle goes on. HALT in a SAVE handler (R449): the thread stops, and its workgroup's save is tried again. -/
def Obligations.ThreadEnds : Prop :=
  ∀ (s : State) (h : Hd), s.Bundled →
    ((∀ u ∈ s.active h, (s.launchOf u).hdr.determ = false ∧ (∀ b, (s.barrier u b).arrived = []) ∧
        ∃ i, i < (s.wave u.w).threads.length ∧ ((s.wave u.w).thread i).st ≠ .exited ∧ ⟨u.w, i⟩ ∉ s.active h) →
      (∀ k, s.Quiet h k) →
      ∃ t, exec (.exit h) s = .next t ∧ s.Left t (s.active h) ∧
        (∀ u ∈ s.active h, t.thread u =
          { (s.thread u).stepped s.cur.pc with st := .exited, calls := [], spilled := 0, loops := [], windows := [], grant := false }) ∧
        (∀ u ∈ s.cur.threads, u ∉ s.active h → t.thread u = (s.thread u).stepped s.cur.pc) ∧
        ∀ w j i, j < 12 → ((t.wave w).mask j).getLsbD i =
          (((s.wave w).mask j).getLsbD i && (!s.acts h w || (t.wave w).live.getLsbD i))) ∧
    ((∀ u ∈ s.active h, ∃ x, (s.thread u).hand = some x ∧ x.tcause = 48) →
      ∃ t, exec (.halt h) s = .next t ∧
        t.todo = (s.active h).reverse.map (fun u => .event (.slowSave (s.wave u.w).wg)) ++ s.todo ∧
        s.Left { t with todo := s.todo } (s.active h) ∧ (∀ w, (t.wave w).masks = (s.wave w).masks) ∧
        (∀ u ∈ s.active h, t.thread u = { (s.thread u).stepped s.cur.pc with st := .halted }) ∧
        ∀ u ∈ s.cur.threads, u ∉ s.active h → t.thread u = (s.thread u).stepped s.cur.pc)

/-! System instructions -/

/-- SWR (R15, R36, R37, R447, R448, R488): once, from the lowest active lane; what is written of DRPCFG, DRPSTAT, XLCFG, WTSTAT,
CHKCNT, BBRCTL and TPC, and nothing of any other register. -/
def Obligations.RegisterWrites : Prop :=
  ∀ (s : State) (h : Hd) (reg a : Nat) (w : Bool) (l : TId), s.Bundled → s.Lowest h l →
    let v : Nat := if w then (s.rd64 l a).toNat else (s.rd l a).toNat
    ∃ z, s.Issued z ∧
      exec (.swr h 0x42 a w) s = .next (z.modCore l.core fun c =>
        { c with drpcfg := BitVec.ofNat 32 v &&& 0x8FFFFFFF, drpoff := c.drpoff || !v.testBit 31 }) ∧
      exec (.swr h 0x43 a w) s =
        .next (if v.testBit 29 then z.modCore l.core fun c => { c with deepest := 0, alarms := 0 } else z) ∧
      exec (.swr h 0x44 a w) s = .next (z.modCore l.core fun c => { c with xlcfg := BitVec.ofNat 32 (v % 2 ^ 16) }) ∧
      exec (.swr h 0x47 a w) s =
        .next (if v.testBit 8 then z.modCtx (s.wave l.w).tag fun c => { c with wtfull := 0 } else z) ∧
      (v.testBit 1 = false → exec (.swr h 0x4A a w) s = .next { z with bbr := { s.bbr with bbmen := v.testBit 0 } }) ∧
      (∀ n, n < 12 → exec (.swr h (0x50 + n) a w) s =
        .next (z.modPart l.pid fun p => { p with chkcnt := p.chkcnt.put n (BitVec.ofNat 32 (v % 2 ^ 24)) })) ∧
      exec (.swr h 0x11 a w) s = .next (z.modThread l fun th => { th with hand := th.hand.map fun x => { x with
        tpc := if w then s.rd64 l a else BitVec.ofNat 64 (v + x.tpc.toNat / 2 ^ 32 * 2 ^ 32) } }) ∧
      (reg ≠ 0x11 → (reg < 0x42 ∨ 0x44 < reg) → reg ≠ 0x47 → reg ≠ 0x4A → (reg < 0x50 ∨ 0x5B < reg) →
        exec (.swr h reg a w) s = .next z)

/-- IFENCE with no combined store left, TLBINV, and BBMARK of one wave (R449, R483, R485): the core fetches anew; the entries of
the pages, of the contexts, or all leave every translation cache; the marker is written while BBMEN allows it. -/
def Obligations.SystemEffects : Prop :=
  ∀ (s : State) (h : Hd) (a : Nat) (l : TId), s.Bundled → s.Lowest h l →
    let page (e : TlbEntry) : Bool := (s.active h).any fun u => e.tag == (s.wave u.w).tag && e.vpn == (s.rd64 u a).toNat / 4096 / 2 ^ e.log
    let table (e : TlbEntry) : Bool :=
      (s.active h).any fun u => e.tag == (s.wave u.w).tag && e.vpn == (s.rd64 u a).toNat / 2 ^ (12 + 9 * (e.log - 1))
    let mine (e : TlbEntry) : Bool := (s.active h).any fun u => e.tag == (s.wave u.w).tag
    let drops (o : Host.Outcome State Fault Refusal) (leaf entry : TlbEntry → Bool) : Prop :=
      ∃ z t, s.Issued z ∧ o = .next t ∧ t = { z with stlb := t.stlb, walk := t.walk, cores := t.cores } ∧
        t.stlb = s.stlb.filter (fun e => !leaf e) ∧ t.walk = s.walk.filter (fun e => !entry e) ∧
        ∀ c, t.core c = { s.core c with tlb := (s.core c).tlb.filter fun e => !leaf e }
    ((s.core s.cur.core).wcb = [] →
      ∃ z, s.Issued z ∧ exec (.ifence h) s = .next (z.modCore s.cur.core fun c => { c with icache := [] })) ∧
    drops (exec (.tlbinv h a .page) s) page table ∧ drops (exec (.tlbinv h a .ctx) s) mine mine ∧
    drops (exec (.tlbinv h a .all) s) (fun _ => true) (fun _ => true) ∧
    ∃ z, s.Issued z ∧ (s.bbr.bbmen = false → exec (.bbmark h a) s = .next z) ∧
      (s.bbr.bbmen = true → s.bbr.frozen = false → (∀ u ∈ s.active h, u.w = l.w) → exec (.bbmark h a) s = .next { z with
        bbr := { s.bbr with
          ring := s.bbr.ring.put s.bbr.wptr
            { time := s.time, kind := 2, tag := (s.wave l.w).tag, cls := 0, src := s.cur.core
              data := bytesOfWord 4 (s.wave l.w).wid.toNat ++ bytesOfWord 4 (s.rd l a).toNat }
          wptr := (s.bbr.wptr + 1) % 4096
          events := s.bbr.events + 1 } })

/-! Between lanes -/

/-- The cross-lane instructions on the captured values of the active members (R104, R105, R142, R145, R150, R153 to R158, R160
to R162): a lane that does not contribute gives the reader's own value, an identity, or the predicate false. -/
def Obligations.LaneResults : Prop :=
  ∀ (s : State) (h : Hd) (d a b k w p e size : Nat) (mode : LgetMode) (op : FoldOp) (t : FoldTy) (max excl signed wide : Bool),
    let acts (i : Nat) : Bool := decide (⟨w, i⟩ ∈ s.active h)
    let V (i : Nat) : Option Nat := if acts i then some (s.rd ⟨w, i⟩ a).toNat else none
    let own (u : TId) : Nat := (s.rd u a).toNat
    let P (i : Nat) : Bool := (s.thread ⟨w, i⟩).pred a
    let lanes := (List.range 32).filter acts
    let mask (f : Nat → Bool) : Nat := (lanes.filter f).foldl (fun m i => m + 2 ^ i) 0
    let tree := (List.range 32).map fun i => if acts i then s.num ⟨w, i⟩ t.wide a else foldId op t
    let scanOp : FoldOp := if max then .max else .add
    let sums := scanTree (foldOp scanOp t) ((List.range 32).map fun i => if acts i then s.num ⟨w, i⟩ t.wide a else foldId scanOp t)
    let S := 8 * 2 ^ size
    let T := 2 * 2 ^ size
    let parts (s n : Nat) (f : Nat → Nat) : Nat := (List.range n).foldl (fun m e => m + f e * 2 ^ (s * e)) 0
    Shares s h k w [d] [p] (.lget h d a b k mode p) (fun u =>
      let v := (lgetLane mode u.lane (s.rd u b).toNat).bind V
      { regs := putNum false d (v.getD (own u)), preds := [(p, v.isSome)] }) ∧
    Shares s h k w [] [d] (.pqry h d a k .every) (fun _ => { preds := [(d, lanes.all P)] }) ∧
    Shares s h k w [] [d] (.pqry h d a k .some) (fun _ => { preds := [(d, lanes.any P)] }) ∧
    Shares s h k w [] [d] (.pqry h d a k .same) (fun _ => { preds := [(d, lanes.all P || lanes.all fun i => !P i)] }) ∧
    Shares s h k w [d] [] (.pqry h d a k .mask) (fun _ => { regs := putNum false d (mask P) }) ∧
    Shares s h k w [d] [] (.peers h d a k wide) (fun u =>
      { regs := putNum false d (mask fun i => s.num ⟨w, i⟩ wide a == s.num u wide a) }) ∧
    Shares s h k w (dests t.wide d) [] (.lfold h d a k op t) (fun _ =>
      { regs := putNum t.wide d ((foldTree (foldOp op t) tree).headD 0) }) ∧
    Shares s h k w (dests t.wide d) [] (.scan h d a k max excl t) (fun u =>
      { regs := putNum t.wide d
          (if excl = false then sums.getD u.lane 0 else if u.lane = 0 then foldId scanOp t else sums.getD (u.lane - 1) 0) }) ∧
    Shares s h k w [d] [] (.xlp h d a k e) (fun u =>
      let sel := ((s.wave w).pattern e).getD u.lane u.lane
      { regs := putNum false d (if sel.testBit 5 then 0 else (V (sel % 32)).getD (own u)) }) ∧
    (size < 3 → Shares s h k w [d] [] (.xpose h d a k size) (fun u =>
      { regs := putNum false d (parts S (32 / S) fun e =>
          let x := 32 / S * u.lane + e
          let src := x % 8 * (4 * (32 / S)) + x / 8
          match V (src / (32 / S)) with
          | some v => v / 2 ^ (S * (src % (32 / S))) % 2 ^ S
          | none => own u / 2 ^ (S * e) % 2 ^ S) })) ∧
    (size < 4 → Shares s h k w [d] [] (.unpk h d a k size signed) (fun u =>
      let v := (V (u.lane / (32 / T))).getD (own u) / 2 ^ (T * (u.lane % (32 / T))) % 2 ^ T
      { regs := putNum false d (if signed then wrapNat 32 (signedOf T v) else v) })) ∧
    (size < 4 → Shares s h k w [d] [] (.packx h d a k size) (fun u =>
      { regs := putNum false d (if u.lane < T then
          parts T (32 / T) fun e => match V (32 / T * u.lane + e) with
            | some v => v % 2 ^ T
            | none => own u / 2 ^ (T * e) % 2 ^ T
        else 0) }))

/-- The block conversions on the captured values of the active members (R131, R132), +0 standing for the others: CVTBX by groups
of 16 lanes, CVTMX over 32; and XLPL, which writes each active lane's selector (R159). -/
def Obligations.BlockResults : Prop :=
  ∀ (s : State) (h : Hd) (d a b k w e : Nat) (f : BxFmt) (r : RM),
    let V (i : Nat) : Fl := (blockSubst 0 (fmt32.read (if (⟨w, i⟩ : TId) ∈ s.active h then (s.rd ⟨w, i⟩ a).toNat else 0))).1
    Shares s h k w [d] [] (.cvtbx h d a k f r) (fun u =>
      let B := (encodeBx f r ((List.range 16).map fun i => V (16 * (u.lane / 16) + i))).1
      let bits := tagP B.tag + 1
      { regs := putNum false d (B.E * 2 ^ 24 + B.tag * 2 ^ 22 + B.mu * 2 ^ 14 +
          if B.tag = 3 ∨ B.E = 255 then 0 else B.payload / 2 ^ (bits * (u.lane % 16)) % 2 ^ bits) }) ∧
    Shares s h k w [d, b] [] (.cvtmxEnc h d a b k r) (fun u =>
      let M := encodeMx r ((List.range 32).map V)
      { regs := [(d, BitVec.ofNat 32 (wrapNat 8 (M.2.1.getD u.lane 0))), (b, BitVec.ofNat 32 M.1)] }) ∧
    (s.Bundled → (∀ w, ((s.wave w).pattern e).length = 32) →
      ∃ z t, s.Issued z ∧ exec (.xlpl h a e) s = .next t ∧ t = { z with waves := t.waves } ∧
        (∀ w, t.wave w = { z.wave w with pats := (t.wave w).pats }) ∧
        ∀ w n, (t.wave w).pattern n =
          if n = e then (List.range 32).map fun i =>
            if (⟨w, i⟩ : TId) ∈ s.active h then (s.rd ⟨w, i⟩ a).toNat % 64 else ((s.wave w).pattern e).getD i 0
          else (s.wave w).pattern n)

/-! Memory -/

/-- LD and LDC of one thread that reach sound memory (R12, R328, R332, R335): a window receives the little-endian bytes 28 or 6
cycles on, or as late as memory answers; LDC reads the launch's constant line as it was when the core took it. Memory is
unchanged. -/
def Obligations.LoadEffects : Prop :=
  ∀ (s : State) (h : Hd) (u : TId) (d a : Nat) (off : Int) (f : MemForm) (hint : Hint) (pa : Nat),
    s.Bundled → s.active h = [u] → s.Reaches u .read (s.rd64 u a + BitVec.ofInt 64 off).toNat f.mt.bytes pa →
    (s.thread u).conflict (loadDests d f.mt) [] = none →
    let gives (t : State) (n : Nat) (m : Memory) : Prop :=
      s.Accessed t u false ∧ t.mem = s.mem ∧ t.dirty = s.dirty ∧ t.rels = s.rels ∧ t.races = s.races ∧ t.delays = s.delays.tail ∧
        t.thread u = { ((s.thread u).stepped s.cur.pc).opened
          { windowOf s h ((s.thread u).stepped s.cur.pc) (s.cycle + n + s.delays.headD 0) ((loadDests d f.mt).filter (· != 255)) []
              { regs := if d = 255 then [] else loaded m pa d f.mt } with
            half := 0 } with readRels := (t.thread u).readRels }
    (∃ t, exec (.ld h d a off f) s = .next t ∧ gives t 28 s.mem) ∧
    ((s.core u.core).consts.find? (fun e => e.1 == pa / 128 && e.2.1 == (s.wave u.w).launch) = none →
      ∃ t, exec (.ldc h d a off hint f.mt) s = .next t ∧ gives t 6 s.mem ∧
        let lines := (s.core u.core).consts
        ∃ n, (t.core u.core).consts = (pa / 128, (s.wave u.w).launch, s.mem.read (pa / 128 * 128) 128) ::
          (if lines.length < 512 then lines else lines.eraseIdx n)) ∧
    ∀ old bytes, (∀ i, i < 128 → (Memory.byte old (pa / 128 * 128 + i)) = bytes.getD i 0) → bytes.length = 128 →
      (s.core u.core).consts.find? (fun e => e.1 == pa / 128 && e.2.1 == (s.wave u.w).launch) =
        some (pa / 128, (s.wave u.w).launch, bytes) →
      ∃ t, exec (.ldc h d a off hint f.mt) s = .next t ∧ gives t 6 old ∧ (t.core u.core).consts = (s.core u.core).consts

/-- ST of one thread that reaches sound memory (R12, R328, R333): the bytes of its registers at its address, and no other byte,
register or constant line. -/
def Obligations.StoreEffects : Prop :=
  ∀ (s : State) (h : Hd) (u : TId) (d a : Nat) (off : Int) (f : MemForm) (pa : Nat),
    s.Bundled → s.active h = [u] → s.Reaches u .write (s.rd64 u a + BitVec.ofInt 64 off).toNat f.mt.bytes pa →
    s.memOk = true →
    ∃ t, exec (.st h d a off f) s = .next t ∧ s.Accessed t u f.ordered ∧
      Memory.Puts s.mem t.mem pa f.mt.bytes (s.regByte u d) ∧ t.memOk = true ∧
      t.dirty = (State.markLine (s.wave u.w).tag s (pa / 128)).dirty ∧
      (t.dirty.find? (pa / 128)).map (·.tag) = some (s.wave u.w).tag ∧ t.races = s.races ∧ t.delays = s.delays ∧
      (t.core u.core).consts = (s.core u.core).consts ∧ t.thread u = (s.thread u).stepped s.cur.pc

/-- ATOM and RED of one thread that reach sound memory (R338, R339): memory takes the new value, and ATOM's window the old
one. -/
def Obligations.AtomicEffects : Prop :=
  ∀ (s : State) (h : Hd) (u : TId) (d a b : Nat) (off : Int) (op : AO) (ord : Order) (sc : Scope) (ty : AT) (pa : Nat),
    s.Bundled → s.active h = [u] → s.Reaches u .atomic (s.rd64 u a + BitVec.ofInt 64 off).toNat ty.bytes pa → s.memOk = true →
    (s.thread u).conflict (dests ty.wide d) [] = none →
    let old := littleEndian s.mem pa ty.bytes
    let B := s.num u ty.wide b
    let C := s.num u ty.wide (if ty.wide then b + 2 else b + 1)
    let less (x y : Nat) : Prop :=
      if ty = .s32 ∨ ty = .s64 then signedOf (8 * ty.bytes) x < signedOf (8 * ty.bytes) y else x < y
    let becomes (new : Nat) : Prop :=
      match op with
      | .add => new = (old + B) % 2 ^ (8 * ty.bytes)
      | .min => (less B old → new = B) ∧ (¬less B old → new = old)
      | .max => (less old B → new = B) ∧ (¬less old B → new = old)
      | .and => new = old &&& B
      | .or => new = old ||| B
      | .xor => new = old ^^^ B
      | .exch => new = B
      | .cas => new = if old = B then C else old
      | .inc => (less old B → new = (old + 1) % 2 ^ (8 * ty.bytes)) ∧ (¬less old B → new = old)
      | .dec => (less B old → new = (old + 2 ^ (8 * ty.bytes) - 1) % 2 ^ (8 * ty.bytes)) ∧ (¬less B old → new = old)
      | .addF32 => new = fmt32.round .rn (Fl.add .rn (fmt32.read old) (fmt32.read B))
    let stores (t : State) : Prop :=
      s.Accessed t u (ord == .release || ord == .acqRel) ∧ t.memOk = true ∧ t.races = s.races ∧
        ∃ new, becomes new ∧ Memory.Puts s.mem t.mem pa ty.bytes fun i => BitVec.ofNat 8 (new / 2 ^ (8 * i))
    (∃ t, exec (.atom h d a b off op ord sc ty) s = .next t ∧ stores t ∧ t.delays = s.delays.tail ∧
      t.thread u = { ((s.thread u).stepped s.cur.pc).opened
        { windowOf s h ((s.thread u).stepped s.cur.pc) (s.cycle + 32 + s.delays.headD 0) ((dests ty.wide d).filter (· != 255)) []
            { regs := putNum ty.wide d old } with
          half := 0 } with readRels := (t.thread u).readRels }) ∧
    ∃ t, exec (.red h a b off op ord sc ty) s = .next t ∧ stores t ∧ t.delays = s.delays ∧
      t.thread u = { (s.thread u).stepped s.cur.pc with readRels := (t.thread u).readRels }

/-- LDS and STS of one thread on a scratchpad bank of its cluster (R278, R328, R332, R333): a window receives the bytes 8 cycles
on or later; a store changes its bytes of the bank and nothing else of it. Global memory is unchanged. -/
def Obligations.ScratchEffects : Prop :=
  ∀ (s : State) (h : Hd) (u : TId) (d a : Nat) (off : Int) (f : MemForm) (core bank at_ : Nat),
    s.Bundled → s.active h = [u] →
    s.Banked u (wrapNat 32 ((s.rd u a).toNat + off)) f.mt.bytes core bank at_ → Memory.wf (s.bank core bank).bytes = true →
    let kept (t : State) : Prop := t.mem = s.mem ∧ t.stlb = s.stlb ∧ t.walk = s.walk ∧ t.dirty = s.dirty ∧ ∀ c,
      t.core c = { s.core c with banks := (t.core c).banks }
    ((s.thread u).conflict (loadDests d f.mt) [] = none →
      ∃ t, exec (.lds h d a off f) s = .next t ∧ s.Accessed t u false ∧ kept t ∧ (∀ c, t.core c = s.core c) ∧
        t.delays = s.delays.tail ∧ t.rels = s.rels ∧
        t.thread u = { ((s.thread u).stepped s.cur.pc).opened
          { windowOf s h ((s.thread u).stepped s.cur.pc) (s.cycle + 8 + s.delays.headD 0) ((loadDests d f.mt).filter (· != 255)) []
              { regs := if d = 255 then [] else loaded (s.bank core bank).bytes at_ d f.mt } with
            half := 0 } with readRels := (t.thread u).readRels }) ∧
    ∃ t, exec (.sts h d a off f) s = .next t ∧ s.Accessed t u f.ordered ∧ kept t ∧ t.delays = s.delays ∧
      (∀ c b, (c ≠ core ∨ b ≠ bank) → t.bank c b = s.bank c b) ∧
      (t.bank core bank) = { s.bank core bank with bytes := (t.bank core bank).bytes } ∧
      Memory.Puts (s.bank core bank).bytes (t.bank core bank).bytes at_ f.mt.bytes (s.regByte u d) ∧
      t.thread u = (s.thread u).stepped s.cur.pc

/-- PREF and CCTL of one thread (R272, R336, R337): what becomes of the core's cached line, and of its constant line. A line that
PREF brings takes the first free way of its set, or the place of a line of its set, not one at keep priority while there is
another; without a cache way it is dropped, as is one whose load would fault. -/
def Obligations.CacheEffects : Prop :=
  ∀ (s : State) (h : Hd) (u : TId) (a : Nat) (off : Int) (hint : Hint) (ty : MT) (pa pte : Nat),
    s.Bundled → s.active h = [u] →
    s.xlat (some u.core) (s.wave u.w).tag (s.privileged u) .read (s.rd64 u a + BitVec.ofInt 64 off).toNat = .ok pa pte →
    (∀ e ∈ s.watches, e.pa / 128 ≠ pa / 128) → deviceMem pa = true →
    let line := pa / 128
    let others (c : Core) := c.consts.filter fun e => e.1 != line
    let C := s.core u.core
    let set := C.dlines.filter fun e => e.1 % 256 == line % 256
    let faults := s.lineFaults u (s.rd64 u a + BitVec.ofInt 64 off).toNat pa
    ∃ z, s.Issued z ∧
      (let brings (f : Tab DLine) : Prop := exec (.pref h a off hint ty) s = .next (z.modCore u.core fun c => { c with dlines := f })
       (hint = .stream ∨ faults = true → exec (.pref h a off hint ty) s = .next z) ∧
       (hint ≠ .stream → faults = false →
         (∀ d, C.dlines.find? line = some d → brings (C.dlines.put line { d with keep := d.keep || hint == .keep })) ∧
         (C.dlines.find? line = none →
           (∀ n, (C.ways.find? fun n => set.all fun e => e.2.way != n) = some n →
             brings (C.dlines.put line { way := n, dirty := false, keep := hint == .keep })) ∧
           ((∀ n ∈ C.ways, ∃ e ∈ set, e.2.way = n) →
             (set = [] → brings C.dlines) ∧
             (set ≠ [] → ∃ e ∈ set, (e.2.keep = true → ∀ x ∈ set, x.2.keep = true) ∧
               brings ((C.dlines.del e.1).put line { way := e.2.way, dirty := false, keep := hint == .keep })))))) ∧
      exec (.cctl h a off .wb) s = .next (z.modCore u.core fun c =>
        { c with dlines := match c.dlines.find? line with
            | some d => c.dlines.put line { d with dirty := false }
            | none => c.dlines }) ∧
      exec (.cctl h a off .inv) s = .next (z.modCore u.core fun c =>
        { c with consts := others c, dlines := if (c.dlines.get line {}).dirty then c.dlines else c.dlines.del line }) ∧
      exec (.cctl h a off .wbinv) s = .next (z.modCore u.core fun c => { c with consts := others c, dlines := c.dlines.del line })

/-! Order and waiting -/

/-- FENCE of one thread with nothing to acquire and nothing in the write-combining buffer, and QFENCE of one wave (R290, R291,
R293, R299, R303, R340, R341): a release keeps its snapshot and raises the wave's epoch and the workgroup's clock as its scope
says; QFENCE enters the queues that it names, and leaves queues that are empty at once.
KPASS (R306, R307, R354): nothing outside a deterministic launch; in one, a wave whose threads have been let go ends its
turn, and the keystone stays where it is when it is at another wave. -/
def Obligations.FenceEffects : Prop :=
  (∀ (s : State) (h : Hd) (sc : Scope) (mask : Nat) (u : TId), s.Bundled → s.active h = [u] →
      let x := s.wave u.w
      let g := s.wg x.wg
      let snap : RelSnap :=
        { launch := x.launch, wg := g.lin, wave := x.idx, lane := u.lane, fence := true, eng := false, scope := sc
          vec := x.vec.set x.idx (some x.epoch), clock := g.clock, heard := x.heard }
      let released (z : State) : State :=
        let z := if 2 ≤ sc.code then z.modWave u.w fun x => { x with epoch := x.epoch + 1 } else z
        (if 3 ≤ sc.code then z.modWg x.wg fun g => { g with clock := g.clock + 1 } else z).modThread u fun th =>
          { th with relFences := th.relFences.filter (fun x => sc.code < x.scope.code) ++ [snap] }
      let n := (s.core u.core).qfences
      let queued (q : Nat) (l : List QEntry) : Prop :=
        ∃ z t, s.Issued z ∧ exec (.qfence h mask) s = .next t ∧ t = { z with cores := t.cores } ∧
          (∀ c, c ≠ u.core → t.core c = s.core c) ∧
          t.core u.core = { s.core u.core with qfences := n + 1, queues := (t.core u.core).queues } ∧ t.queue u.core q = l
      ((s.thread u).readRels = [] → (s.core u.core).wcb = [] → s.scFences = [] →
        (∃ z, s.Issued z ∧ exec (.fence h .acquire sc) s = .next z) ∧
        ∃ z, s.Issued z ∧ exec (.fence h .release sc) s = .next (released z) ∧
          exec (.fence h .acqRel sc) s = .next (released z) ∧
          exec (.fence h .seqCst sc) s = .next { released z with scFences := [snap] }) ∧
      ((∀ q, q < 8 → ∃ c es, s.queue u.core q = .cmd c :: es ∧ c.begun = true) → ∀ q,
        queued q (s.queue u.core q ++ if q < 8 ∧ mask.testBit q = true then [.fence mask n] else [])) ∧
      ((∀ q, q < 8 → s.queue u.core q = []) → ∀ q, queued q (s.queue u.core q))) ∧
  (∀ (s : State) (h : Hd), s.Bundled →
      ((∀ u ∈ s.active h, (s.launchOf u).hdr.determ = false) → ∃ z, s.Issued z ∧ exec (.kpass h) s = .next z) ∧
      ∀ w, s.active h ≠ [] → (∀ u ∈ s.cur.threads, u.w = w ∧ (s.thread u).grant = true) →
        (∀ i, i < 32 → ⟨w, i⟩ ∉ s.cur.threads → (s.thread ⟨w, i⟩).grant = false) →
        (s.launch (s.wave w).launch).hdr.determ = true → (s.launch (s.wave w).launch).key ≠ some (s.lid w) →
        ∃ t, exec (.kpass h) s = .next t ∧ t = { s with waves := t.waves, parts := t.parts } ∧ s.Stays t ∧
          (∀ p, p ≠ s.pid → t.part p = s.part p) ∧
          (∀ v, t.wave v = { s.wave v with
            turns := (s.wave v).turns + if v = w then 1 else 0, threads := (t.wave v).threads }) ∧
          (∀ u, u ∉ s.cur.threads → t.thread u = s.thread u) ∧
          ∀ u ∈ s.cur.threads, t.thread u = { (s.thread u).stepped s.cur.pc with grant := false })

/-- The barriers of a workgroup, for one thread (R342, R344 to R348): an arrival counts, releases at workgroup scope and takes a
ticket; the one that completes moves the barrier to its next phase; a wait with the present phase's ticket stands at its BAR,
and one with a past ticket goes on; BARINIT begins a phase with a new target and drops the tickets. -/
def Obligations.BarrierEffects : Prop :=
  ∀ (s : State) (h : Hd) (a b pr : Nat) (u : TId), s.Bundled → s.active h = [u] → b < 24 →
    (s.launchOf u).hdr.determ = false →
    let x := s.wave u.w
    let v := s.barrier u b
    let g := s.wg x.wg
    let snap : RelSnap :=
      { launch := x.launch, wg := g.lin, wave := x.idx, lane := u.lane, fence := false, eng := false, scope := .workgroup
        vec := x.vec.set x.idx (some x.epoch), clock := g.clock, heard := x.heard }
    let n := v.count + max 1 ((s.rd u a).toNat % 2 ^ 16)
    let sets (z : State) (f : Wg → Wg) : State := (z.modWave u.w fun x => { x with epoch := x.epoch + 1 }).modWg x.wg f
    let counted : Barrier := { v with count := n, snaps := v.snaps ++ [snap] }
    let passed (v : Barrier) : Barrier :=
      { v with
        phase := v.phase + 1, count := 0, arrived := [], snaps := [], first := [], last := []
        done := v.done ++ [(v.phase.toNat, v.snaps ++ [snap])] }
    let tmo := (s.core u.core).xlcfg.toNat % 2 ^ 16
    let waits (arr : Bool) : BarWait := ⟨pr, if pr = 0 ∨ tmo = 0 then none else some (s.cycOf u + 64 * tmo), arr⟩
    (v.target ≠ 0 → n < v.target → ∃ z, s.Issued z ∧ exec (.barArrive h a b) s =
      .next ((sets z fun g => { g with bars := g.bars.put b counted }).modThread u fun th => th.setTicket b v.phase)) ∧
    (v.target ≠ 0 → v.target ≤ n → s.barWaiters u b = [] → ∃ z, s.Issued z ∧ exec (.barArrive h a b) s =
      .next ((sets z fun g => { g with bars := g.bars.put b (passed v) }).modThread u fun th => th.setTicket b v.phase)) ∧
    (v.target = 0 → (s.thread u).ticket b = none →
      (∀ i ∈ s.scopeIds [x.wg], i ∈ v.arrived ∨ i = s.logical u) → s.barWaiters u b = [] →
      ∃ z, s.Issued z ∧ exec (.barArrive h a b) s = .next ((sets z fun g =>
        { g with bars := g.bars.put b (passed v), phase := g.phase + 1 }).modThread u fun th => th.setTicket b v.phase)) ∧
    ((s.thread u).conflict [] [pr] = none → (s.thread u).bwait = none →
      ((s.thread u).ticket b = some v.phase → ∃ t, exec (.barWait h b pr) s = .next t ∧ s.Left t [u] ∧
        (∀ w, (t.wave w).masks = (s.wave w).masks) ∧
        t.thread u = { (s.thread u).stepped s.cur.pc with st := .barrier b, pc := s.cur.pc, bwait := some (waits false) }) ∧
      (∀ p, (s.thread u).ticket b = some p → p ≠ v.phase → (∀ d ∈ v.done, d.1 ≠ p.toNat) →
        ∃ z, s.Issued z ∧ exec (.barWait h b pr) s = .next (z.modThread u fun th => (th.dropTicket b).setPred pr true)) ∧
      (v.target ≠ 0 → n < v.target → ∃ t, exec (.barArrwait h a b pr) s = .next t ∧
        (sets s fun g => { g with bars := g.bars.put b counted }).Left t [u] ∧ (∀ w, (t.wave w).masks = (s.wave w).masks) ∧
        t.thread u =
          { ((s.thread u).stepped s.cur.pc).setTicket b v.phase with
            st := .barrier b, pc := s.cur.pc, bwait := some (waits true) })) ∧
    ((s.rd u a).toNat < 2 ^ 16 → s.barWaiters u b = [] → (s.wgs.find? x.wg).isSome = true →
      ∃ z t, s.Issued z ∧ exec (.barinit h a b) s = .next t ∧ t = { z with waves := t.waves, wgs := t.wgs } ∧
        (∀ k, t.wg k = if k = x.wg then
            { g with
              bars := g.bars.put b { phase := v.phase + 1, target := (s.rd u a).toNat }
              image := g.image.map fun w => { w with threads := w.threads.map fun th => th.dropTicket b } }
          else s.wg k) ∧
        (∀ w, t.wave w = { z.wave w with threads := (t.wave w).threads }) ∧
        ∀ i, t.thread i = if i ∈ s.scopeThreads [x.wg] then (z.thread i).dropTicket b else z.thread i)

/-- WAITU of one thread that reaches sound memory (R311, R313, R314, R319, R350): the value and true when the comparison holds at
once, and false when it does not and D is 0; otherwise the thread waits at its WAITU with an entry of the home slice. -/
def Obligations.WatchEffects : Prop :=
  ∀ (s : State) (h : Hd) (u : TId) (d a b : Nat) (off : Int) (cm : CM) (w : Bool) (ps pa : Nat),
    s.Bundled → s.active h = [u] → s.Free h (dests w d) [ps] → (s.thread u).readRels = [] →
    let va := (s.rd64 u a + BitVec.ofInt 64 off).toNat
    let size := if w then 8 else 4
    s.Reaches u .read va size pa →
    let x : DWord := BitVec.ofNat 64 (littleEndian s.mem pa size)
    let y : DWord := if w then s.rd64 u b else BitVec.ofNat 64 (s.rd u b).toNat
    let D := (s.rd u (if w then b + 2 else b + 1)).toNat
    -- the slice cycle that accepts the request: of a throttled island, one with an even TIME / 8
    let cycle := s.now / 8
    let T0 := 8 * (if s.uncoreHot (Config.sliceIsland (sliceOf pa)) = true ∧ cycle % 2 = 1 then cycle + 1 else cycle)
    let e : Watch :=
      { id := s.ids, slice := sliceOf pa, reserved := false, spill := none, pa := pa, wide := w, cm := cm, y := y
        deadline := if D = 0xFFFFFFFF then none else some (T0 + 64 * D)
        waiter := .wave (s.wave u.w).tag (s.wave u.w).wid (BitVec.ofNat 32 (2 ^ u.lane)), st := .armed, snaps := [], chk := false }
    let s' : State := { s with ids := s.ids + 1 }
    let armed : State := { s' with
      watches := s.watches ++ [e], cores := s.cores.map fun c => (c.1, { c.2 with dlines := c.2.dlines.del (pa / 128) }) }
    let W := exec (.waitu h d a b off cm w ps) s
    (CM.holds cm w x y = true → Writes s' h W fun _ => { regs := putNum w d x.toNat, preds := [(ps, true)] }) ∧
    (CM.holds cm w x y = false → D = 0 → Writes s' h W fun _ => { regs := putNum w d x.toNat, preds := [(ps, false)] }) ∧
    (CM.holds cm w x y = false → D ≠ 0 →
      (s.watches.filter fun e => e.slice == sliceOf pa && e.spill.isNone && e.reserved == false).length < 240 →
      ∃ t, W = .next t ∧
        (if D = 0xFFFFFFFF then armed
          else armed.atFirst ((T0 + 64 * D) / 8 * 8 + 8) (.watchDeadline (sliceOf pa) s.ids)).Left t [u] ∧
        (∀ w, (t.wave w).masks = (s.wave w).masks) ∧
        t.thread u =
          { (s.thread u).stepped s.cur.pc with
            st := .watching, pc := s.cur.pc
            wdest := some { dest := d, wide := w, ps := ps, pc := s.cur.pc, va := BitVec.ofNat 64 va } })

/-- FPUSH, FPOP and BANKCFG on a bank of the bundle's workgroup (R274, R275, R283, R352, R353): the words of the active threads
join the FIFO, or leave it, in ascending lane order; a bank with another mode switches, one that switches already keeps the
request, and one that has the mode goes on. -/
def Obligations.BankEffects : Prop :=
  ∀ (s : State) (h : Hd) (d a lb pb : Nat) (w : Bool) (mode : BankMode),
    s.Bundled → s.active h ≠ [] → s.bankOf lb = some pb →
    let core := s.cur.core
    let B := s.bank core pb
    let ts := laneOrder (s.active h)
    let n := if w then 2 else 1
    let words := ts.flatMap fun u => if w then [s.rd u a, s.rd u (a + 1)] else [s.rd u a]
    (B.switching = none → B.mode = .fifo → B.waits = [] →
      (B.fifo.length + words.length ≤ 8192 → ∃ z, s.Issued z ∧
        exec (.fpush h a lb w) s = .next (z.modBank core pb fun b => { b with fifo := b.fifo ++ words })) ∧
      (s.Free h (dests w d) [] → n * ts.length ≤ B.fifo.length →
        Writes (s.modBank core pb fun b => { b with fifo := b.fifo.drop (n * ts.length) }) h (exec (.fpop h d lb w) s) fun u =>
          { regs := (List.range n).map fun i => (d + i, B.fifo.getD (n * ts.idxOf u + i) 0) })) ∧
    (∃ z, s.Issued z ∧
      (∀ m, B.switching = some m → exec (.bankcfg h lb mode) s =
        .next (z.modBank core pb fun b => { b with later := b.later ++ [(mode, s.bankWaiters core pb)] })) ∧
      (B.switching = none → B.mode = mode → exec (.bankcfg h lb mode) s = .next z) ∧
      (B.switching = none → B.mode ≠ mode → B.waits = [] → (B.mode ≠ .scratch ∨ ∀ e ∈ B.pend, e.2 = 0) →
        exec (.bankcfg h lb mode) s = .next
          { (z.modBank core pb fun b => { b with switching := some mode, waits := [] }).at (s.now + s.delays.headD 0)
              (.bankSwitchDone core pb) with delays := s.delays.tail }))

/-! Tile instructions -/

/-- TCFG, and the tile instructions that a bundle performs once, with the operands of its lowest active lane (R75, R204, R208, R211
to R216, R222): where the checks of R211 pass the operation enters tile order with what it read; else every active thread takes
the trap, and for check 9 of R59 every thread of the bundle. -/
def Obligations.TileEffects : Prop :=
  ∀ (s : State) (h : Hd) (n a b : Nat) (smem acc : Bool) (l : TId), s.Bundled → s.Lowest h l → s.TilesKept l.pid →
    let all : Hd := ⟨false, 0, 0⟩
    let once (i : Instr) (addr : DWord) (desc : List Word) : Prop :=
      ((s.tileView (s.cur.threads.headD default)).illegal i = true → s.CanTrap all → Traps s all (exec i s) fun _ => illegal9) ∧
      ((s.tileView (s.cur.threads.headD default)).illegal i = false →
        match (s.tileView l).check i addr desc with
        | none =>
          ((s.launchOf l).hdr.determ = true → s.tileOrderedAt l s.cur.pc i addr desc = false) →
            ∃ z t, s.Issued z ∧ exec i s = .next t ∧ s.Queued z t (s.tileOp l i addr desc [] s.ids)
        | some tr => s.CanTrap h → Traps s h (exec i s) fun _ => tr)
    once (.tld h n a smem) (s.rd64 l a) [] ∧
    once (.tldw h n a b smem) (s.rd64 l a) [s.rd l b, s.rd l (b + 1), s.rd l (b + 2), s.rd l (b + 3)] ∧
    once (.tst h a n smem) (s.rd64 l a) [] ∧
    once (.tzero h n acc) 0 [] ∧
    once (.taccsv h n a smem) (s.rd64 l a) [] ∧
    once (.taccld h n a) (s.rd64 l a) [] ∧
    ∀ w, (∀ u ∈ s.active h, u.w = w) →
      let A := s.alloc s.pid (s.wave w).wg
      (A.tc n).length = 4 →
      ∃ z t, s.Issued z ∧ exec (.tcfg h n a) s = .next t ∧ t = { z with parts := t.parts } ∧
        (∀ p, p ≠ s.pid → t.part p = z.part p) ∧
        t.part s.pid = { z.part s.pid with allocs := (t.part s.pid).allocs } ∧
        (∀ g, g ≠ (s.wave w).wg → t.alloc s.pid g = s.alloc s.pid g) ∧
        (let B := t.alloc s.pid (s.wave w).wg
         B = { A with tcs := B.tcs } ∧ (∀ m, m ≠ n → B.tc m = A.tc m) ∧ (B.tc n).length = 4 ∧
           ∀ i, i < 4 → (B.tc n).getD i 0 = if (⟨w, i⟩ : TId) ∈ s.active h then s.rd ⟨w, i⟩ a else (A.tc n).getD i 0)

/-- The matrix instructions (R205, R206, R208, R217 to R221) whose bundle holds every member of the mask on the partition: where
the checks of R211 pass, the leader's operation enters tile order, and a drain to registers opens a window in every
contributing thread; where one fails for all active threads, they take the trap. -/
def Obligations.MatrixEffects : Prop :=
  ∀ (s : State) (h : Hd) (d acc ta tb a k g : Nat) (sa sb smem : Bool) (f : OutFmt) (target : DrainTarget) (l : TId),
    s.Bundled → (∀ u ∈ s.cur.threads, (s.wave u.w).wg = g ∧ s.isMember u k = true ∧ (s.thread u).grant = false) →
    (∀ u ∈ s.required (.alloc s.pid g) k, u ∈ s.cur.threads) → (s.alloc s.pid g).sessions = [] →
    (∀ u ∈ s.cur.threads, (s.launchOf u).hdr.determ = false ∧ (s.ctxOf u).computing = false) →
    (l ∈ s.active h ∧ ∀ u ∈ s.active h, u ≠ l → l.w < u.w ∨ (l.w = u.w ∧ l.lane < u.lane)) → s.TilesKept s.pid →
    let matrix (i : Instr) (addr : TId → DWord) : Prop :=
      let dr := (s.matrixDests l i).filter (· != 255)
      ((∀ u ∈ s.cur.threads, s.drainRange u i = none) →
        (∀ u ∈ s.active h, (s.thread u).conflict (s.matrixDests l i) [] = none ∧ (s.tileView u).check i (addr u) [] = none) →
        ∃ z t, s.Issued z ∧ exec i s = .next t ∧
          s.Queued { z with waves := t.waves } t
            (s.tileOp l i (addr l) [] (if s.matrixDests l i = [] then [] else s.active h) (s.ids + 1)) ∧
          (∀ w, t.wave w = { z.wave w with threads := (t.wave w).threads }) ∧
          ∀ u, t.thread u = if u ∈ s.active h then (z.thread u).opened
              { windowOf s h ((s.thread u).stepped s.cur.pc) 0 dr [] {} with half := 0, ready := none, checked := true }
            else z.thread u) ∧
      ∀ tr : Trap, (∀ u ∈ s.cur.threads, s.drainRange u i = none) → (s.active h = s.cur.threads) → s.CanTrap h →
        (∀ u ∈ s.active h, (s.tileView u).check i (addr u) [] = some tr) → Traps s h (exec i s) fun _ => tr
    matrix (.tmma h acc ta tb k sa sb) (fun _ => 0) ∧ matrix (.tmmas h acc ta tb k sa sb) (fun _ => 0) ∧
    matrix (.trowsum h acc ta k sa) (fun _ => 0) ∧ matrix (.tcolsum h acc ta k sa) (fun _ => 0) ∧
    matrix (.tdrain h d acc a k f target) (fun u => if target = .registers then 0 else s.rd64 u a) ∧
    matrix (.tdraina h acc a k f smem) (fun u => s.rd64 u a)

/-- TPROF and TCHK (R171, R211, R216, R223): a load of a profile enters tile order and the context's loads, begins at once when
nothing is before it, and holds the bundle; TCHK gives the status, 0 where the last operation on it in tile order clears it, and
holds the bundle while a drain of the accumulator is in tile order. -/
def Obligations.HoldingEffects : Prop :=
  ∀ (s : State) (h : Hd) (a d acc : Nat) (l : TId), s.Bundled → s.Lowest h l →
    let tag := (s.wave l.w).tag
    let g := (s.wave l.w).wg
    let mine := (s.part l.pid).tileQ.filter fun o => o.wg == g
    let drains := mine.filter fun o => o.instr.isDrain && o.instr.matrixAcc? == some acc
    let clears (o : TileOp) : Prop := match o.instr with | .tzero _ n true | .taccld _ n _ => n = acc | _ => False
    let cleared : Prop := ∃ p o q, (mine.filter fun o => !(o.begun && !o.instr.isDrain)) = p ++ o :: q ∧ clears o ∧
      ∀ x ∈ q, (x.instr.isDrain && x.instr.matrixAcc? == some acc) = false
    let held (t : State) (b : Block) : Prop :=
      (∀ w, t.wave w = { s.wave w with threads := (t.wave w).threads }) ∧ (∀ u, u ∉ s.cur.threads → t.thread u = s.thread u) ∧
        ∀ u ∈ s.cur.threads, t.thread u =
          if u ∈ s.active h then { (s.thread u).stepped s.cur.pc with block := some b } else (s.thread u).stepped s.cur.pc
    ((s.rd64 l a).toNat % 64 = 0 → (s.ctxs.find? tag).isSome = true → (s.ctx tag).loads = [] →
      (∀ e ∈ s.parts, e.2.tileQ = []) → (∀ e ∈ s.wgs, e.2.imgTiles = []) → s.begunCmds = [] →
      ∃ t, exec (.tprof h a) s = .next t ∧
        t = { s with
          waves := t.waves, parts := t.parts, ctxs := t.ctxs, ids := s.ids + 1
          todo := .event (.profileCheck tag) :: .event (.tileOperationStart l.core (l.pid % 4) s.ids) :: s.todo } ∧
        held t .tprof ∧ (∀ p, p ≠ l.pid → t.part p = s.part p) ∧
        t.part l.pid = { s.part l.pid with
          tileQ := [s.tileOp l (.tprof h a) (s.rd64 l a) [] [] s.ids], allocs := (s.part l.pid).allocs.put g (s.alloc l.pid g) } ∧
        ∀ c, t.ctx c = if c = tag then
            { s.ctx tag with
              loads := [{ pid := l.pid, op := s.ids, addr := s.rd64 l a, since := s.now, begun := false, page := none, found := none }] }
          else s.ctx c) ∧
    ((s.tileView l).check (.tchk h d acc) 0 [] = none → s.Free h [d] [] →
      (drains = [] → ∃ n, (cleared → n = 0) ∧ (¬cleared → n = ((s.alloc l.pid g).acc acc).status) ∧
        Writes s h (exec (.tchk h d acc) s) fun _ => { regs := [(d, BitVec.ofNat 32 n)] }) ∧
      (drains ≠ [] → ∃ zero t, (zero = true ↔ cleared) ∧ exec (.tchk h d acc) s = .next t ∧ t = { s with waves := t.waves } ∧
        held t (.tchk acc d (drains.map (·.id)) zero)))

/-! The dual word -/

/-- A dual word (R55 to R58, R74, R110): each half where its own predicate is true, both on the values from before it. Short
results are written at once, long ones come 4 cycles on in windows that are closed; one half may load or store. -/
def Obligations.DualWordEffects : Prop :=
  ∀ (s : State) (x1 x2 : Half), s.Bundled → s.Free ⟨false, 0, 0⟩ (x1.writes ++ x2.writes) [] →
    let on (u : TId) (x : Half) : Bool := (s.thread u).pred x.pred
    let long (x : Half) : Bool :=
      match x.op with | .imul _ | .fadd _ | .fmul _ | .fmin | .fmax | .hadd2 _ | .hmul2 _ => true | _ => false
    let value (u : TId) (x : Half) : List (Nat × Word) :=
      x.writes.map fun d => (d, BitVec.ofNat 32 (HalfOp.value x.op (s.rd u x.dst).toNat (s.rd u x.src).toNat))
    let short (u : TId) (x : Half) : List (Nat × Word) := if on u x = true ∧ long x = false ∧ x.isMem = false then value u x else []
    let win (k n : Nat) (dr : List Nat) (regs : List (Nat × Word)) (th : Thread) : Thread :=
      th.opened { windowOf s ⟨false, 0, 0⟩ th (s.cycle + n) (dr.filter (· != 255)) [] { regs := regs } with half := k }
    let runs (t : State) : Prop :=
      s.Stays t ∧ ∀ u r, u.lane < 32 → t.rd u r =
        if u ∈ s.cur.threads ∧ r ≠ 255 then written (short u x1 ++ short u x2) r (s.rd u r) else s.rd u r
    (x1.isMem = false → x2.isMem = false →
      ∃ t, exec (.dualWord x1 x2) s = .next t ∧ s.Ran t ∧ t.delays = s.delays ∧ t.freeCtr = s.freeCtr ∧ t.ids = s.ids ∧ runs t ∧
        ∀ u ∈ s.cur.threads,
          let eff (k : Nat) (x : Half) (th : Thread) : Thread := if on u x = true ∧ long x = true then win k 4 x.writes (value u x) th else th
          t.thread u = { eff 2 x2 (eff 1 x1 ((s.thread u).stepped s.cur.pc)) with hand := (t.thread u).hand }) ∧
    ∀ (u : TId) (pa core bank at_ : Nat) (mt : MT), s.cur.threads = [u] → on u x1 = true → on u x2 = true → s.memOk = true →
      let eff (ld : Option (Nat × List (Nat × Word))) (k : Nat) (x : Half) (th : Thread) : Thread :=
        if x.isMem then
          match ld with
          | some (n, regs) => win k (n + s.delays.headD 0) (loadDests x.dst mt) regs th
          | none => th
        else if long x then win k 4 x.writes (value u x) th else th
      let after (t : State) (ld : Option (Nat × List (Nat × Word))) : Prop :=
        t.thread u = { eff ld 2 x2 (eff ld 1 x1 ((s.thread u).stepped s.cur.pc)) with
          hand := (t.thread u).hand, readRels := (t.thread u).readRels }
      let runs (t : State) (delays : List Nat) : Prop :=
        exec (.dualWord x1 x2) s = .next t ∧ runs t ∧ t.delays = delays ∧
          s.Accessed { t with waves := t.waves.map fun e => (e.1, { e.2 with regs := (s.wave e.1).regs }) } u false
      let m := if x1.isMem then x1 else x2
      (x1.isMem && x2.isMem) = false →
      (m.op = .ld mt → s.Reaches u .read (s.rd64 u m.src).toNat mt.bytes pa → (s.thread u).conflict (loadDests m.dst mt) [] = none →
        ∃ t, runs t s.delays.tail ∧ t.mem = s.mem ∧ after t (some (28, if m.dst = 255 then [] else loaded s.mem pa m.dst mt))) ∧
      (m.op = .st mt → s.Reaches u .write (s.rd64 u m.dst).toNat mt.bytes pa →
        ∃ t, runs t s.delays ∧ Memory.Puts s.mem t.mem pa mt.bytes (s.regByte u m.src) ∧ t.memOk = true ∧ after t none) ∧
      (m.op = .lds mt → s.Banked u (s.rd u m.src).toNat mt.bytes core bank at_ →
        (s.thread u).conflict (loadDests m.dst mt) [] = none →
        ∃ t, runs t s.delays.tail ∧ t.mem = s.mem ∧
          after t (some (8, if m.dst = 255 then [] else loaded (s.bank core bank).bytes at_ m.dst mt))) ∧
      (m.op = .sts mt → s.Banked u (s.rd u m.dst).toNat mt.bytes core bank at_ → Memory.wf (s.bank core bank).bytes = true →
        ∃ t, runs t s.delays ∧ t.mem = s.mem ∧
          Memory.Puts (s.bank core bank).bytes (t.bank core bank).bytes at_ mt.bytes (s.regByte u m.src) ∧ after t none)

/-! The steps of tile order -/

/-- What TZERO, the multiplications and the sums do to an allocation (R177 to R180, R215, R217, R218, R224): zeros, or in each
channel of the accumulator's group the residue of the old residue and the exact sum, after 6 channel cycles and one for each
column or row. -/
def Obligations.TileResults : Prop :=
  ∀ (s : State) (o : TileOp) (p : Profile) (h : Hd) (n acc ta tb k : Nat) (sa sb : Bool) (ca cb : List Word),
    let A := s.alloc o.t.pid o.wg
    let W := windowW p.grouping
    let x (i e : Nat) : Int := ((splitTile (A.tile ta) ca sa W).1.getD i []).getD e 0
    let y (j e : Nat) : Int := ((splitTile (A.tile tb) cb sb W).1.getD j []).getD e 0
    let total (m : Nat) (f : Nat → Int) : Int := ((List.range m).map f).sum
    let adds (cycles : Nat) (value : Nat → Nat → Option Int) : Prop :=
      ∃ z, s.runTile o = .ok (z, cycles) ∧ z = { s with parts := z.parts } ∧ (∀ q, q ≠ o.t.pid → z.part q = s.part q) ∧
        (∀ g, g ≠ o.wg → z.alloc o.t.pid g = s.alloc o.t.pid g) ∧
        (let B := z.alloc o.t.pid o.wg
         B = { A with accs := B.accs } ∧ (∀ m, m ≠ acc → B.acc m = A.acc m) ∧
           ∀ c e, (c, e) ∈ p.group (A.acc acc).group → ((A.acc acc).planes.get c (List.replicate 4096 0)).length = 4096 →
             ∀ i j, i < 64 → j < 64 →
               let old := ((A.acc acc).planes.get c (List.replicate 4096 0)).getD (64 * i + j) 0
               ((B.acc acc).planes.get c []).getD (64 * i + j) 0 =
                 match value i j with
                 | some v => (((old : Int) + v) % (e.mod : Int)).toNat
                 | none => old % e.mod)
    (o.instr = .tzero h n false → ∃ z, s.runTile o = .ok (z, 1) ∧ z = { s with parts := z.parts } ∧
      (∀ m, (z.alloc o.t.pid o.wg).tile m = if m = n then List.replicate 8192 0 else A.tile m) ∧
      ∀ m, (z.alloc o.t.pid o.wg).acc m = A.acc m) ∧
    (o.instr = .tzero h n true → ∃ z, s.runTile o = .ok (z, 1) ∧ z = { s with parts := z.parts } ∧
      (∀ m, (z.alloc o.t.pid o.wg).tile m = A.tile m) ∧
      ∀ m, (z.alloc o.t.pid o.wg).acc m = if m = n then { A.acc n with planes := [], flags := 0, status := 0 } else A.acc m) ∧
    (o.prof = some p → o.tcs = [ca, cb] → tcRows ca ≤ 64 → tcRows cb ≤ 64 →
      (o.instr = .tmma h acc ta tb k sa sb ∨ o.instr = .tmmas h acc ta tb k sa sb) → tcCols ca = tcCols cb →
      adds (6 + tcCols ca) fun i j =>
        if i < tcRows ca ∧ j < tcRows cb then some (total (tcCols ca) fun e => x i e * y j e) else none) ∧
    (o.prof = some p → o.tcs = [ca] → tcRows ca ≤ 64 → tcCols ca ≤ 64 →
      (o.instr = .trowsum h acc ta k sa →
        adds (6 + tcCols ca) fun i j => if i < tcRows ca ∧ j = 0 then some (total (tcCols ca) fun e => x i e) else none) ∧
      (o.instr = .tcolsum h acc ta k sa →
        adds (6 + tcRows ca) fun i j => if i = 0 ∧ j < tcCols ca then some (total (tcRows ca) fun e => x e j) else none))

/-- The steps of tile order (R171, R192, R193, R202, R208, R220, R224): an operation that nothing holds starts and ends after its
channel cycles; TACCLD's header configures its accumulator or invalidates it; a drain writes CONTAIN, the status, and its
counters, and its results come to the receivers; an operation that ends leaves, and the others are tried.
The steps of a profile's load (R170, R171): a descriptor that passes the checks is loaded 1.6 µs later, GEN rises, and the
bundle of the TPROF goes on. -/
def Obligations.TileSteps : Prop :=
  (∀ (s : State) (core part op : Nat) (o : TileOp) (pre post : List TileOp),
      let pid := core * 4 + part
      part < 4 → (s.part pid).tileQ = pre ++ o :: post → o.id = op → (∀ e ∈ pre, e.id ≠ op) → (∀ e ∈ post, e.id ≠ op) →
      let becomes (z : State) (f : TileOp → TileOp) : Prop :=
        (z.part pid).tileQ = pre ++ f o :: post
      let quiet (z : State) : Prop := z.parkedOn (fun q => q == Park.tile op) = []
      (s.TilesKept pid → o.begun = false → o.header = false → o.isProf = false → s.tileStopped o = false →
        (∀ e ∈ pre, TileOp.after e o = false) → s.upsets = [] → ∀ z n r, s.runTile o = .ok (z, n) → (z.part pid).tileQ = pre ++ r :: post → r.id = op → quiet z →
        let time := z.now + 8 * (if z.courseHot pid then 2 * n else n) + z.delays.headD 0
        let z' := if o.instr.isDrain then z.at time (.drainComplete core part op) else z
        ∃ t, exec (.tileOperationStart core part op) s = .next t ∧ becomes t (fun _ => { r with st := .started }) ∧
          t = { z'.at time (.tileOperationComplete core part op) with parts := t.parts, delays := z.delays.tail } ∧
          t.part pid = { z.part pid with tileQ := (t.part pid).tileQ } ∧ ∀ q, q ≠ pid → t.part q = z.part q) ∧
      (∀ h acc a, s.TilesKept pid → o.instr = .taccld h acc a → o.t.pid = pid → o.header = true → s.tileStopped o = false →
        (∀ e ∈ pre, (e.isProf || e.memAfter o) = false) → s.tileJudge o false false [(o.addr.toNat, 64)] = .ok () →
        let got := s.tileGet o false o.addr.toNat 64
        let z := got.2
        let c := z.ctxOf o.t
        let k := (z.launch (z.wg o.wg).launch).hdr
        let image := accOfHeader got.1 acc k.tiles k.accs c.gen.toNat c.prof
        let old := (z.alloc pid o.wg).acc acc
        z.parts = s.parts →
        ∃ t, exec (.taccldHeader core part op) s = .next t ∧
          t = { z with parts := t.parts, todo := .event (.tileOperationStart core part op) :: z.todo } ∧
          becomes t (fun o => { o with
            header := false, accs := (image.map (·.1)).toList, desc := [BitVec.ofNat 32 ((image.map (·.2)).getD 0)] }) ∧
          (t.alloc pid o.wg).acc acc = match image with
            | none => { old with valid := false }
            | some (y, 0) => ({ y with planes := old.planes, flags := old.flags, status := old.status } : Acc).cleared c.gen.toNat c.prof
            | some (y, _) => { y with planes := old.planes, flags := old.flags, status := old.status }) ∧
      ((∀ e ∈ s.ctxs, e.2.loads = []) →
        ∃ t, exec (.tileOperationComplete core part op) s = .next t ∧
          t = { s with
            parts := t.parts
            todo := ((pre ++ post).filter fun o => !o.begun && !o.isProf).map (fun o => Todo.event
              (if o.header then .taccldHeader core part o.id else .tileOperationStart core part o.id)) ++ s.todo } ∧
          t.part pid = { s.part pid with tileQ := pre ++ post } ∧ ∀ q, q ≠ pid → t.part q = s.part q) ∧
      ∀ contain status fixed acc, o.result = some (contain, status, fixed) → o.instr.matrixAcc? = some acc →
        (fixed = [] ∨ s.errcfg.toNat % 2 ^ 24 = 0) →
        (∀ e ∈ s.waves, ∀ th ∈ e.2.threads, th.block = none) →
        (∀ u ∈ o.recvs, s.seated u = true ∧ ∀ x ∈ (s.thread u).windows, ∀ v ∈ x.regs, (s.wave u.w).shape v.1 = .general) →
        ∃ t, exec (.drainComplete core part op) s = .next t ∧ t = { s with waves := t.waves, parts := t.parts } ∧
          (t.part pid).contain = contain ∧ (t.part pid).tileQ = (s.part pid).tileQ ∧ (∀ q, q ≠ pid → t.part q = s.part q) ∧
          (∀ m, (t.alloc pid o.wg).acc m =
            if m = acc then { (s.alloc pid o.wg).acc acc with status := status } else (s.alloc pid o.wg).acc m) ∧
          (∀ ch, let old := ((s.part pid).chkcnt.get ch 0).toNat
            ((t.part pid).chkcnt.get ch 0).toNat = if ch ∈ fixed then min (old + fixed.count ch) 0xFFFFFF else old) ∧
          (∀ w, t.wave w = { s.wave w with threads := (t.wave w).threads }) ∧
          ∀ u, t.thread u = if u ∈ o.recvs then
              { s.thread u with windows := (s.thread u).windows.map fun x =>
                if x.pc = o.pc ∧ x.ready = none then
                  { x with ready := some (max (s.cycOf u + 1) (o.cycle + 40)), checked := true, shapeFail := none }
                else x }
            else s.thread u) ∧
  (∀ (s : State) (tag : Nat) (l : ProfLoad) (o : TileOp) (p : Profile),
      (s.ctxs.find? tag).isSome = true → (s.part l.pid).tileQ = [o] → o.id = l.op →
      let after (x : TileOp) : Prop := (s.launch (s.wg x.wg).launch).tag = tag → x.isProf = true ∨ l.since ≤ x.time
      ((∀ ls, (s.ctx tag).loads = l :: ls → l.begun = false → l.page = none →
        (∀ e ∈ s.parts, ∀ x ∈ e.2.tileQ, after x) → (∀ e ∈ s.wgs, ∀ x ∈ e.2.imgTiles, after x.2) →
        (∀ c ∈ s.begunCmds, c.engine = 1 → c.issuer.tag = tag → ∀ b, c.began = some b → l.since ≤ b.time) → s.tileJudge o false false [(l.addr.toNat, 64)] = .ok () →
        let got := s.tileGet o false l.addr.toNat 64
        let z := got.2
        z.ctxs = s.ctxs → checkProfile got.1 z.mapout = .ok p →
        ∃ t, exec (.profileCheck tag) s = .next t ∧
          t = { z.at (z.now + 32000) (.profileReady tag) with ctxs := t.ctxs } ∧
          ∀ c, t.ctx c = if c = tag then
              { s.ctx tag with loads := { l with begun := true, page := none, found := some p } :: ls }
            else s.ctx c)) ∧
      ((s.ctx tag).loads = [l] → l.found = some p → (∀ e ∈ s.parts, ∀ a ∈ e.2.allocs, a.2.sessions = []) →
        (∀ c q, s.queue c q = []) → (∀ e ∈ (s.part o.t.pid).bins, ∀ u ∈ e.2.threads, s.seated u = true ∧ (s.thread u).trapQ = none) →
        ∃ t, exec (.profileReady tag) s = .next t ∧
          (∀ c, t.ctx c = if c = tag then { s.ctx tag with prof := some p, gen := (s.ctx tag).gen + 1, loads := [] } else s.ctx c) ∧
          (t.part l.pid).tileQ = [] ∧ t.mem = s.mem ∧ t.cores = s.cores ∧
          ∀ u, t.thread u = if u ∈ s.profBundle o.t then { s.thread u with block := none } else s.thread u))

/-! The core cycle -/

/-- CORE_CYCLE in its four parts, on a core with no wave, no queued command and no error to find but for the bundle named
(R19, R22, R25, R26, R28 to R31, R33, R34, R236): the cycle that ends is counted by its class and the clock takes what waits for
the boundary; the only ready bundle sets the run class and issues; the length is that of the highest class in the stages. -/
def Obligations.CycleSteps : Prop :=
  ∀ (s : State) (core : Nat), s.upsets = [] → (∀ e ∈ s.ctxs, e.2.fqwait = []) →
    let C := s.core core
    let again : List Todo := .event (.coreCycle core) :: s.todo
    let idle := (∀ e ∈ s.waves, coreOf e.1 ≠ core) ∧ (∀ e ∈ C.queues, e.2 = []) ∧
      ∀ k, k < 4 → (s.part (core * 4 + k)).bins = [] ∧ (s.part (core * 4 + k)).queue = [] ∧ (s.part (core * 4 + k)).filings = [] ∧
        ∀ e ∈ (s.part (core * 4 + k)).allocs, e.2.sessions = []
    let becomes (f : Core) (todo : List Todo) : Prop :=
      exec (.coreCycle core) s = .next { s.setCore core f with todo := todo }
    let length (m : Nat) : Nat :=
      max 6 ((C.steps.getD m 0 : Int) + C.trim).toNat + if C.droop = .stretch then C.drpSsteps else 0
    let runs (t : State) (run runLen : Nat) : Prop :=
      ∃ m, (∀ k, k < 4 → ∀ x ∈ (t.part (core * 4 + k)).stages, x.getD 0 ≤ m) ∧
        (m = 0 ∨ ∃ k, k < 4 ∧ some m ∈ (t.part (core * 4 + k)).stages) ∧
        t.core core =
          { C with run := run, runLen := runLen, phase := 1, cmax := m, start := s.now, len := length m
                   stretched := decide (C.droop = .stretch) }
    let shifted (t : State) (k : Nat) : Prop :=
      t.part k = if (s.parts.find? k).isSome then
          { s.part k with stages := (s.part k).issued :: (s.part k).stages.take 3, issued := none }
        else s.part k
    let used (k : Nat) : List Todo := if s.waves.any (fun e => pidOf e.1 == core * 4 + k) then [.event (.longLatencyCommit core k)] else []
    (idle → C.phase = 1 → C.alarmAt = none → becomes { C with phase := 2 }
      ((if C.droop = .stretch ∧ C.stretched = true then [.event (.stretchEnd core)]
        else if C.droop = .half then [.event (.halfEnd core)] else []) ++ again)) ∧
    (idle → C.phase ≠ 1 → C.phase ≠ 3 → C.phase ≠ 4 → ∃ t, exec (.coreCycle core) s = .next t ∧
      t = { s with cores := t.cores, parts := t.parts, todo := again } ∧ (∀ k, t.part k = s.part k) ∧
      (∀ c, c ≠ core → t.core c = s.core c) ∧
      t.core core = { C with
        cyc := if C.phase = 2 then C.cyc + 1 else C.cyc
        cls := if C.phase = 2 then C.cls.set C.cmax (C.cls.getD C.cmax 0 + 1) else C.cls
        steps := C.newSteps.getD C.steps, newSteps := none, trim := C.newTrim.getD C.trim, newTrim := none
        alarmAt := none, forced := none
        droop := if C.drpcfg.getLsbD 31 = true ∧ C.drpoff = false then C.droop else .normal, drpoff := false, phase := 3 }) ∧
    (idle → C.phase = 3 → becomes { C with phase := 4 } again) ∧
    (C.phase = 4 → C.forced = none → s.cands core = [] → ∃ t, exec (.coreCycle core) s = .next t ∧
      t = { s with cores := t.cores, parts := t.parts, todo := t.todo } ∧ t.todo = (List.range 4).flatMap used ++ s.todo ∧
      runs t C.run (C.runLen + 1) ∧ (∀ c, c ≠ core → t.core c = s.core c) ∧ (∀ k, k < 4 → shifted t (core * 4 + k))) ∧
    ∀ k n cls age, C.phase = 4 → C.forced = none → k < 4 → cls < 4 → s.cands core = [⟨k, n, some cls, age⟩] → s.mayIssue core k = true →
      (∀ u ∈ ((s.part (core * 4 + k)).bins.get n {}).threads, u.w ∈ (s.part (core * 4 + k)).active) →
      ∃ t, exec (.coreCycle core) s = .next t ∧ t = { s with cores := t.cores, parts := t.parts, todo := t.todo } ∧
        t.todo = (List.range 4).flatMap (fun j => (if j = k then [.issue core k n] else []) ++ used j) ++ s.todo ∧
        runs t cls (if cls = C.run then C.runLen + 1 else 1) ∧ (∀ c, c ≠ core → t.core c = s.core c) ∧
        ∀ j, j < 4 → shifted t (core * 4 + j)

/-- The steps of a cycle that stand alone, and the writes of registers (R15, R30, R33, R35 to R37, R235, R237, R327, R448): what
each does where its condition holds, and nothing where it does not. -/
def Obligations.ClockSteps : Prop :=
  ∀ (s : State) (core part bin k n age mv0 mv1 mv2 mv3 tag : Nat) (cls : Option Nat) (v : Word),
    let C := s.core core
    let pid := core * 4 + part
    let P := s.part pid
    let B := P.bins.get bin {}
    let cyc := C.cyc.toNat
    let low := min (min mv0 mv1) (min mv2 mv3)
    let deep := s.setpoint core - low
    let enabled := C.drpcfg.getLsbD 31
    let alarm := enabled = true ∧ max 1 (C.drpcfg.toNat % 256) ≤ deep
    let deepest := max C.deepest (min deep 255)
    (s.cands core = [⟨k, n, cls, age⟩] → exec (.bundleAgeOverride core) s = .next (if 64 ≤ age then
      s.setCore core { C with
        forced := some (k, n), run := cls.getD C.run, runLen := if cls.getD C.run = C.run then C.runLen + 1 else 1 }
      else s)) ∧
    exec (.binAgeForm core part bin) s =
      .next (if B.st = .filling ∧ 17 ≤ cyc - B.filed then
        s.setPart pid { P with bins := P.bins.upd bin fun b => if b.st == .filling then { b with st := .bundle } else b } else s) ∧
    (P.held = [] → (∀ b, b < 16 → (P.bins.get b {}).st ≠ .filling) → ∀ u since rest, P.queue = (u, since) :: rest →
      exec (.filingEviction core part) s = .next (if 64 ≤ cyc - since then
        s.setPart pid { P with bins := P.bins.map fun e => (e.1, if e.2.st == .bundle then { e.2 with evict := true } else e.2) }
      else s)) ∧
    (exec (.droopAlarm core mv0 mv1 mv2 mv3) s = .next (
      if s.now % 8 ≠ 0 then s.at ((s.now + 7) / 8 * 8) (.droopAlarm core mv0 mv1 mv2 mv3)
      else if 2 ≤ s.mg.power ∨ (C.phase = 0 ∧ s.now < C.start) then s
      else if C.gated = false ∧ s.fatal = false ∧ C.start + C.len ≤ s.now then
        { s with todo := .event (.coreCycle core) :: .event (.droopAlarm core mv0 mv1 mv2 mv3) :: s.todo }
      else if alarm then
        let t := s.setCore core { C with
          deepest := deepest, alarms := min (C.alarms + 1) 65535, droop := .stretch, dcount := C.drpcfg.toNat / 2 ^ 8 % 16
          drprun := C.drpcfg, drpoff := false, alarmAt := some s.now }
        if C.droop = .normal then t.event .droop 0 0 core (bytesOfWord 2 (low % 65536)) else t
      else if enabled = true then s.setCore core { C with deepest := deepest }
      else s.setCore core C)) ∧
    (C.droop = .stretch → exec (.stretchEnd core) s = .next (s.setCore core
      (if 1 < C.dcount then { C with dcount := C.dcount - 1 }
       else { C with droop := .half, hcount := C.drprun.toNat / 2 ^ 16 % 2 ^ 12, hnum := 0 }))) ∧
    (C.droop = .half → exec (.halfEnd core) s = .next (s.setCore core
      (if 1 < C.hcount then { C with hcount := C.hcount - 1, hnum := C.hnum + 1 } else { C with droop := .normal }))) ∧
    exec (.drpcfgWrite core v) s =
      .next (s.setCore core { C with drpcfg := v &&& 0x8FFFFFFF, drpoff := C.drpoff || !v.getLsbD 31 }) ∧
    exec (.drpstatClr core) s = .next (s.setCore core { C with deepest := 0, alarms := 0 }) ∧
    exec (.wtstatClr tag) s = .next (s.modCtx tag fun c => { c with wtfull := 0 })

/-- Writes of 8-byte registers by the host (R15, R193, R454, R478, R479): each bit by its access code, none on a device that has
met a device-fatal error; a write of CWCMD starts its command, which is BUSY for as long as the environment chooses, and is ignored
but for OVERRUN while one runs; MSI-X vector 0 reports one that does not exist, at once by the model's choice (log 58). -/
def Obligations.RegisterSteps : Prop :=
  ∀ (s : State) (core part n k : Nat) (v : DWord),
    let write (reg : Nat) : Host.Outcome State Fault Refusal := exec (.registerWrite core part reg v true) s
    let tag := v.toNat / 2 ^ 48 % 256
    let arg := s.cwarg.toNat % 2 ^ 56
    let starts (i : Instr) : State := { s with todo := .event i :: s.todo }
    let wait := s.delays.headD 0
    let runs (i : Instr) : State :=
      let z : State := { s with delays := s.delays.tail, cwrun := some ⟨s.now + wait, i⟩ }
      if wait = 0 then { z with todo := .event i :: s.todo } else { z with agenda := insertDue ⟨s.now + wait, i⟩ s.agenda }
    (s.fatal = true → ∀ reg, write reg = .next s) ∧
    (s.fatal = false →
      write 0x42 = .next (s.modCore core fun c =>
        { c with drpcfg := BitVec.ofNat 32 v.toNat &&& 0x8FFFFFFF, drpoff := c.drpoff || !v.getLsbD 31 }) ∧
      write 0x44 = .next (s.modCore core fun c => { c with xlcfg := BitVec.ofNat 32 (v.toNat % 2 ^ 16) }) ∧
      (n < 12 → write (0x50 + n) = .next (s.modPart (core * 4 + part) fun p =>
        { p with chkcnt := p.chkcnt.put n (BitVec.ofNat 32 (v.toNat % 2 ^ 24)) })) ∧
      (v.toNat / 2 ^ 48 % 256 = s.errcfg.toNat / 2 ^ 48 % 256 → write 0x2000 = .next { s with errcfg := v &&& 0x00FF000000FFFFFF }) ∧
      write 0x2008 = .next (if v.getLsbD 32 then starts .errsumClr else s) ∧
      write 0x80008 = .next { s with cwarg := v } ∧
      (k < 4 → write (0x80020 + 8 * k) = .next { s with fqpend := s.fqpend &&& ~~~ BitVec.ofNat 256 (v.toNat * 2 ^ (64 * k)) }) ∧
      (s.mg.recovery = true → write 0x80000 = .next s) ∧
      (s.mg.recovery = false → s.cwrun ≠ none → write 0x80000 = .next { s with cwover := true }) ∧
      (s.mg.recovery = false → s.cwrun = none → write 0x80000 = .next (match v.toNat / 2 ^ 56 with
        | 1 => runs (.create s.cwarg.toNat)
        | 2 => runs (.destroy tag)
        | 3 => runs (.regroot tag arg)
        | 4 => runs (.preempt tag arg (v.toNat % 2 ^ 32))
        | 5 => runs (.kill tag arg)
        | _ => s.cwEnds 4 tag))) ∧
    exec (.cwcmdBadarg v) s = .next (s.cwEnds 4 tag) ∧
    exec .errsumClr s = .next { s with ued := 0, uec := 0, ce := 0 }

/-- LONG_LATENCY_COMMIT (R51, R53, R266, R510): the result of a closed window that has arrived goes to the registers and the
predicates of its thread, and the window goes; nothing else changes. -/
def Obligations.CommitSteps : Prop :=
  ∀ (s : State) (core part : Nat) (u : TId) (x : Window),
    let pid := core * 4 + part
    s.dueCommits pid (s.core core).cyc.toNat = [⟨u, x⟩] → s.seated u = true → (s.thread u).hand = none →
    x.fail = none → x.shapeFail = none → (∀ v ∈ x.regs, (s.wave u.w).shape v.1 = .general) → (s.part pid).unionFail = [] →
    (∀ e ∈ s.waves, ∀ th ∈ e.2.threads, th.trapQ = none ∧ ∀ y ∈ th.windows, y.pend = none) →
    ∃ t, exec (.longLatencyCommit core part) s = .next t ∧ t = { s with waves := t.waves, parts := t.parts } ∧
      (∀ p, t.part p = s.part p) ∧
      (∀ w, t.wave w = { s.wave w with regs := (t.wave w).regs, threads := (t.wave w).threads }) ∧
      (∀ v, v ≠ u → t.thread v = s.thread v) ∧
      t.thread u = { s.thread u with windows := (s.thread u).windows.filter (·.seq != x.seq), preds := (t.thread u).preds } ∧
      (∀ p, p < 8 → (t.thread u).pred p = if p ≠ 0 then written x.preds.reverse p ((s.thread u).pred p) else (s.thread u).pred p) ∧
      ∀ v r, v.lane < 32 → t.rd v r = if v = u ∧ r ≠ 255 then written x.regs r (s.rd v r) else s.rd v r

/-! The ends of waits -/

/-- Timeouts (R146, R242, R348): a session's signers trap and it is withdrawn; a thread goes on from WAITM, or past its BAR,
with its predicate false. -/
def Obligations.TimeoutSteps : Prop :=
  ∀ (s : State) (core part slot lane id : Nat), part < 4 → slot < 24 →
    let u : TId := ⟨(core * 4 + part) * 24 + slot, lane⟩
    (s.seated u = true → (s.wave u.w).halted = false →
      (∀ m, (s.thread u).mwait = some m → ∃ t, exec (.waitmTimeout core part slot lane) s = .next t ∧
        s.Resumes t u fun th => { th.setPred m.p false with mwait := none }) ∧
      ((s.thread u).mwait = none → exec (.waitmTimeout core part slot lane) s = .next s) ∧
      (∀ b x, (s.thread u).st = .barrier b → (s.thread u).bwait = some x →
        ∃ t, exec (.barrierRetryTimeout core part slot lane) s = .next t ∧
          s.Resumes t u fun th => { th.setPred x.pr false with bwait := none, pc := th.pc + 8 })) ∧
    ∀ (w : Nat) (x : Session), s.findSession (core * 4 + part) id = some (.wave w, x) → x.held = false →
      (x.signers.map (·.t)).Nodup →
      (∀ g ∈ x.signers, s.seated g.t = true ∧ (s.ctxOf g.t).handler ≠ 0 ∧ (s.thread g.t).hand = none ∧
        (s.thread g.t).windows = [] ∧ (s.thread g.t).trapQ = none) →
      ∃ t, exec (.signTimeout core part id) s = .next t ∧
        t = { s with waves := t.waves, parts := t.parts, freeCtr := t.freeCtr, cur := { core := core, part := part } } ∧
        (∀ v, t.wave v = { s.wave v with threads := (t.wave v).threads, sessions := (t.wave v).sessions }) ∧
        (∀ v, (t.wave v).sessions = if v = w then (s.wave w).sessions.filter (·.id != id) else (s.wave v).sessions) ∧
        (∀ g ∈ x.signers, Thread.Entered (s.thread g.t) (t.thread g.t) g.t.lane (.general .signTimeout (reg := x.k)) x.pc
          (BitVec.ofNat 64 (s.ctxOf g.t).handler)) ∧
        ∀ v, (∀ g ∈ x.signers, g.t ≠ v) → t.thread v = s.thread v

/-- The steps of watch entries (R310, R314, R318, R319, R320, R322, R324, R326): a deadline fires an entry with the watched value;
a fired entry gives its thread the value and the status, and is free; a scheduler watch that waited is armed in a reserved
entry. -/
def Obligations.WatchSteps : Prop :=
  ∀ (s : State) (slice n : Nat) (e : Watch),
    let due (old new : Watch) (mem : Memory) (dirty : Tab DirtyLine) : State :=
      { ({ s with mem := mem, dirty := dirty
                  watches := s.watches.map fun (x : Watch) => if x.id == old.id then new else x } : State).at
          (s.now + min (s.delays.headD 0) 800) old.wake with delays := s.delays.tail }
    let place := (s.ctx e.waiter.tag).wspill + 32 * n
    let fired : Watch := { e with st := .deadline (BitVec.ofNat 64 (littleEndian s.mem e.pa (if e.wide then 8 else 4))) none }
    ((∀ l, (s.launch l).hdr.determ = false) → e.chk = false →
      (s.watches.find? (·.id == n) = some e → e.st = .armed → e.spill = none →
        exec (.watchDeadline slice n) s = .next (due e fired s.mem s.dirty)) ∧
      ((s.watches.filter fun e => e.slice == slice && e.spill.isSome) = [e] → e.spill = some n → s.entryNow e = some e →
        e.st = .armed → (∃ d, e.deadline = some d ∧ d < s.now) → s.upsets = [] → s.poison = [] →
        (∀ x ∈ s.watches, x.pa / 128 ∉ linesOf place 32) →
        exec (.spillDeadlineScan slice) s =
          .next (due e fired (s.mem.write place fired.image) (s.markDirty place 32 e.waiter.tag).dirty))) ∧
    (∀ tag wid lanes w i d x (ok : Bool), s.watches.find? (·.id == n) = some e → e.waiter = .wave tag wid lanes →
      s.waveOf tag wid = some w → (∀ j, j < 32 → lanes.getLsbD j = decide (j = i)) → s.seated ⟨w, i⟩ = true →
      (s.wave w).halted = false → e.spill = none → s.arming = [] → e.snaps = [] → e.chk = false →
      e.st = (if ok then .satisfied x else .deadline x none) →
      let u : TId := ⟨w, i⟩
      (s.thread u).st = .watching → (s.thread u).wdest = some d → (s.thread u).hand = none → (s.thread u).readRels = [] →
      (∀ r ∈ dests d.wide d.dest, (s.wave w).shape r = .general) →
      ∃ t, exec (.watchWake slice n) s = .next t ∧
        t = { s with waves := t.waves, parts := t.parts, watches := s.watches.filter (·.id != n) } ∧
        (∀ v, v ≠ u → t.thread v = s.thread v) ∧
        t.thread u = { s.thread u with st := .ready, pc := d.pc + 8, wdest := none, preds := (t.thread u).preds } ∧
        (∀ p, p < 8 → (t.thread u).pred p = if p = d.ps ∧ p ≠ 0 then ok else (s.thread u).pred p) ∧
        (∀ v r, v.lane < 32 →
          t.rd v r = if v = u ∧ r ≠ 255 then written (putNum d.wide d.dest x.toNat) r (s.rd v r) else s.rd v r) ∧
        t.part u.pid = { s.part u.pid with filings := (s.part u.pid).filings ++ [⟨u, 3, (s.core u.core).cyc.toNat⟩] }) ∧
    (s.arming = [] → exec .schedulerWatchArm s = .next s) ∧
    (s.arming = [e] → (∀ t r, e.waiter ≠ .region t r) → e.spill = none → e.deadline = none →
      CM.holds e.cm e.wide (BitVec.ofNat 64 (littleEndian s.mem e.pa (if e.wide then 8 else 4))) e.y = false →
      (s.watches.filter fun x => x.slice == sliceOf e.pa && x.spill.isNone && x.reserved == true).length < 16 →
      exec .schedulerWatchArm s = .next { s with
        watches := s.watches ++ [{ e with slice := sliceOf e.pa }], arming := []
        cores := s.cores.map fun c => (c.1, { c.2 with dlines := c.2.dlines.del (e.pa / 128) }) })

/-- FAULT_RESPONSE where one thread waits to fetch, and SCHEDULER_WATCH of a region without records (R397, R400, R445): the page is
no more awaited and the thread goes on; the region has consumed the value, and an admission choice follows. -/
def Obligations.ResponseSteps : Prop :=
  ∀ (s : State) (tag n : Nat),
    (∀ (p : FaultPage) (u : TId) (a : Access),
      (∀ e ∈ s.watches, e.waiter ≠ .faultEntry tag n) → (s.ctx tag).pages.find? (fun p => p.entry == some n) = some p →
      littleEndian s.mem ((s.ctx tag).fqbase + 32 * (n % (s.ctx tag).fqn) + 24) 1 ≠ 2 → s.pageWaiters tag p.page = [u] →
      s.seated u = true → (s.wave u.w).halted = false → (s.thread u).pend = some a → a.kind = .fetch →
      (∀ e ∈ s.wgs, e.2.image = [] ∧ e.2.imgTiles = []) → (∀ e ∈ s.parts, e.2.tileQ = []) →
      (∀ e ∈ s.cores, e.2.qhold = []) → (∀ c q, s.queue c q = []) → (∀ e ∈ s.ctxs, e.2.loads = [] ∧ e.2.fqwait = []) →
      ∃ t, exec (.faultResponse tag n) s = .next t ∧
        (s.modCtx tag fun c => { c with pages := c.pages.filter fun q => q.page != p.page }).Resumes t u fun th =>
          { th with pend := none }) ∧
    ∀ (e : Watch) (x : DWord) (old r : Region) (z : State),
      s.watches.find? (fun e => e.waiter == .region tag n && e.st != .armed) = some e → e.st = .satisfied x → e.spill = none →
      s.arming = [] → (s.ctx tag).regions.find? n = some old → s.upsets = [] → s.poison = [] →
      ({ s with watches := s.watches.filter (·.id != e.id) }.modRegion tag n fun r => { r with watched := false, held := false }).readRegion
        tag n old.parent = (0, z) →
      (z.ctx tag).regions = [(n, r)] → r.parent ≠ n → r.child = 0 → r.cursor = 0 → r.lqhead = 0 → r.st < 2 →
      ∃ t q, exec (.schedulerWatch tag n) s = .next t ∧ (t.ctx tag).regions.find? n = some q ∧ q.consumed = x ∧ q.cursor = 0 ∧
        q.queue = r.queue ∧ (∃ d ∈ t.agenda, d = ⟨s.now, .admission⟩) ∧ t.waves = s.waves ∧ t.launches = s.launches

/-! Banks, the engine window and the engines -/

/-- LINE_LANDED, BANK_SWITCH_DONE, ECMD_STORE and EGO (R274, R280, R355 to R359): what becomes of a line's count, of a bank that
nothing waits for, of a command word, and of a command that is refused or joins a busy queue with its release. -/
def Obligations.DataSteps : Prop :=
  ∀ (s : State) (core bank line part slot n : Nat) (v : DWord),
    let B := s.bank core bank
    let count := B.pend.get line 0 - 1
    let quiet := s.parkedOn (fun _ => true) = [] ∧ ∀ e ∈ s.parts, e.2.tileQ = []
    (count ≠ 0 → exec (.lineLanded core bank line) s = .next (s.modBank core bank fun b => { b with pend := b.pend.put line count })) ∧
    (count = 0 → quiet → B.switching = none →
      exec (.lineLanded core bank line) s = .next (s.modBank core bank fun b => { b with pend := b.pend.del line })) ∧
    (∀ m, B.switching = some m → (B.mode ≠ .scratch ∨ ∀ e ∈ B.pend, e.2 = 0) → quiet → B.waits = [] → B.later = [] →
      ∃ t, exec (.bankSwitchDone core bank) s = .next t ∧ t = { s with cores := t.cores } ∧
        (∀ c b, (c, b) ≠ (core, bank) → t.bank c b = s.bank c b) ∧
        t.bank core bank = { B with mode := m, bytes := [], pend := [], fifo := [], switching := none }) ∧
    (part < 4 → slot < 24 →
      let w := core * 96 + part * 24 + slot
      let x := (s.wave w).ewin
      exec (.ecmdStore core part slot n v) s = .next (s.modWave w fun x => { x with
        ewin := { x.ewin with ecmd := x.ewin.ecmd.set n v, written := setBit x.ewin.written n true } }) ∧
      ∀ lane, (s.waves.find? w).isSome = true → (s.thread ⟨w, lane⟩).pend = none →
        let go := exec (.ego core part slot lane v) s
        let ends (code : Nat) : State := s.modWave w fun x => { x with ewin := { x.ewin with last := code, written := 0 } }
        let valid := v.toNat / 2 ^ 8 = 0 ∧ v.getLsbD 3 = false ∧ v.toNat / 16 < 5
        let c := s.egoCmd ⟨w, lane⟩ v x.ecmd (x.seq + 1)
        let q := v.toNat % 8
        (x.written ≠ 15 → go = .next (ends 2)) ∧ (x.written = 15 → ¬valid → go = .next (ends 3)) ∧
        (x.written = 15 → valid → isAperture c.a1 = false → (s.core core).wcb = [] →
          (∃ c es, s.queue core q = .cmd c :: es ∧ c.begun = true) → (∀ k, k < 8 → k ≠ q → s.queue core k = []) →
          ∃ t, go = .next t ∧ t = { s with waves := t.waves, wgs := t.wgs, cores := t.cores } ∧
            (∀ k, t.wave k = if k = w then
                { s.wave w with epoch := (s.wave w).epoch + 1, ewin := { x with last := 1, written := 0, seq := x.seq + 1 } }
              else s.wave k) ∧
            (∀ g, (s.wgs.find? g).isSome = true →
              t.wg g = if g = (s.wave w).wg then { s.wg g with clock := (s.wg g).clock + 1 } else s.wg g) ∧
            (∀ k, k ≠ core → t.core k = s.core k) ∧ t.core core = { s.core core with queues := (t.core core).queues } ∧
            ∀ k, t.queue core k = if k = q then s.queue core q ++ [.cmd c] else s.queue core k))

/-- The commands of the engines (R361, R362, R365 to R369, R371, R372, R374, R376, R380, R381, R383, R463, R464): the head of a
queue whose checks pass ends with the result that its engine computes; one that fails a check of the window words ends with
BADCMD and no write; one whose scratchpad is not resident stands still. -/
def Obligations.EngineSteps : Prop :=
  ∀ (s : State) (core q problem : Nat) (members : List (Nat × Nat × List Byte)) (c : QCmd),
    s.headCmd core q = some c → s.upsets = [] → c.cra % 32 = 0 →
    s.engCheck c.issuer [(c.cra, List.replicate 32 0)] = .ok () →
    let runs (i : Instr) (engine opc : Nat) (own : List (Nat × Bool)) (f : Eng EngEnd) : Prop :=
      c.engine = engine → c.opc = opc →
      (s.suspended c = true → exec i s = .next (s.modHead core q fun c => { c with begun := false })) ∧
      (∀ cause, s.suspended c = false → c.windowBad own = some cause →
        exec i s = .next (s.endCmd core q c { status := 6, detail := cause })) ∧
      (s.suspended c = false → c.windowBad own = none → c.refused = none →
        (∀ e, f = .ok e → s.engCheck c.issuer e.writes = .ok () → exec i s = .next (s.endCmd core q c e)) ∧
        ∀ code detail, f = .error (.status code detail) →
          exec i s = .next (s.endCmd core q c { status := code, detail := detail }))
    let lo (n : Nat) : Nat := n % 2 ^ 32
    let hi (n : Nat) : Nat := n / 2 ^ 32 % 2 ^ 32
    let len := c.p % 2 ^ 40
    runs (.copy core q) 0 1
      [(2, c.p / 2 ^ 40 % 2 ^ 24 != 0), (4, len == 0), (6, reachesWindow [(c.a0, len), (c.a1, len)])] (copyCmd s c) ∧
    runs (.copy2d core q) 0 2 [] (cmd2D false false s c) ∧ runs (.gather2d core q) 0 3 [] (cmd2D true false s c) ∧
    runs (.scatter2d core q) 0 4 [] (cmd2D false true s c) ∧
    runs (.fill core q) 0 5 [(4, c.a0 == 0), (6, reachesWindow [(c.a1, c.a0)])] (fillCmd s c) ∧
    runs (.convres core q) 1 1 [] (convresCmd s c) ∧ runs (.convbin core q) 1 2 [] (convbinCmd s c) ∧
    runs (.decjpeg core q) 2 1 [(6, isAperture c.a1)] (decjpegCmd s c) ∧
    runs (.decg4 core q) 2 2 [(6, isAperture c.a1)] (decg4Cmd s c) ∧
    runs (.zcomp core q) 3 1 [(4, lo c.p % 4096 != 0), (5, c.a0 % 4096 != 0 || c.a1 % 4096 != 0),
      (6, isAperture c.a1 || reachesWindow [(c.a0, lo c.p)])] (zcompCmd s c) ∧
    runs (.zexp core q) 3 2 [(4, hi c.p == 0), (5, c.a0 % 128 != 0),
      (6, reachesWindow [(c.a0, 128 * hi c.p), (c.a1, lo c.p)])] (zexpCmd s c) ∧
    runs (.zbook core q) 3 3 [(2, hi c.p != 0 || c.a1 != 0), (4, s.genClash (lo c.p)), (5, c.a0 % 8 != 0),
      (6, reachesWindow [(c.a0, 128)]), (7, !c.issuer.priv)] (zbookCmd s c) ∧
    runs (.nreduce core q members problem) 4 1 [(4, c.subst != 0)] (nreduceCmd members problem s c) ∧
    runs (.nmcast core q problem) 4 2 [(4, c.subst != 0)] (nmcastCmd problem s c) ∧
    (∀ bs, s.engRead c.issuer c.a0 c.p = .ok bs → s.engCheck c.issuer [(c.a1, bs)] = .ok () →
      ∃ e, copyCmd s c = .ok e ∧ e.status = 1 ∧ e.flags = 0 ∧ e.count = bs.length ∧ e.writes = [(c.a1, bs)]) ∧
    (let bs := (List.range c.a0).map fun i => BitVec.ofNat 8 (c.p / 2 ^ (8 * (i % 8)))
     s.engCheck c.issuer [(c.a1, bs)] = .ok () →
      ∃ e, fillCmd s c = .ok e ∧ e.status = 1 ∧ e.flags = 0 ∧ e.count = c.a0 ∧ e.writes = [(c.a1, bs)]) ∧
    ∀ (e : EngEnd) (k bank off : Nat), s.engPlace c.issuer .engineWrite c.cra 8 = .ok (.bank k bank off) → off % 32 = 0 →
      isAperture c.cra = true → c.accumulates = false → Memory.wf (s.bank k bank).bytes = true →
      s.engPlace c.issuer .engineWrite (c.cra + 8) 24 = .ok (.bank k bank (off + 8)) →
      let m := ((s.writeEnd c e).bank k bank).bytes
      littleEndian m off 8 = (c.seq.toNat * 2 ^ 32 + e.flags * 2 ^ 16 + c.opc * 256 + e.status) % 2 ^ 64 ∧
        littleEndian m (off + 8) 8 = e.count % 2 ^ 64 ∧ littleEndian m (off + 16) 8 = e.detail % 2 ^ 64 ∧
        littleEndian m (off + 24) 8 = e.info % 2 ^ 64 ∧
        ∀ a, (a < off ∨ off + 32 ≤ a) → m.byte a = (s.bank k bank).bytes.byte a

/-! The host and the fabric -/

/-- Accesses of the host and requests of the fabric (R12, R450 to R452, R456, R458, R459, R461, R466, R469, R473): what bytes they read and
write, what is answered, and what is sent. -/
def Obligations.HostAndFabricSteps : Prop :=
  ∀ (s : State) (pa n src seq core peer line port link : Nat) (bytes : List Byte) (up : Bool) (f : DWord),
    (s.linkUp = true → s.fatal = false → (∀ e ∈ s.ctxs, e.2.fqwait = []) → s.PlainLine pa bytes.length →
      ∃ t, exec (.hostWrite pa bytes) s = .next t ∧
        t = { s with mem := t.mem, dirty := (State.markLine 0 s (pa / 128)).dirty
                     rels := s.rels.filter fun r => !(r.space == 0 && r.addr < pa + bytes.length && pa < r.addr + r.size) } ∧
        Memory.Puts s.mem t.mem pa bytes.length fun i => bytes.getD i 0) ∧
    (s.linkUp = true → s.fatal = false → 0 < n → s.upsets = [] → pa + n ≤ 2 ^ 39 ∨ (2 ^ 41 ≤ pa ∧ pa + n ≤ 2 ^ 42) →
      exec (.hostRead pa n) s = .next { s with
        hostReads := s.hostReads ++ [(pa, if (List.range n).any fun i => s.poison.contains ((pa + i) / 128) then none
          else some ((List.range n).map fun i => s.mem.byte (pa + i)))] }) ∧
    (s.linkUp = true → s.fatal = false → 0 < n → 2 ^ 39 ≤ pa → pa + n ≤ 2 ^ 41 →
      exec (.hostRead pa n) s = .fault (.hostUnmapped pa) ∧
        (bytes.length = n → exec (.hostWrite pa bytes) s = .fault (.hostUnmapped pa))) ∧
    (s.linkUp = true → ∀ r ∈ [(0x2000, s.errcfg.toNat), (0x2008, s.ued * 2 ^ 48 + s.uec * 2 ^ 33 + s.ce), (0x80008, s.cwarg.toNat),
        (0x80010, (if s.cwrun = none then 0 else 2 ^ 63) + s.cwres * 2 ^ 56 + s.cwtag * 2 ^ 48)],
      exec (.hostRead (2 ^ 52 + r.1) 8) s = .next { s with
        hostReads := s.hostReads ++ [(2 ^ 52 + r.1, some ((List.range 8).map fun i => BitVec.ofNat 8 (r.2 / 2 ^ (8 * i))))] }) ∧
    (s.linkUp = false → exec (.hostRead pa n) s = .next s ∧ exec (.hostWrite pa bytes) s = .next s) ∧
    exec (.hostLinkChange up) s = .next { s with linkUp := up } ∧
    -- the write-combining buffer
    (let due (e : WcEntry) : Bool := e.peer == peer && e.line == line && decide (e.since + 10000 ≤ s.now)
     let C := s.core core
     (C.wcb.filter due = [] → exec (.wcbAgeDrain core peer line) s = .next s) ∧
     ∀ e, C.wcb.filter due = [e] → s.unacked peer < 256 → e.waves.Nodup →
      ∃ t, exec (.wcbAgeDrain core peer line) s = .next t ∧
        (let k := s.seqs.get peer 0 % 2 ^ 32
         t = { s with
           waves := t.waves
           cores := s.cores.put core { C with wcb := C.wcb.filter fun x => !(x.peer == peer && x.line == line) }
           seqs := s.seqs.put peer ((k + 1) % 2 ^ 32)
           remotes := s.remotes ++ [{ dst := peer, seq := k, op := .store (line * 128) e.bytes, tries := 0, core := core
                                      tag := e.tag, by_ := none, waves := e.waves }]
           agenda := insertDue ⟨s.now + 40000, .fabricReplay peer k⟩ s.agenda }) ∧
        ∀ w, t.wave w =
          if w ∈ e.waves ∧ (s.waves.find? w).isSome then { s.wave w with acks := (s.wave w).acks + 1 } else s.wave w) ∧
    -- a request of a peer: the next in order, or one performed before
    (let x := s.sources.get src {}
     let after : Source := { x with next := (x.next + 1) % 2 ^ 32 }
     let sends (y : Source) (data : List Byte) : State :=
      { s with sources := s.sources.put src y, replies := s.replies ++ [(src, seq, data)] }
     x.cum = none → x.early = [] →
      (∀ data, x.cache.find? seq = some data → ∀ op, exec (.fabricRequest src seq (2 ^ 32) op) s = .next (sends x data)) ∧
      (x.cache.find? seq = none → seq = x.next → x.next < 2 ^ 32 → s.PlainLine pa n →
        exec (.fabricRequest src seq (2 ^ 32) (.load pa n)) s =
          .next (sends after ((List.range n).map fun i => s.mem.byte (pa + i))) ∧
        ∀ (op : AO) (ty : AT) (b c : DWord), n = ty.bytes →
          let old := (List.range n).map fun i => s.mem.byte (pa + i)
          let new := AO.apply op ty (littleEndian s.mem pa n) b.toNat c.toNat
          ∃ t, exec (.fabricRequest src seq (2 ^ 32) (.atomic pa op ty b c)) s = .next t ∧
            t = { sends { after with cache := x.cache.put seq old } old with
              mem := t.mem, dirty := (State.markLine 0 s (pa / 128)).dirty } ∧
            Memory.Puts s.mem t.mem pa n fun i => BitVec.ofNat 8 (new / 2 ^ (8 * i)))) ∧
    -- replies and replays of this device's requests
    (let mine (r : Remote) : Bool := r.dst == peer && r.seq == seq
     let gone := s.remotes.filter fun r => !mine r
     (s.remotes.find? mine = none →
       exec (.fabricReply peer seq bytes) s = .next s ∧ exec (.fabricReplay peer seq) s = .next s) ∧
     ∀ r, s.remotes.find? mine = some r →
      (r.by_ = none → s.parkedOn (· == Park.room) = [] → r.waves.Nodup → (∀ w ∈ r.waves, w < 100000) → ∃ t, exec (.fabricReply peer seq bytes) s = .next t ∧
        t = { s with remotes := gone, waves := t.waves } ∧
        ∀ w, t.wave w = if w ∈ r.waves ∧ (s.waves.find? w).isSome then { s.wave w with acks := (s.wave w).acks - 1 } else s.wave w) ∧
      (r.tries < 8 → exec (.fabricReplay peer seq) s = .next { s with
        remotes := s.remotes.map fun x => if mine x then { x with tries := x.tries + 1 } else x
        agenda := insertDue ⟨s.now + 40000, .fabricReplay peer seq⟩ s.agenda })) ∧
    -- links and time
    (let p := s.ports.get port {}
     ∃ q : Port, exec (.linkFailure port link) s = .next { s with ports := s.ports.put port q } ∧ q.fails = min (p.fails + 1) 65535 ∧
      ∀ j, j < 4 → q.down.getLsbD j = (p.down.getLsbD j || decide (j = link % 4)) ∧
        q.up.getLsbD j = (p.up.getLsbD j && decide (j ≠ link % 4))) ∧
    (s.master ≠ some s.endpoint → s.fsyncs.Pairwise (·.1 < ·.1) → ∃ t n, exec (.fabricTimeSync f) s = .next t ∧
      t = { s with fclock := t.fclock, fsyncs := t.fsyncs } ∧ t.fsyncs.Pairwise (·.1 < ·.1) ∧ s.now < n ∧
      (∀ c ∈ s.cores, c.2.gated = false → c.2.start + c.2.len < n) ∧ (∀ x ∈ s.fsyncs, x.1 < n) ∧
      (∀ k, s.now ≤ k → k < n → t.offset k = s.offset k) ∧
      (if (f - s.offset n).toNat < 2 ^ 63 then ∀ k, t.offset (n + k) = f
       else t.offset n = s.offset n ∧ ∀ k, (s.offset n - f).toNat * 1000 ≤ k → t.offset (n + k) = f))

/-! Contexts -/

/-- The commands of the context window (R398, R426, R427, R434, R454): their results, and what they leave of the context, its
region, its workgroup or its launch. -/
def Obligations.ContextSteps : Prop :=
  ∀ (s : State) (desc tag root record index : Nat), s.mg.recovery = false →
    let word (a n : Nat) : Nat := littleEndian s.mem (a + 8 * n) 8
    let d := (List.range 16).map (word desc)
    let x (n : Nat) : Nat := d.getD n 0
    -- CREATE
    (2 ≤ s.mg.power ∨ s.mg.life = 3 → exec (.create desc) s = .next (s.cwEnds 4 0)) ∧
    (s.mg.power < 2 → s.mg.life ≠ 3 →
      (desc % 128 ≠ 0 ∨ deviceMem desc = false → exec (.create desc) s = .next (s.cwEnds 1 0)) ∧
      (desc % 128 = 0 → s.PlainLine (desc + 64) 8 →
        (descBad d = true → exec (.create desc) s = .next (s.cwEnds 1 0)) ∧
        (descBad d = false →
          ((∀ k, 0 < k → k < 256 → (s.ctxs.find? k).isSome = true) → exec (.create desc) s = .next (s.cwEnds 2 0)) ∧
          ∀ k, 0 < k → k < 256 → s.ctxs.find? k = none → (∀ j, 0 < j → j < k → (s.ctxs.find? j).isSome = true) →
            ∃ t, exec (.create desc) s = .next t ∧
              t = { s.cwEnds 0 k with
                mem := t.mem, dirty := (State.markLine k s (desc / 128)).dirty
                ctxs := s.ctxs.put k
                  { desc := desc, ptroot := x 0, handler := x 1, savebase := x 2, slots := x 3 / 2 ^ 32, slotsz := x 3 % 2 ^ 32
                    wspill := x 4, wspilln := x 5, fqbase := x 6, fqn := x 7, priv := x 10 == 1 } } ∧
              Memory.Puts s.mem t.mem (desc + 64) 8 fun _ => 0))) ∧
    -- the commands of a context
    (s.ctxs.find? tag = none → ∀ i ∈ ([.destroy tag, .regroot tag root, .preempt tag record index, .kill tag record] : List Instr),
      exec i s = .next (s.cwEnds 3 tag)) ∧
    ((s.ctxs.find? tag).isSome = true →
      (∃ t, exec (.destroy tag) s = .next t ∧ t.ctxs.find? tag = none ∧ (∀ e ∈ t.launches, e.2.tag ≠ tag) ∧
        (∀ e ∈ t.watches, e.waiter.tag ≠ tag) ∧ (∀ e ∈ t.arming, e.waiter.tag ≠ tag) ∧ (∀ e ∈ t.stlb, e.tag ≠ tag) ∧
        (∀ c ∈ t.cores, ∀ e ∈ c.2.tlb, e.tag ≠ tag) ∧ t.fqpend.getLsbD tag = false ∧ t.cwres = (if s.cwover then 5 else 0) ∧ t.cwtag = tag ∧
        t.cwrun = none ∧ t.msix.getLast? = some 0) ∧
      (∀ w pa, (s.ctx tag).root ≠ root → (∀ e ∈ s.watches ++ s.arming, ∀ r, e.waiter ≠ .region tag r) →
        s.readWords tag root 16 = some w → root % 128 = 0 → rcbBad true w = false → s.anchorAt tag (adr w 3) = some pa →
        w.getD 9 0 = littleEndian s.mem pa 8 → sliceOf pa < 64 → s.tableUsed (sliceOf pa) true < 16 →
        root ≠ 0 → s.launchesOf tag root = [] → w.getD 7 0 % 256 ≠ 1 → w.getD 8 0 = 0 →
        exec (.regroot tag root) s = .next { s.cwEnds 0 tag with
          ctxs := s.ctxs.upd tag fun c => { c with
            root := root, regions := [(root, { (({} : Region).join w).load 0 w with watched := true })] }
          ids := s.ids + 1
          cores := s.cores.map fun c => (c.1, { c.2 with dlines := c.2.dlines.del (pa / 128) })
          watches := s.watches ++ [{ id := s.ids, slice := sliceOf pa, reserved := true, spill := none, pa := pa, wide := true, cm := .ne
                                     y := BitVec.ofNat 64 (w.getD 9 0), deadline := none, waiter := .region tag root, st := .armed
                                     snaps := [], chk := false }] }) ∧
      (∀ l g G, s.launchAt tag record = some l → s.wgOf l index = some (g, G) → s.wgs.find? g = some G → G.st = .resident →
        exec (.preempt tag record index) s = .next { s.cwEnds 0 tag with
          wgs := s.wgs.put g { G with st := .halting s.now }, agenda := insertDue ⟨s.now, .preemptionHalt g⟩ s.agenda }) ∧
      (s.launchAt tag record = none → exec (.preempt tag record index) s = .next (s.cwEnds 4 tag) ∧
        (record ≠ 0 → exec (.kill tag record) s = .next (s.cwEnds 4 tag))) ∧
      (∀ l L, record ≠ 0 → s.launchAt tag record = some l → s.launches.find? l = some L → L.tag = tag → L.st ≠ .done → L.st ≠ .failed →
        (∀ e ∈ s.wgs, e.2.launch ≠ l) → ∃ t, exec (.kill tag record) s = .next t ∧
          t.launches.find? l = some { L with st := .failed, code := 7 } ∧ t.cwres = (if s.cwover then 5 else 0) ∧ t.cwtag = tag ∧
          t.cwrun = none ∧ t.msix = s.msix ++ [0] ∧ ∀ q, (t.ctx tag).regions.find? L.rcb = some q → l ∉ q.queue))

/-! Workgroups -/

/-- The steps of a workgroup's life (R258, R404 to R406, R408, R409, R425, R434 to R436, R439): admission creates its waves; a halt and a copy take it off
the device, a copy brings it back; when its last wave has left its places are free. That all shadow slots are taken with the first
copy is the model's choice (log 95). -/
def Obligations.WorkgroupSteps : Prop :=
  ∀ (s : State), s.Keyed → s.Still → (∀ (g : Nat) (G : Wg), s.wgs.find? g = some G →
    let L := s.launch G.launch
    let mine (w : Nat) : Prop := (s.waves.find? w).isSome = true ∧ (s.wave w).wg = g
    let left (t : State) : Prop := t.waves = s.waves.filter fun e => e.2.wg != g
    -- PREEMPTION_HALT
    (∀ since, G.st = .halting since → G.needBanks = false → (∀ p ∈ G.pids, (s.part p).shadow = none) → G.pids ≠ [] →
      G.copies = [] → G.copied = [] → (∀ e ∈ s.waves, e.2.wg = g → e.2.lastIssue + 5 ≤ (s.core (coreOf e.1)).cyc.toNat) →
      (∀ e ∈ s.waves, e.2.wg = g → e.2.sessions = [] ∧ (s.alloc (pidOf e.1) g).sessions = []) →
      (∀ u ∈ s.threadsOf g, (s.thread u).st = .ready ∧ (s.thread u).windows = [] ∧ (s.thread u).block = none) →
      ∃ t, exec (.preemptionHalt g) s = .next t ∧
        t = { s with waves := t.waves, parts := t.parts, cores := t.cores
                     wgs := s.wgs.put g { G with copies := G.pids.map fun p => (p, s.now + 8000) }
                     agenda := insertDue ⟨s.now + 8000, .shadowSave g⟩ s.agenda } ∧
        (∀ w, (mine w → t.wave w = { s.wave w with halted := true }) ∧ (¬mine w → t.wave w = s.wave w)) ∧
        (∀ p, (t.part p).shadow = if p ∈ G.pids then some g else (s.part p).shadow) ∧
        ∀ u ∈ s.threadsOf g, (∀ e ∈ (t.part u.pid).bins, u ∉ e.2.threads) ∧ (∀ e ∈ (t.part u.pid).filings, e.t ≠ u) ∧
          ∀ e ∈ (t.part u.pid).queue, e.1 ≠ u) ∧
    ((∀ since, G.st ≠ .halting since) → G.st ≠ .debugged → exec (.preemptionHalt g) s = .next s ∧ exec (.shadowSave g) s = .next s) ∧
    -- SHADOW_SAVE
    (∀ since, G.st = .halting since → G.pids.Nodup → G.image = [] → G.copied = [] → G.copies.map (·.1) = G.pids →
      (∀ c ∈ G.copies, c.2 ≤ s.now) → (∀ e ∈ s.waves, e.2.wg = g → pidOf e.1 ∈ G.pids) → ∃ t, exec (.shadowSave g) s = .next t ∧ left t ∧
      (∃ H, t.wgs.find? g = some H ∧ H.st = .shadow ∧ H.image = (s.wavesByIdx g).map (·.2.kept) ∧
        ∀ i, i < G.pids.length → H.imgAllocs.find? i = some ((s.part (G.pids.getD i 0)).allocs.get g {})) ∧
      (∀ p ∈ G.pids, (t.part p).allocs.find? g = none) ∧ (⟨s.now, .admission⟩ : Due) ∈ t.agenda) ∧
    -- SLOW_SAVE
    (∀ n, G.st = .saving n → (∀ u ∈ s.threadsOf g, (s.thread u).st = .halted) → G.imgCmds = [] →
      ∃ t, exec (.slowSave g) s = .next t ∧ left t ∧ (∃ H, t.wgs.find? g = some H ∧ H.st = .saved n ∧ H.banks = []) ∧
        (∀ p ∈ G.pids, (t.part p).allocs.find? g = none) ∧
        (∀ b ∈ G.banks, ((t.core G.core).banks.get b {}).owner = none) ∧ (⟨s.now, .admission⟩ : Due) ∈ t.agenda) ∧
    -- SHADOW_RESTORE and RESTORE
    (G.imgTiles = [] → L.hdr.determ = false → (∀ e ∈ s.waves, e.2.wg = g → e.2.launch = G.launch) →
      (∀ e ∈ s.waves, e.2.draining = false ∧ ∀ th ∈ e.2.threads, th.st = .exited ∨ (th.st = .ready ∧ th.trapQ = none ∧ th.pend = none)) →
      (∀ r, ((s.ctx L.tag).regions.find? L.rcb) = some r → r.wake = 0) →
      (G.st = .reloading → ∃ t, exec (.shadowRestore g) s = .next t ∧
        (∃ H, t.wgs.find? g = some H ∧ H = { G with st := .resident, needBanks := false, image := [], imgAllocs := [] }) ∧
        (∀ w ∈ G.waves, (t.wave w).halted = false) ∧ (∀ p ∈ G.pids, (t.part p).shadow = none) ∧ (⟨s.now, .admission⟩ : Due) ∈ t.agenda) ∧
      ∀ n, G.st = .restoring n → s.placesOf g ≠ [] → G.image = [] → G.imgCmds = [] →
        ∃ t, exec (.restore g) s = .next t ∧
          (∃ H, t.wgs.find? g = some H ∧ H = { G with st := .resident, needBanks := false, imgAllocs := [], imgBanks := [] }) ∧
          n ∉ (t.ctx L.tag).slotsUsed ∧ (⟨s.now, .admission⟩ : Due) ∈ t.agenda) ∧
    -- WAVE_DRAIN_END
    (∀ core part slot, part < 4 → slot < 24 →
      let w := core * 96 + part * 24 + slot
      (s.waves.find? w = none ∨ (s.wave w).draining = false → exec (.waveDrainEnd core part slot) s = .next s) ∧
      (mine w → (s.wave w).draining = true → (∀ th ∈ (s.wave w).threads, th.st = .exited) → (s.wave w).acks = 0 →
        (s.wave w).launch = G.launch →
        let G' : Wg := { G with gone := G.gone ++ [(s.wave w).idx] }
        ∃ t, exec (.waveDrainEnd core part slot) s = .next t ∧ t.waves = s.waves.filter (·.1 != w) ∧ t.wgs = s.wgs.put g G' ∧
          (⟨s.now, .admission⟩ : Due) ∈ t.agenda ∧ w ∉ (t.part (pidOf w)).active ∧
          t.todo = (if G'.gone.length = L.wpw then [.event (.workgroupFinish g)] else []) ++ s.todo)) ∧
    -- WORKGROUP_FINISH
    (G.st = .resident → G.gone.length = L.wpw → ∃ t, exec (.workgroupFinish g) s = .next t ∧
      (∃ H, t.wgs.find? g = some H ∧ (H.st = .finished ∨ H.st = .retired)) ∧ (∀ p ∈ G.pids, (t.part p).allocs.find? g = none) ∧
      (⟨s.now, .admission⟩ : Due) ∈ t.agenda ∧
      (⟨max ((s.core G.core).start + (s.core G.core).len) s.now, .workgroupFinish g⟩ : Due) ∈ t.agenda) ∧
    (G.st = .finished ∨ G.st = .retired → G.closed = false → (∀ e ∈ s.wgs, e.2.imgCmds = []) → ∃ t, exec (.workgroupFinish g) s = .next t ∧
      t = { s with wgs := s.wgs.put g { G with closed := true, banks := [] }, cores := t.cores
                   agenda := insertDue ⟨s.now, .admission⟩ s.agenda } ∧
      (∀ c, c ≠ G.core → t.core c = s.core c) ∧ t.core G.core = { s.core G.core with
        banks := (t.core G.core).banks, dlines := (s.core G.core).dlines.filter fun e => !G.banks.contains e.2.way } ∧
      ∀ b, (t.core G.core).banks.get b {} = if b ∈ G.banks then {} else (s.core G.core).banks.get b {})) ∧
    -- ADMISSION
    (s.mg.emergency = true ∨ s.fatal = true ∨ 2 ≤ s.mg.power ∨ s.nextOnes = [] → exec .admission s = .next s) ∧
    (∀ k l core pids, s.mg.emergency = false → s.fatal = false → s.mg.power < 2 → s.nextOnes = [(k, .fresh l)] →
      (s.launches.find? l).isSome = true → 0 < (s.launch l).np →
      let K := s.launch l
      let first := K.admitted = 0
      let own := s.modLaunch l fun k => { k with places := k.places.set (K.admitted % K.sets) [] }
      let fits : Prop :=
        if K.hdr.determ = false then
          s.pathFits K K.members (s.needs K) = true ∧ s.coresFor K K.members (List.range 18) = some [(core, pids)]
        else (K.admitted + 1) * K.members ≤ K.retired + K.ordwin ∧
          if first then s.pathFits K K.winSize (s.needs K) = true ∧
            ∃ y, State.reserve l K.sizes s = some y ∧ (y.launch l).places.getD 0 [] = [(core, pids)]
          else K.places.getD (K.admitted % K.sets) [] = [(core, pids)] ∧ own.pathFits K K.members (own.needs K) = true ∧
            own.coresTake K [(core, pids)] = true
      (first → s.checkRecord K.tag K.rcb K.record (s.readWords K.tag K.record 8) = (0, { K with since := s.now })) → fits →
      let new := s.wgs.fresh
      ∃ t, exec .admission s = .next t ∧ t.launches.find? l = some { K with
          admitted := K.admitted + 1, st := .admitted, since := s.now, places := (t.launch l).places
          key := (t.launch l).key, keyIn := (t.launch l).keyIn, passed := (t.launch l).passed
          gen := if first then (s.ctx K.tag).gen.toNat else K.gen
          chmask := if first then ((s.ctx K.tag).prof.map fun p => p.mask 0).getD 0 else K.chmask } ∧
        (∃ H, t.wgs.find? new = some H ∧ H.launch = l ∧ H.cluster = K.admitted ∧ H.lin = K.admitted * K.members ∧ H.core = core ∧
          H.pids = pids ∧ H.st = .resident ∧ H.admitted = s.now) ∧
        (∀ i, i < K.wpw → ∃ e ∈ t.waves, e.2.wg = new ∧ e.2.launch = l ∧ e.2.tag = K.tag ∧ e.2.idx = i ∧ ∀ n, n < 32 →
          (e.2.thread n).st = (if 32 * i + n < K.tpw then .ready else .exited) ∧
            (e.2.thread n).pc = BitVec.ofNat 64 (K.khdr + 1024 + K.hdr.entry)) ∧
        (∀ p ∈ pids, ((t.part p).allocs.find? new).isSome = true) ∧ ∀ e ∈ s.wgs, t.wgs.find? e.1 = some e.2)

/-! Power, temperature and errors -/

/-- Steps of the power controller, the sensors, the patrol, the black-box record and the boot ROM (R417, R421 to R424, R469, R471, R477, R481, R485, R487,
R490 to R493, R496, R501). The TIMEs at which control intervals end and samples are taken are the model's choice (log 56, log 93). -/
def Obligations.PowerSteps : Prop :=
  ∀ (s : State) (group oc core watts island slice g mE mI : Nat) (trim reading : Int), s.upsets = [] →
    let event (kind tag cls src : Nat) (data : List Byte) : BlackBox := s.bbr.add ⟨s.time, kind, tag, cls, src, data⟩
    let gated (t : State) : Prop := ∀ c, c < Config.cores → (t.core c).gated = true
    -- core groups and trims
    (let old := s.groups.get group {}
     let busy := old.st = 1 ∨ (∃ e ∈ s.wgs, e.2.core / 8 = group ∧ (e.2.holds = true ∨ e.2.st = .shadow ∨ e.2.banks ≠ [])) ∨
       ∃ x ∈ s.reserved, x.2.1 / 8 = group
     let v0 := (s.opts.getD old.oc (0, [])).1
     let v1 := (s.opts.getD oc (0, [])).1
     let steps := (s.opts.getD oc (0, [])).2
     (busy → exec (.coreGroupSlew group oc) s = .next s) ∧
     (¬busy → ∃ t, exec (.coreGroupSlew group oc) s = .next t ∧
      t = { s with groups := s.groups.put group { old with st := 1, oc := oc }, cores := t.cores
                   agenda := insertDue ⟨s.now + 2000 * (max v0 v1 - min v0 v1) + 40000, .slewSettled group⟩ s.agenda } ∧
      ∀ c, t.core c = if c / 8 = group then
        { s.core c with newTrim := some 0, newSteps := if v0 < v1 then (s.core c).newSteps else some steps } else s.core c) ∧
     (old.st ≠ 1 → exec (.slewSettled group) s = .next s) ∧
     (old.st = 1 → ∃ t, exec (.slewSettled group) s = .next t ∧
      t = { s with groups := s.groups.put group { old with st := 0 }, cores := t.cores
                   agenda := insertDue ⟨s.now, .admission⟩ s.agenda } ∧
      ∀ c, t.core c = if c / 8 = group then { s.core c with newSteps := some (s.opts.getD old.oc (0, [])).2 } else s.core c)) ∧
    (∃ t, exec (.trimApply core trim) s = .next t ∧ t = { s with cores := t.cores } ∧
      ∀ c, t.core c = if c = core then { s.core c with newTrim := some trim } else s.core c) ∧
    -- a control interval with one workgroup's measurement
    (s.now % 200000 ≠ 0 → exec (.controlIntervalEnd [(g, mE, mI)]) s =
      .next (s.at ((s.now / 200000 + 1) * 200000) (.controlIntervalEnd [(g, mE, mI)]))) ∧
    (∀ G, s.now % 200000 = 0 → s.wgs.find? g = some G → G.over = false → G.overuse < 2 →
      ∃ t, exec (.controlIntervalEnd [(g, mE, mI)]) s = .next t ∧
        t = { s with groups := t.groups, ctxs := t.ctxs, wgs := t.wgs, agenda := t.agenda } ∧
        (⟨s.now, .admission⟩ : Due) ∈ t.agenda ∧ (∀ d ∈ s.agenda, d ∈ t.agenda) ∧
        (G.di < mI → ∃ d ∈ t.agenda, d.time = s.now + 200000 ∧ ∃ m, d.ev = .controlIntervalEnd m) ∧
        (let here := ((G.spans ++ (G.from_.map fun a => (a, s.now)).toList).map fun x =>
           (List.range 200000).countP fun k => decide (x.1 + 200000 ≤ s.now + k ∧ s.now + k < x.2 + 200000)).sum
         t.wgs.find? g = some { G with
           overuse := if G.de * here * 5 < mE * 4 * 200000 ∨ G.di * 5 < mI * 4 then G.overuse + 1 else 0 } ∧
         (∀ k, k ≠ g → t.wgs.find? k = s.wgs.find? k) ∧
         ∀ k, t.groups.get k {} = { s.groups.get k {} with
           debtE := if k = G.core / 8 then mE - G.de * here / 200000 else 0
           debtI := if k = G.core / 8 then mI - G.di else 0 })) ∧
    -- an emergency
    (let kills (t : State) : Prop := t.mg = { s.mg with emergency := true, inlet := watts } ∧
      (s.powerTarget = none → t = { s with mg := t.mg }) ∧
      ∀ tag, s.powerTarget = some tag → t.bbr = event 5 tag 5 0 (bytesOfWord 4 (watts % 2 ^ 32)) ∧
        (⟨s.now + 100000, .powerKill watts⟩ : Due) ∈ t.agenda ∧
        ∀ l L, s.launches.find? l = some L → L.tag = tag → L.st = .admitted →
          ∃ L', t.launches.find? l = some L' ∧ L'.st = .failed ∧ L'.code = 8
     (s.mg.emergency = true → exec (.powerEmergency watts) s = .next { s with mg := { s.mg with inlet := watts } } ∧
      ∃ t, exec (.powerKill watts) s = .next t ∧ kills t) ∧
     (s.mg.emergency = false → exec (.powerKill watts) s = .next s ∧ ∃ t, exec (.powerEmergency watts) s = .next t ∧ kills t) ∧
     ∃ t, exec .emergencyEnd s = .next t ∧ t = { s with mg := { s.mg with emergency := false }, agenda := t.agenda } ∧
      (⟨s.now, .admission⟩ : Due) ∈ t.agenda ∧ (∀ d ∈ t.agenda, ∀ w, d.ev ≠ .powerKill w) ∧
      ∀ d ∈ s.agenda, (∀ w, d.ev ≠ .powerKill w) → d ∈ t.agenda) ∧
    -- sensors
    (let x := s.therms.get island {}
     let thr : Int := 8 * ((if island < 576 then s.mg.tpart else if island < 960 then s.mg.tcourse else s.mg.tuncore : Nat) : Int)
     let cool := if reading ≤ thr - 24 then x.cool + 1 else 0
     let note (n : Nat) : BlackBox :=
      event 8 0 4 island (bytesOfWord 2 island ++ [BitVec.ofNat 8 n, 0] ++ bytesOfWord 2 (reading % 2 ^ 16).toNat)
     let next := s.now + 2000000
     (s.now < x.next → exec (.thermalSample island reading) s = .next (s.at x.next (.thermalSample island reading))) ∧
     (x.next ≤ s.now → reading < 8 * (s.mg.tcrit : Int) → exec (.thermalSample island reading) s = .next (
       if x.thr = false ∧ thr ≤ reading then { s with
         therms := s.therms.put island { x with
           temp := reading, cool := 0, thr := true, entries := min (x.entries + 1) 65535, since := s.now, next := next }
         bbr := note 1 }
       else if x.thr = true ∧ 51 ≤ cool ∧ x.since + 200000000 ≤ s.now then { s with
         therms := s.therms.put island { x with temp := reading, cool := cool, thr := false, next := next }, bbr := note 0 }
       else { s with therms := s.therms.put island { x with temp := reading, cool := cool, next := next } }))) ∧
    -- the patrol, and a freeze of the record
    (s.losses = [] → exec (.patrolScrub slice) s = .next (
      if s.errcfg.toNat / 2 ^ 48 % 256 = 0 then s
      else { s with agenda := insertDue ⟨s.now + s.errcfg.toNat / 2 ^ 48 % 256 * 200000000, .patrolScrub slice⟩ s.agenda })) ∧
    (∃ t, exec .bbrctlFreeze s = .next t ∧ t = { s with bbr := t.bbr } ∧ (s.bbr.frozen = true → t.bbr = s.bbr) ∧
      (s.bbr.frozen = false →
        let b := event 14 0 5 0 [2]
        t.bbr = if s.bbr.stored.isSome then { b with frozen := true, at_ := s.time, lost := true }
          else { b with frozen := true, at_ := s.time, stored := some (s.time, b.wptr, b.ring) })) ∧
    -- power states and the cold reset
    (∃ t, exec .powerLoss s = .next t ∧ t.mg = { s.mg with power := 3 } ∧ gated t ∧ t.todo = [] ∧ t.mem = s.mem ∧ t.waves = s.waves) ∧
    (s.mg.power ≠ 0 ∨ s.fatal = true → exec .enterIdle s = .next s) ∧
    (s.mg.power = 0 → s.fatal = false → (∀ e ∈ s.wgs, e.2.holds = false ∧ e.2.st ≠ .shadow) → (∀ c ∈ s.cores, ∀ q ∈ c.2.queues, q.2 = []) →
      ∃ t, exec .enterIdle s = .next t ∧ gated t ∧
        t = { s with cores := t.cores, mg := { s.mg with power := 1 }, bbr := event 12 0 5 0 [0, 1] }) ∧
    ∃ t, exec .coldReset s = .next t ∧ t.now = 0 ∧ t.ctxs = [] ∧ t.waves = [] ∧ t.wgs = [] ∧ t.launches = [] ∧ t.todo = [] ∧
      t.watches = [] ∧ t.fatal = false ∧ t.mg.power = 0 ∧ t.bbr.stored = s.bbr.stored ∧ t.retired = s.retired ∧
      (t.mg.recovery = true ↔ ∃ i, i < 4 ∧ s.mg.move.accepts i (s.mg.flash.getD i []) = false) ∧
      (t.mg.recovery = false → ∀ k, k < Config.slices → (⟨2000000000, .patrolScrub k⟩ : Due) ∈ t.agenda)

/-! The Dusia port -/

/-- The commands of the Dusia port that need no signature (R467, R488, R489, R496, R498, R500, R503, R504): when the port answers at all, BUSY while
a command runs, the cached reply to a frame that comes again, BADLEN, and what each command answers. That a command has its effect with
its frame, and the layouts of TELEM's and DBGREG's payloads, are the model's choice (log 60). -/
def Obligations.DusiaReports : Prop :=
  ∀ (s : State) (cmd seq : Nat) (payload : List Byte),
    let all : List Instr :=
      [.status seq payload, .telem seq payload, .bbrRead seq payload, .exportBegin seq payload, .exportRead seq payload,
        .exportAck seq payload, .attest seq payload, .challenge seq payload, .lifecycle seq payload, .debug seq payload,
        .power seq payload, .budget seq payload, .mapout seq payload, .therm seq payload, .fwload seq payload, .dbgreg seq payload,
        .resume seq payload]
    (s.fatal = true ∨ s.mg.power = 3 → ∀ i ∈ .dusiaUnknown cmd seq payload :: all, exec i s = .next s) ∧
    (s.fatal = false → s.mg.power ≠ 3 → s.mg.recovery = false → s.mg.run = none → ∀ c bs, s.mg.prev = some (seq, c, bs) →
      ∀ i ∈ .dusiaUnknown cmd seq payload :: all, exec i s = .next { s with mg := { s.mg with sent := s.mg.sent ++ [(c, seq, bs)] } }) ∧
    (s.fatal = false → s.mg.power ≠ 3 → s.mg.recovery = false → ∀ till x, s.mg.run = some (till, x) →
      (s.now < till → exec (.dusiaUnknown cmd seq payload) s =
          .next { s with mg := { s.mg with sent := s.mg.sent ++ [(cmd + 128, seq, [5])] } } ∧
        ∀ i ∈ all, ∃ c, exec i s = .next { s with mg := { s.mg with sent := s.mg.sent ++ [(c, seq, [5])] } }) ∧
      (till ≤ s.now → ∀ i ∈ .dusiaUnknown cmd seq payload :: all,
        exec i s = exec i { s with mg := { s.mg with run := none, sent := s.mg.sent ++ [x] } })) ∧
    (s.Hears seq →
      let gives (i : Instr) (c : Nat) (data : List Byte) : Prop := exec i s = .next (s.answers c seq 0 data)
      let fails (i : Instr) (c status : Nat) : Prop := exec i s = .next (s.answers c seq status [])
      let entry (k : Nat) : List Byte := ((s.bbr.ring.find? (k % 4096)).map BbEntry.bytes).getD (List.replicate 32 0)
      fails (.dusiaUnknown cmd seq payload) cmd 1 ∧
      (payload ≠ [] → fails (.status seq payload) 0x01 2 ∧ fails (.telem seq payload) 0x02 2 ∧ fails (.exportRead seq payload) 0x05 2 ∧
        fails (.challenge seq payload) 0x10 2 ∧ fails (.resume seq payload) 0x19 2) ∧
      gives (.status seq []) 0x01 ([s.mg.life, s.debug, s.mg.power, 0].map (BitVec.ofNat 8) ++
        bytesOfWord 8 (s.bbr.events.toNat * 2 ^ 32 + s.bbr.wptr * 2 ^ 8 + b2n s.bbr.lost * 16 + b2n s.bbr.stored.isSome * 8 +
          b2n s.bbr.frozen * 4 + b2n s.bbr.bbmen)) ∧
      gives (.telem seq []) 0x02 (((List.range 1024).flatMap fun k =>
          let x := s.therms.get k {}
          bytesOfWord 4 (b2n x.thr * 2 ^ 31 + (x.temp % 2 ^ 16).toNat)) ++ bytesOfWord 4 s.mg.inlet ++
        bytesOfWord 8 (s.ued * 2 ^ 48 + s.uec * 2 ^ 33 + s.ce) ++ (List.range 18).flatMap fun g => bytesOfWord 8 (s.grppwr g)) ∧
      (∀ n, n < 2 ^ 32 → if n < 4096 then gives (.bbrRead seq (bytesOfWord 4 n)) 0x03 ((List.range 128).flatMap fun i => entry (n + i))
        else fails (.bbrRead seq (bytesOfWord 4 n)) 0x03 7) ∧
      (∀ (sel : Byte) (nonce : List Byte), nonce.length = 32 →
        let i : Instr := .exportBegin seq (sel :: nonce)
        (s.mg.ident = false ∨ (sel = 1 ∧ s.bbr.stored = none) → fails i 0x04 6) ∧
        (s.mg.ident = true → 1 < sel.toNat → fails i 0x04 7) ∧
        (s.mg.ident = true → sel = 0 → ∃ e, exec i s =
            .next ({ s with mg := { s.mg with exp := e, expAt := 0 } }.answers 0x04 seq 0 (bytesOfWord 4 e.length)) ∧
          e.take 4 = bytesOfWord 4 0x42425650 ∧ (e.drop 24).take 8 = bytesOfWord 8 s.time.toNat ∧ (e.drop 32).take 32 = nonce ∧
          e.length = 128 + 32 * s.bbr.ring.length + 4627)) ∧
      (if s.mg.exp = [] then fails (.exportRead seq []) 0x05 6
       else exec (.exportRead seq []) s = .next ({ s with mg := { s.mg with expAt := s.mg.expAt + 4096 } }.answers 0x05 seq 0
        ((s.mg.exp.drop s.mg.expAt).take 4096))) ∧
      (∀ nonce : List Byte, nonce.length = 32 →
        if s.mg.ident then ∃ rest, gives (.attest seq nonce) 0x07 (nonce ++ [s.mg.life, s.debug].map (BitVec.ofNat 8) ++ rest)
        else fails (.attest seq nonce) 0x07 6) ∧
      (∃ nonce : List Byte, nonce.length = 32 ∧ exec (.challenge seq []) s =
        .next ({ s with freeCtr := s.freeCtr + 32, mg := { s.mg with nonce := some nonce } }.answers 0x10 seq 0 nonce)) ∧
      -- debugging
      (∀ core part slot lane reg : Nat, core < 144 → part < 4 → slot < 24 → lane < 32 → reg < 255 → ∀ v : Word,
        let block (op : Byte) : List Byte := op :: BitVec.ofNat 8 lane :: (bytesOfWord 2 core ++ [BitVec.ofNat 8 part, BitVec.ofNat 8 slot] ++
          bytesOfWord 2 reg ++ bytesOfWord 8 v.toNat)
        let u : TId := ⟨core * 96 + part * 24 + slot, lane⟩
        let halted := (s.wg (s.wave u.w).wg).st = .debugged ∧ (s.waves.find? u.w).isSome = true
        (s.debug = 0 → fails (.dbgreg seq (block 0)) 0x18 6 ∧ fails (.dbgreg seq (block 1)) 0x18 6 ∧ fails (.dbgreg seq (block 2)) 0x18 6) ∧
        (s.debug = 1 → reg = 0x42 → gives (.dbgreg seq (block 0)) 0x18 (bytesOfWord 8 (s.core core).drpcfg.toNat)) ∧
        (s.debug = 2 → ¬halted → fails (.dbgreg seq (block 1)) 0x18 6 ∧ fails (.dbgreg seq (block 2)) 0x18 6) ∧
        (s.debug = 2 → halted → gives (.dbgreg seq (block 1)) 0x18 (bytesOfWord 8 (s.rd u reg).toNat)) ∧
        (s.debug = 2 → halted → (s.wave u.w).shape reg = .general → (s.thread u).hand = none →
          ∃ z : State, exec (.dbgreg seq (block 2)) s = .next (z.answers 0x18 seq 0 []) ∧ z = { s with waves := z.waves } ∧
            (∀ x, z.thread x = s.thread x) ∧ ∀ x r, x.lane < 32 → z.rd x r = if x = u ∧ r = reg then v else s.rd x r)) ∧
      ((∀ e ∈ s.wgs, e.2.st ≠ .debugged) → fails (.resume seq []) 0x19 6) ∧
      ∀ g G, s.Keyed → s.Still → (∀ e ∈ s.wgs, e.2.st = .debugged ↔ e.1 = g) → s.wgs.find? g = some G →
        (s.launch G.launch).hdr.determ = false → (∀ e ∈ s.waves, e.2.wg = g → e.2.launch = G.launch) →
        (∀ e ∈ s.waves, e.2.draining = false ∧ ∀ th ∈ e.2.threads, th.st = .exited ∨ (th.st = .halted ∧ th.trapQ = none ∧ th.pend = none)) →
        (∀ r, ((s.ctx (s.launch G.launch).tag).regions.find? (s.launch G.launch).rcb) = some r → r.wake = 0) →
        ∃ z : State, exec (.resume seq []) s = .next (z.answers 0x19 seq 0 []) ∧ z = { s with waves := z.waves, parts := z.parts, wgs := z.wgs } ∧
          z.wgs.find? g = some { G with st := .resident, needBanks := false } ∧ (∀ k, k ≠ g → z.wgs.find? k = s.wgs.find? k) ∧
          ∀ u ∈ s.threadsOf g, s.seated u = true → z.thread u = { s.thread u with st := .ready, pc := (s.thread u).pc + 8 } ∧
            ∃ f ∈ (z.part u.pid).filings, f.t = u ∧ f.group = 3)

/-- The authorised commands (R418, R480, R485, R489, R494, R499 to R502, R504 to R506): each consumes the nonce, answers BADSIG unless the key of the command has signed
it, and then has its effect. The layouts of BUDGET's and THERM's payloads are the model's choice. -/
def Obligations.DusiaCommands : Prop :=
  ∀ (s : State) (seq : Nat) (nonce sig : List Byte), s.Hears seq → s.mg.nonce = some nonce → sig.length = 4627 →
    let z : State := { s with mg := { s.mg with nonce := none } }
    let event (kind : Nat) (data : List Byte) : BlackBox := s.bbr.add ⟨s.time, kind, 0, 5, 0, data⟩
    let signed (cmd : Nat) (body : List Byte) : Bool :=
      !s.mg.owner.isEmpty && Config.ownerSig s.mg.owner (BitVec.ofNat 8 cmd :: (body ++ nonce)) sig
    let does (i : List Byte → Instr) (cmd : Nat) (body : List Byte) (status : Nat) (t : State) : Prop :=
      exec (i (body ++ sig)) s = .next (if signed cmd body then t.answers cmd seq status [] else z.answers cmd seq 4 [])
    (∀ short, short.length < 4627 → ∀ p ∈ [((.exportAck seq short : Instr), 0x06), (.power seq short, 0x13), (.budget seq short, 0x14),
      (.mapout seq short, 0x15), (.therm seq short, 0x16)], exec p.1 s = .next (z.answers p.2 seq 2 [])) ∧
    does (.exportAck seq) 0x06 [] 0 { z with bbr := { s.bbr with stored := none, lost := false } } ∧
    -- the lifecycle, the debug mode and the power state
    (let moves (new : Nat) : State := { z with mg := { z.mg with moves := some new }, bbr := event 10 [BitVec.ofNat 8 s.mg.life, BitVec.ofNat 8 new] }
     let denied (body : List Byte) : Prop := exec (.lifecycle seq (body ++ sig)) s = .next (z.answers 0x11 seq 3 [])
     (s.mg.life = 1 → s.mg.moves = none → does (.lifecycle seq) 0x11 [2] 0 (moves 2) ∧ denied [0] ∧ denied [1] ∧ denied [3]) ∧
     (s.mg.life = 2 → s.mg.moves = none → denied [0] ∧ denied [1] ∧ denied [2] ∧
      exec (.lifecycle seq (3 :: sig)) s =
        .next (if Config.makerSig (0x11 :: 3 :: nonce) sig then (moves 3).answers 0x11 seq 0 [] else z.answers 0x11 seq 4 [])) ∧
     (s.mg.life = 3 → ∀ b, denied [b])) ∧
    (∀ m : Byte, m.toNat < 3 →
      let turned : State := { z with debug := m.toNat, bbr := event 11 [BitVec.ofNat 8 s.debug, m] }
      (s.mg.life = 0 → exec (.debug seq [m]) s =
        .next ({ turned with mg := { turned.mg with nonce := some nonce } }.answers 0x12 seq 0 [])) ∧
      (s.mg.life = 1 ∨ (s.mg.life = 2 ∧ m ≠ 2) → does (.debug seq) 0x12 [m] 0 turned) ∧
      (s.mg.life = 2 → m = 2 → does (.debug seq) 0x12 [m] 3 z)) ∧
    (s.mg.power = 0 → does (.power seq) 0x13 [0] 0 z) ∧ does (.power seq) 0x13 [1] 7 z ∧
    (s.mg.power ≠ 2 → s.ctxs ≠ [] → does (.power seq) 0x13 [2] 6 z) ∧
    (∃ t, does (.power seq) 0x13 [3] 0 t ∧ t.mg = { z.mg with power := 3 } ∧ ∀ c, c < Config.cores → (t.core c).gated = true) ∧
    -- budgets, map-out and thresholds
    (∀ g e i, g < 256 → e < 2 ^ 32 → i < 2 ^ 32 →
      let groups := s.groups.put g { s.groups.get g {} with ebud := e, ibud := i }
      let sum (f : Group → Nat) : Nat := groups.foldl (fun n x => n + f x.2) 0
      let body : List Byte := BitVec.ofNat 8 g :: (bytesOfWord 4 e ++ bytesOfWord 4 i)
      if g < 18 ∧ sum (·.ebud) ≤ Config.energyLimit ∧ sum (·.ibud) ≤ Config.currentLimit then
        does (.budget seq) 0x14 body 0 { z with groups := groups, agenda := insertDue ⟨s.now, .admission⟩ s.agenda }
      else does (.budget seq) 0x14 body 7 z) ∧
    (∀ ch : Byte,
      (12 ≤ ch.toNat → does (.mapout seq) 0x15 [ch] 7 z) ∧
      (ch.toNat < 12 → s.mapNext.getLsbD ch.toNat = true → does (.mapout seq) 0x15 [ch] 0 z) ∧
      (ch.toNat < 12 → s.mapNext.getLsbD ch.toNat = false → ∃ m : BitVec 12, (∀ k, k < 12 → m.getLsbD k = (s.mapNext.getLsbD k || decide (k = ch.toNat))) ∧
        does (.mapout seq) 0x15 [ch] 0 { z with mapNext := m, bbr := event 7 [ch, 3] })) ∧
    (∀ a b c d : Byte,
      if d.toNat ≤ a.toNat ∨ d.toNat ≤ b.toNat ∨ d.toNat ≤ c.toNat ∨ 125 < d.toNat then does (.therm seq) 0x16 [a, b, c, d] 7 z
      else does (.therm seq) 0x16 [a, b, c, d] 0
        { z with mg := { z.mg with tpart := a.toNat, tcourse := b.toNat, tuncore := c.toNat, tcrit := d.toNat } }) ∧
    -- firmware, on a device in recovery
    (∀ data, exec (.fwload seq data) s = .next (s.answers 0x17 seq 6 [])) ∧
    ∀ (image : Nat) (data : List Byte), image < 4 → data.length ≤ 2 ^ 26 →
      let r : State := { s with mg := { s.mg with recovery := true } }
      let load (flags : Byte) : List Byte := [BitVec.ofNat 8 image, flags, 0, 0, 0, 0, 0, 0] ++ data
      exec (.fwload seq (load 1)) r = .next ({ r with mg := { r.mg with stage := some (image, data) } }.answers 0x17 seq 0 []) ∧
      exec (.fwload seq (load 3)) r = .next (if s.mg.accepts image data then
        { r with mg := { r.mg with
          stage := none, meas := s.mg.meas.set image (sha3 (s.mg.meas.getD image [] ++ sha3 data)), flash := s.mg.flash.set image data } }.answers 0x17 seq 0 []
        else { r with mg := { r.mg with stage := none } }.answers 0x17 seq 4 []) ∧
      exec (.fwload seq []) r = .next (r.answers 0x17 seq 2 [])

/-! The machine -/

/-- A step runs the decoded instruction (R39, R59, R76, R236, R252): where the threads of the bundle that issues next fetch one word that is an
instruction they may issue, with nothing of theirs to close or to take first, the step is the instruction's own effect on the
state in which the bundle issues. A bundle that fails check 9 does not count as issued; one whose instruction finds the queue or
buffer that it needs full (R294, R341, R358, R461) issues in a later cycle. A step of the machine itself, and an event that is due, are run
as they are. -/
def Obligations.StepRunsInstruction : Prop :=
  ∀ (s : State),
    (∀ (rest : List Todo) (core part bin w pa : Nat) (pte : Nat) (i : Instr), s.todo = .issue core part bin :: rest →
      let pid := core * 4 + part
      let b := (s.part pid).bins.get bin {}
      b.threads ≠ [] →
      (∀ u ∈ b.threads, u.core = core ∧ (s.thread u).pc = b.key ∧
        s.xlat (some core) (s.wave u.w).tag (s.privileged u) .fetch b.key.toNat = .ok pa pte ∧
        ((s.core core).icache.find? fun e => e.1 == (s.wave u.w).tag && e.2.1 == b.key.toNat) = none ∧
        decodeWord (s.counts u) w = .ok i ∧ (i.privReg? = none ∨ s.privileged u = true) ∧
        (s.thread u).windows = [] ∧ (s.thread u).trapQ = none ∧ (s.wave u.w).tileFault = none) →
      s.lineBad (pa / 128) = false → littleEndian s.mem pa 8 = w →
      let here : State := { s with todo := rest }.withBundle core part bin
      (here.roomFor i = false → step s = .next { s with todo := rest }) ∧
      (here.roomFor i = true → ∃ y z : State, step s = exec i z ∧
        z = (if y.failsNine i then y.modPart pid fun p => { p with issued := none } else y) ∧
        y = { here with
          cores := y.cores, stlb := y.stlb, walk := y.walk, waves := y.waves
          parts := s.parts.put pid { s.part pid with
            issued := some i.effClass, held := if b.evict then (s.part pid).queue.map (·.1) else (s.part pid).held } } ∧
        (∀ c, y.core c = { s.core c with icache := (y.core c).icache, tlb := (y.core c).tlb }) ∧
        ∀ k, y.wave k = { s.wave k with lastIssue := (y.wave k).lastIssue })) ∧
    (∀ i rest, s.todo = .event i :: rest → step s = exec i { s with todo := rest }) ∧
    (s.todo = [] →
      (∀ d ds, s.agenda = d :: ds → (∀ c t, c < Config.cores → s.boundary c = some t → d.time ≤ t) →
        step s = exec d.ev { s with agenda := ds, now := max s.now d.time }) ∧
      (∀ c t, c < Config.cores → s.boundary c = some t → (∀ d ∈ s.agenda.head?, t < d.time) →
        (∀ e u, e < Config.cores → s.boundary e = some u → t < u ∨ (t = u ∧ c ≤ e)) →
        step s = exec (.coreCycle c) { s with now := max s.now t }) ∧
      (s.agenda = [] → (∀ c, c < Config.cores → s.boundary c = none) → step s = .next s))

/-- Decoding undoes encoding (R39 to R50, R55 to R59, R68 to R76): the word of every instruction that is well-formed under the counts of its
kernel decodes to that instruction, with every operand at every value that its encoding admits. -/
def Obligations.DecodeEncode : Prop :=
  ∀ (c : Counts) (i : Instr), i.wf c = true → encode i < 2 ^ 64 ∧ decodeWord c (encode i) = .ok i

/-- Encoding undoes decoding (R39 to R50, R55 to R59, R68 to R76): a word that decodes gives a well-formed instruction whose word it is, so that no word is
read with a bit ignored, and no two words are one instruction. -/
def Obligations.EncodeDecode : Prop :=
  ∀ (c : Counts) (w : Nat) (i : Instr), w < 2 ^ 64 → decodeWord c w = .ok i → i.wf c = true ∧ encode i = w

/-- Words written out from the layouts of R40, R44, R46, R56, R57 and R68 decode to their instructions, and words that break a check of R59 are refused with
its cause. -/
def Obligations.DecodeWords : Prop :=
  let c := Counts.max
  let h : Hd := { neg := false, pred := 0, la := 0 }
  decodeWord c 0x0180068680000001 = .ok (.iaddImm h 13 13 1) ∧
    decodeWord c 0x600080007FFFFFFD = .ok (.bra { h with pred := 1 } (-3)) ∧
    decodeWord c 0x6400018100001388 = .ok (.waitm h 3 2 5000) ∧
    decodeWord c 0x6700000080000003 = .ok (.loop h 1 3) ∧
    decodeWord c 0x6980000000000000 = .ok (.nop h) ∧
    decodeBytes c [0, 0, 0, 0, 0, 0, 0x80, 0x69] = .ok (.nop h) ∧
    decodeWord c 0xC000000000000000 = .error ⟨1, 3⟩ ∧
    decodeWord c 0x6A00000000000000 = .error ⟨2, 0⟩ ∧
    decodeWord c 0x6980000000000001 = .error ⟨3, 0⟩ ∧
    decodeWord c 0x6984000000000000 = .error ⟨4, 0⟩ ∧
    decodeWord c 0x6980008000000000 = .error ⟨5, 0⟩ ∧
    decodeWord c 0x6980000000000800 = .error ⟨6, 0⟩ ∧
    decodeWord c 0x6988000000000000 = .error ⟨7, 0⟩

/-- The machine at the release of cold reset (R4, R9, R26, R33, R199, R447, R478, R481): the values that the rules state, no memory
written, and the boot ROM's steps next. -/
def Obligations.ResetState : Prop :=
  let s := State.reset
  s.memOk = true ∧ s.now = 0 ∧ s.mem = [] ∧ s.waves = [] ∧ s.ctxs = [] ∧ s.fatal = false ∧ s.errcfg = 0x000A000000001000 ∧
    s.debug = 0 ∧ s.mg.power = 0 ∧ s.mg.tcrit = 115 ∧ s.mg.tuncore = 100 ∧ s.mg.tcourse = 95 ∧ s.mg.tpart = 95 ∧
    (∀ c, (s.core c).drpcfg = 0x80404619 ∧ (s.core c).xlcfg = 1024 ∧ (s.core c).cyc = 0 ∧ (s.core c).droop = .normal) ∧
    (∀ p, (s.part p).contain = 0 ∧ (s.part p).bins = [] ∧ (s.part p).chkcnt = []) ∧
    step s = exec .coldReset { s with agenda := [] }

/-- The canonical form of memory is an invariant of the machine: every step that answers a next state keeps it (R12, R450). -/
def Obligations.MemoryInvariant : Prop :=
  ∀ (s t : State), s.memOk = true → step s = .next t → t.memOk = true
end

