-- ==== Sys2Proof/Laws/Arith.lean ====
section
/-!
SUPPORT. The readings of numbers of `n` bits, and the results of the integer types.
-/
namespace Sys2Proof

theorem two_pow_pos' (n : Nat) : (0 : Int) < ((2 ^ n : Nat) : Int) := by
  exact_mod_cast Nat.two_pow_pos n

theorem wrapNat_lt (n : Nat) (x : Int) : wrapNat n x < 2 ^ n := by
  unfold wrapNat
  have h1 := Int.emod_nonneg x (Int.ne_of_gt (two_pow_pos' n))
  have h2 := Int.emod_lt_of_pos x (two_pow_pos' n)
  omega

theorem wrapNat_cast (n : Nat) (x : Int) : ((wrapNat n x : Nat) : Int) = x % ((2 ^ n : Nat) : Int) := by
  unfold wrapNat
  exact Int.toNat_of_nonneg (Int.emod_nonneg x (Int.ne_of_gt (two_pow_pos' n)))

theorem wrapNat_natCast (n m : Nat) : wrapNat n (m : Int) = m % 2 ^ n := by
  have := wrapNat_cast n m
  omega

/-- Reading as two's complement is a representative of the residue. -/
theorem signedOf_emod (n u : Nat) : signedOf n u % ((2 ^ n : Nat) : Int) = ((u % 2 ^ n : Nat) : Int) := by
  have h : ((u % 2 ^ n : Nat) : Int) % ((2 ^ n : Nat) : Int) = ((u % 2 ^ n : Nat) : Int) := by
    rw [← Int.natCast_emod, Nat.mod_mod]
  unfold signedOf
  simp only
  split
  · exact h
  · rw [Int.sub_emod, Int.emod_self]
    simp only [Int.sub_zero, Int.emod_emod_of_dvd, Int.dvd_refl]
    exact h

theorem wrapNat_signedOf (n u : Nat) : wrapNat n (signedOf n u) = u % 2 ^ n := by
  have h1 := wrapNat_cast n (signedOf n u)
  rw [signedOf_emod] at h1
  exact_mod_cast h1

/-- The result of IADD with an immediate and its like: 32 bits. -/
theorem IT.result_s32 (x : Int) : IT.result .s32 false x = wrapNat 32 x := by
  have h : IT.result .s32 false x = wrapNat 32 (signedOf 32 (wrapNat 32 x)) := rfl
  rw [h, wrapNat_signedOf, Nat.mod_eq_of_lt (wrapNat_lt 32 x)]

end Sys2Proof
end

