-- ==== Sys2Proof/Laws/State.lean ====
section
/-!
SUPPORT. The fields of a state after each of the named updates: one equation for every field that the update leaves, and one
for the field that it changes.
-/
namespace Sys2Proof.Machine

variable (s : State)

/-! `State.setCore` -/

@[simp] theorem State.setCore_now (c : Nat) (x : Core) : (s.setCore c x).now = s.now := rfl
@[simp] theorem State.setCore_fclock (c : Nat) (x : Core) : (s.setCore c x).fclock = s.fclock := rfl
@[simp] theorem State.setCore_fsyncs (c : Nat) (x : Core) : (s.setCore c x).fsyncs = s.fsyncs := rfl
@[simp] theorem State.setCore_mem (c : Nat) (x : Core) : (s.setCore c x).mem = s.mem := rfl
@[simp] theorem State.setCore_todo (c : Nat) (x : Core) : (s.setCore c x).todo = s.todo := rfl
@[simp] theorem State.setCore_agenda (c : Nat) (x : Core) : (s.setCore c x).agenda = s.agenda := rfl
@[simp] theorem State.setCore_cur (c : Nat) (x : Core) : (s.setCore c x).cur = s.cur := rfl
@[simp] theorem State.setCore_delays (c : Nat) (x : Core) : (s.setCore c x).delays = s.delays := rfl
@[simp] theorem State.setCore_freeCtr (c : Nat) (x : Core) : (s.setCore c x).freeCtr = s.freeCtr := rfl
@[simp] theorem State.setCore_ids (c : Nat) (x : Core) : (s.setCore c x).ids = s.ids := rfl
@[simp] theorem State.setCore_cores (c : Nat) (x : Core) : (s.setCore c x).cores = s.cores.put c x := rfl
@[simp] theorem State.setCore_parts (c : Nat) (x : Core) : (s.setCore c x).parts = s.parts := rfl
@[simp] theorem State.setCore_waves (c : Nat) (x : Core) : (s.setCore c x).waves = s.waves := rfl
@[simp] theorem State.setCore_wgs (c : Nat) (x : Core) : (s.setCore c x).wgs = s.wgs := rfl
@[simp] theorem State.setCore_launches (c : Nat) (x : Core) : (s.setCore c x).launches = s.launches := rfl
@[simp] theorem State.setCore_ctxs (c : Nat) (x : Core) : (s.setCore c x).ctxs = s.ctxs := rfl
@[simp] theorem State.setCore_watches (c : Nat) (x : Core) : (s.setCore c x).watches = s.watches := rfl
@[simp] theorem State.setCore_arming (c : Nat) (x : Core) : (s.setCore c x).arming = s.arming := rfl
@[simp] theorem State.setCore_races (c : Nat) (x : Core) : (s.setCore c x).races = s.races := rfl
@[simp] theorem State.setCore_rels (c : Nat) (x : Core) : (s.setCore c x).rels = s.rels := rfl
@[simp] theorem State.setCore_scFences (c : Nat) (x : Core) : (s.setCore c x).scFences = s.scFences := rfl
@[simp] theorem State.setCore_stlb (c : Nat) (x : Core) : (s.setCore c x).stlb = s.stlb := rfl
@[simp] theorem State.setCore_walk (c : Nat) (x : Core) : (s.setCore c x).walk = s.walk := rfl
@[simp] theorem State.setCore_dirty (c : Nat) (x : Core) : (s.setCore c x).dirty = s.dirty := rfl
@[simp] theorem State.setCore_poison (c : Nat) (x : Core) : (s.setCore c x).poison = s.poison := rfl
@[simp] theorem State.setCore_linkUp (c : Nat) (x : Core) : (s.setCore c x).linkUp = s.linkUp := rfl
@[simp] theorem State.setCore_endpoint (c : Nat) (x : Core) : (s.setCore c x).endpoint = s.endpoint := rfl
@[simp] theorem State.setCore_fabric (c : Nat) (x : Core) : (s.setCore c x).fabric = s.fabric := rfl
@[simp] theorem State.setCore_fqpend (c : Nat) (x : Core) : (s.setCore c x).fqpend = s.fqpend := rfl
@[simp] theorem State.setCore_msix (c : Nat) (x : Core) : (s.setCore c x).msix = s.msix := rfl
@[simp] theorem State.setCore_hostReads (c : Nat) (x : Core) : (s.setCore c x).hostReads = s.hostReads := rfl
@[simp] theorem State.setCore_bbr (c : Nat) (x : Core) : (s.setCore c x).bbr = s.bbr := rfl
@[simp] theorem State.setCore_remotes (c : Nat) (x : Core) : (s.setCore c x).remotes = s.remotes := rfl
@[simp] theorem State.setCore_seqs (c : Nat) (x : Core) : (s.setCore c x).seqs = s.seqs := rfl
@[simp] theorem State.setCore_mapout (c : Nat) (x : Core) : (s.setCore c x).mapout = s.mapout := rfl
@[simp] theorem State.setCore_mapNext (c : Nat) (x : Core) : (s.setCore c x).mapNext = s.mapNext := rfl
@[simp] theorem State.setCore_errcfg (c : Nat) (x : Core) : (s.setCore c x).errcfg = s.errcfg := rfl
@[simp] theorem State.setCore_ued (c : Nat) (x : Core) : (s.setCore c x).ued = s.ued := rfl
@[simp] theorem State.setCore_uec (c : Nat) (x : Core) : (s.setCore c x).uec = s.uec := rfl
@[simp] theorem State.setCore_ce (c : Nat) (x : Core) : (s.setCore c x).ce = s.ce := rfl
@[simp] theorem State.setCore_debug (c : Nat) (x : Core) : (s.setCore c x).debug = s.debug := rfl
@[simp] theorem State.setCore_books (c : Nat) (x : Core) : (s.setCore c x).books = s.books := rfl
@[simp] theorem State.setCore_opts (c : Nat) (x : Core) : (s.setCore c x).opts = s.opts := rfl
@[simp] theorem State.setCore_groups (c : Nat) (x : Core) : (s.setCore c x).groups = s.groups := rfl
@[simp] theorem State.setCore_ports (c : Nat) (x : Core) : (s.setCore c x).ports = s.ports := rfl
@[simp] theorem State.setCore_sources (c : Nat) (x : Core) : (s.setCore c x).sources = s.sources := rfl
@[simp] theorem State.setCore_replies (c : Nat) (x : Core) : (s.setCore c x).replies = s.replies := rfl
@[simp] theorem State.setCore_coll (c : Nat) (x : Core) : (s.setCore c x).coll = s.coll := rfl
@[simp] theorem State.setCore_plovar (c : Nat) (x : Core) : (s.setCore c x).plovar = s.plovar := rfl
@[simp] theorem State.setCore_master (c : Nat) (x : Core) : (s.setCore c x).master = s.master := rfl
@[simp] theorem State.setCore_cwarg (c : Nat) (x : Core) : (s.setCore c x).cwarg = s.cwarg := rfl
@[simp] theorem State.setCore_cwrun (c : Nat) (x : Core) : (s.setCore c x).cwrun = s.cwrun := rfl
@[simp] theorem State.setCore_cwover (c : Nat) (x : Core) : (s.setCore c x).cwover = s.cwover := rfl
@[simp] theorem State.setCore_cwres (c : Nat) (x : Core) : (s.setCore c x).cwres = s.cwres := rfl
@[simp] theorem State.setCore_cwtag (c : Nat) (x : Core) : (s.setCore c x).cwtag = s.cwtag := rfl
@[simp] theorem State.setCore_retired (c : Nat) (x : Core) : (s.setCore c x).retired = s.retired := rfl
@[simp] theorem State.setCore_retOvf (c : Nat) (x : Core) : (s.setCore c x).retOvf = s.retOvf := rfl
@[simp] theorem State.setCore_quar (c : Nat) (x : Core) : (s.setCore c x).quar = s.quar := rfl
@[simp] theorem State.setCore_upsets (c : Nat) (x : Core) : (s.setCore c x).upsets = s.upsets := rfl
@[simp] theorem State.setCore_losses (c : Nat) (x : Core) : (s.setCore c x).losses = s.losses := rfl
@[simp] theorem State.setCore_badChans (c : Nat) (x : Core) : (s.setCore c x).badChans = s.badChans := rfl
@[simp] theorem State.setCore_badCourses (c : Nat) (x : Core) : (s.setCore c x).badCourses = s.badCourses := rfl
@[simp] theorem State.setCore_fatal (c : Nat) (x : Core) : (s.setCore c x).fatal = s.fatal := rfl
@[simp] theorem State.setCore_therms (c : Nat) (x : Core) : (s.setCore c x).therms = s.therms := rfl
@[simp] theorem State.setCore_mg (c : Nat) (x : Core) : (s.setCore c x).mg = s.mg := rfl

/-! `State.modCore` -/

@[simp] theorem State.modCore_now (c : Nat) (f : Core → Core) : (s.modCore c f).now = s.now := rfl
@[simp] theorem State.modCore_fclock (c : Nat) (f : Core → Core) : (s.modCore c f).fclock = s.fclock := rfl
@[simp] theorem State.modCore_fsyncs (c : Nat) (f : Core → Core) : (s.modCore c f).fsyncs = s.fsyncs := rfl
@[simp] theorem State.modCore_mem (c : Nat) (f : Core → Core) : (s.modCore c f).mem = s.mem := rfl
@[simp] theorem State.modCore_todo (c : Nat) (f : Core → Core) : (s.modCore c f).todo = s.todo := rfl
@[simp] theorem State.modCore_agenda (c : Nat) (f : Core → Core) : (s.modCore c f).agenda = s.agenda := rfl
@[simp] theorem State.modCore_cur (c : Nat) (f : Core → Core) : (s.modCore c f).cur = s.cur := rfl
@[simp] theorem State.modCore_delays (c : Nat) (f : Core → Core) : (s.modCore c f).delays = s.delays := rfl
@[simp] theorem State.modCore_freeCtr (c : Nat) (f : Core → Core) : (s.modCore c f).freeCtr = s.freeCtr := rfl
@[simp] theorem State.modCore_ids (c : Nat) (f : Core → Core) : (s.modCore c f).ids = s.ids := rfl
@[simp] theorem State.modCore_cores (c : Nat) (f : Core → Core) : (s.modCore c f).cores = s.cores.put c (f (s.core c)) := rfl
@[simp] theorem State.modCore_parts (c : Nat) (f : Core → Core) : (s.modCore c f).parts = s.parts := rfl
@[simp] theorem State.modCore_waves (c : Nat) (f : Core → Core) : (s.modCore c f).waves = s.waves := rfl
@[simp] theorem State.modCore_wgs (c : Nat) (f : Core → Core) : (s.modCore c f).wgs = s.wgs := rfl
@[simp] theorem State.modCore_launches (c : Nat) (f : Core → Core) : (s.modCore c f).launches = s.launches := rfl
@[simp] theorem State.modCore_ctxs (c : Nat) (f : Core → Core) : (s.modCore c f).ctxs = s.ctxs := rfl
@[simp] theorem State.modCore_watches (c : Nat) (f : Core → Core) : (s.modCore c f).watches = s.watches := rfl
@[simp] theorem State.modCore_arming (c : Nat) (f : Core → Core) : (s.modCore c f).arming = s.arming := rfl
@[simp] theorem State.modCore_races (c : Nat) (f : Core → Core) : (s.modCore c f).races = s.races := rfl
@[simp] theorem State.modCore_rels (c : Nat) (f : Core → Core) : (s.modCore c f).rels = s.rels := rfl
@[simp] theorem State.modCore_scFences (c : Nat) (f : Core → Core) : (s.modCore c f).scFences = s.scFences := rfl
@[simp] theorem State.modCore_stlb (c : Nat) (f : Core → Core) : (s.modCore c f).stlb = s.stlb := rfl
@[simp] theorem State.modCore_walk (c : Nat) (f : Core → Core) : (s.modCore c f).walk = s.walk := rfl
@[simp] theorem State.modCore_dirty (c : Nat) (f : Core → Core) : (s.modCore c f).dirty = s.dirty := rfl
@[simp] theorem State.modCore_poison (c : Nat) (f : Core → Core) : (s.modCore c f).poison = s.poison := rfl
@[simp] theorem State.modCore_linkUp (c : Nat) (f : Core → Core) : (s.modCore c f).linkUp = s.linkUp := rfl
@[simp] theorem State.modCore_endpoint (c : Nat) (f : Core → Core) : (s.modCore c f).endpoint = s.endpoint := rfl
@[simp] theorem State.modCore_fabric (c : Nat) (f : Core → Core) : (s.modCore c f).fabric = s.fabric := rfl
@[simp] theorem State.modCore_fqpend (c : Nat) (f : Core → Core) : (s.modCore c f).fqpend = s.fqpend := rfl
@[simp] theorem State.modCore_msix (c : Nat) (f : Core → Core) : (s.modCore c f).msix = s.msix := rfl
@[simp] theorem State.modCore_hostReads (c : Nat) (f : Core → Core) : (s.modCore c f).hostReads = s.hostReads := rfl
@[simp] theorem State.modCore_bbr (c : Nat) (f : Core → Core) : (s.modCore c f).bbr = s.bbr := rfl
@[simp] theorem State.modCore_remotes (c : Nat) (f : Core → Core) : (s.modCore c f).remotes = s.remotes := rfl
@[simp] theorem State.modCore_seqs (c : Nat) (f : Core → Core) : (s.modCore c f).seqs = s.seqs := rfl
@[simp] theorem State.modCore_mapout (c : Nat) (f : Core → Core) : (s.modCore c f).mapout = s.mapout := rfl
@[simp] theorem State.modCore_mapNext (c : Nat) (f : Core → Core) : (s.modCore c f).mapNext = s.mapNext := rfl
@[simp] theorem State.modCore_errcfg (c : Nat) (f : Core → Core) : (s.modCore c f).errcfg = s.errcfg := rfl
@[simp] theorem State.modCore_ued (c : Nat) (f : Core → Core) : (s.modCore c f).ued = s.ued := rfl
@[simp] theorem State.modCore_uec (c : Nat) (f : Core → Core) : (s.modCore c f).uec = s.uec := rfl
@[simp] theorem State.modCore_ce (c : Nat) (f : Core → Core) : (s.modCore c f).ce = s.ce := rfl
@[simp] theorem State.modCore_debug (c : Nat) (f : Core → Core) : (s.modCore c f).debug = s.debug := rfl
@[simp] theorem State.modCore_books (c : Nat) (f : Core → Core) : (s.modCore c f).books = s.books := rfl
@[simp] theorem State.modCore_opts (c : Nat) (f : Core → Core) : (s.modCore c f).opts = s.opts := rfl
@[simp] theorem State.modCore_groups (c : Nat) (f : Core → Core) : (s.modCore c f).groups = s.groups := rfl
@[simp] theorem State.modCore_ports (c : Nat) (f : Core → Core) : (s.modCore c f).ports = s.ports := rfl
@[simp] theorem State.modCore_sources (c : Nat) (f : Core → Core) : (s.modCore c f).sources = s.sources := rfl
@[simp] theorem State.modCore_replies (c : Nat) (f : Core → Core) : (s.modCore c f).replies = s.replies := rfl
@[simp] theorem State.modCore_coll (c : Nat) (f : Core → Core) : (s.modCore c f).coll = s.coll := rfl
@[simp] theorem State.modCore_plovar (c : Nat) (f : Core → Core) : (s.modCore c f).plovar = s.plovar := rfl
@[simp] theorem State.modCore_master (c : Nat) (f : Core → Core) : (s.modCore c f).master = s.master := rfl
@[simp] theorem State.modCore_cwarg (c : Nat) (f : Core → Core) : (s.modCore c f).cwarg = s.cwarg := rfl
@[simp] theorem State.modCore_cwrun (c : Nat) (f : Core → Core) : (s.modCore c f).cwrun = s.cwrun := rfl
@[simp] theorem State.modCore_cwover (c : Nat) (f : Core → Core) : (s.modCore c f).cwover = s.cwover := rfl
@[simp] theorem State.modCore_cwres (c : Nat) (f : Core → Core) : (s.modCore c f).cwres = s.cwres := rfl
@[simp] theorem State.modCore_cwtag (c : Nat) (f : Core → Core) : (s.modCore c f).cwtag = s.cwtag := rfl
@[simp] theorem State.modCore_retired (c : Nat) (f : Core → Core) : (s.modCore c f).retired = s.retired := rfl
@[simp] theorem State.modCore_retOvf (c : Nat) (f : Core → Core) : (s.modCore c f).retOvf = s.retOvf := rfl
@[simp] theorem State.modCore_quar (c : Nat) (f : Core → Core) : (s.modCore c f).quar = s.quar := rfl
@[simp] theorem State.modCore_upsets (c : Nat) (f : Core → Core) : (s.modCore c f).upsets = s.upsets := rfl
@[simp] theorem State.modCore_losses (c : Nat) (f : Core → Core) : (s.modCore c f).losses = s.losses := rfl
@[simp] theorem State.modCore_badChans (c : Nat) (f : Core → Core) : (s.modCore c f).badChans = s.badChans := rfl
@[simp] theorem State.modCore_badCourses (c : Nat) (f : Core → Core) : (s.modCore c f).badCourses = s.badCourses := rfl
@[simp] theorem State.modCore_fatal (c : Nat) (f : Core → Core) : (s.modCore c f).fatal = s.fatal := rfl
@[simp] theorem State.modCore_therms (c : Nat) (f : Core → Core) : (s.modCore c f).therms = s.therms := rfl
@[simp] theorem State.modCore_mg (c : Nat) (f : Core → Core) : (s.modCore c f).mg = s.mg := rfl

/-! `State.setPart` -/

@[simp] theorem State.setPart_now (p : Nat) (x : Part) : (s.setPart p x).now = s.now := rfl
@[simp] theorem State.setPart_fclock (p : Nat) (x : Part) : (s.setPart p x).fclock = s.fclock := rfl
@[simp] theorem State.setPart_fsyncs (p : Nat) (x : Part) : (s.setPart p x).fsyncs = s.fsyncs := rfl
@[simp] theorem State.setPart_mem (p : Nat) (x : Part) : (s.setPart p x).mem = s.mem := rfl
@[simp] theorem State.setPart_todo (p : Nat) (x : Part) : (s.setPart p x).todo = s.todo := rfl
@[simp] theorem State.setPart_agenda (p : Nat) (x : Part) : (s.setPart p x).agenda = s.agenda := rfl
@[simp] theorem State.setPart_cur (p : Nat) (x : Part) : (s.setPart p x).cur = s.cur := rfl
@[simp] theorem State.setPart_delays (p : Nat) (x : Part) : (s.setPart p x).delays = s.delays := rfl
@[simp] theorem State.setPart_freeCtr (p : Nat) (x : Part) : (s.setPart p x).freeCtr = s.freeCtr := rfl
@[simp] theorem State.setPart_ids (p : Nat) (x : Part) : (s.setPart p x).ids = s.ids := rfl
@[simp] theorem State.setPart_cores (p : Nat) (x : Part) : (s.setPart p x).cores = s.cores := rfl
@[simp] theorem State.setPart_parts (p : Nat) (x : Part) : (s.setPart p x).parts = s.parts.put p x := rfl
@[simp] theorem State.setPart_waves (p : Nat) (x : Part) : (s.setPart p x).waves = s.waves := rfl
@[simp] theorem State.setPart_wgs (p : Nat) (x : Part) : (s.setPart p x).wgs = s.wgs := rfl
@[simp] theorem State.setPart_launches (p : Nat) (x : Part) : (s.setPart p x).launches = s.launches := rfl
@[simp] theorem State.setPart_ctxs (p : Nat) (x : Part) : (s.setPart p x).ctxs = s.ctxs := rfl
@[simp] theorem State.setPart_watches (p : Nat) (x : Part) : (s.setPart p x).watches = s.watches := rfl
@[simp] theorem State.setPart_arming (p : Nat) (x : Part) : (s.setPart p x).arming = s.arming := rfl
@[simp] theorem State.setPart_races (p : Nat) (x : Part) : (s.setPart p x).races = s.races := rfl
@[simp] theorem State.setPart_rels (p : Nat) (x : Part) : (s.setPart p x).rels = s.rels := rfl
@[simp] theorem State.setPart_scFences (p : Nat) (x : Part) : (s.setPart p x).scFences = s.scFences := rfl
@[simp] theorem State.setPart_stlb (p : Nat) (x : Part) : (s.setPart p x).stlb = s.stlb := rfl
@[simp] theorem State.setPart_walk (p : Nat) (x : Part) : (s.setPart p x).walk = s.walk := rfl
@[simp] theorem State.setPart_dirty (p : Nat) (x : Part) : (s.setPart p x).dirty = s.dirty := rfl
@[simp] theorem State.setPart_poison (p : Nat) (x : Part) : (s.setPart p x).poison = s.poison := rfl
@[simp] theorem State.setPart_linkUp (p : Nat) (x : Part) : (s.setPart p x).linkUp = s.linkUp := rfl
@[simp] theorem State.setPart_endpoint (p : Nat) (x : Part) : (s.setPart p x).endpoint = s.endpoint := rfl
@[simp] theorem State.setPart_fabric (p : Nat) (x : Part) : (s.setPart p x).fabric = s.fabric := rfl
@[simp] theorem State.setPart_fqpend (p : Nat) (x : Part) : (s.setPart p x).fqpend = s.fqpend := rfl
@[simp] theorem State.setPart_msix (p : Nat) (x : Part) : (s.setPart p x).msix = s.msix := rfl
@[simp] theorem State.setPart_hostReads (p : Nat) (x : Part) : (s.setPart p x).hostReads = s.hostReads := rfl
@[simp] theorem State.setPart_bbr (p : Nat) (x : Part) : (s.setPart p x).bbr = s.bbr := rfl
@[simp] theorem State.setPart_remotes (p : Nat) (x : Part) : (s.setPart p x).remotes = s.remotes := rfl
@[simp] theorem State.setPart_seqs (p : Nat) (x : Part) : (s.setPart p x).seqs = s.seqs := rfl
@[simp] theorem State.setPart_mapout (p : Nat) (x : Part) : (s.setPart p x).mapout = s.mapout := rfl
@[simp] theorem State.setPart_mapNext (p : Nat) (x : Part) : (s.setPart p x).mapNext = s.mapNext := rfl
@[simp] theorem State.setPart_errcfg (p : Nat) (x : Part) : (s.setPart p x).errcfg = s.errcfg := rfl
@[simp] theorem State.setPart_ued (p : Nat) (x : Part) : (s.setPart p x).ued = s.ued := rfl
@[simp] theorem State.setPart_uec (p : Nat) (x : Part) : (s.setPart p x).uec = s.uec := rfl
@[simp] theorem State.setPart_ce (p : Nat) (x : Part) : (s.setPart p x).ce = s.ce := rfl
@[simp] theorem State.setPart_debug (p : Nat) (x : Part) : (s.setPart p x).debug = s.debug := rfl
@[simp] theorem State.setPart_books (p : Nat) (x : Part) : (s.setPart p x).books = s.books := rfl
@[simp] theorem State.setPart_opts (p : Nat) (x : Part) : (s.setPart p x).opts = s.opts := rfl
@[simp] theorem State.setPart_groups (p : Nat) (x : Part) : (s.setPart p x).groups = s.groups := rfl
@[simp] theorem State.setPart_ports (p : Nat) (x : Part) : (s.setPart p x).ports = s.ports := rfl
@[simp] theorem State.setPart_sources (p : Nat) (x : Part) : (s.setPart p x).sources = s.sources := rfl
@[simp] theorem State.setPart_replies (p : Nat) (x : Part) : (s.setPart p x).replies = s.replies := rfl
@[simp] theorem State.setPart_coll (p : Nat) (x : Part) : (s.setPart p x).coll = s.coll := rfl
@[simp] theorem State.setPart_plovar (p : Nat) (x : Part) : (s.setPart p x).plovar = s.plovar := rfl
@[simp] theorem State.setPart_master (p : Nat) (x : Part) : (s.setPart p x).master = s.master := rfl
@[simp] theorem State.setPart_cwarg (p : Nat) (x : Part) : (s.setPart p x).cwarg = s.cwarg := rfl
@[simp] theorem State.setPart_cwrun (p : Nat) (x : Part) : (s.setPart p x).cwrun = s.cwrun := rfl
@[simp] theorem State.setPart_cwover (p : Nat) (x : Part) : (s.setPart p x).cwover = s.cwover := rfl
@[simp] theorem State.setPart_cwres (p : Nat) (x : Part) : (s.setPart p x).cwres = s.cwres := rfl
@[simp] theorem State.setPart_cwtag (p : Nat) (x : Part) : (s.setPart p x).cwtag = s.cwtag := rfl
@[simp] theorem State.setPart_retired (p : Nat) (x : Part) : (s.setPart p x).retired = s.retired := rfl
@[simp] theorem State.setPart_retOvf (p : Nat) (x : Part) : (s.setPart p x).retOvf = s.retOvf := rfl
@[simp] theorem State.setPart_quar (p : Nat) (x : Part) : (s.setPart p x).quar = s.quar := rfl
@[simp] theorem State.setPart_upsets (p : Nat) (x : Part) : (s.setPart p x).upsets = s.upsets := rfl
@[simp] theorem State.setPart_losses (p : Nat) (x : Part) : (s.setPart p x).losses = s.losses := rfl
@[simp] theorem State.setPart_badChans (p : Nat) (x : Part) : (s.setPart p x).badChans = s.badChans := rfl
@[simp] theorem State.setPart_badCourses (p : Nat) (x : Part) : (s.setPart p x).badCourses = s.badCourses := rfl
@[simp] theorem State.setPart_fatal (p : Nat) (x : Part) : (s.setPart p x).fatal = s.fatal := rfl
@[simp] theorem State.setPart_therms (p : Nat) (x : Part) : (s.setPart p x).therms = s.therms := rfl
@[simp] theorem State.setPart_mg (p : Nat) (x : Part) : (s.setPart p x).mg = s.mg := rfl

/-! `State.modPart` -/

@[simp] theorem State.modPart_now (p : Nat) (f : Part → Part) : (s.modPart p f).now = s.now := rfl
@[simp] theorem State.modPart_fclock (p : Nat) (f : Part → Part) : (s.modPart p f).fclock = s.fclock := rfl
@[simp] theorem State.modPart_fsyncs (p : Nat) (f : Part → Part) : (s.modPart p f).fsyncs = s.fsyncs := rfl
@[simp] theorem State.modPart_mem (p : Nat) (f : Part → Part) : (s.modPart p f).mem = s.mem := rfl
@[simp] theorem State.modPart_todo (p : Nat) (f : Part → Part) : (s.modPart p f).todo = s.todo := rfl
@[simp] theorem State.modPart_agenda (p : Nat) (f : Part → Part) : (s.modPart p f).agenda = s.agenda := rfl
@[simp] theorem State.modPart_cur (p : Nat) (f : Part → Part) : (s.modPart p f).cur = s.cur := rfl
@[simp] theorem State.modPart_delays (p : Nat) (f : Part → Part) : (s.modPart p f).delays = s.delays := rfl
@[simp] theorem State.modPart_freeCtr (p : Nat) (f : Part → Part) : (s.modPart p f).freeCtr = s.freeCtr := rfl
@[simp] theorem State.modPart_ids (p : Nat) (f : Part → Part) : (s.modPart p f).ids = s.ids := rfl
@[simp] theorem State.modPart_cores (p : Nat) (f : Part → Part) : (s.modPart p f).cores = s.cores := rfl
@[simp] theorem State.modPart_parts (p : Nat) (f : Part → Part) : (s.modPart p f).parts = s.parts.put p (f (s.part p)) := rfl
@[simp] theorem State.modPart_waves (p : Nat) (f : Part → Part) : (s.modPart p f).waves = s.waves := rfl
@[simp] theorem State.modPart_wgs (p : Nat) (f : Part → Part) : (s.modPart p f).wgs = s.wgs := rfl
@[simp] theorem State.modPart_launches (p : Nat) (f : Part → Part) : (s.modPart p f).launches = s.launches := rfl
@[simp] theorem State.modPart_ctxs (p : Nat) (f : Part → Part) : (s.modPart p f).ctxs = s.ctxs := rfl
@[simp] theorem State.modPart_watches (p : Nat) (f : Part → Part) : (s.modPart p f).watches = s.watches := rfl
@[simp] theorem State.modPart_arming (p : Nat) (f : Part → Part) : (s.modPart p f).arming = s.arming := rfl
@[simp] theorem State.modPart_races (p : Nat) (f : Part → Part) : (s.modPart p f).races = s.races := rfl
@[simp] theorem State.modPart_rels (p : Nat) (f : Part → Part) : (s.modPart p f).rels = s.rels := rfl
@[simp] theorem State.modPart_scFences (p : Nat) (f : Part → Part) : (s.modPart p f).scFences = s.scFences := rfl
@[simp] theorem State.modPart_stlb (p : Nat) (f : Part → Part) : (s.modPart p f).stlb = s.stlb := rfl
@[simp] theorem State.modPart_walk (p : Nat) (f : Part → Part) : (s.modPart p f).walk = s.walk := rfl
@[simp] theorem State.modPart_dirty (p : Nat) (f : Part → Part) : (s.modPart p f).dirty = s.dirty := rfl
@[simp] theorem State.modPart_poison (p : Nat) (f : Part → Part) : (s.modPart p f).poison = s.poison := rfl
@[simp] theorem State.modPart_linkUp (p : Nat) (f : Part → Part) : (s.modPart p f).linkUp = s.linkUp := rfl
@[simp] theorem State.modPart_endpoint (p : Nat) (f : Part → Part) : (s.modPart p f).endpoint = s.endpoint := rfl
@[simp] theorem State.modPart_fabric (p : Nat) (f : Part → Part) : (s.modPart p f).fabric = s.fabric := rfl
@[simp] theorem State.modPart_fqpend (p : Nat) (f : Part → Part) : (s.modPart p f).fqpend = s.fqpend := rfl
@[simp] theorem State.modPart_msix (p : Nat) (f : Part → Part) : (s.modPart p f).msix = s.msix := rfl
@[simp] theorem State.modPart_hostReads (p : Nat) (f : Part → Part) : (s.modPart p f).hostReads = s.hostReads := rfl
@[simp] theorem State.modPart_bbr (p : Nat) (f : Part → Part) : (s.modPart p f).bbr = s.bbr := rfl
@[simp] theorem State.modPart_remotes (p : Nat) (f : Part → Part) : (s.modPart p f).remotes = s.remotes := rfl
@[simp] theorem State.modPart_seqs (p : Nat) (f : Part → Part) : (s.modPart p f).seqs = s.seqs := rfl
@[simp] theorem State.modPart_mapout (p : Nat) (f : Part → Part) : (s.modPart p f).mapout = s.mapout := rfl
@[simp] theorem State.modPart_mapNext (p : Nat) (f : Part → Part) : (s.modPart p f).mapNext = s.mapNext := rfl
@[simp] theorem State.modPart_errcfg (p : Nat) (f : Part → Part) : (s.modPart p f).errcfg = s.errcfg := rfl
@[simp] theorem State.modPart_ued (p : Nat) (f : Part → Part) : (s.modPart p f).ued = s.ued := rfl
@[simp] theorem State.modPart_uec (p : Nat) (f : Part → Part) : (s.modPart p f).uec = s.uec := rfl
@[simp] theorem State.modPart_ce (p : Nat) (f : Part → Part) : (s.modPart p f).ce = s.ce := rfl
@[simp] theorem State.modPart_debug (p : Nat) (f : Part → Part) : (s.modPart p f).debug = s.debug := rfl
@[simp] theorem State.modPart_books (p : Nat) (f : Part → Part) : (s.modPart p f).books = s.books := rfl
@[simp] theorem State.modPart_opts (p : Nat) (f : Part → Part) : (s.modPart p f).opts = s.opts := rfl
@[simp] theorem State.modPart_groups (p : Nat) (f : Part → Part) : (s.modPart p f).groups = s.groups := rfl
@[simp] theorem State.modPart_ports (p : Nat) (f : Part → Part) : (s.modPart p f).ports = s.ports := rfl
@[simp] theorem State.modPart_sources (p : Nat) (f : Part → Part) : (s.modPart p f).sources = s.sources := rfl
@[simp] theorem State.modPart_replies (p : Nat) (f : Part → Part) : (s.modPart p f).replies = s.replies := rfl
@[simp] theorem State.modPart_coll (p : Nat) (f : Part → Part) : (s.modPart p f).coll = s.coll := rfl
@[simp] theorem State.modPart_plovar (p : Nat) (f : Part → Part) : (s.modPart p f).plovar = s.plovar := rfl
@[simp] theorem State.modPart_master (p : Nat) (f : Part → Part) : (s.modPart p f).master = s.master := rfl
@[simp] theorem State.modPart_cwarg (p : Nat) (f : Part → Part) : (s.modPart p f).cwarg = s.cwarg := rfl
@[simp] theorem State.modPart_cwrun (p : Nat) (f : Part → Part) : (s.modPart p f).cwrun = s.cwrun := rfl
@[simp] theorem State.modPart_cwover (p : Nat) (f : Part → Part) : (s.modPart p f).cwover = s.cwover := rfl
@[simp] theorem State.modPart_cwres (p : Nat) (f : Part → Part) : (s.modPart p f).cwres = s.cwres := rfl
@[simp] theorem State.modPart_cwtag (p : Nat) (f : Part → Part) : (s.modPart p f).cwtag = s.cwtag := rfl
@[simp] theorem State.modPart_retired (p : Nat) (f : Part → Part) : (s.modPart p f).retired = s.retired := rfl
@[simp] theorem State.modPart_retOvf (p : Nat) (f : Part → Part) : (s.modPart p f).retOvf = s.retOvf := rfl
@[simp] theorem State.modPart_quar (p : Nat) (f : Part → Part) : (s.modPart p f).quar = s.quar := rfl
@[simp] theorem State.modPart_upsets (p : Nat) (f : Part → Part) : (s.modPart p f).upsets = s.upsets := rfl
@[simp] theorem State.modPart_losses (p : Nat) (f : Part → Part) : (s.modPart p f).losses = s.losses := rfl
@[simp] theorem State.modPart_badChans (p : Nat) (f : Part → Part) : (s.modPart p f).badChans = s.badChans := rfl
@[simp] theorem State.modPart_badCourses (p : Nat) (f : Part → Part) : (s.modPart p f).badCourses = s.badCourses := rfl
@[simp] theorem State.modPart_fatal (p : Nat) (f : Part → Part) : (s.modPart p f).fatal = s.fatal := rfl
@[simp] theorem State.modPart_therms (p : Nat) (f : Part → Part) : (s.modPart p f).therms = s.therms := rfl
@[simp] theorem State.modPart_mg (p : Nat) (f : Part → Part) : (s.modPart p f).mg = s.mg := rfl

/-! `State.modWave` -/

@[simp] theorem State.modWave_now (w : Nat) (f : Wave → Wave) : (s.modWave w f).now = s.now := rfl
@[simp] theorem State.modWave_fclock (w : Nat) (f : Wave → Wave) : (s.modWave w f).fclock = s.fclock := rfl
@[simp] theorem State.modWave_fsyncs (w : Nat) (f : Wave → Wave) : (s.modWave w f).fsyncs = s.fsyncs := rfl
@[simp] theorem State.modWave_mem (w : Nat) (f : Wave → Wave) : (s.modWave w f).mem = s.mem := rfl
@[simp] theorem State.modWave_todo (w : Nat) (f : Wave → Wave) : (s.modWave w f).todo = s.todo := rfl
@[simp] theorem State.modWave_agenda (w : Nat) (f : Wave → Wave) : (s.modWave w f).agenda = s.agenda := rfl
@[simp] theorem State.modWave_cur (w : Nat) (f : Wave → Wave) : (s.modWave w f).cur = s.cur := rfl
@[simp] theorem State.modWave_delays (w : Nat) (f : Wave → Wave) : (s.modWave w f).delays = s.delays := rfl
@[simp] theorem State.modWave_freeCtr (w : Nat) (f : Wave → Wave) : (s.modWave w f).freeCtr = s.freeCtr := rfl
@[simp] theorem State.modWave_ids (w : Nat) (f : Wave → Wave) : (s.modWave w f).ids = s.ids := rfl
@[simp] theorem State.modWave_cores (w : Nat) (f : Wave → Wave) : (s.modWave w f).cores = s.cores := rfl
@[simp] theorem State.modWave_parts (w : Nat) (f : Wave → Wave) : (s.modWave w f).parts = s.parts := rfl
@[simp] theorem State.modWave_waves (w : Nat) (f : Wave → Wave) : (s.modWave w f).waves = s.waves.upd w f := rfl
@[simp] theorem State.modWave_wgs (w : Nat) (f : Wave → Wave) : (s.modWave w f).wgs = s.wgs := rfl
@[simp] theorem State.modWave_launches (w : Nat) (f : Wave → Wave) : (s.modWave w f).launches = s.launches := rfl
@[simp] theorem State.modWave_ctxs (w : Nat) (f : Wave → Wave) : (s.modWave w f).ctxs = s.ctxs := rfl
@[simp] theorem State.modWave_watches (w : Nat) (f : Wave → Wave) : (s.modWave w f).watches = s.watches := rfl
@[simp] theorem State.modWave_arming (w : Nat) (f : Wave → Wave) : (s.modWave w f).arming = s.arming := rfl
@[simp] theorem State.modWave_races (w : Nat) (f : Wave → Wave) : (s.modWave w f).races = s.races := rfl
@[simp] theorem State.modWave_rels (w : Nat) (f : Wave → Wave) : (s.modWave w f).rels = s.rels := rfl
@[simp] theorem State.modWave_scFences (w : Nat) (f : Wave → Wave) : (s.modWave w f).scFences = s.scFences := rfl
@[simp] theorem State.modWave_stlb (w : Nat) (f : Wave → Wave) : (s.modWave w f).stlb = s.stlb := rfl
@[simp] theorem State.modWave_walk (w : Nat) (f : Wave → Wave) : (s.modWave w f).walk = s.walk := rfl
@[simp] theorem State.modWave_dirty (w : Nat) (f : Wave → Wave) : (s.modWave w f).dirty = s.dirty := rfl
@[simp] theorem State.modWave_poison (w : Nat) (f : Wave → Wave) : (s.modWave w f).poison = s.poison := rfl
@[simp] theorem State.modWave_linkUp (w : Nat) (f : Wave → Wave) : (s.modWave w f).linkUp = s.linkUp := rfl
@[simp] theorem State.modWave_endpoint (w : Nat) (f : Wave → Wave) : (s.modWave w f).endpoint = s.endpoint := rfl
@[simp] theorem State.modWave_fabric (w : Nat) (f : Wave → Wave) : (s.modWave w f).fabric = s.fabric := rfl
@[simp] theorem State.modWave_fqpend (w : Nat) (f : Wave → Wave) : (s.modWave w f).fqpend = s.fqpend := rfl
@[simp] theorem State.modWave_msix (w : Nat) (f : Wave → Wave) : (s.modWave w f).msix = s.msix := rfl
@[simp] theorem State.modWave_hostReads (w : Nat) (f : Wave → Wave) : (s.modWave w f).hostReads = s.hostReads := rfl
@[simp] theorem State.modWave_bbr (w : Nat) (f : Wave → Wave) : (s.modWave w f).bbr = s.bbr := rfl
@[simp] theorem State.modWave_remotes (w : Nat) (f : Wave → Wave) : (s.modWave w f).remotes = s.remotes := rfl
@[simp] theorem State.modWave_seqs (w : Nat) (f : Wave → Wave) : (s.modWave w f).seqs = s.seqs := rfl
@[simp] theorem State.modWave_mapout (w : Nat) (f : Wave → Wave) : (s.modWave w f).mapout = s.mapout := rfl
@[simp] theorem State.modWave_mapNext (w : Nat) (f : Wave → Wave) : (s.modWave w f).mapNext = s.mapNext := rfl
@[simp] theorem State.modWave_errcfg (w : Nat) (f : Wave → Wave) : (s.modWave w f).errcfg = s.errcfg := rfl
@[simp] theorem State.modWave_ued (w : Nat) (f : Wave → Wave) : (s.modWave w f).ued = s.ued := rfl
@[simp] theorem State.modWave_uec (w : Nat) (f : Wave → Wave) : (s.modWave w f).uec = s.uec := rfl
@[simp] theorem State.modWave_ce (w : Nat) (f : Wave → Wave) : (s.modWave w f).ce = s.ce := rfl
@[simp] theorem State.modWave_debug (w : Nat) (f : Wave → Wave) : (s.modWave w f).debug = s.debug := rfl
@[simp] theorem State.modWave_books (w : Nat) (f : Wave → Wave) : (s.modWave w f).books = s.books := rfl
@[simp] theorem State.modWave_opts (w : Nat) (f : Wave → Wave) : (s.modWave w f).opts = s.opts := rfl
@[simp] theorem State.modWave_groups (w : Nat) (f : Wave → Wave) : (s.modWave w f).groups = s.groups := rfl
@[simp] theorem State.modWave_ports (w : Nat) (f : Wave → Wave) : (s.modWave w f).ports = s.ports := rfl
@[simp] theorem State.modWave_sources (w : Nat) (f : Wave → Wave) : (s.modWave w f).sources = s.sources := rfl
@[simp] theorem State.modWave_replies (w : Nat) (f : Wave → Wave) : (s.modWave w f).replies = s.replies := rfl
@[simp] theorem State.modWave_coll (w : Nat) (f : Wave → Wave) : (s.modWave w f).coll = s.coll := rfl
@[simp] theorem State.modWave_plovar (w : Nat) (f : Wave → Wave) : (s.modWave w f).plovar = s.plovar := rfl
@[simp] theorem State.modWave_master (w : Nat) (f : Wave → Wave) : (s.modWave w f).master = s.master := rfl
@[simp] theorem State.modWave_cwarg (w : Nat) (f : Wave → Wave) : (s.modWave w f).cwarg = s.cwarg := rfl
@[simp] theorem State.modWave_cwrun (w : Nat) (f : Wave → Wave) : (s.modWave w f).cwrun = s.cwrun := rfl
@[simp] theorem State.modWave_cwover (w : Nat) (f : Wave → Wave) : (s.modWave w f).cwover = s.cwover := rfl
@[simp] theorem State.modWave_cwres (w : Nat) (f : Wave → Wave) : (s.modWave w f).cwres = s.cwres := rfl
@[simp] theorem State.modWave_cwtag (w : Nat) (f : Wave → Wave) : (s.modWave w f).cwtag = s.cwtag := rfl
@[simp] theorem State.modWave_retired (w : Nat) (f : Wave → Wave) : (s.modWave w f).retired = s.retired := rfl
@[simp] theorem State.modWave_retOvf (w : Nat) (f : Wave → Wave) : (s.modWave w f).retOvf = s.retOvf := rfl
@[simp] theorem State.modWave_quar (w : Nat) (f : Wave → Wave) : (s.modWave w f).quar = s.quar := rfl
@[simp] theorem State.modWave_upsets (w : Nat) (f : Wave → Wave) : (s.modWave w f).upsets = s.upsets := rfl
@[simp] theorem State.modWave_losses (w : Nat) (f : Wave → Wave) : (s.modWave w f).losses = s.losses := rfl
@[simp] theorem State.modWave_badChans (w : Nat) (f : Wave → Wave) : (s.modWave w f).badChans = s.badChans := rfl
@[simp] theorem State.modWave_badCourses (w : Nat) (f : Wave → Wave) : (s.modWave w f).badCourses = s.badCourses := rfl
@[simp] theorem State.modWave_fatal (w : Nat) (f : Wave → Wave) : (s.modWave w f).fatal = s.fatal := rfl
@[simp] theorem State.modWave_therms (w : Nat) (f : Wave → Wave) : (s.modWave w f).therms = s.therms := rfl
@[simp] theorem State.modWave_mg (w : Nat) (f : Wave → Wave) : (s.modWave w f).mg = s.mg := rfl

/-! `State.modThread` -/

@[simp] theorem State.modThread_now (u : TId) (f : Thread → Thread) : (s.modThread u f).now = s.now := rfl
@[simp] theorem State.modThread_fclock (u : TId) (f : Thread → Thread) : (s.modThread u f).fclock = s.fclock := rfl
@[simp] theorem State.modThread_fsyncs (u : TId) (f : Thread → Thread) : (s.modThread u f).fsyncs = s.fsyncs := rfl
@[simp] theorem State.modThread_mem (u : TId) (f : Thread → Thread) : (s.modThread u f).mem = s.mem := rfl
@[simp] theorem State.modThread_todo (u : TId) (f : Thread → Thread) : (s.modThread u f).todo = s.todo := rfl
@[simp] theorem State.modThread_agenda (u : TId) (f : Thread → Thread) : (s.modThread u f).agenda = s.agenda := rfl
@[simp] theorem State.modThread_cur (u : TId) (f : Thread → Thread) : (s.modThread u f).cur = s.cur := rfl
@[simp] theorem State.modThread_delays (u : TId) (f : Thread → Thread) : (s.modThread u f).delays = s.delays := rfl
@[simp] theorem State.modThread_freeCtr (u : TId) (f : Thread → Thread) : (s.modThread u f).freeCtr = s.freeCtr := rfl
@[simp] theorem State.modThread_ids (u : TId) (f : Thread → Thread) : (s.modThread u f).ids = s.ids := rfl
@[simp] theorem State.modThread_cores (u : TId) (f : Thread → Thread) : (s.modThread u f).cores = s.cores := rfl
@[simp] theorem State.modThread_parts (u : TId) (f : Thread → Thread) : (s.modThread u f).parts = s.parts := rfl
@[simp] theorem State.modThread_waves (u : TId) (f : Thread → Thread) : (s.modThread u f).waves = s.waves.upd u.w fun x => { x with threads := x.threads.set u.lane (f (x.thread u.lane)) } := rfl
@[simp] theorem State.modThread_wgs (u : TId) (f : Thread → Thread) : (s.modThread u f).wgs = s.wgs := rfl
@[simp] theorem State.modThread_launches (u : TId) (f : Thread → Thread) : (s.modThread u f).launches = s.launches := rfl
@[simp] theorem State.modThread_ctxs (u : TId) (f : Thread → Thread) : (s.modThread u f).ctxs = s.ctxs := rfl
@[simp] theorem State.modThread_watches (u : TId) (f : Thread → Thread) : (s.modThread u f).watches = s.watches := rfl
@[simp] theorem State.modThread_arming (u : TId) (f : Thread → Thread) : (s.modThread u f).arming = s.arming := rfl
@[simp] theorem State.modThread_races (u : TId) (f : Thread → Thread) : (s.modThread u f).races = s.races := rfl
@[simp] theorem State.modThread_rels (u : TId) (f : Thread → Thread) : (s.modThread u f).rels = s.rels := rfl
@[simp] theorem State.modThread_scFences (u : TId) (f : Thread → Thread) : (s.modThread u f).scFences = s.scFences := rfl
@[simp] theorem State.modThread_stlb (u : TId) (f : Thread → Thread) : (s.modThread u f).stlb = s.stlb := rfl
@[simp] theorem State.modThread_walk (u : TId) (f : Thread → Thread) : (s.modThread u f).walk = s.walk := rfl
@[simp] theorem State.modThread_dirty (u : TId) (f : Thread → Thread) : (s.modThread u f).dirty = s.dirty := rfl
@[simp] theorem State.modThread_poison (u : TId) (f : Thread → Thread) : (s.modThread u f).poison = s.poison := rfl
@[simp] theorem State.modThread_linkUp (u : TId) (f : Thread → Thread) : (s.modThread u f).linkUp = s.linkUp := rfl
@[simp] theorem State.modThread_endpoint (u : TId) (f : Thread → Thread) : (s.modThread u f).endpoint = s.endpoint := rfl
@[simp] theorem State.modThread_fabric (u : TId) (f : Thread → Thread) : (s.modThread u f).fabric = s.fabric := rfl
@[simp] theorem State.modThread_fqpend (u : TId) (f : Thread → Thread) : (s.modThread u f).fqpend = s.fqpend := rfl
@[simp] theorem State.modThread_msix (u : TId) (f : Thread → Thread) : (s.modThread u f).msix = s.msix := rfl
@[simp] theorem State.modThread_hostReads (u : TId) (f : Thread → Thread) : (s.modThread u f).hostReads = s.hostReads := rfl
@[simp] theorem State.modThread_bbr (u : TId) (f : Thread → Thread) : (s.modThread u f).bbr = s.bbr := rfl
@[simp] theorem State.modThread_remotes (u : TId) (f : Thread → Thread) : (s.modThread u f).remotes = s.remotes := rfl
@[simp] theorem State.modThread_seqs (u : TId) (f : Thread → Thread) : (s.modThread u f).seqs = s.seqs := rfl
@[simp] theorem State.modThread_mapout (u : TId) (f : Thread → Thread) : (s.modThread u f).mapout = s.mapout := rfl
@[simp] theorem State.modThread_mapNext (u : TId) (f : Thread → Thread) : (s.modThread u f).mapNext = s.mapNext := rfl
@[simp] theorem State.modThread_errcfg (u : TId) (f : Thread → Thread) : (s.modThread u f).errcfg = s.errcfg := rfl
@[simp] theorem State.modThread_ued (u : TId) (f : Thread → Thread) : (s.modThread u f).ued = s.ued := rfl
@[simp] theorem State.modThread_uec (u : TId) (f : Thread → Thread) : (s.modThread u f).uec = s.uec := rfl
@[simp] theorem State.modThread_ce (u : TId) (f : Thread → Thread) : (s.modThread u f).ce = s.ce := rfl
@[simp] theorem State.modThread_debug (u : TId) (f : Thread → Thread) : (s.modThread u f).debug = s.debug := rfl
@[simp] theorem State.modThread_books (u : TId) (f : Thread → Thread) : (s.modThread u f).books = s.books := rfl
@[simp] theorem State.modThread_opts (u : TId) (f : Thread → Thread) : (s.modThread u f).opts = s.opts := rfl
@[simp] theorem State.modThread_groups (u : TId) (f : Thread → Thread) : (s.modThread u f).groups = s.groups := rfl
@[simp] theorem State.modThread_ports (u : TId) (f : Thread → Thread) : (s.modThread u f).ports = s.ports := rfl
@[simp] theorem State.modThread_sources (u : TId) (f : Thread → Thread) : (s.modThread u f).sources = s.sources := rfl
@[simp] theorem State.modThread_replies (u : TId) (f : Thread → Thread) : (s.modThread u f).replies = s.replies := rfl
@[simp] theorem State.modThread_coll (u : TId) (f : Thread → Thread) : (s.modThread u f).coll = s.coll := rfl
@[simp] theorem State.modThread_plovar (u : TId) (f : Thread → Thread) : (s.modThread u f).plovar = s.plovar := rfl
@[simp] theorem State.modThread_master (u : TId) (f : Thread → Thread) : (s.modThread u f).master = s.master := rfl
@[simp] theorem State.modThread_cwarg (u : TId) (f : Thread → Thread) : (s.modThread u f).cwarg = s.cwarg := rfl
@[simp] theorem State.modThread_cwrun (u : TId) (f : Thread → Thread) : (s.modThread u f).cwrun = s.cwrun := rfl
@[simp] theorem State.modThread_cwover (u : TId) (f : Thread → Thread) : (s.modThread u f).cwover = s.cwover := rfl
@[simp] theorem State.modThread_cwres (u : TId) (f : Thread → Thread) : (s.modThread u f).cwres = s.cwres := rfl
@[simp] theorem State.modThread_cwtag (u : TId) (f : Thread → Thread) : (s.modThread u f).cwtag = s.cwtag := rfl
@[simp] theorem State.modThread_retired (u : TId) (f : Thread → Thread) : (s.modThread u f).retired = s.retired := rfl
@[simp] theorem State.modThread_retOvf (u : TId) (f : Thread → Thread) : (s.modThread u f).retOvf = s.retOvf := rfl
@[simp] theorem State.modThread_quar (u : TId) (f : Thread → Thread) : (s.modThread u f).quar = s.quar := rfl
@[simp] theorem State.modThread_upsets (u : TId) (f : Thread → Thread) : (s.modThread u f).upsets = s.upsets := rfl
@[simp] theorem State.modThread_losses (u : TId) (f : Thread → Thread) : (s.modThread u f).losses = s.losses := rfl
@[simp] theorem State.modThread_badChans (u : TId) (f : Thread → Thread) : (s.modThread u f).badChans = s.badChans := rfl
@[simp] theorem State.modThread_badCourses (u : TId) (f : Thread → Thread) : (s.modThread u f).badCourses = s.badCourses := rfl
@[simp] theorem State.modThread_fatal (u : TId) (f : Thread → Thread) : (s.modThread u f).fatal = s.fatal := rfl
@[simp] theorem State.modThread_therms (u : TId) (f : Thread → Thread) : (s.modThread u f).therms = s.therms := rfl
@[simp] theorem State.modThread_mg (u : TId) (f : Thread → Thread) : (s.modThread u f).mg = s.mg := rfl

/-! `State.modCtx` -/

@[simp] theorem State.modCtx_now (t : Nat) (f : Ctx → Ctx) : (s.modCtx t f).now = s.now := rfl
@[simp] theorem State.modCtx_fclock (t : Nat) (f : Ctx → Ctx) : (s.modCtx t f).fclock = s.fclock := rfl
@[simp] theorem State.modCtx_fsyncs (t : Nat) (f : Ctx → Ctx) : (s.modCtx t f).fsyncs = s.fsyncs := rfl
@[simp] theorem State.modCtx_mem (t : Nat) (f : Ctx → Ctx) : (s.modCtx t f).mem = s.mem := rfl
@[simp] theorem State.modCtx_todo (t : Nat) (f : Ctx → Ctx) : (s.modCtx t f).todo = s.todo := rfl
@[simp] theorem State.modCtx_agenda (t : Nat) (f : Ctx → Ctx) : (s.modCtx t f).agenda = s.agenda := rfl
@[simp] theorem State.modCtx_cur (t : Nat) (f : Ctx → Ctx) : (s.modCtx t f).cur = s.cur := rfl
@[simp] theorem State.modCtx_delays (t : Nat) (f : Ctx → Ctx) : (s.modCtx t f).delays = s.delays := rfl
@[simp] theorem State.modCtx_freeCtr (t : Nat) (f : Ctx → Ctx) : (s.modCtx t f).freeCtr = s.freeCtr := rfl
@[simp] theorem State.modCtx_ids (t : Nat) (f : Ctx → Ctx) : (s.modCtx t f).ids = s.ids := rfl
@[simp] theorem State.modCtx_cores (t : Nat) (f : Ctx → Ctx) : (s.modCtx t f).cores = s.cores := rfl
@[simp] theorem State.modCtx_parts (t : Nat) (f : Ctx → Ctx) : (s.modCtx t f).parts = s.parts := rfl
@[simp] theorem State.modCtx_waves (t : Nat) (f : Ctx → Ctx) : (s.modCtx t f).waves = s.waves := rfl
@[simp] theorem State.modCtx_wgs (t : Nat) (f : Ctx → Ctx) : (s.modCtx t f).wgs = s.wgs := rfl
@[simp] theorem State.modCtx_launches (t : Nat) (f : Ctx → Ctx) : (s.modCtx t f).launches = s.launches := rfl
@[simp] theorem State.modCtx_ctxs (t : Nat) (f : Ctx → Ctx) : (s.modCtx t f).ctxs = s.ctxs.upd t f := rfl
@[simp] theorem State.modCtx_watches (t : Nat) (f : Ctx → Ctx) : (s.modCtx t f).watches = s.watches := rfl
@[simp] theorem State.modCtx_arming (t : Nat) (f : Ctx → Ctx) : (s.modCtx t f).arming = s.arming := rfl
@[simp] theorem State.modCtx_races (t : Nat) (f : Ctx → Ctx) : (s.modCtx t f).races = s.races := rfl
@[simp] theorem State.modCtx_rels (t : Nat) (f : Ctx → Ctx) : (s.modCtx t f).rels = s.rels := rfl
@[simp] theorem State.modCtx_scFences (t : Nat) (f : Ctx → Ctx) : (s.modCtx t f).scFences = s.scFences := rfl
@[simp] theorem State.modCtx_stlb (t : Nat) (f : Ctx → Ctx) : (s.modCtx t f).stlb = s.stlb := rfl
@[simp] theorem State.modCtx_walk (t : Nat) (f : Ctx → Ctx) : (s.modCtx t f).walk = s.walk := rfl
@[simp] theorem State.modCtx_dirty (t : Nat) (f : Ctx → Ctx) : (s.modCtx t f).dirty = s.dirty := rfl
@[simp] theorem State.modCtx_poison (t : Nat) (f : Ctx → Ctx) : (s.modCtx t f).poison = s.poison := rfl
@[simp] theorem State.modCtx_linkUp (t : Nat) (f : Ctx → Ctx) : (s.modCtx t f).linkUp = s.linkUp := rfl
@[simp] theorem State.modCtx_endpoint (t : Nat) (f : Ctx → Ctx) : (s.modCtx t f).endpoint = s.endpoint := rfl
@[simp] theorem State.modCtx_fabric (t : Nat) (f : Ctx → Ctx) : (s.modCtx t f).fabric = s.fabric := rfl
@[simp] theorem State.modCtx_fqpend (t : Nat) (f : Ctx → Ctx) : (s.modCtx t f).fqpend = s.fqpend := rfl
@[simp] theorem State.modCtx_msix (t : Nat) (f : Ctx → Ctx) : (s.modCtx t f).msix = s.msix := rfl
@[simp] theorem State.modCtx_hostReads (t : Nat) (f : Ctx → Ctx) : (s.modCtx t f).hostReads = s.hostReads := rfl
@[simp] theorem State.modCtx_bbr (t : Nat) (f : Ctx → Ctx) : (s.modCtx t f).bbr = s.bbr := rfl
@[simp] theorem State.modCtx_remotes (t : Nat) (f : Ctx → Ctx) : (s.modCtx t f).remotes = s.remotes := rfl
@[simp] theorem State.modCtx_seqs (t : Nat) (f : Ctx → Ctx) : (s.modCtx t f).seqs = s.seqs := rfl
@[simp] theorem State.modCtx_mapout (t : Nat) (f : Ctx → Ctx) : (s.modCtx t f).mapout = s.mapout := rfl
@[simp] theorem State.modCtx_mapNext (t : Nat) (f : Ctx → Ctx) : (s.modCtx t f).mapNext = s.mapNext := rfl
@[simp] theorem State.modCtx_errcfg (t : Nat) (f : Ctx → Ctx) : (s.modCtx t f).errcfg = s.errcfg := rfl
@[simp] theorem State.modCtx_ued (t : Nat) (f : Ctx → Ctx) : (s.modCtx t f).ued = s.ued := rfl
@[simp] theorem State.modCtx_uec (t : Nat) (f : Ctx → Ctx) : (s.modCtx t f).uec = s.uec := rfl
@[simp] theorem State.modCtx_ce (t : Nat) (f : Ctx → Ctx) : (s.modCtx t f).ce = s.ce := rfl
@[simp] theorem State.modCtx_debug (t : Nat) (f : Ctx → Ctx) : (s.modCtx t f).debug = s.debug := rfl
@[simp] theorem State.modCtx_books (t : Nat) (f : Ctx → Ctx) : (s.modCtx t f).books = s.books := rfl
@[simp] theorem State.modCtx_opts (t : Nat) (f : Ctx → Ctx) : (s.modCtx t f).opts = s.opts := rfl
@[simp] theorem State.modCtx_groups (t : Nat) (f : Ctx → Ctx) : (s.modCtx t f).groups = s.groups := rfl
@[simp] theorem State.modCtx_ports (t : Nat) (f : Ctx → Ctx) : (s.modCtx t f).ports = s.ports := rfl
@[simp] theorem State.modCtx_sources (t : Nat) (f : Ctx → Ctx) : (s.modCtx t f).sources = s.sources := rfl
@[simp] theorem State.modCtx_replies (t : Nat) (f : Ctx → Ctx) : (s.modCtx t f).replies = s.replies := rfl
@[simp] theorem State.modCtx_coll (t : Nat) (f : Ctx → Ctx) : (s.modCtx t f).coll = s.coll := rfl
@[simp] theorem State.modCtx_plovar (t : Nat) (f : Ctx → Ctx) : (s.modCtx t f).plovar = s.plovar := rfl
@[simp] theorem State.modCtx_master (t : Nat) (f : Ctx → Ctx) : (s.modCtx t f).master = s.master := rfl
@[simp] theorem State.modCtx_cwarg (t : Nat) (f : Ctx → Ctx) : (s.modCtx t f).cwarg = s.cwarg := rfl
@[simp] theorem State.modCtx_cwrun (t : Nat) (f : Ctx → Ctx) : (s.modCtx t f).cwrun = s.cwrun := rfl
@[simp] theorem State.modCtx_cwover (t : Nat) (f : Ctx → Ctx) : (s.modCtx t f).cwover = s.cwover := rfl
@[simp] theorem State.modCtx_cwres (t : Nat) (f : Ctx → Ctx) : (s.modCtx t f).cwres = s.cwres := rfl
@[simp] theorem State.modCtx_cwtag (t : Nat) (f : Ctx → Ctx) : (s.modCtx t f).cwtag = s.cwtag := rfl
@[simp] theorem State.modCtx_retired (t : Nat) (f : Ctx → Ctx) : (s.modCtx t f).retired = s.retired := rfl
@[simp] theorem State.modCtx_retOvf (t : Nat) (f : Ctx → Ctx) : (s.modCtx t f).retOvf = s.retOvf := rfl
@[simp] theorem State.modCtx_quar (t : Nat) (f : Ctx → Ctx) : (s.modCtx t f).quar = s.quar := rfl
@[simp] theorem State.modCtx_upsets (t : Nat) (f : Ctx → Ctx) : (s.modCtx t f).upsets = s.upsets := rfl
@[simp] theorem State.modCtx_losses (t : Nat) (f : Ctx → Ctx) : (s.modCtx t f).losses = s.losses := rfl
@[simp] theorem State.modCtx_badChans (t : Nat) (f : Ctx → Ctx) : (s.modCtx t f).badChans = s.badChans := rfl
@[simp] theorem State.modCtx_badCourses (t : Nat) (f : Ctx → Ctx) : (s.modCtx t f).badCourses = s.badCourses := rfl
@[simp] theorem State.modCtx_fatal (t : Nat) (f : Ctx → Ctx) : (s.modCtx t f).fatal = s.fatal := rfl
@[simp] theorem State.modCtx_therms (t : Nat) (f : Ctx → Ctx) : (s.modCtx t f).therms = s.therms := rfl
@[simp] theorem State.modCtx_mg (t : Nat) (f : Ctx → Ctx) : (s.modCtx t f).mg = s.mg := rfl

/-! `State.modWg` -/

@[simp] theorem State.modWg_now (g : Nat) (f : Wg → Wg) : (s.modWg g f).now = s.now := rfl
@[simp] theorem State.modWg_fclock (g : Nat) (f : Wg → Wg) : (s.modWg g f).fclock = s.fclock := rfl
@[simp] theorem State.modWg_fsyncs (g : Nat) (f : Wg → Wg) : (s.modWg g f).fsyncs = s.fsyncs := rfl
@[simp] theorem State.modWg_mem (g : Nat) (f : Wg → Wg) : (s.modWg g f).mem = s.mem := rfl
@[simp] theorem State.modWg_todo (g : Nat) (f : Wg → Wg) : (s.modWg g f).todo = s.todo := rfl
@[simp] theorem State.modWg_agenda (g : Nat) (f : Wg → Wg) : (s.modWg g f).agenda = s.agenda := rfl
@[simp] theorem State.modWg_cur (g : Nat) (f : Wg → Wg) : (s.modWg g f).cur = s.cur := rfl
@[simp] theorem State.modWg_delays (g : Nat) (f : Wg → Wg) : (s.modWg g f).delays = s.delays := rfl
@[simp] theorem State.modWg_freeCtr (g : Nat) (f : Wg → Wg) : (s.modWg g f).freeCtr = s.freeCtr := rfl
@[simp] theorem State.modWg_ids (g : Nat) (f : Wg → Wg) : (s.modWg g f).ids = s.ids := rfl
@[simp] theorem State.modWg_cores (g : Nat) (f : Wg → Wg) : (s.modWg g f).cores = s.cores := rfl
@[simp] theorem State.modWg_parts (g : Nat) (f : Wg → Wg) : (s.modWg g f).parts = s.parts := rfl
@[simp] theorem State.modWg_waves (g : Nat) (f : Wg → Wg) : (s.modWg g f).waves = s.waves := rfl
@[simp] theorem State.modWg_wgs (g : Nat) (f : Wg → Wg) : (s.modWg g f).wgs = s.wgs.upd g f := rfl
@[simp] theorem State.modWg_launches (g : Nat) (f : Wg → Wg) : (s.modWg g f).launches = s.launches := rfl
@[simp] theorem State.modWg_ctxs (g : Nat) (f : Wg → Wg) : (s.modWg g f).ctxs = s.ctxs := rfl
@[simp] theorem State.modWg_watches (g : Nat) (f : Wg → Wg) : (s.modWg g f).watches = s.watches := rfl
@[simp] theorem State.modWg_arming (g : Nat) (f : Wg → Wg) : (s.modWg g f).arming = s.arming := rfl
@[simp] theorem State.modWg_races (g : Nat) (f : Wg → Wg) : (s.modWg g f).races = s.races := rfl
@[simp] theorem State.modWg_rels (g : Nat) (f : Wg → Wg) : (s.modWg g f).rels = s.rels := rfl
@[simp] theorem State.modWg_scFences (g : Nat) (f : Wg → Wg) : (s.modWg g f).scFences = s.scFences := rfl
@[simp] theorem State.modWg_stlb (g : Nat) (f : Wg → Wg) : (s.modWg g f).stlb = s.stlb := rfl
@[simp] theorem State.modWg_walk (g : Nat) (f : Wg → Wg) : (s.modWg g f).walk = s.walk := rfl
@[simp] theorem State.modWg_dirty (g : Nat) (f : Wg → Wg) : (s.modWg g f).dirty = s.dirty := rfl
@[simp] theorem State.modWg_poison (g : Nat) (f : Wg → Wg) : (s.modWg g f).poison = s.poison := rfl
@[simp] theorem State.modWg_linkUp (g : Nat) (f : Wg → Wg) : (s.modWg g f).linkUp = s.linkUp := rfl
@[simp] theorem State.modWg_endpoint (g : Nat) (f : Wg → Wg) : (s.modWg g f).endpoint = s.endpoint := rfl
@[simp] theorem State.modWg_fabric (g : Nat) (f : Wg → Wg) : (s.modWg g f).fabric = s.fabric := rfl
@[simp] theorem State.modWg_fqpend (g : Nat) (f : Wg → Wg) : (s.modWg g f).fqpend = s.fqpend := rfl
@[simp] theorem State.modWg_msix (g : Nat) (f : Wg → Wg) : (s.modWg g f).msix = s.msix := rfl
@[simp] theorem State.modWg_hostReads (g : Nat) (f : Wg → Wg) : (s.modWg g f).hostReads = s.hostReads := rfl
@[simp] theorem State.modWg_bbr (g : Nat) (f : Wg → Wg) : (s.modWg g f).bbr = s.bbr := rfl
@[simp] theorem State.modWg_remotes (g : Nat) (f : Wg → Wg) : (s.modWg g f).remotes = s.remotes := rfl
@[simp] theorem State.modWg_seqs (g : Nat) (f : Wg → Wg) : (s.modWg g f).seqs = s.seqs := rfl
@[simp] theorem State.modWg_mapout (g : Nat) (f : Wg → Wg) : (s.modWg g f).mapout = s.mapout := rfl
@[simp] theorem State.modWg_mapNext (g : Nat) (f : Wg → Wg) : (s.modWg g f).mapNext = s.mapNext := rfl
@[simp] theorem State.modWg_errcfg (g : Nat) (f : Wg → Wg) : (s.modWg g f).errcfg = s.errcfg := rfl
@[simp] theorem State.modWg_ued (g : Nat) (f : Wg → Wg) : (s.modWg g f).ued = s.ued := rfl
@[simp] theorem State.modWg_uec (g : Nat) (f : Wg → Wg) : (s.modWg g f).uec = s.uec := rfl
@[simp] theorem State.modWg_ce (g : Nat) (f : Wg → Wg) : (s.modWg g f).ce = s.ce := rfl
@[simp] theorem State.modWg_debug (g : Nat) (f : Wg → Wg) : (s.modWg g f).debug = s.debug := rfl
@[simp] theorem State.modWg_books (g : Nat) (f : Wg → Wg) : (s.modWg g f).books = s.books := rfl
@[simp] theorem State.modWg_opts (g : Nat) (f : Wg → Wg) : (s.modWg g f).opts = s.opts := rfl
@[simp] theorem State.modWg_groups (g : Nat) (f : Wg → Wg) : (s.modWg g f).groups = s.groups := rfl
@[simp] theorem State.modWg_ports (g : Nat) (f : Wg → Wg) : (s.modWg g f).ports = s.ports := rfl
@[simp] theorem State.modWg_sources (g : Nat) (f : Wg → Wg) : (s.modWg g f).sources = s.sources := rfl
@[simp] theorem State.modWg_replies (g : Nat) (f : Wg → Wg) : (s.modWg g f).replies = s.replies := rfl
@[simp] theorem State.modWg_coll (g : Nat) (f : Wg → Wg) : (s.modWg g f).coll = s.coll := rfl
@[simp] theorem State.modWg_plovar (g : Nat) (f : Wg → Wg) : (s.modWg g f).plovar = s.plovar := rfl
@[simp] theorem State.modWg_master (g : Nat) (f : Wg → Wg) : (s.modWg g f).master = s.master := rfl
@[simp] theorem State.modWg_cwarg (g : Nat) (f : Wg → Wg) : (s.modWg g f).cwarg = s.cwarg := rfl
@[simp] theorem State.modWg_cwrun (g : Nat) (f : Wg → Wg) : (s.modWg g f).cwrun = s.cwrun := rfl
@[simp] theorem State.modWg_cwover (g : Nat) (f : Wg → Wg) : (s.modWg g f).cwover = s.cwover := rfl
@[simp] theorem State.modWg_cwres (g : Nat) (f : Wg → Wg) : (s.modWg g f).cwres = s.cwres := rfl
@[simp] theorem State.modWg_cwtag (g : Nat) (f : Wg → Wg) : (s.modWg g f).cwtag = s.cwtag := rfl
@[simp] theorem State.modWg_retired (g : Nat) (f : Wg → Wg) : (s.modWg g f).retired = s.retired := rfl
@[simp] theorem State.modWg_retOvf (g : Nat) (f : Wg → Wg) : (s.modWg g f).retOvf = s.retOvf := rfl
@[simp] theorem State.modWg_quar (g : Nat) (f : Wg → Wg) : (s.modWg g f).quar = s.quar := rfl
@[simp] theorem State.modWg_upsets (g : Nat) (f : Wg → Wg) : (s.modWg g f).upsets = s.upsets := rfl
@[simp] theorem State.modWg_losses (g : Nat) (f : Wg → Wg) : (s.modWg g f).losses = s.losses := rfl
@[simp] theorem State.modWg_badChans (g : Nat) (f : Wg → Wg) : (s.modWg g f).badChans = s.badChans := rfl
@[simp] theorem State.modWg_badCourses (g : Nat) (f : Wg → Wg) : (s.modWg g f).badCourses = s.badCourses := rfl
@[simp] theorem State.modWg_fatal (g : Nat) (f : Wg → Wg) : (s.modWg g f).fatal = s.fatal := rfl
@[simp] theorem State.modWg_therms (g : Nat) (f : Wg → Wg) : (s.modWg g f).therms = s.therms := rfl
@[simp] theorem State.modWg_mg (g : Nat) (f : Wg → Wg) : (s.modWg g f).mg = s.mg := rfl

/-! `State.modLaunch` -/

@[simp] theorem State.modLaunch_now (l : Nat) (f : Launch → Launch) : (s.modLaunch l f).now = s.now := rfl
@[simp] theorem State.modLaunch_fclock (l : Nat) (f : Launch → Launch) : (s.modLaunch l f).fclock = s.fclock := rfl
@[simp] theorem State.modLaunch_fsyncs (l : Nat) (f : Launch → Launch) : (s.modLaunch l f).fsyncs = s.fsyncs := rfl
@[simp] theorem State.modLaunch_mem (l : Nat) (f : Launch → Launch) : (s.modLaunch l f).mem = s.mem := rfl
@[simp] theorem State.modLaunch_todo (l : Nat) (f : Launch → Launch) : (s.modLaunch l f).todo = s.todo := rfl
@[simp] theorem State.modLaunch_agenda (l : Nat) (f : Launch → Launch) : (s.modLaunch l f).agenda = s.agenda := rfl
@[simp] theorem State.modLaunch_cur (l : Nat) (f : Launch → Launch) : (s.modLaunch l f).cur = s.cur := rfl
@[simp] theorem State.modLaunch_delays (l : Nat) (f : Launch → Launch) : (s.modLaunch l f).delays = s.delays := rfl
@[simp] theorem State.modLaunch_freeCtr (l : Nat) (f : Launch → Launch) : (s.modLaunch l f).freeCtr = s.freeCtr := rfl
@[simp] theorem State.modLaunch_ids (l : Nat) (f : Launch → Launch) : (s.modLaunch l f).ids = s.ids := rfl
@[simp] theorem State.modLaunch_cores (l : Nat) (f : Launch → Launch) : (s.modLaunch l f).cores = s.cores := rfl
@[simp] theorem State.modLaunch_parts (l : Nat) (f : Launch → Launch) : (s.modLaunch l f).parts = s.parts := rfl
@[simp] theorem State.modLaunch_waves (l : Nat) (f : Launch → Launch) : (s.modLaunch l f).waves = s.waves := rfl
@[simp] theorem State.modLaunch_wgs (l : Nat) (f : Launch → Launch) : (s.modLaunch l f).wgs = s.wgs := rfl
@[simp] theorem State.modLaunch_launches (l : Nat) (f : Launch → Launch) : (s.modLaunch l f).launches = s.launches.upd l f := rfl
@[simp] theorem State.modLaunch_ctxs (l : Nat) (f : Launch → Launch) : (s.modLaunch l f).ctxs = s.ctxs := rfl
@[simp] theorem State.modLaunch_watches (l : Nat) (f : Launch → Launch) : (s.modLaunch l f).watches = s.watches := rfl
@[simp] theorem State.modLaunch_arming (l : Nat) (f : Launch → Launch) : (s.modLaunch l f).arming = s.arming := rfl
@[simp] theorem State.modLaunch_races (l : Nat) (f : Launch → Launch) : (s.modLaunch l f).races = s.races := rfl
@[simp] theorem State.modLaunch_rels (l : Nat) (f : Launch → Launch) : (s.modLaunch l f).rels = s.rels := rfl
@[simp] theorem State.modLaunch_scFences (l : Nat) (f : Launch → Launch) : (s.modLaunch l f).scFences = s.scFences := rfl
@[simp] theorem State.modLaunch_stlb (l : Nat) (f : Launch → Launch) : (s.modLaunch l f).stlb = s.stlb := rfl
@[simp] theorem State.modLaunch_walk (l : Nat) (f : Launch → Launch) : (s.modLaunch l f).walk = s.walk := rfl
@[simp] theorem State.modLaunch_dirty (l : Nat) (f : Launch → Launch) : (s.modLaunch l f).dirty = s.dirty := rfl
@[simp] theorem State.modLaunch_poison (l : Nat) (f : Launch → Launch) : (s.modLaunch l f).poison = s.poison := rfl
@[simp] theorem State.modLaunch_linkUp (l : Nat) (f : Launch → Launch) : (s.modLaunch l f).linkUp = s.linkUp := rfl
@[simp] theorem State.modLaunch_endpoint (l : Nat) (f : Launch → Launch) : (s.modLaunch l f).endpoint = s.endpoint := rfl
@[simp] theorem State.modLaunch_fabric (l : Nat) (f : Launch → Launch) : (s.modLaunch l f).fabric = s.fabric := rfl
@[simp] theorem State.modLaunch_fqpend (l : Nat) (f : Launch → Launch) : (s.modLaunch l f).fqpend = s.fqpend := rfl
@[simp] theorem State.modLaunch_msix (l : Nat) (f : Launch → Launch) : (s.modLaunch l f).msix = s.msix := rfl
@[simp] theorem State.modLaunch_hostReads (l : Nat) (f : Launch → Launch) : (s.modLaunch l f).hostReads = s.hostReads := rfl
@[simp] theorem State.modLaunch_bbr (l : Nat) (f : Launch → Launch) : (s.modLaunch l f).bbr = s.bbr := rfl
@[simp] theorem State.modLaunch_remotes (l : Nat) (f : Launch → Launch) : (s.modLaunch l f).remotes = s.remotes := rfl
@[simp] theorem State.modLaunch_seqs (l : Nat) (f : Launch → Launch) : (s.modLaunch l f).seqs = s.seqs := rfl
@[simp] theorem State.modLaunch_mapout (l : Nat) (f : Launch → Launch) : (s.modLaunch l f).mapout = s.mapout := rfl
@[simp] theorem State.modLaunch_mapNext (l : Nat) (f : Launch → Launch) : (s.modLaunch l f).mapNext = s.mapNext := rfl
@[simp] theorem State.modLaunch_errcfg (l : Nat) (f : Launch → Launch) : (s.modLaunch l f).errcfg = s.errcfg := rfl
@[simp] theorem State.modLaunch_ued (l : Nat) (f : Launch → Launch) : (s.modLaunch l f).ued = s.ued := rfl
@[simp] theorem State.modLaunch_uec (l : Nat) (f : Launch → Launch) : (s.modLaunch l f).uec = s.uec := rfl
@[simp] theorem State.modLaunch_ce (l : Nat) (f : Launch → Launch) : (s.modLaunch l f).ce = s.ce := rfl
@[simp] theorem State.modLaunch_debug (l : Nat) (f : Launch → Launch) : (s.modLaunch l f).debug = s.debug := rfl
@[simp] theorem State.modLaunch_books (l : Nat) (f : Launch → Launch) : (s.modLaunch l f).books = s.books := rfl
@[simp] theorem State.modLaunch_opts (l : Nat) (f : Launch → Launch) : (s.modLaunch l f).opts = s.opts := rfl
@[simp] theorem State.modLaunch_groups (l : Nat) (f : Launch → Launch) : (s.modLaunch l f).groups = s.groups := rfl
@[simp] theorem State.modLaunch_ports (l : Nat) (f : Launch → Launch) : (s.modLaunch l f).ports = s.ports := rfl
@[simp] theorem State.modLaunch_sources (l : Nat) (f : Launch → Launch) : (s.modLaunch l f).sources = s.sources := rfl
@[simp] theorem State.modLaunch_replies (l : Nat) (f : Launch → Launch) : (s.modLaunch l f).replies = s.replies := rfl
@[simp] theorem State.modLaunch_coll (l : Nat) (f : Launch → Launch) : (s.modLaunch l f).coll = s.coll := rfl
@[simp] theorem State.modLaunch_plovar (l : Nat) (f : Launch → Launch) : (s.modLaunch l f).plovar = s.plovar := rfl
@[simp] theorem State.modLaunch_master (l : Nat) (f : Launch → Launch) : (s.modLaunch l f).master = s.master := rfl
@[simp] theorem State.modLaunch_cwarg (l : Nat) (f : Launch → Launch) : (s.modLaunch l f).cwarg = s.cwarg := rfl
@[simp] theorem State.modLaunch_cwrun (l : Nat) (f : Launch → Launch) : (s.modLaunch l f).cwrun = s.cwrun := rfl
@[simp] theorem State.modLaunch_cwover (l : Nat) (f : Launch → Launch) : (s.modLaunch l f).cwover = s.cwover := rfl
@[simp] theorem State.modLaunch_cwres (l : Nat) (f : Launch → Launch) : (s.modLaunch l f).cwres = s.cwres := rfl
@[simp] theorem State.modLaunch_cwtag (l : Nat) (f : Launch → Launch) : (s.modLaunch l f).cwtag = s.cwtag := rfl
@[simp] theorem State.modLaunch_retired (l : Nat) (f : Launch → Launch) : (s.modLaunch l f).retired = s.retired := rfl
@[simp] theorem State.modLaunch_retOvf (l : Nat) (f : Launch → Launch) : (s.modLaunch l f).retOvf = s.retOvf := rfl
@[simp] theorem State.modLaunch_quar (l : Nat) (f : Launch → Launch) : (s.modLaunch l f).quar = s.quar := rfl
@[simp] theorem State.modLaunch_upsets (l : Nat) (f : Launch → Launch) : (s.modLaunch l f).upsets = s.upsets := rfl
@[simp] theorem State.modLaunch_losses (l : Nat) (f : Launch → Launch) : (s.modLaunch l f).losses = s.losses := rfl
@[simp] theorem State.modLaunch_badChans (l : Nat) (f : Launch → Launch) : (s.modLaunch l f).badChans = s.badChans := rfl
@[simp] theorem State.modLaunch_badCourses (l : Nat) (f : Launch → Launch) : (s.modLaunch l f).badCourses = s.badCourses := rfl
@[simp] theorem State.modLaunch_fatal (l : Nat) (f : Launch → Launch) : (s.modLaunch l f).fatal = s.fatal := rfl
@[simp] theorem State.modLaunch_therms (l : Nat) (f : Launch → Launch) : (s.modLaunch l f).therms = s.therms := rfl
@[simp] theorem State.modLaunch_mg (l : Nat) (f : Launch → Launch) : (s.modLaunch l f).mg = s.mg := rfl

/-! `State.at` -/

@[simp] theorem State.at_now (n : Nat) (e : Instr) : (s.at n e).now = s.now := rfl
@[simp] theorem State.at_fclock (n : Nat) (e : Instr) : (s.at n e).fclock = s.fclock := rfl
@[simp] theorem State.at_fsyncs (n : Nat) (e : Instr) : (s.at n e).fsyncs = s.fsyncs := rfl
@[simp] theorem State.at_mem (n : Nat) (e : Instr) : (s.at n e).mem = s.mem := rfl
@[simp] theorem State.at_todo (n : Nat) (e : Instr) : (s.at n e).todo = s.todo := rfl
@[simp] theorem State.at_agenda (n : Nat) (e : Instr) : (s.at n e).agenda = insertDue ⟨n, e⟩ s.agenda := rfl
@[simp] theorem State.at_cur (n : Nat) (e : Instr) : (s.at n e).cur = s.cur := rfl
@[simp] theorem State.at_delays (n : Nat) (e : Instr) : (s.at n e).delays = s.delays := rfl
@[simp] theorem State.at_freeCtr (n : Nat) (e : Instr) : (s.at n e).freeCtr = s.freeCtr := rfl
@[simp] theorem State.at_ids (n : Nat) (e : Instr) : (s.at n e).ids = s.ids := rfl
@[simp] theorem State.at_cores (n : Nat) (e : Instr) : (s.at n e).cores = s.cores := rfl
@[simp] theorem State.at_parts (n : Nat) (e : Instr) : (s.at n e).parts = s.parts := rfl
@[simp] theorem State.at_waves (n : Nat) (e : Instr) : (s.at n e).waves = s.waves := rfl
@[simp] theorem State.at_wgs (n : Nat) (e : Instr) : (s.at n e).wgs = s.wgs := rfl
@[simp] theorem State.at_launches (n : Nat) (e : Instr) : (s.at n e).launches = s.launches := rfl
@[simp] theorem State.at_ctxs (n : Nat) (e : Instr) : (s.at n e).ctxs = s.ctxs := rfl
@[simp] theorem State.at_watches (n : Nat) (e : Instr) : (s.at n e).watches = s.watches := rfl
@[simp] theorem State.at_arming (n : Nat) (e : Instr) : (s.at n e).arming = s.arming := rfl
@[simp] theorem State.at_races (n : Nat) (e : Instr) : (s.at n e).races = s.races := rfl
@[simp] theorem State.at_rels (n : Nat) (e : Instr) : (s.at n e).rels = s.rels := rfl
@[simp] theorem State.at_scFences (n : Nat) (e : Instr) : (s.at n e).scFences = s.scFences := rfl
@[simp] theorem State.at_stlb (n : Nat) (e : Instr) : (s.at n e).stlb = s.stlb := rfl
@[simp] theorem State.at_walk (n : Nat) (e : Instr) : (s.at n e).walk = s.walk := rfl
@[simp] theorem State.at_dirty (n : Nat) (e : Instr) : (s.at n e).dirty = s.dirty := rfl
@[simp] theorem State.at_poison (n : Nat) (e : Instr) : (s.at n e).poison = s.poison := rfl
@[simp] theorem State.at_linkUp (n : Nat) (e : Instr) : (s.at n e).linkUp = s.linkUp := rfl
@[simp] theorem State.at_endpoint (n : Nat) (e : Instr) : (s.at n e).endpoint = s.endpoint := rfl
@[simp] theorem State.at_fabric (n : Nat) (e : Instr) : (s.at n e).fabric = s.fabric := rfl
@[simp] theorem State.at_fqpend (n : Nat) (e : Instr) : (s.at n e).fqpend = s.fqpend := rfl
@[simp] theorem State.at_msix (n : Nat) (e : Instr) : (s.at n e).msix = s.msix := rfl
@[simp] theorem State.at_hostReads (n : Nat) (e : Instr) : (s.at n e).hostReads = s.hostReads := rfl
@[simp] theorem State.at_bbr (n : Nat) (e : Instr) : (s.at n e).bbr = s.bbr := rfl
@[simp] theorem State.at_remotes (n : Nat) (e : Instr) : (s.at n e).remotes = s.remotes := rfl
@[simp] theorem State.at_seqs (n : Nat) (e : Instr) : (s.at n e).seqs = s.seqs := rfl
@[simp] theorem State.at_mapout (n : Nat) (e : Instr) : (s.at n e).mapout = s.mapout := rfl
@[simp] theorem State.at_mapNext (n : Nat) (e : Instr) : (s.at n e).mapNext = s.mapNext := rfl
@[simp] theorem State.at_errcfg (n : Nat) (e : Instr) : (s.at n e).errcfg = s.errcfg := rfl
@[simp] theorem State.at_ued (n : Nat) (e : Instr) : (s.at n e).ued = s.ued := rfl
@[simp] theorem State.at_uec (n : Nat) (e : Instr) : (s.at n e).uec = s.uec := rfl
@[simp] theorem State.at_ce (n : Nat) (e : Instr) : (s.at n e).ce = s.ce := rfl
@[simp] theorem State.at_debug (n : Nat) (e : Instr) : (s.at n e).debug = s.debug := rfl
@[simp] theorem State.at_books (n : Nat) (e : Instr) : (s.at n e).books = s.books := rfl
@[simp] theorem State.at_opts (n : Nat) (e : Instr) : (s.at n e).opts = s.opts := rfl
@[simp] theorem State.at_groups (n : Nat) (e : Instr) : (s.at n e).groups = s.groups := rfl
@[simp] theorem State.at_ports (n : Nat) (e : Instr) : (s.at n e).ports = s.ports := rfl
@[simp] theorem State.at_sources (n : Nat) (e : Instr) : (s.at n e).sources = s.sources := rfl
@[simp] theorem State.at_replies (n : Nat) (e : Instr) : (s.at n e).replies = s.replies := rfl
@[simp] theorem State.at_coll (n : Nat) (e : Instr) : (s.at n e).coll = s.coll := rfl
@[simp] theorem State.at_plovar (n : Nat) (e : Instr) : (s.at n e).plovar = s.plovar := rfl
@[simp] theorem State.at_master (n : Nat) (e : Instr) : (s.at n e).master = s.master := rfl
@[simp] theorem State.at_cwarg (n : Nat) (e : Instr) : (s.at n e).cwarg = s.cwarg := rfl
@[simp] theorem State.at_cwrun (n : Nat) (e : Instr) : (s.at n e).cwrun = s.cwrun := rfl
@[simp] theorem State.at_cwover (n : Nat) (e : Instr) : (s.at n e).cwover = s.cwover := rfl
@[simp] theorem State.at_cwres (n : Nat) (e : Instr) : (s.at n e).cwres = s.cwres := rfl
@[simp] theorem State.at_cwtag (n : Nat) (e : Instr) : (s.at n e).cwtag = s.cwtag := rfl
@[simp] theorem State.at_retired (n : Nat) (e : Instr) : (s.at n e).retired = s.retired := rfl
@[simp] theorem State.at_retOvf (n : Nat) (e : Instr) : (s.at n e).retOvf = s.retOvf := rfl
@[simp] theorem State.at_quar (n : Nat) (e : Instr) : (s.at n e).quar = s.quar := rfl
@[simp] theorem State.at_upsets (n : Nat) (e : Instr) : (s.at n e).upsets = s.upsets := rfl
@[simp] theorem State.at_losses (n : Nat) (e : Instr) : (s.at n e).losses = s.losses := rfl
@[simp] theorem State.at_badChans (n : Nat) (e : Instr) : (s.at n e).badChans = s.badChans := rfl
@[simp] theorem State.at_badCourses (n : Nat) (e : Instr) : (s.at n e).badCourses = s.badCourses := rfl
@[simp] theorem State.at_fatal (n : Nat) (e : Instr) : (s.at n e).fatal = s.fatal := rfl
@[simp] theorem State.at_therms (n : Nat) (e : Instr) : (s.at n e).therms = s.therms := rfl
@[simp] theorem State.at_mg (n : Nat) (e : Instr) : (s.at n e).mg = s.mg := rfl

end Sys2Proof.Machine
end

