-- ==== Sys2Proof/Laws/Tab.lean ====
section
/-!
SUPPORT. Reading a table after a write, and the canonical form of memory with its reads after its writes.
-/
namespace Sys2Proof.Machine

/-! Tables -/

theorem Tab.find?_put_self {α : Type} (t : Tab α) (n : Nat) (x : α) : (t.put n x).find? n = some x := by
  induction t with
  | nil => simp [Tab.put, Tab.find?]
  | cons e t ih =>
    obtain ⟨k, v⟩ := e
    simp only [Tab.put]
    split
    · simp [Tab.find?]
    · split
      · simp [Tab.find?]
      · rename_i h
        simp [Tab.find?, h, ih]

theorem Tab.find?_put_ne {α : Type} (t : Tab α) {n k : Nat} (x : α) (h : k ≠ n) : (t.put n x).find? k = t.find? k := by
  induction t with
  | nil => simp [Tab.put, Tab.find?, h.symm]
  | cons e t ih =>
    obtain ⟨j, v⟩ := e
    simp only [Tab.put]
    split
    · simp [Tab.find?, h.symm]
    · split
      · rename_i hj
        subst hj
        simp [Tab.find?, h.symm]
      · simp [Tab.find?, ih]

theorem Tab.find?_put {α : Type} (t : Tab α) (n k : Nat) (x : α) :
    (t.put n x).find? k = if k = n then some x else t.find? k := by
  split
  · subst k
    exact t.find?_put_self n x
  · exact t.find?_put_ne x ‹_›

theorem Tab.find?_upd {α : Type} (t : Tab α) (n k : Nat) (f : α → α) :
    (t.upd n f).find? k = if k = n then (t.find? k).map f else t.find? k := by
  unfold Tab.upd
  cases h : t.find? n with
  | none =>
    by_cases hk : k = n
    · subst hk
      simp [h]
    · simp [hk]
  | some x =>
    simp only [Tab.find?_put]
    by_cases hk : k = n
    · subst hk
      simp [h]
    · simp [hk]

theorem Tab.find?_del {α : Type} (t : Tab α) (n k : Nat) : (t.del n).find? k = if k = n then none else t.find? k := by
  induction t with
  | nil => simp [Tab.del, Tab.find?]
  | cons e t ih =>
    obtain ⟨j, v⟩ := e
    simp only [Tab.del] at ih
    by_cases hj : j = n
    · subst hj
      by_cases hk : k = j
      · subst hk
        simpa [Tab.del, Tab.find?] using ih
      · have : ¬ j = k := fun h => hk h.symm
        simpa [Tab.del, Tab.find?, hk, this] using ih
    · by_cases hk : k = n
      · subst hk
        simpa [Tab.del, Tab.find?, hj] using ih
      · simp [Tab.del, Tab.find?, hj, hk] at ih ⊢
        rw [ih]

theorem Tab.get_put {α : Type} (t : Tab α) (n k : Nat) (x d : α) : (t.put n x).get k d = if k = n then x else t.get k d := by
  simp only [Tab.get, Tab.find?_put]
  split <;> rfl

theorem Tab.get_upd {α : Type} (t : Tab α) (n k : Nat) (f : α → α) (d : α) :
    (t.upd n f).get k d = if k = n ∧ (t.find? k).isSome then f (t.get k d) else t.get k d := by
  simp only [Tab.get, Tab.find?_upd]
  by_cases hk : k = n
  · cases h : t.find? k <;> simp [hk]
  · simp [hk]

/-! Memory -/

@[simp] theorem Memory.wf_nil : Memory.wf [] = true := rfl

theorem Memory.wf_cons (c : Host.Cell) (m : Memory) :
    Memory.wf (c :: m) = true ↔ c.2 ≠ emptyByte ∧ (∀ d ∈ m, c.1 < d.1) ∧ Memory.wf m = true := by
  induction m generalizing c with
  | nil => simp [Memory.wf]
  | cons d m ih =>
    simp only [Memory.wf, Bool.and_eq_true, bne_iff_ne, ne_eq, decide_eq_true_eq, List.mem_cons, forall_eq_or_imp]
    constructor
    · rintro ⟨⟨h1, h2⟩, h3⟩
      have := (ih d).1 h3
      exact ⟨h1, ⟨h2, fun e he => Nat.lt_trans h2 (this.2.1 e he)⟩, h3⟩
    · rintro ⟨h1, ⟨h2, -⟩, h3⟩
      exact ⟨⟨h1, h2⟩, h3⟩

theorem Memory.mem_set {m : Memory} {a : Nat} {b : Byte} {e : Host.Cell} (h : e ∈ m.set a b) : e.1 = a ∨ e ∈ m := by
  induction m with
  | nil =>
    simp only [Memory.set] at h
    split at h <;> simp_all
  | cons c m ih =>
    obtain ⟨k, v⟩ := c
    simp only [Memory.set] at h
    split at h
    · split at h <;> simp_all <;> grind
    · split at h
      · split at h <;> simp_all <;> grind
      · simp_all
        grind

/-- Writing a byte keeps the canonical form. -/
theorem Memory.wf_set {m : Memory} (a : Nat) (b : Byte) (h : m.wf = true) : (m.set a b).wf = true := by
  induction m with
  | nil =>
    simp only [Memory.set]
    split <;> simp_all [Memory.wf]
  | cons c m ih =>
    obtain ⟨k, v⟩ := c
    have hc := (Memory.wf_cons _ _).1 h
    simp only [Memory.set]
    split
    · split
      · exact h
      · refine (Memory.wf_cons _ _).2 ⟨by assumption, ?_, h⟩
        intro d hd
        rcases List.mem_cons.1 hd with rfl | hd
        · assumption
        · exact Nat.lt_trans (by assumption) (hc.2.1 d hd)
    · split
      · subst a
        split
        · exact hc.2.2
        · exact (Memory.wf_cons _ _).2 ⟨by assumption, hc.2.1, hc.2.2⟩
      · refine (Memory.wf_cons _ _).2 ⟨hc.1, ?_, ih hc.2.2⟩
        intro d hd
        rcases Memory.mem_set hd with hd | hd
        · simp only [hd]
          omega
        · exact hc.2.1 d hd

theorem Memory.wf_write {m : Memory} (a : Nat) (bs : List Byte) (h : m.wf = true) : (m.write a bs).wf = true := by
  induction bs generalizing m a with
  | nil => exact h
  | cons b bs ih => exact ih (a + 1) (Memory.wf_set a b h)

theorem Memory.byte_eq_empty {m : Memory} {a : Nat} (h : ∀ d ∈ m, a < d.1) : m.byte a = emptyByte := by
  induction m with
  | nil => rfl
  | cons c m ih =>
    obtain ⟨k, v⟩ := c
    have h1 := h (k, v) (List.mem_cons_self ..)
    simp only [Memory.byte]
    rw [if_neg (by simp at h1; omega)]
    exact ih fun d hd => h d (List.mem_cons_of_mem _ hd)

/-- A byte after a write of one byte. -/
theorem Memory.byte_set {m : Memory} (a c : Nat) (b : Byte) (h : m.wf = true) :
    (m.set a b).byte c = if c = a then b else m.byte c := by
  induction m with
  | nil =>
    simp only [Memory.set]
    split <;> simp_all [Memory.byte] <;> grind
  | cons e m ih =>
    obtain ⟨k, v⟩ := e
    have hc := (Memory.wf_cons _ _).1 h
    have hm := ih hc.2.2
    simp only [Memory.set]
    split
    · rename_i hk
      have ha : Memory.byte ((k, v) :: m) a = emptyByte :=
        Memory.byte_eq_empty (m := (k, v) :: m) fun d hd => by
          rcases List.mem_cons.1 hd with rfl | hd
          · exact hk
          · exact Nat.lt_trans hk (hc.2.1 d hd)
      split
      · split
        · subst c
          simp_all
        · rfl
      · by_cases h' : c = a
        · subst c
          simp [Memory.byte]
        · simp [Memory.byte, h', Ne.symm h']
    · split
      · subst a
        have hk : Memory.byte m k = emptyByte := Memory.byte_eq_empty hc.2.1
        split
        · by_cases h' : c = k
          · subst c
            simp_all
          · simp [Memory.byte, h', Ne.symm h']
        · by_cases h' : c = k
          · subst c
            simp [Memory.byte]
          · simp [Memory.byte, h', Ne.symm h']
      · rename_i hlt hne
        by_cases h' : c = a
        · subst c
          simp only [Memory.byte, if_neg hne]
          simpa using hm
        · simp only [Memory.byte, if_neg h']
          split
          · rfl
          · simpa [h'] using hm

/-- A byte after a write of some bytes. -/
theorem Memory.byte_write {m : Memory} (a c : Nat) (bs : List Byte) (h : m.wf = true) :
    (m.write a bs).byte c = if a ≤ c ∧ c < a + bs.length then bs.getD (c - a) emptyByte else m.byte c := by
  induction bs generalizing m a with
  | nil =>
    simp only [Memory.write, List.length_nil]
    rw [if_neg (by omega)]
  | cons b bs ih =>
    rw [Memory.write, ih (a + 1) (Memory.wf_set a b h), Memory.byte_set a c b h]
    by_cases h1 : c = a
    · subst c
      rw [if_neg (by omega), if_pos rfl, if_pos (by simp)]
      simp
    · by_cases h2 : a < c ∧ c < a + (bs.length + 1)
      · have h3 : a + 1 ≤ c ∧ c < a + 1 + bs.length := by omega
        have h4 : a ≤ c ∧ c < a + (b :: bs).length := by simp; omega
        rw [if_pos h3, if_pos h4]
        have : c - a = (c - (a + 1)) + 1 := by omega
        rw [this]
        simp
      · have h3 : ¬ (a + 1 ≤ c ∧ c < a + 1 + bs.length) := by omega
        have h4 : ¬ (a ≤ c ∧ c < a + (b :: bs).length) := by simp; omega
        rw [if_neg h3, if_neg h4, if_neg h1]

theorem Memory.read_length (m : Memory) (a n : Nat) : (m.read a n).length = n := by
  induction n generalizing a with
  | zero => rfl
  | succ n ih => simp [Memory.read, ih]

/-- Reading what depends on equal bytes. -/
theorem Memory.read_congr {m k : Memory} {a n : Nat} (h : ∀ c, a ≤ c → c < a + n → m.byte c = k.byte c) :
    m.read a n = k.read a n := by
  induction n generalizing a with
  | zero => rfl
  | succ n ih =>
    simp only [Memory.read]
    rw [h a (Nat.le_refl _) (by omega), ih fun c h1 h2 => h c (by omega) (by omega)]

theorem Memory.read_write_self {m : Memory} (a : Nat) (bs : List Byte) (h : m.wf = true) :
    (m.write a bs).read a bs.length = bs := by
  induction bs generalizing m a with
  | nil => rfl
  | cons b bs ih =>
    rw [List.length_cons, Memory.read]
    congr 1
    · rw [Memory.byte_write a a (b :: bs) h]
      simp
    · rw [Memory.write]
      exact ih (a + 1) (Memory.wf_set a b h)

/-- Bytes outside a write read as before. -/
theorem Memory.read_write_out {m : Memory} {a c n : Nat} (bs : List Byte) (h : m.wf = true)
    (hd : c + n ≤ a ∨ a + bs.length ≤ c) : (m.write a bs).read c n = m.read c n :=
  Memory.read_congr fun i h1 h2 => by
    rw [Memory.byte_write a i bs h, if_neg (by omega)]

end Sys2Proof.Machine
end

