-- ==== Sys2Proof/Laws/Threads.lean ====
section
/-!
SUPPORT. Waves and threads after the named updates, and folds of updates of threads: what they change and what they leave.
-/
namespace Sys2Proof.Machine

/-! One update -/

theorem Tab.mem_put {α : Type} {t : Tab α} {n : Nat} {x : α} {e : Nat × α} (h : e ∈ t.put n x) : e = (n, x) ∨ e ∈ t := by
  induction t with
  | nil => simpa [Tab.put] using h
  | cons c t ih =>
    obtain ⟨k, v⟩ := c
    simp only [Tab.put] at h
    split at h
    · simpa using h
    · split at h
      · rcases List.mem_cons.1 h with h | h
        · exact .inl h
        · exact .inr (List.mem_cons_of_mem _ h)
      · rcases List.mem_cons.1 h with h | h
        · exact .inr (h ▸ List.mem_cons_self ..)
        · exact (ih h).imp id (List.mem_cons_of_mem _)

theorem Tab.mem_of_find? {α : Type} {t : Tab α} {n : Nat} {x : α} (h : t.find? n = some x) : (n, x) ∈ t := by
  induction t with
  | nil => simp [Tab.find?] at h
  | cons c t ih =>
    obtain ⟨k, v⟩ := c
    simp only [Tab.find?] at h
    split at h
    · simp_all
    · exact List.mem_cons_of_mem _ (ih h)

theorem Tab.mem_upd {α : Type} {t : Tab α} {n : Nat} {f : α → α} {e : Nat × α} (h : e ∈ t.upd n f) :
    e ∈ t ∨ ∃ x, (n, x) ∈ t ∧ e = (n, f x) := by
  unfold Tab.upd at h
  split at h
  · rename_i x hx
    exact (Tab.mem_put h).symm.imp id fun h => ⟨x, Tab.mem_of_find? hx, h⟩
  · exact .inl h

theorem State.wave_modWave (s : State) (w k : Nat) (f : Wave → Wave) :
    (s.modWave w f).wave k = if k = w ∧ (s.waves.find? k).isSome then f (s.wave k) else s.wave k :=
  Tab.get_upd ..

theorem State.find_modWave (s : State) (w k : Nat) (f : Wave → Wave) :
    ((s.modWave w f).waves.find? k).isSome = (s.waves.find? k).isSome := by
  simp only [State.modWave, Tab.find?_upd]
  split <;> simp

@[simp] theorem State.part_setPart (s : State) (p q : Nat) (x : Part) :
    (s.setPart p x).part q = if q = p then x else s.part q := Tab.get_put ..

@[simp] theorem State.part_modPart (s : State) (p q : Nat) (f : Part → Part) :
    (s.modPart p f).part q = if q = p then f (s.part p) else s.part q := Tab.get_put ..

@[simp] theorem State.core_modCore (s : State) (c k : Nat) (f : Core → Core) :
    (s.modCore c f).core k = if k = c then f (s.core c) else s.core k := Tab.get_put ..

/-- The thread's wave is there and has its lane. -/
def State.present (s : State) (u : TId) : Bool := (s.waves.find? u.w).isSome && decide (u.lane < (s.wave u.w).threads.length)

theorem State.present_of_seated {s : State} {u : TId} (h : s.seated u = true) : s.present u = true := by
  simp only [State.seated, Bool.and_eq_true] at h
  simp [State.present, h.1.1, h.1.2]

theorem State.lane_of_seated {s : State} {u : TId} (h : s.seated u = true) : u.lane < 32 := by
  simp only [State.seated, Bool.and_eq_true, decide_eq_true_eq] at h
  exact h.2

theorem State.thread_modThread (s : State) (u v : TId) (f : Thread → Thread) :
    (s.modThread u f).thread v = if v = u ∧ s.present v = true then f (s.thread v) else s.thread v := by
  obtain ⟨w, i⟩ := u
  obtain ⟨k, j⟩ := v
  simp only [State.modThread, State.thread, State.wave_modWave, State.present, TId.mk.injEq, Bool.and_eq_true, decide_eq_true_eq]
  by_cases hw : k = w
  · subst hw
    by_cases hs : (s.waves.find? k).isSome
    · simp only [hs, and_self, if_true, Wave.thread, true_and]
      by_cases hj : j = i
      · subst hj
        by_cases hl : j < (s.wave k).threads.length
        · simp [hl]
        · simp [hl]
      · simp [hj, Ne.symm hj]
    · simp [hs]
  · simp [hw]

theorem State.present_modThread (s : State) (u v : TId) (f : Thread → Thread) :
    (s.modThread u f).present v = s.present v := by
  simp only [State.present, State.modThread, State.find_modWave, State.wave_modWave]
  congr 1
  split
  · simp
  · rfl

/-! What changes threads alone, and what changes threads and registers alone -/

/-- `t` differs from `s` in threads alone. -/
structure State.OnlyThreads (s t : State) : Prop where
  rest    : t = { s with waves := t.waves }
  waves   : ∀ w, t.wave w = { s.wave w with threads := (t.wave w).threads }
  present : ∀ u, t.present u = s.present u
  find    : ∀ w, (t.waves.find? w).isSome = (s.waves.find? w).isSome

theorem State.OnlyThreads.refl (s : State) : s.OnlyThreads s := ⟨rfl, fun _ => rfl, fun _ => rfl, fun _ => rfl⟩

theorem State.OnlyThreads.trans {s t z : State} (h : s.OnlyThreads t) (k : t.OnlyThreads z) : s.OnlyThreads z where
  rest := by rw [k.rest, h.rest]
  waves w := by rw [k.waves, h.waves]
  present u := (k.present u).trans (h.present u)
  find w := (k.find w).trans (h.find w)

theorem State.onlyThreads_modThread (s : State) (u : TId) (f : Thread → Thread) : s.OnlyThreads (s.modThread u f) where
  rest := rfl
  waves w := by
    simp only [State.modThread, State.wave_modWave]
    split <;> rfl
  present v := s.present_modThread u v f
  find w := s.find_modWave ..

theorem State.onlyThreads_foldl {α : Type} (f : State → α → State) (hf : ∀ (s : State) a, s.OnlyThreads (f s a)) (l : List α)
    (s : State) : s.OnlyThreads (l.foldl f s) := by
  induction l generalizing s with
  | nil => exact .refl s
  | cons a l ih => exact (hf s a).trans (ih _)

/-- A fold of updates, each of a thread of its own. -/
theorem State.thread_foldl (F : State → TId → State) (g : TId → Thread → Thread)
    (hF : ∀ z u v, (F z u).thread v = if v = u ∧ z.present v = true then g u (z.thread v) else z.thread v)
    (hp : ∀ z u v, (F z u).present v = z.present v) (us : List TId) (hn : us.Nodup) (s : State) (v : TId) :
    (us.foldl F s).thread v = if v ∈ us ∧ s.present v = true then g v (s.thread v) else s.thread v := by
  induction us generalizing s with
  | nil => simp
  | cons u us ih =>
    simp only [List.nodup_cons] at hn
    simp only [List.foldl_cons, ih hn.2, hp, hF, List.mem_cons]
    by_cases hv : v = u
    · subst hv
      simp [hn.1]
    · simp [hv]

theorem State.thread_foldl_modThread (us : List TId) (hn : us.Nodup) (g : TId → Thread → Thread) (s : State) (v : TId) :
    (us.foldl (fun z u => z.modThread u (g u)) s).thread v =
      if v ∈ us ∧ s.present v = true then g v (s.thread v) else s.thread v :=
  State.thread_foldl _ g (fun z u v => z.thread_modThread u v _) (fun z u v => z.present_modThread u v _) us hn s v

/-- `t` differs from `s` in threads and vector registers alone. -/
structure State.OnlyRegs (s t : State) : Prop where
  rest    : t = { s with waves := t.waves }
  waves   : ∀ w, t.wave w = { s.wave w with regs := (t.wave w).regs, threads := (t.wave w).threads }
  present : ∀ u, t.present u = s.present u
  find    : ∀ w, (t.waves.find? w).isSome = (s.waves.find? w).isSome

theorem State.OnlyThreads.regs {s t : State} (h : s.OnlyThreads t) : s.OnlyRegs t where
  rest := h.rest
  waves w := by
    have := h.waves w
    rw [this]
  present := h.present
  find := h.find

theorem State.OnlyRegs.refl (s : State) : s.OnlyRegs s := (State.OnlyThreads.refl s).regs

theorem State.OnlyRegs.trans {s t z : State} (h : s.OnlyRegs t) (k : t.OnlyRegs z) : s.OnlyRegs z where
  rest := by rw [k.rest, h.rest]
  waves w := by rw [k.waves, h.waves]
  present u := (k.present u).trans (h.present u)
  find w := (k.find w).trans (h.find w)

theorem State.onlyRegs_foldl {α : Type} (f : State → α → State) (hf : ∀ (s : State) a, s.OnlyRegs (f s a)) (l : List α)
    (s : State) : s.OnlyRegs (l.foldl f s) := by
  induction l generalizing s with
  | nil => exact .refl s
  | cons a l ih => exact (hf s a).trans (ih _)

theorem State.onlyRegs_put (s : State) (w r : Nat) (vals : List (Nat × Word)) :
    s.OnlyRegs (s.modWave w fun x => x.put r vals) where
  rest := rfl
  waves k := by
    simp only [State.wave_modWave]
    split
    · simp only [Wave.put]
      split <;> rfl
    · rfl
  present u := by
    simp only [State.present, State.find_modWave, State.wave_modWave]
    congr 1
    split
    · simp only [Wave.put]
      split <;> rfl
    · rfl
  find k := s.find_modWave ..

end Sys2Proof.Machine
end

