-- ==== Sys2Proof/Laws/Registers.lean ====
section
/-!
SUPPORT. Vector registers, banked registers and predicates after writes.
-/
namespace Sys2Proof.Machine

/-! One register of a wave -/

theorem overlay_lane (v : VReg) (vals : List (Nat × Word)) (i : Nat) (h : i < 32) :
    (VReg.general (overlay v vals)).lane i = ((vals.find? fun x => x.1 == i).map (·.2)).getD (v.lane i) := by
  simp only [VReg.lane, overlay, List.getD_eq_getElem?_getD, List.getElem?_map, List.getElem?_range h, Option.map_some,
    Option.getD_some]

theorem Wave.vreg_put (x : Wave) (r k : Nat) (vals : List (Nat × Word)) (hg : x.shape r = .general) :
    (x.put r vals).vreg k = if k = r ∧ r ≠ 255 then .general (overlay (x.vreg r) vals) else x.vreg k := by
  unfold Wave.put
  by_cases h : r = 255
  · subst h
    simp
  · simp only [beq_iff_eq, h, if_false, Wave.vreg, Tab.get_put, hg, Shape.fit, Option.getD_some]
    by_cases hk : k = r
    · subst hk
      simp [h]
    · simp [hk]

@[simp] theorem Wave.shape_put (x : Wave) (r k : Nat) (vals : List (Nat × Word)) : (x.put r vals).shape k = x.shape k := by
  unfold Wave.put
  split <;> rfl

@[simp] theorem Wave.threads_put (x : Wave) (r : Nat) (vals : List (Nat × Word)) : (x.put r vals).threads = x.threads := by
  unfold Wave.put
  split <;> rfl

/-- The registers after a fold of writes, each of a register of its own. -/
theorem State.vreg_foldl_put (ps : List Put) (L : List (Nat × Nat)) (hn : L.Nodup) (s : State)
    (hg : ∀ e ∈ L, (s.wave e.1).shape e.2 = .general) (h255 : ∀ e ∈ L, e.2 ≠ 255) (w r : Nat) :
    ((L.foldl (fun z (e : Nat × Nat) => z.modWave e.1 fun x => x.put e.2 (putVals ps e.1 e.2)) s).wave w).vreg r =
      if (w, r) ∈ L ∧ (s.waves.find? w).isSome then .general (overlay ((s.wave w).vreg r) (putVals ps w r))
      else (s.wave w).vreg r := by
  induction L generalizing s with
  | nil => simp
  | cons e L ih =>
    obtain ⟨k, j⟩ := e
    simp only [List.nodup_cons] at hn
    have hgk := hg (k, j) (List.mem_cons_self ..)
    have h2 := h255 (k, j) (List.mem_cons_self ..)
    rw [List.foldl_cons, ih hn.2]
    · simp only [State.find_modWave, State.wave_modWave, List.mem_cons, Prod.mk.injEq]
      by_cases hw : w = k
      · subst hw
        by_cases hs : (s.waves.find? w).isSome
        · simp only [hs, and_self, if_true, and_true]
          rw [Wave.vreg_put _ _ _ _ hgk]
          by_cases hr : r = j
          · subst hr
            simp_all
          · simp [hr]
        · simp [hs]
      · simp [hw]
    · intro e he
      rw [State.wave_modWave]
      split
      · rw [Wave.shape_put]
        exact hg e (List.mem_cons_of_mem _ he)
      · exact hg e (List.mem_cons_of_mem _ he)
    · exact fun e he => h255 e (List.mem_cons_of_mem _ he)

theorem State.onlyRegs_putAll (s : State) (ps : List Put) : s.OnlyRegs (s.putAll ps) :=
  State.onlyRegs_foldl (fun s (e : Nat × Nat) => s.modWave e.1 fun x => x.put e.2 (putVals ps e.1 e.2))
    (fun s e => s.onlyRegs_put e.1 e.2 _) _ s

theorem mem_putRegs {ps : List Put} {w r : Nat} : (w, r) ∈ putRegs ps ↔ ∃ p ∈ ps, p.w = w ∧ p.reg = r := by
  simp [putRegs]

theorem putVals_none {ps : List Put} {w r : Nat} (h : (w, r) ∉ putRegs ps) : putVals ps w r = [] := by
  rw [mem_putRegs] at h
  simp only [putVals, List.map_eq_nil_iff, List.filter_eq_nil_iff, Bool.and_eq_true, beq_iff_eq]
  exact fun p hp hpr => h ⟨p, hp, hpr⟩

theorem eraseDups_nodup {α : Type} [BEq α] [LawfulBEq α] (l : List α) : l.eraseDups.Nodup := by
  induction h : l.length using Nat.strongRecOn generalizing l with
  | _ n ih =>
    cases l with
    | nil => simp
    | cons a l =>
      rw [List.eraseDups_cons, List.nodup_cons]
      refine ⟨by simp, ih _ ?_ _ rfl⟩
      have := List.length_filter_le (fun b => !b == a) l
      simp at h
      omega

/-- A lane of a register after some writes: the first of the writes that name it, where there is one. -/
theorem State.lane_putAll (s : State) (ps : List Put) (hg : ∀ p ∈ ps, (s.wave p.w).shape p.reg = .general)
    (h255 : ∀ p ∈ ps, p.reg ≠ 255) (w r i : Nat) (hw : (s.waves.find? w).isSome) (hi : i < 32) :
    (((s.putAll ps).wave w).vreg r).lane i =
      (((putVals ps w r).find? fun x => x.1 == i).map (·.2)).getD (((s.wave w).vreg r).lane i) := by
  have := s.vreg_foldl_put ps (putRegs ps) (eraseDups_nodup _)
    (fun e he => by
      obtain ⟨p, hp, h1, h2⟩ := mem_putRegs.1 he
      exact h1 ▸ h2 ▸ hg p hp)
    (fun e he => by
      obtain ⟨p, hp, -, h2⟩ := mem_putRegs.1 he
      exact h2 ▸ h255 p hp) w r
  simp only [State.putAll]
  rw [this]
  by_cases hm : (w, r) ∈ putRegs ps
  · rw [if_pos ⟨hm, hw⟩, overlay_lane _ _ _ hi]
  · rw [if_neg fun h => hm h.1, putVals_none hm]
    rfl

/-! Banked registers and predicates -/

theorem setBit_get (x : BitVec 8) (k p : Nat) (b : Bool) (hp : p < 8) :
    (setBit x k b).getLsbD p = if p = k then b else x.getLsbD p := by
  unfold setBit
  have hpow : (BitVec.ofNat 8 (2 ^ k)).getLsbD p = decide (p = k) := by
    rw [BitVec.getLsbD_ofNat, Nat.testBit_two_pow]
    simp [hp, eq_comm]
  cases b
  · simp only [Bool.false_eq_true, if_false, BitVec.getLsbD_and, BitVec.getLsbD_not, hpow, hp, decide_true, Bool.true_and]
    by_cases h : p = k <;> simp [h]
  · simp only [if_true, BitVec.getLsbD_or, hpow]
    by_cases h : p = k <;> simp [h]

theorem Thread.pred_setPred (th : Thread) (k p : Nat) (b : Bool) (hp : p < 8) :
    (th.setPred k b).pred p = if p = k ∧ p ≠ 0 then b else th.pred p := by
  unfold Thread.setPred
  by_cases h0 : k = 0
  · subst h0
    by_cases h : p = 0 <;> simp [h, Thread.pred]
  · simp only [beq_iff_eq, h0, if_false]
    by_cases hp0 : p = 0
    · subst hp0
      have : ¬ 0 = k := fun h => h0 h.symm
      cases hh : th.hand <;> simp [Thread.pred]
    · cases hh : th.hand <;> simp [Thread.pred, beq_eq_false_iff_ne.2 hp0, hp0, hh, setBit_get _ _ _ _ hp]

end Sys2Proof.Machine
end

