-- ==== Sys2Proof/Laws/Compute.lean ====
section
/-!
SUPPORT. What the instructions that compute results from each thread's own sources do (`State.compute`): the results, and
all that stays.
-/
namespace Sys2Proof.Machine

/-! The issue -/

/-- What the issue of an instruction does to a thread. -/
def Thread.issue (c : Cur) (dr dp : List Nat) (act : Bool) (th : Thread) : Thread :=
  match if act then th.conflict dr dp else none with
  | some (x, r) =>
    th.addTrap ⟨.general .lookahead (half := c.half) (reg := r) (iaddr := x.pc.toNat), c.pc, th.llSeq⟩
  | none => th.stepped c.pc

theorem State.modThread_congr (s : State) (u : TId) {f g : Thread → Thread} (h : f (s.thread u) = g (s.thread u)) :
    s.modThread u f = s.modThread u g := by
  have hw : ∀ (t : Tab Wave) (p q : Wave → Wave), (∀ x, t.find? u.w = some x → p x = q x) → t.upd u.w p = t.upd u.w q := by
    intro t p q hpq
    unfold Tab.upd
    cases hx : t.find? u.w with
    | none => rfl
    | some x =>
      show t.put u.w (p x) = t.put u.w (q x)
      rw [hpq x hx]
  have := hw s.waves (fun x => { x with threads := x.threads.set u.lane (f (x.thread u.lane)) })
    (fun x => { x with threads := x.threads.set u.lane (g (x.thread u.lane)) }) fun x hx => by
      have hwave : s.wave u.w = x := by simp [State.wave, Tab.get, hx]
      simp only [State.thread, hwave] at h
      rw [h]
  simp only [State.modThread, State.modWave, this]

theorem State.stepThread_eq (s : State) (dr dp : List Nat) (act : Bool) (u : TId) :
    s.stepThread dr dp act u = s.modThread u (Thread.issue s.cur dr dp act) := by
  unfold State.stepThread
  split
  · rename_i x r h
    exact s.modThread_congr u (by simp only [Thread.issue, h]; rfl)
  · rename_i h
    exact s.modThread_congr u (by simp only [Thread.issue, h]; rfl)

theorem State.begin_eq (s : State) (h : Hd) (dr dp : List Nat) :
    s.begin h dr dp =
      s.cur.threads.foldl (fun z u => z.modThread u (Thread.issue s.cur dr dp ((s.active h).contains u))) s := by
  have : ∀ (l : List TId) (z : State), z.cur = s.cur →
      l.foldl (fun z u => z.stepThread dr dp ((s.active h).contains u) u) z =
        l.foldl (fun z u => z.modThread u (Thread.issue s.cur dr dp ((s.active h).contains u))) z := by
    intro l
    induction l with
    | nil => intros; rfl
    | cons u l ih =>
      intro z hz
      rw [List.foldl_cons, List.foldl_cons, State.stepThread_eq, hz]
      exact ih _ hz
  exact this _ s rfl

theorem State.onlyThreads_begin (s : State) (h : Hd) (dr dp : List Nat) : s.OnlyThreads (s.begin h dr dp) := by
  rw [State.begin_eq]
  exact State.onlyThreads_foldl _ (fun s _ => s.onlyThreads_modThread ..) _ s

theorem State.active_sub {s : State} {h : Hd} {u : TId} (hu : u ∈ s.active h) : u ∈ s.cur.threads := by
  simp only [State.active, List.mem_filter] at hu
  exact hu.1

/-- After the issue, where no destination is held. -/
theorem State.thread_begin {s : State} {h : Hd} {dr dp : List Nat} (hb : s.Bundled)
    (hc : ∀ u ∈ s.active h, (s.thread u).conflict dr dp = none) (v : TId) :
    (s.begin h dr dp).thread v = if v ∈ s.cur.threads then (s.thread v).stepped s.cur.pc else s.thread v := by
  rw [State.begin_eq, State.thread_foldl_modThread _ hb.nodup]
  by_cases hv : v ∈ s.cur.threads
  · have hp := State.present_of_seated (hb.seated v hv)
    simp only [hv, hp, and_self, if_true, Thread.issue]
    by_cases ha : v ∈ s.active h
    · simp [ha, hc v ha]
    · simp [ha]
  · simp [hv]

theorem State.acting_begin {s : State} {h : Hd} {dr dp : List Nat} (hb : s.Bundled)
    (hc : ∀ u ∈ s.active h, (s.thread u).conflict dr dp = none) : s.acting (s.begin h dr dp) h = s.active h := by
  simp only [State.acting, List.filter_eq_self]
  intro u hu
  have hm := State.active_sub hu
  simp [State.trapped, State.thread_begin hb hc, hm, Thread.stepped, hb.clear u hm]

/-! The bundle goes on -/

/-- `t` differs from `s` in nothing but the bins and filings of partition `pid`. -/
structure State.OnlyBins (s t : State) (pid : Nat) : Prop where
  rest  : t = { s with parts := t.parts }
  parts : ∀ p, p ≠ pid → t.part p = s.part p
  here  : t.part pid = { s.part pid with bins := (t.part pid).bins, filings := (t.part pid).filings }

theorem State.OnlyBins.refl (s : State) (pid : Nat) : s.OnlyBins s pid := ⟨rfl, fun _ _ => rfl, rfl⟩

theorem State.OnlyBins.trans {s t z : State} {pid : Nat} (h : s.OnlyBins t pid) (k : t.OnlyBins z pid) : s.OnlyBins z pid where
  rest := by rw [k.rest, h.rest]
  parts p hp := (k.parts p hp).trans (h.parts p hp)
  here := by rw [k.here, h.here]

theorem State.onlyBins_file (s : State) (u : TId) (g : Nat) : s.OnlyBins (s.file u g) u.pid := by
  unfold State.file
  split
  · exact .refl s _
  · exact ⟨rfl, fun p hp => by simp [hp], by simp⟩

theorem State.onlyBins_fileBin {s : State} {pid bin : Nat}
    (hh : ∀ u ∈ ((s.part pid).bins.get bin {}).threads, u.pid = pid) : s.OnlyBins (s.fileBin pid bin) pid := by
  unfold State.fileBin
  generalize ((s.part pid).bins.get bin {}).threads = ts at hh ⊢
  have h0 : s.OnlyBins (s.modPart pid fun p => { p with bins := p.bins.del bin }) pid :=
    ⟨rfl, fun p hp => by simp [hp], by simp⟩
  refine h0.trans ?_
  generalize (s.modPart pid _) = z
  induction ts generalizing z with
  | nil => exact .refl ..
  | cons u ts ih =>
    have hu := hh u (List.mem_cons_self ..)
    have h1 := z.onlyBins_file u 2
    rw [hu] at h1
    exact h1.trans (ih (fun v hv => hh v (List.mem_cons_of_mem _ hv)) _)

/-- After an instruction that leaves no thread of the bundle with a trap, the bundle stays in its bin, or is filed. -/
theorem State.settle_on {s z : State} (hb : s.Bundled) (hr : s.OnlyRegs z) (b : Bool)
    (hpc : ∀ u ∈ s.cur.threads, (z.thread u).trapQ = none) :
    z.OnlyBins (z.settle b) s.pid ∧
      ∀ pc, b = false → s.bin.evict = false → (∀ u ∈ s.cur.threads, (z.thread u).pc = pc) → (z.settle b).part s.pid =
        { s.part s.pid with bins := (s.part s.pid).bins.put s.cur.bin { s.bin with key := pc, ready := none, woken := false } } := by
  have hcur : z.cur = s.cur := by rw [hr.rest]
  have hpart : ∀ p, z.part p = s.part p := by
    intro p
    rw [hr.rest]
    rfl
  have hbin : (z.part s.pid).bins.get s.cur.bin {} = s.bin := by
    rw [hpart]
    rfl
  have hth := hb.bin
  have hpid : s.cur.core * 4 + s.cur.part = s.pid := rfl
  have hno : (s.bin.threads.any fun t => (z.thread t).trapQ.isSome) = false := by
    rw [hth]
    simp only [List.any_eq_false]
    intro u hu
    simp [hpc u hu]
  have hne : s.bin.threads.isEmpty = false := by
    rw [hth]
    simpa using hb.some_
  have key : z.settle b =
      if (b || s.bin.evict || s.bin.threads.any fun t => (z.thread t).pc != (z.thread (s.bin.threads.headD default)).pc) then
        z.fileBin s.pid s.cur.bin
      else
        z.modPart s.pid fun p =>
          { p with bins := p.bins.put s.cur.bin { s.bin with key := (z.thread (s.bin.threads.headD default)).pc, ready := none, woken := false } } := by
    simp only [State.settle, hcur, hpid, hbin, hno, hne, Bool.false_eq_true, if_false]
  rw [key]
  constructor
  · split
    · refine State.onlyBins_fileBin fun u hu => ?_
      rw [hbin, hth] at hu
      exact hb.here u hu
    · exact ⟨rfl, fun p hp => by simp [hp], by simp⟩
  · intro pc hbf he hall
    obtain ⟨u0, us, hus⟩ : ∃ u0 us, s.cur.threads = u0 :: us := by
      cases h : s.cur.threads with
      | nil => exact absurd h hb.some_
      | cons a l => exact ⟨a, l, rfl⟩
    have hhead : (z.thread (s.bin.threads.headD default)).pc = pc := by
      rw [hth, hus]
      exact hall u0 (hus ▸ List.mem_cons_self ..)
    have hsame : (s.bin.threads.any fun t => (z.thread t).pc != pc) = false := by
      rw [hth]
      simp only [List.any_eq_false]
      intro u hu
      simp [hall u hu]
    rw [hhead, hsame, he, hbf]
    simp [hpart, he]

/-- What an issue that raises no trap leaves as it was. -/
theorem State.ran_of {s z : State} (hb : s.Bundled) (hr : s.OnlyRegs z) (b : Bool)
    (ho : ∀ u, u ∉ s.cur.threads → z.thread u = s.thread u) (hpc : ∀ u ∈ s.cur.threads, (z.thread u).trapQ = none) :
    s.Ran (z.settle b) ∧ (b = false → s.Stays (z.settle b)) ∧ (z.settle b).delays = s.delays ∧
      (z.settle b).freeCtr = s.freeCtr ∧ (z.settle b).ids = s.ids ∧ (∀ u, (z.settle b).thread u = z.thread u) ∧ ∀ w, (z.settle b).wave w = z.wave w := by
  obtain ⟨hs, hk⟩ := State.settle_on hb hr b hpc
  have hw : ∀ w, (z.settle b).wave w = z.wave w := by
    intro w
    rw [hs.rest]
    rfl
  have ht : ∀ u, (z.settle b).thread u = z.thread u := by
    intro u
    simp only [State.thread, hw]
  have hpart : ∀ p, z.part p = s.part p := by
    intro p
    rw [hr.rest]
    rfl
  refine ⟨⟨?_, ?_, ?_, ?_, ?_⟩, ?_, ?_, ?_, ?_, ht, hw⟩
  · rw [hs.rest, hr.rest]
  · intro w
    rw [hw, hr.waves]
  · intro u hu
    rw [ht, ho u hu]
  · intro p hp
    rw [hs.parts p hp, hpart]
  · rw [hs.here, hpart]
  · intro hbf pc he hall
    exact hk pc hbf he fun u hu => by rw [← ht u]; exact hall u hu
  · rw [hs.rest, hr.rest]
  · rw [hs.rest, hr.rest]
  · rw [hs.rest, hr.rest]

/-- An issue whose threads are changed each by itself. -/
theorem State.moves_of {s z : State} {h : Hd} (hb : s.Bundled) (f : TId → Bool → Thread → Thread) (hr : s.OnlyThreads z)
    (ho : ∀ u, u ∉ s.cur.threads → z.thread u = s.thread u)
    (hf : ∀ u ∈ s.cur.threads, z.thread u = f u ((s.active h).contains u) ((s.thread u).stepped s.cur.pc))
    (ht : ∀ u ∈ s.cur.threads, (z.thread u).trapQ = none) : Moves s h (.next (z.settle false)) f := by
  obtain ⟨h1, h2, h3, h4, h7, h5, h6⟩ := State.ran_of hb hr.regs false ho ht
  refine ⟨_, rfl, h1, h2 rfl, h3, h4, h7, fun w => ?_, fun u hu => ?_⟩
  · rw [h6, hr.waves]
  · rw [h5, hf u hu]

theorem Moves.congr {s : State} {h : Hd} {o : Host.Outcome State Fault Refusal} {f g : TId → Bool → Thread → Thread}
    (hm : Moves s h o f)
    (hfg : ∀ u ∈ s.cur.threads, f u ((s.active h).contains u) ((s.thread u).stepped s.cur.pc) =
      g u ((s.active h).contains u) ((s.thread u).stepped s.cur.pc)) : Moves s h o g := by
  obtain ⟨t, h1, h2, h3, h4, h5, h6, h7, h8⟩ := hm
  exact ⟨t, h1, h2, h3, h4, h5, h6, h7, fun u hu => (h8 u hu).trans (hfg u hu)⟩

end Sys2Proof.Machine
end

