-- ==== Sys2Proof/Laws/Write.lean ====
section
/-!
SUPPORT. Writing the results of a bundle: what every register, predicate and thread holds afterwards, for results of short
and of long latency.
-/
namespace Sys2Proof.Machine

/-! The writes of one thread -/

theorem lookup_cons_pair {α : Type} (k r : Nat) (v : α) (l : List (Nat × α)) :
    List.lookup k ((r, v) :: l) = if k = r then some v else l.lookup k := by
  rw [List.lookup_cons]
  by_cases h : k = r
  · simp [h]
  · simp only [beq_eq_false_iff_ne.2 h, if_neg h]

theorem lookup_none_of {α : Type} {l : List (Nat × α)} {k : Nat} (h : k ∉ l.map (·.1)) : l.lookup k = none := by
  rw [List.lookup_eq_none_iff]
  intro p hp
  have hne : k ≠ p.1 := fun e => h (List.mem_map.2 ⟨p, hp, e.symm⟩)
  simp [hne]

/-- The results of one thread go to its banked registers and predicates. -/
def Thread.take (o : Out) (th : Thread) : Thread :=
  o.preds.foldl (fun th p => th.setPred p.1 p.2)
    (o.regs.foldl (fun th v => if th.banked v.1 then th.setBanked v.1 v.2 else th) th)

theorem Thread.foldl_setBanked (l : List (Nat × Word)) (th : Thread) :
    ∃ x, l.foldl (fun th v => if th.banked v.1 then th.setBanked v.1 v.2 else th) th = { th with hand := x } ∧
      x.isSome = th.hand.isSome ∧ x.map (fun y => (y.tcause, y.tpc, y.trec, y.preds)) = th.hand.map (fun y => (y.tcause, y.tpc, y.trec, y.preds)) ∧
      ((l.map (·.1)).Nodup → ∀ y k, th.hand = some k → x = some y → k.v.length = 4 →
        y.v.length = 4 ∧ ∀ r, r < 4 → y.v.getD r 0 = written l r (k.v.getD r 0)) := by
  induction l generalizing th with
  | nil =>
    refine ⟨th.hand, rfl, rfl, rfl, ?_⟩
    intro _ y k hk hy
    simp_all [written]
  | cons e l ih =>
    obtain ⟨r, v⟩ := e
    rw [List.foldl_cons]
    obtain ⟨x, h1, h2, h3, h4⟩ := ih (if th.banked r then th.setBanked r v else th)
    refine ⟨x, ?_, ?_, ?_, ?_⟩
    · rw [h1]
      split
      · simp only [Thread.setBanked]
        split <;> rfl
      · rfl
    · rw [h2]
      split
      · simp only [Thread.setBanked]
        split <;> simp_all
      · rfl
    · rw [h3]
      split
      · simp only [Thread.setBanked]
        split <;> simp_all
      · rfl
    · intro hn y k hk hy hlen
      simp only [List.map_cons, List.nodup_cons] at hn
      have hnone := lookup_none_of hn.1
      by_cases hb : th.banked r
      · rw [if_pos hb] at h4
        have hr4 : r < 4 := by
          simp only [Thread.banked, Bool.and_eq_true, decide_eq_true_eq] at hb
          exact hb.2
        have hk' : (th.setBanked r v).hand = some { k with v := k.v.set r v } := by simp [Thread.setBanked, hk]
        obtain ⟨g1, g2⟩ := h4 hn.2 y _ hk' hy (by simpa using hlen)
        refine ⟨g1, fun j hj => ?_⟩
        rw [g2 j hj]
        by_cases hjr : j = r
        · subst hjr
          simp [written, hnone, hlen, hj]
        · simp [written, lookup_cons_pair, hjr, Ne.symm hjr]
      · rw [if_neg hb] at h4
        obtain ⟨g1, g2⟩ := h4 hn.2 y k hk hy hlen
        refine ⟨g1, fun j hj => ?_⟩
        have hjr : j ≠ r := by
          rintro rfl
          simp [Thread.banked, hk, hj] at hb
        rw [g2 j hj]
        simp [written, lookup_cons_pair, hjr]

theorem Thread.foldl_setPred (l : List (Nat × Bool)) (th : Thread) :
    ∃ x q, l.foldl (fun th p => th.setPred p.1 p.2) th = { th with hand := x, preds := q } ∧ x.isSome = th.hand.isSome ∧
      x.map (fun y => (y.tcause, y.tpc, y.trec, y.v)) = th.hand.map (fun y => (y.tcause, y.tpc, y.trec, y.v)) := by
  induction l generalizing th with
  | nil => exact ⟨th.hand, th.preds, rfl, rfl, rfl⟩
  | cons e l ih =>
    rw [List.foldl_cons]
    obtain ⟨x, q, h1, h2, h3⟩ := ih (th.setPred e.1 e.2)
    refine ⟨x, q, ?_, ?_, ?_⟩
    · rw [h1]
      unfold Thread.setPred
      split
      · rfl
      · split <;> rfl
    · rw [h2]
      unfold Thread.setPred
      split
      · rfl
      · split <;> simp_all
    · rw [h3]
      unfold Thread.setPred
      split
      · rfl
      · split <;> simp_all

theorem Thread.pred_foldl_setPred (l : List (Nat × Bool)) (hn : (l.map (·.1)).Nodup) (th : Thread) (p : Nat) (hp : p < 8) :
    (l.foldl (fun th p => th.setPred p.1 p.2) th).pred p = if p ≠ 0 then written l p (th.pred p) else th.pred p := by
  induction l generalizing th with
  | nil => simp [written]
  | cons e l ih =>
    obtain ⟨k, b⟩ := e
    simp only [List.map_cons, List.nodup_cons] at hn
    rw [List.foldl_cons, ih hn.2, Thread.pred_setPred _ _ _ _ hp]
    by_cases h0 : p = 0
    · simp [h0]
    · by_cases hk : p = k
      · subst hk
        simp [h0, written, lookup_none_of hn.1]
      · simp [h0, hk, written, lookup_cons_pair]

/-- A thread after its results: its predicates, its banked registers, and all that stays. -/
theorem Thread.take_spec (o : Out) (th : Thread) (hr : (o.regs.map (·.1)).Nodup) (hp : (o.preds.map (·.1)).Nodup) :
    th.take o = { th with preds := (th.take o).preds, hand := (th.take o).hand } ∧
      (th.take o).hand.map (fun x => (x.tcause, x.tpc, x.trec)) = th.hand.map (fun x => (x.tcause, x.tpc, x.trec)) ∧
      (∀ p, p < 8 → (th.take o).pred p = if p ≠ 0 then written o.preds p (th.pred p) else th.pred p) ∧
      (∀ k, th.hand = some k → k.v.length = 4 → ∃ y, (th.take o).hand = some y ∧
        ∀ r, r < 4 → y.v.getD r 0 = written o.regs r (k.v.getD r 0)) ∧
      ((th.take o).hand.isSome = th.hand.isSome) := by
  obtain ⟨x, h1, h2, h3, h4⟩ := th.foldl_setBanked o.regs
  obtain ⟨y, q, g1, g2, g3⟩ := Thread.foldl_setPred o.preds { th with hand := x }
  have e : th.take o = { th with hand := y, preds := q } := by
    unfold Thread.take
    rw [h1, g1]
  refine ⟨by rw [e], ?_, ?_, ?_, ?_⟩
  · rw [e]
    have a := congrArg (Option.map fun z => (z.1, z.2.1, z.2.2.1)) g3
    have b := congrArg (Option.map fun z => (z.1, z.2.1, z.2.2.1)) h3
    simp only [Option.map_map] at a b
    exact a.trans b
  · intro p hp8
    unfold Thread.take
    rw [h1, Thread.pred_foldl_setPred _ hp _ _ hp8]
    have : Thread.pred { th with hand := x } p = th.pred p := by
      unfold Thread.pred
      cases hx : x <;> cases hh : th.hand <;> simp_all
    rw [this]
  · intro k hk hlen
    have hxs : x.isSome := by simp [h2, hk]
    obtain ⟨x', hx'⟩ := Option.isSome_iff_exists.1 hxs
    have hys : y.isSome := by simp [g2, hx']
    obtain ⟨y', hy'⟩ := Option.isSome_iff_exists.1 hys
    refine ⟨y', by rw [e]; exact hy', fun r hr4 => ?_⟩
    have hv : y'.v = x'.v := by
      simp only [hy', hx', Option.map_some, Option.some.injEq, Prod.mk.injEq] at g3
      exact g3.2.2.2
    rw [hv]
    exact (h4 hr x' k hk hx' hlen).2 r hr4
  · rw [e]
    exact g2.trans h2

/-! The writes of a bundle -/

/-- What the writes of a bundle give a lane of a register of its waves. -/
theorem find_putVals (s : State) (us : List TId) (out : TId → Out) (u : TId) (r : Nat) :
    (((putVals (us.flatMap fun v => s.puts v (out v).regs) u.w r).find? fun x => x.1 == u.lane).map (·.2)) =
      if u ∈ us ∧ r ≠ 255 ∧ (s.thread u).banked r = false then (out u).regs.lookup r else none := by
  have one : ∀ (v : TId) (l : List (Nat × Word)),
      ((((s.puts v l).filter fun p => p.w == u.w && p.reg == r).map fun p => (p.lane, p.val)).find?
          fun x => x.1 == u.lane).map (·.2) =
        if v = u ∧ r ≠ 255 ∧ (s.thread u).banked r = false then l.lookup r else none := by
    intro v l
    obtain ⟨w, i⟩ := v
    obtain ⟨k, j⟩ := u
    induction l with
    | nil => simp [State.puts]
    | cons e l ih =>
      obtain ⟨a, b⟩ := e
      simp only [State.puts] at ih ⊢
      by_cases ha : a = 255 ∨ (s.thread ⟨w, i⟩).banked a = true
      · have hf : (a != 255 && !(s.thread ⟨w, i⟩).banked a) = false := by
          rcases ha with ha | ha <;> simp [ha]
        rw [List.filter_cons_of_neg (by simp [hf]), ih]
        split
        · rename_i hc
          have hra : r ≠ a := by
            rintro rfl
            obtain ⟨hc1, hc2, hc3⟩ := hc
            rw [hc1] at ha
            rcases ha with ha | ha
            · exact hc2 ha
            · simp [hc3] at ha
          simp [lookup_cons_pair, hra]
        · rfl
      · have h255 : a ≠ 255 := fun h => ha (.inl h)
        have hbk : (s.thread ⟨w, i⟩).banked a = false := by
          cases h : (s.thread ⟨w, i⟩).banked a
          · rfl
          · exact absurd (.inr h) ha
        rw [List.filter_cons_of_pos (by simp [h255, hbk]), List.map_cons]
        by_cases hm : w = k ∧ a = r
        · obtain ⟨rfl, rfl⟩ := hm
          rw [List.filter_cons_of_pos (by simp), List.map_cons]
          by_cases hi : i = j
          · subst hi
            rw [List.find?_cons_of_pos (by simp)]
            simp [h255, hbk]
          · rw [List.find?_cons_of_neg (by simpa using hi), ih]
            simp [hi]
        · rw [List.filter_cons_of_neg (by simpa using hm), ih]
          by_cases hw : w = k ∧ i = j
          · obtain ⟨rfl, rfl⟩ := hw
            have hra : r ≠ a := fun h => hm ⟨rfl, h.symm⟩
            simp [lookup_cons_pair, hra]
          · have : ¬ (TId.mk w i = ⟨k, j⟩ ∧ r ≠ 255 ∧ (s.thread ⟨k, j⟩).banked r = false) := by
              simp only [TId.mk.injEq]
              exact fun h => hw h.1
            rw [if_neg this, if_neg this]
  induction us with
  | nil => simp [putVals]
  | cons v us ih =>
    simp only [putVals] at ih ⊢
    rw [List.flatMap_cons, List.filter_append, List.map_append, List.find?_append, Option.map_or, ih, one]
    by_cases hv : v = u
    · subst hv
      by_cases hc : r ≠ 255 ∧ (s.thread v).banked r = false
      · simp only [hc, true_and, List.mem_cons, true_or]
        by_cases hm : v ∈ us
        · simp [hm]
        · simp [hm]
      · simp [hc]
    · simp [hv, Ne.symm hv]

end Sys2Proof.Machine
end

