-- ==== Sys2Proof/Laws/Results.lean ====
section
/-!
SUPPORT. The instructions that compute: one law for results of short latency, one for results of long latency.
-/
namespace Sys2Proof.Machine

theorem Wave.thread_mem {x : Wave} {i : Nat} {y : Window} (h : y ∈ (x.thread i).windows) : x.thread i ∈ x.threads := by
  unfold Wave.thread at h ⊢
  rw [List.getD_eq_getElem?_getD] at h ⊢
  cases hx : x.threads[i]? with
  | none => simp [hx] at h
  | some th =>
    rw [Option.getD_some]
    exact List.mem_of_getElem? hx

theorem Thread.mem_insertClosed {x y : Window} {l : List Window} (h : y ∈ insertClosed x l) : y = x ∨ y ∈ l := by
  induction l with
  | nil => simpa [insertClosed] using h
  | cons z l ih =>
    simp only [insertClosed] at h
    split at h
    · exact List.mem_cons.1 h
    · rcases List.mem_cons.1 h with h | h
      · exact .inr (h ▸ List.mem_cons_self ..)
      · exact (ih h).imp_right (List.mem_cons_of_mem _)

/-- A window that commits is a window of the thread. -/
theorem Thread.due_sub {cyc : Nat} {th : Thread} {y : Window} (h : y ∈ th.due cyc) : y ∈ th.windows := by
  have hall : ∀ (l : List Window), y ∈ l.foldr insertClosed [] → y ∈ l := by
    intro l
    induction l with
    | nil => exact id
    | cons x l ih =>
      intro h
      rcases Thread.mem_insertClosed h with h | h
      · exact h ▸ List.mem_cons_self ..
      · exact List.mem_cons_of_mem _ (ih h)
  exact List.mem_filter.1 (hall _ ((List.takeWhile_sublist _).subset h)) |>.1

@[simp] theorem Window.shut_regs (n : Nat) (x : Window) : (x.shut n).regs = x.regs := by
  unfold Window.shut
  split <;> rfl

@[simp] theorem Window.count_regs (n : Nat) (x : Window) : (x.count n).regs = x.regs := by
  unfold Window.count
  split <;> simp

/-- A window that has counted an instruction keeps its results. -/
theorem Thread.regs_countWindows {th : Thread} {x : Window} (h : x ∈ th.countWindows) : ∃ y ∈ th.windows, x.regs = y.regs := by
  unfold Thread.countWindows at h
  split at h
  · exact ⟨x, h, rfl⟩
  · obtain ⟨y, hy, rfl⟩ := List.mem_map.1 h
    exact ⟨y, hy, Window.count_regs ..⟩

/-- Of the windows of the waves in `ws`, none has a result for a register of `dr`. -/
def State.NoWindowTest (s : State) (ws dr : List Nat) : Prop :=
  ∀ e ∈ s.waves, e.1 ∈ ws → ∀ th ∈ e.2.threads, ∀ x ∈ th.windows, ∀ v ∈ x.regs, v.1 ∉ dr

theorem State.quiet_modThread {s : State} {ws dr : List Nat} (h : s.NoWindowTest ws dr) (u : TId) (f : Thread → Thread)
    (hf : ∀ th, (∀ x ∈ th.windows, ∀ v ∈ x.regs, v.1 ∉ dr) → ∀ x ∈ (f th).windows, ∀ v ∈ x.regs, v.1 ∉ dr) :
    (s.modThread u f).NoWindowTest ws dr := by
  intro e he hw th hth x hx v hv
  rcases Tab.mem_upd he with he | ⟨y, hy, rfl⟩
  · exact h e he hw th hth x hx v hv
  · have hy' := h _ hy hw
    rcases List.mem_or_eq_of_mem_set hth with hth | hth
    · exact hy' th hth x hx v hv
    · refine hf (y.thread u.lane) (fun a ha => ?_) x (hth ▸ hx) v hv
      exact hy' _ (Wave.thread_mem ha) a ha

theorem State.quiet_begin {s : State} {h : Hd} {dr dp ws dr' : List Nat} (hq : s.NoWindowTest ws dr') :
    (s.begin h dr dp).NoWindowTest ws dr' := by
  rw [State.begin_eq]
  suffices h : ∀ (l : List TId) (z : State), z.NoWindowTest ws dr' →
      (l.foldl (fun z u => z.modThread u (Thread.issue s.cur dr dp ((s.active h).contains u))) z).NoWindowTest ws dr' from h _ _ hq
  intro l
  induction l with
  | nil => exact fun _ hz => hz
  | cons u l ih =>
    intro z hz
    rw [List.foldl_cons]
    refine ih _ (State.quiet_modThread hz _ _ fun th hth x hx v hv => ?_)
    unfold Thread.issue at hx
    split at hx
    · simp only [Thread.addTrap, Thread.close, List.mem_map] at hx
      obtain ⟨y, hy, rfl⟩ := hx
      rw [Window.shut_regs] at hv
      exact hth y hy v hv
    · obtain ⟨y, hy, hr⟩ := Thread.regs_countWindows hx
      rw [hr] at hv
      exact hth y hy v hv

/-- No due result is tested with the writes of a bundle. -/
theorem State.rivals_quiet {s : State} {ws dr : List Nat} (hq : s.NoWindowTest ws dr) {ps : List Put}
    (hps : ∀ p ∈ ps, p.w ∈ ws ∧ p.reg ∈ dr) : s.rivals ps = [] := by
  unfold State.rivals
  refine if_neg fun h => ?_
  obtain ⟨p, hp, hc⟩ := List.any_eq_true.1 h
  simp only [List.contains_iff_mem] at hc
  obtain ⟨q, hq1, hq2, hq3⟩ := mem_putRegs.1 hc
  obtain ⟨hw, hr⟩ := hps q hq1
  simp only [State.commitPuts, List.mem_flatMap, List.mem_filter, State.dueCommits, List.mem_map] at hp
  obtain ⟨c, ⟨⟨⟨e, he, i, -, x, hx, rfl⟩, -⟩, -⟩, hp⟩ := hp
  simp only [State.puts, List.mem_map, List.mem_filter] at hp
  obtain ⟨v, ⟨hv, -⟩, rfl⟩ := hp
  have hx' := Thread.due_sub hx
  rw [hq2] at hw
  rw [hq3] at hr
  exact hq e he.1 hw _ (Wave.thread_mem hx') x hx' v hv hr

theorem State.find_of_seated {s : State} {u : TId} (h : s.seated u = true) : (s.waves.find? u.w).isSome := by
  simp only [State.seated, Bool.and_eq_true] at h
  exact h.1.1

/-- The results of the threads of a bundle, written at once. -/
theorem State.writeNow_eq {s s1 : State} {dr : List Nat} {us : List TId} {half : Nat} (out : TId → Out)
    (hw : ∀ w, s1.wave w = { s.wave w with threads := (s1.wave w).threads })
    (hq : s1.NoWindowTest (us.map (·.w)) dr) (hg : ∀ u ∈ us, ∀ r ∈ dr, (s.wave u.w).shape r = .general)
    (hr : ∀ u ∈ us, ∀ v ∈ (out u).regs, v.1 ∈ dr) :
    s1.writeNow half (us.map fun u => (u, out u)) =
      us.foldl (fun z u => (z.putThread u (out u).regs).putPreds u (out u).preds)
        (s1.putAll (us.flatMap fun u => s1.puts u (out u).regs)) := by
  have hps : ∀ p ∈ us.flatMap (fun u => s1.puts u (out u).regs), p.w ∈ us.map (·.w) ∧ p.reg ∈ dr := by
    intro p hp
    simp only [List.mem_flatMap, State.puts, List.mem_map, List.mem_filter] at hp
    obtain ⟨u, hu, v, ⟨hv, -⟩, rfl⟩ := hp
    exact ⟨List.mem_map.2 ⟨u, hu, rfl⟩, hr u hu v hv⟩
  have hflat : (us.map fun u => (u, out u)).flatMap (fun (t, o) => s1.puts t o.regs) =
      us.flatMap fun u => s1.puts u (out u).regs := by
    rw [List.flatMap_map]
  have hfit : (putRegs (us.flatMap fun u => s1.puts u (out u).regs)).filter
      (fun (w, r) => !s1.fits (us.flatMap fun u => s1.puts u (out u).regs) w r) = [] := by
    rw [List.filter_eq_nil_iff]
    rintro ⟨w, r⟩ he
    obtain ⟨p, hp, rfl, rfl⟩ := mem_putRegs.1 he
    obtain ⟨hpw, hpr⟩ := hps p hp
    obtain ⟨u, hu, huw⟩ := List.mem_map.1 hpw
    have hs : (s1.wave p.w).shape p.reg = .general := by
      rw [hw]
      exact huw ▸ hg u hu p.reg hpr
    simp [State.fits, hs, Shape.fit]
  have hmis : ∀ qs, s1.badRegs qs = [] → s1.misfits 2 qs [] = ([], []) := by
    intro qs hqs
    simp [State.misfits, State.testUnion, State.commitPuts, hqs]
  simp only [State.writeNow, hflat, State.rivals_quiet hq hps, List.length_nil, hmis _ hfit, State.noteFailed,
    List.isEmpty_nil, if_true, List.foldl_map]

/-- Instructions whose results have short latency (R71, R108): what they write, and that nothing else differs. -/
theorem State.compute_writes {s : State} {h : Hd} {lat : Latency} {dr dp : List Nat} {f : State → TId → Out}
    (hb : s.Bundled) (hf : s.Free h dr dp) (hl : lat.long = false)
    (hr : ∀ u ∈ s.active h, (∀ v ∈ (f s u).regs, v.1 ∈ dr) ∧ ((f s u).regs.map (·.1)).Nodup ∧ ((f s u).preds.map (·.1)).Nodup) :
    Writes s h (.next (s.compute h lat dr dp f)) (f s) := by
  let out := f s
  let us := s.active h
  let s1 := s.begin h dr dp
  let ps := us.flatMap fun u => s1.puts u (out u).regs
  let z := us.foldl (fun z u => (z.putThread u (out u).regs).putPreds u (out u).preds) (s1.putAll ps)
  have h1 : s.OnlyThreads s1 := s.onlyThreads_begin h dr dp
  have hth1 := State.thread_begin hb hf.conflict
  have hnd : us.Nodup := hb.nodup.sublist List.filter_sublist
  have hcomp : s.compute h lat dr dp f = z.settle false := by
    have hdel : s1.deliver s.cur.half h.la lat dr dp (us.map fun u => (u, out u)) = z := by
      simp only [State.deliver, hl, Bool.false_eq_true, if_false]
      exact State.writeNow_eq (s := s) (dr := dr) out h1.waves
        (State.quiet_begin fun e he hw => by
          obtain ⟨u, hu, hue⟩ := List.mem_map.1 hw
          exact hf.alone e he ⟨u, hu, hue⟩) hf.general (fun u hu => (hr u hu).1)
    simp only [State.compute, State.acting_begin hb hf.conflict]
    exact congrArg (State.settle · false) hdel
  have hstep : ∀ (y : State) (u : TId), y.OnlyThreads ((y.putThread u (out u).regs).putPreds u (out u).preds) := fun y u =>
    (y.onlyThreads_modThread ..).trans (State.onlyThreads_modThread ..)
  have hfold : (s1.putAll ps).OnlyThreads z := State.onlyThreads_foldl _ hstep us _
  have hputs := s1.onlyRegs_putAll ps
  have hz : s.OnlyRegs z := (h1.regs.trans hputs).trans hfold.regs
  have hthp : ∀ v, (s1.putAll ps).thread v = s1.thread v := by
    intro v
    have : ∀ w, ((s1.putAll ps).wave w).threads = (s1.wave w).threads := by
      intro w
      have hL : ∀ (L : List (Nat × Nat)) (y : State),
          ((L.foldl (fun y (e : Nat × Nat) => y.modWave e.1 fun x => x.put e.2 (putVals ps e.1 e.2)) y).wave w).threads =
            (y.wave w).threads := by
        intro L
        induction L with
        | nil => intro y; rfl
        | cons e L ih =>
          intro y
          rw [List.foldl_cons, ih, State.wave_modWave]
          split <;> simp
      exact hL _ s1
    simp only [State.thread, Wave.thread, this]
  have hthz : ∀ v, z.thread v = if v ∈ us then ((s1.thread v).take (out v)) else s1.thread v := by
    intro v
    have := State.thread_foldl (fun y u => (y.putThread u (out u).regs).putPreds u (out u).preds)
      (fun u th => th.take (out u))
      (fun y u w => by
        simp only [State.putPreds, State.putThread, State.thread_modThread, State.present_modThread]
        by_cases hc : w = u ∧ y.present w = true
        · rw [if_pos hc, if_pos hc, if_pos hc]
          rfl
        · rw [if_neg hc, if_neg hc, if_neg hc])
      (fun y u w => (hstep y u).present w) us hnd (s1.putAll ps) v
    rw [show z.thread v = _ from this, hthp]
    by_cases hv : v ∈ us
    · have hp : (s1.putAll ps).present v = true := by
        rw [hputs.present, h1.present]
        exact State.present_of_seated (hb.seated v (State.active_sub hv))
      simp [hv, hp]
    · simp [hv]
  have hmem : ∀ v, v ∈ us → v ∈ s.cur.threads := fun v hv => State.active_sub hv
  have hon : ∀ u ∈ s.cur.threads, s1.thread u = (s.thread u).stepped s.cur.pc := fun u hu => by rw [hth1, if_pos hu]
  have hspec : ∀ u ∈ us, _ := fun u hu =>
    Thread.take_spec (out u) (s1.thread u) (hr u hu).2.1 (hr u hu).2.2
  have hran := State.ran_of hb hz false
    (fun u hu => by
      rw [hthz, if_neg fun hv => hu (hmem u hv), hth1, if_neg hu])
    (fun u hu => by
      rw [hthz]
      split
      · rename_i hv
        rw [(hspec u hv).1, hon u hu]
        exact hb.clear u hu
      · rw [hon u hu]
        exact hb.clear u hu)
  obtain ⟨hr1, hst, hr2, hfr, hid, hr3, hr4⟩ := hran
  refine ⟨z.settle false, by rw [hcomp], hr1, hst rfl, hr2, hfr, hid, ?_, ?_, ?_⟩
  · intro u r hi
    have hreg : ∀ w, ((z.settle false).wave w).regs = ((s1.putAll ps).wave w).regs := by
      intro w
      rw [hr4, hfold.waves]
    have hlane : ((z.settle false).wave u.w).vreg r = ((s1.putAll ps).wave u.w).vreg r := by
      simp only [Wave.vreg, hreg]
    have hs1 : (s1.wave u.w).vreg r = (s.wave u.w).vreg r := by
      rw [h1.waves]
      rfl
    have hbank : ∀ v, (s1.thread v).hand = (s.thread v).hand := by
      intro v
      rw [hth1]
      split <;> rfl
    have hpsw : ∀ p ∈ ps, (∃ u ∈ us, u.w = p.w) ∧ p.reg ∈ dr ∧ p.reg ≠ 255 := by
      intro p hp
      simp only [ps, List.mem_flatMap, State.puts, List.mem_map, List.mem_filter, Bool.and_eq_true, bne_iff_ne] at hp
      obtain ⟨u, hu, v, ⟨hv, hv1, -⟩, rfl⟩ := hp
      exact ⟨⟨u, hu, rfl⟩, (hr u hu).1 v hv, hv1⟩
    have hval : ∀ (hfind : (s1.waves.find? u.w).isSome), (((s1.putAll ps).wave u.w).vreg r).lane u.lane =
        (if u ∈ us ∧ r ≠ 255 ∧ (s1.thread u).banked r = false then (out u).regs.lookup r else none).getD
          (((s.wave u.w).vreg r).lane u.lane) := by
      intro hfind
      rw [State.lane_putAll s1 ps
        (fun p hp => by
          obtain ⟨⟨v, hv, hvw⟩, hpr, -⟩ := hpsw p hp
          rw [h1.waves]
          exact hvw ▸ hf.general v hv _ hpr)
        (fun p hp => (hpsw p hp).2.2) u.w r u.lane hfind hi, hs1, find_putVals]
    by_cases h255 : r = 255
    · subst h255
      simp [State.rd]
    · by_cases hu : u ∈ us
      · have hc := hmem u hu
        have hfind : (s1.waves.find? u.w).isSome := by
          rw [h1.find]
          exact State.find_of_seated (hb.seated u hc)
        have hv := hval hfind
        obtain ⟨-, -, -, t4, t5⟩ := hspec u hu
        rw [if_pos ⟨hu, h255⟩]
        simp only [State.rd, beq_iff_eq, h255, if_false, hr3, hthz, if_pos hu, hlane, hv]
        rw [hon u hc] at t4 t5 ⊢
        cases hh : (s.thread u).hand with
        | none =>
          have hn : (((s.thread u).stepped s.cur.pc).take (out u)).hand = none := by
            have h0 : ((s.thread u).stepped s.cur.pc).hand.isSome = false := by simp [Thread.stepped, hh]
            simpa [h0] using t5
          simp only [hn]
          simp [hu, h255, Thread.banked, Thread.stepped, hh, written]
          rfl
        | some k =>
          have hlen : k.v.length = 4 := by
            have := hb.banks u hc
            simpa [hh] using this
          obtain ⟨y, hy, hyv⟩ := t4 k (by simp [Thread.stepped, hh]) hlen
          simp only [hy]
          by_cases h4 : r < 4
          · simp only [h4, if_true, hyv r h4]
            rfl
          · simp [hu, h255, Thread.banked, Thread.stepped, hh, h4, written]
            rfl
      · rw [if_neg fun hx => hu hx.1]
        have hnone : z.thread u = s1.thread u := by rw [hthz, if_neg hu]
        simp only [State.rd, beq_iff_eq, h255, if_false, hr3, hnone, hbank, hlane]
        by_cases hfind : (s1.waves.find? u.w).isSome
        · rw [hval hfind]
          simp [hu]
        · have hd : ∀ (y : State), (y.waves.find? u.w).isSome = false → y.wave u.w = {} := by
            intro y hy
            simp only [Option.isSome_eq_false_iff, Option.isNone_iff_eq_none] at hy
            simp [State.wave, Tab.get, hy]
          have hf1 : (s1.waves.find? u.w).isSome = false := by simpa using hfind
          rw [hd _ (by rw [hputs.find]; exact hf1), hd s (by rw [← h1.find]; exact hf1)]
  · intro u p hp
    rw [hr3, hthz]
    have hpr : (s1.thread u).pred p = (s.thread u).pred p := by
      rw [hth1]
      split <;> rfl
    by_cases hu : u ∈ us
    · rw [if_pos hu, (hspec u hu).2.2.1 p hp, hpr]
      by_cases h0 : p = 0
      · simp [h0]
      · rw [if_pos h0, if_pos ⟨hu, h0⟩]
    · rw [if_neg hu, if_neg fun hx => hu hx.1, hpr]
  · intro u hu
    rw [hr3, hthz]
    split
    · rename_i hv
      have hs := hspec u hv
      rw [hon u hu] at hs
      rw [hon u hu]
      exact ⟨hs.1, hs.2.1⟩
    · rw [hon u hu]
      exact ⟨rfl, rfl⟩

/-- The window that an instruction opens depends on the thread's windows and their number alone. -/
theorem windowOf_congr {s : State} {h : Hd} {th th' : Thread} {n : Nat} {dr dp : List Nat} {o : Out}
    (h1 : th.llSeq = th'.llSeq) (h2 : th.windows = th'.windows) : windowOf s h th n dr dp o = windowOf s h th' n dr dp o := by
  simp only [windowOf, Thread.nextOrder, h1, h2]

/-- The windows of results of a fixed latency (R51, R71), opened in threads that `g` has changed. -/
theorem State.deliver_opens {s s1 : State} {h : Hd} {n : Nat} {dr dp : List Nat} (out : TId → Out) (g : Thread → Thread)
    (hb : s.Bundled) (hl : (Latency.fixed n).long = true) (h1 : s.OnlyThreads s1)
    (hth : ∀ v, s1.thread v = if v ∈ s.active h then g ((s.thread v).stepped s.cur.pc)
      else if v ∈ s.cur.threads then (s.thread v).stepped s.cur.pc else s.thread v)
    (hg : ∀ th, (g th).trapQ = th.trapQ ∧ (g th).llSeq = th.llSeq ∧ (g th).windows = th.windows) :
    Opens s h n dr dp
      (.next ((s1.deliver s.cur.half h.la (.fixed n) dr dp ((s.active h).map fun u => (u, out u))).settle false)) out g := by
  let us := s.active h
  let k (u : TId) (th : Thread) : Thread :=
    if dr.filter (· != 255) = [] ∧ dp.filter (· != 0) = [] then th
    else { th with
      llSeq := th.llSeq + 1
      windows := th.windows ++ [windowOf s h th (s.cycle + n) (dr.filter (· != 255)) (dp.filter (· != 0)) (out u)] }
  have hopen : ∀ (y : State) (u : TId), y.cur = s.cur →
      y.openWindow s.cur.half h.la (some (s.cycle + n)) u dr dp (out u) =
        if dr.filter (· != 255) = [] ∧ dp.filter (· != 0) = [] then y else y.modThread u (k u) := by
    intro y u hy
    simp only [State.openWindow, State.openAt, hy, List.isEmpty_iff, Bool.and_eq_true]
    split
    · rfl
    · rename_i hne
      simp only [k, hne, if_false]
      rfl
  let z := us.foldl (fun y u => if dr.filter (· != 255) = [] ∧ dp.filter (· != 0) = [] then y else y.modThread u (k u)) s1
  have hcur1 : s1.cur = s.cur := by rw [h1.rest]
  have hcyc : s1.cycle = s.cycle := by
    rw [h1.rest]
    rfl
  have hnd : us.Nodup := hb.nodup.sublist List.filter_sublist
  have hfoldz : ∀ (l : List TId) (y : State), y.cur = s.cur → y.cycle = s.cycle →
      l.foldl (fun y u => y.openWindow s.cur.half h.la (some (y.cycle + n)) u dr dp (out u)) y =
        l.foldl (fun y u => if dr.filter (· != 255) = [] ∧ dp.filter (· != 0) = [] then y else y.modThread u (k u)) y := by
    intro l
    induction l with
    | nil => intros; rfl
    | cons u l ih =>
      intro y hy hk
      rw [List.foldl_cons, List.foldl_cons, hk, hopen y u hy]
      apply ih
      · split <;> exact hy
      · split <;> exact hk
  have hdel : s1.deliver s.cur.half h.la (.fixed n) dr dp (us.map fun u => (u, out u)) = z := by
    simp only [State.deliver, hl, if_true, State.latency]
    rw [List.foldl_map]
    exact hfoldz us s1 hcur1 hcyc
  have hstep : ∀ (y : State) (u : TId),
      y.OnlyThreads (if dr.filter (· != 255) = [] ∧ dp.filter (· != 0) = [] then y else y.modThread u (k u)) := by
    intro y u
    split
    · exact .refl y
    · exact y.onlyThreads_modThread ..
  have hz : s.OnlyThreads z := h1.trans (State.onlyThreads_foldl _ hstep us _)
  have hthz : ∀ v, z.thread v = if v ∈ us then k v (s1.thread v) else s1.thread v := by
    intro v
    have := State.thread_foldl
      (fun y u => if dr.filter (· != 255) = [] ∧ dp.filter (· != 0) = [] then y else y.modThread u (k u)) k
      (fun y u w => by
        by_cases he : dr.filter (· != 255) = [] ∧ dp.filter (· != 0) = []
        · simp only [k, if_pos he, ite_self]
        · rw [if_neg he, State.thread_modThread])
      (fun y u w => (hstep y u).present w) us hnd s1 v
    rw [show z.thread v = _ from this]
    by_cases hv : v ∈ us
    · have hp : s1.present v = true := by
        rw [h1.present]
        exact State.present_of_seated (hb.seated v (State.active_sub hv))
      simp [hv, hp]
    · simp [hv]
  have hact : ∀ u, u ∈ us → s1.thread u = g ((s.thread u).stepped s.cur.pc) := fun u hu => by rw [hth, if_pos hu]
  have hran := State.ran_of hb hz.regs false
    (fun u hu => by
      have hna : u ∉ us := fun hv => hu (State.active_sub hv)
      rw [hthz, if_neg hna, hth, if_neg hna, if_neg hu])
    (fun u hu => by
      rw [hthz]
      split
      · rename_i hv
        rw [hact u hv]
        simp only [k]
        split <;> exact ((hg _).1.trans (hb.clear u hu))
      · rename_i hv
        rw [hth, if_neg hv, if_pos hu]
        exact hb.clear u hu)
  obtain ⟨hr1, hst, hr2, hfr, hid, hr3, hr4⟩ := hran
  refine ⟨z.settle false, by rw [hdel], hr1, hst rfl, hr2, hfr, hid, ?_, ?_⟩
  · intro w
    rw [hr4, hz.waves]
  · intro u hu
    rw [hr3, hthz]
    by_cases ha : u ∈ us
    · rw [if_pos ha, if_pos (show u ∈ s.active h from ha), hact u ha]
      by_cases he : dr.filter (· != 255) = [] ∧ dp.filter (· != 0) = []
      · simp only [k, if_pos he]
      · simp only [k, if_neg he, windowOf_congr (hg _).2.1 (hg _).2.2, (hg _).2.1, (hg _).2.2]
        rfl
    · rw [if_neg ha, if_neg (show u ∉ s.active h from ha), hth, if_neg ha, if_pos hu]

/-- Instructions whose results have a fixed long latency: the windows that they open. -/
theorem State.compute_opens {s : State} {h : Hd} {n : Nat} {dr dp : List Nat} {f : State → TId → Out}
    (hb : s.Bundled) (hc : ∀ u ∈ s.active h, (s.thread u).conflict dr dp = none) (hl : (Latency.fixed n).long = true) :
    Opens s h n dr dp (.next (s.compute h (.fixed n) dr dp f)) (f s) := by
  have := State.deliver_opens (dr := dr) (dp := dp) (f s) id hb hl (s.onlyThreads_begin h dr dp) (fun v => by
    rw [State.thread_begin hb hc]
    by_cases ha : v ∈ s.active h
    · rw [if_pos ha, if_pos (State.active_sub ha)]
      rfl
    · rw [if_neg ha]) fun _ => ⟨rfl, rfl, rfl⟩
  simpa only [State.compute, State.acting_begin hb hc] using this

/-! The same for an instruction of one result -/

theorem putNum_fits (wide : Bool) (d n : Nat) :
    (∀ v ∈ putNum wide d n, v.1 ∈ dests wide d) ∧ ((putNum wide d n).map (·.1)).Nodup := by
  cases wide <;> simp [putNum, dests]

theorem Writes.congr {s : State} {h : Hd} {o : Host.Outcome State Fault Refusal} {f g : TId → Out} (hw : Writes s h o f)
    (hfg : ∀ u, f u = g u) : Writes s h o g := by
  have : f = g := funext hfg
  exact this ▸ hw

theorem Opens.congr {s : State} {h : Hd} {n : Nat} {dr dp : List Nat} {o : Host.Outcome State Fault Refusal} {f g : TId → Out}
    (hw : Opens s h n dr dp o f) (hfg : ∀ u, f u = g u) : Opens s h n dr dp o g := by
  have : f = g := funext hfg
  exact this ▸ hw

theorem gives_of_compute {s : State} {h : Hd} {wide : Bool} {d : Nat} {i : Instr} {val : TId → Nat} {f : State → TId → Out}
    (hx : exec i s = .next (s.compute h .short (dests wide d) [] f))
    (hf : ∀ u, f s u = { regs := putNum wide d (val u) }) : Gives s h wide d i val := by
  intro hb hfree
  rw [hx]
  refine (State.compute_writes hb hfree rfl fun u _ => ?_).congr hf
  rw [hf u]
  exact ⟨(putNum_fits ..).1, (putNum_fits ..).2, by simp⟩

theorem tells_of_compute {s : State} {h : Hd} {p : Nat} {i : Instr} {val : TId → Bool} {f : State → TId → Out}
    (hx : exec i s = .next (s.compute h .short [] [p] f)) (hf : ∀ u, f s u = { preds := [(p, val u)] }) :
    Tells s h p i val := by
  intro hb hfree
  rw [hx]
  refine (State.compute_writes hb hfree rfl fun u _ => ?_).congr hf
  rw [hf u]
  simp

theorem givesLater_of_compute {s : State} {h : Hd} {n : Nat} {wide : Bool} {d : Nat} {i : Instr} {val : TId → Nat}
    {f : State → TId → Out} (hx : exec i s = .next (s.compute h (.fixed n) (dests wide d) [] f))
    (hl : (Latency.fixed n).long = true) (hf : ∀ u, f s u = { regs := putNum wide d (val u) }) :
    GivesLater s h n wide d i val := by
  intro hb hc
  rw [hx]
  exact (State.compute_opens hb hc hl).congr hf

theorem tellsLater_of_compute {s : State} {h : Hd} {n p : Nat} {i : Instr} {val : TId → Bool} {f : State → TId → Out}
    (hx : exec i s = .next (s.compute h (.fixed n) [] [p] f)) (hl : (Latency.fixed n).long = true)
    (hf : ∀ u, f s u = { preds := [(p, val u)] }) : TellsLater s h n p i val := by
  intro hb hc
  rw [hx]
  exact (State.compute_opens hb hc hl).congr hf

end Sys2Proof.Machine
end

