-- ==== Sys2Proof/Laws/Traps.lean ====
section
/-!
SUPPORT. Instructions that change each thread by itself, and instructions that raise a trap in their active threads: filing,
entry to the handler, and all that stays.
-/
namespace Sys2Proof.Machine

/-! Filing -/

theorem State.file_eq {s : State} {u : TId} {g : Nat} (hs : s.seated u = true) :
    s.file u g = if (s.wave u.w).halted then s
      else s.modPart u.pid fun p => { p with filings := p.filings ++ [⟨u, g, (s.core u.core).cyc.toNat⟩] } := by
  have h1 := State.find_of_seated hs
  unfold State.file
  have : (s.waves.find? u.w).isNone = false := by
    cases h : s.waves.find? u.w <;> simp_all
  rw [this, Bool.false_or]

/-- The bins and filings after a bundle is filed. -/
theorem State.fileBin_spec {s : State} {pid bin : Nat} {ts : List TId} (hts : ((s.part pid).bins.get bin {}).threads = ts)
    (hs : ∀ u ∈ ts, s.seated u = true) (hp : ∀ u ∈ ts, u.pid = pid) :
    ((s.fileBin pid bin).part pid).bins = (s.part pid).bins.del bin ∧
      ((s.fileBin pid bin).part pid).filings = (s.part pid).filings ++
        (ts.filter fun u => !(s.wave u.w).halted).map fun u => ⟨u, 2, (s.core u.core).cyc.toNat⟩ := by
  have h : ∀ (l : List TId) (z : State), (∀ u ∈ l, s.seated u = true) → (∀ u ∈ l, u.pid = pid) → z.waves = s.waves → z.cores = s.cores →
      ((l.foldl (fun z u => z.file u 2) z).part pid).bins = (z.part pid).bins ∧
        ((l.foldl (fun z u => z.file u 2) z).part pid).filings = (z.part pid).filings ++
          (l.filter fun u => !(s.wave u.w).halted).map fun u => ⟨u, 2, (s.core u.core).cyc.toNat⟩ := by
    intro l
    induction l with
    | nil => intro z _ _ _ _; simp
    | cons u l ih =>
      intro z hl hq hw hc
      have hz : z.seated u = true := by
        have he : z.seated u = s.seated u := by
          have hx : z.wave u.w = s.wave u.w := by simp only [State.wave, hw]
          rw [State.seated, State.seated, hw, hx]
        rw [he]
        exact hl u (List.mem_cons_self ..)
      have hwv : z.wave u.w = s.wave u.w := by simp only [State.wave, hw]
      have hcv : z.core u.core = s.core u.core := by simp only [State.core, hc]
      have hup := hq u (List.mem_cons_self ..)
      rw [List.foldl_cons, State.file_eq hz, hwv, hcv, hup]
      have hl' : ∀ v ∈ l, s.seated v = true := fun v hv => hl v (List.mem_cons_of_mem _ hv)
      have hq' : ∀ v ∈ l, v.pid = pid := fun v hv => hq v (List.mem_cons_of_mem _ hv)
      by_cases hh : (s.wave u.w).halted
      · rw [if_pos hh, List.filter_cons_of_neg (by simp [hh])]
        exact ih z hl' hq' hw hc
      · rw [if_neg hh, List.filter_cons_of_pos (by simp [hh])]
        obtain ⟨h1, h2⟩ := ih (z.modPart pid fun p => { p with filings := p.filings ++ [⟨u, 2, (s.core u.core).cyc.toNat⟩] })
          hl' hq' hw hc
        refine ⟨by simpa using h1, ?_⟩
        rw [h2]
        simp
  obtain ⟨h1, h2⟩ := h ts
    (s.modPart pid fun p => { p with bins := p.bins.del bin })
    hs hp rfl rfl
  unfold State.fileBin
  rw [hts]
  exact ⟨by simpa using h1, by simpa using h2⟩

/-! Each thread by itself -/

/-- A fold that changes each thread by itself, seen as the plain fold of the changes. -/
theorem State.foldl_eq_modThread {s1 : State} (F : State → TId → State) (g : TId → Thread → Thread) (l : List TId)
    (hn : l.Nodup)
    (hF : ∀ z u, u ∈ l → s1.OnlyThreads z → z.thread u = s1.thread u → F z u = z.modThread u (g u)) :
    l.foldl F s1 = l.foldl (fun z u => z.modThread u (g u)) s1 := by
  suffices h : ∀ (k : List TId) (z : State), k.Nodup → (∀ u ∈ k, u ∈ l) → s1.OnlyThreads z →
      (∀ u ∈ k, z.thread u = s1.thread u) → k.foldl F z = k.foldl (fun z u => z.modThread u (g u)) z from
    h l s1 hn (fun _ h => h) (.refl s1) fun _ _ => rfl
  intro k
  induction k with
  | nil => intros; rfl
  | cons u k ih =>
    intro z hk hl hz ht
    simp only [List.nodup_cons] at hk
    rw [List.foldl_cons, List.foldl_cons, hF z u (hl u (List.mem_cons_self ..)) hz (ht u (List.mem_cons_self ..))]
    refine ih _ hk.2 (fun v hv => hl v (List.mem_cons_of_mem _ hv)) (hz.trans (z.onlyThreads_modThread ..)) fun v hv => ?_
    have hne : ¬ (v = u ∧ z.present v = true) := fun h => hk.1 (h.1 ▸ hv)
    rw [State.thread_modThread, if_neg hne]
    exact ht v (List.mem_cons_of_mem _ hv)

/-- No instruction without destinations meets a conflict. -/
theorem State.noConflict_nil (s : State) (h : Hd) : ∀ u ∈ s.active h, (s.thread u).conflict [] [] = none := by
  intro u _
  simp [Thread.conflict, List.findSome?_eq_none_iff]

/-- A fold of changes over the active threads of a bundle. -/
theorem State.fold_moves {s : State} {h : Hd} (hb : s.Bundled) (F : State → TId → State) (g : TId → Thread → Thread)
    (l : List TId) (hn : l.Nodup) (hl : ∀ u, u ∈ l ↔ u ∈ s.active h)
    (hg : ∀ u ∈ s.active h, (g u ((s.thread u).stepped s.cur.pc)).trapQ = none)
    (hF : ∀ z u, u ∈ l → (s.begin h [] []).OnlyThreads z → z.thread u = (s.thread u).stepped s.cur.pc →
      F z u = z.modThread u (g u)) :
    Moves s h (.next ((l.foldl F (s.begin h [] [])).settle false)) fun u act th => if act then g u th else th := by
  have hth := State.thread_begin (dr := []) (dp := []) hb (s.noConflict_nil h)
  have hon : ∀ u ∈ l, (s.begin h [] []).thread u = (s.thread u).stepped s.cur.pc := fun u hu => by
    rw [hth, if_pos (State.active_sub ((hl u).1 hu))]
  rw [State.foldl_eq_modThread F g l hn fun z u hu hz ht => hF z u hu hz (ht.trans (hon u hu))]
  have hv : ∀ v, (l.foldl (fun z u => z.modThread u (g u)) (s.begin h [] [])).thread v =
      if v ∈ s.active h then g v ((s.thread v).stepped s.cur.pc)
      else if v ∈ s.cur.threads then (s.thread v).stepped s.cur.pc else s.thread v := by
    intro v
    rw [State.thread_foldl_modThread l hn g, hth]
    by_cases ha : v ∈ s.active h
    · have hm := State.active_sub ha
      have hp : (s.begin h [] []).present v = true := by
        rw [(s.onlyThreads_begin h [] []).present]
        exact State.present_of_seated (hb.seated v hm)
      simp [(hl v).2 ha, ha, hp, hm]
    · have hnl : v ∉ l := fun hx => ha ((hl v).1 hx)
      simp [ha, hnl]
  refine State.moves_of hb _
    ((s.onlyThreads_begin h [] []).trans (State.onlyThreads_foldl _ (fun s _ => s.onlyThreads_modThread ..) _ _))
    (fun u hu => ?_) (fun u hu => ?_) (fun u hu => ?_)
  · rw [hv, if_neg fun ha => hu (State.active_sub ha), if_neg hu]
  · rw [hv]
    by_cases ha : u ∈ s.active h
    · simp [ha]
    · simp [ha, hu]
  · rw [hv]
    by_cases ha : u ∈ s.active h
    · rw [if_pos ha]
      exact hg u ha
    · rw [if_neg ha, if_pos hu]
      exact hb.clear u hu

/-- A fold of changes over all threads of a bundle. -/
theorem State.all_moves {s : State} {h : Hd} (hb : s.Bundled) (F : State → TId → State) (g : TId → Thread → Thread)
    (hg : ∀ u ∈ s.cur.threads, (g u ((s.thread u).stepped s.cur.pc)).trapQ = none)
    (hF : ∀ z u, u ∈ s.cur.threads → z.thread u = (s.thread u).stepped s.cur.pc → F z u = z.modThread u (g u)) :
    Moves s h (.next ((s.cur.threads.foldl F (s.begin h [] [])).settle false)) fun u _ th => g u th := by
  have hth := State.thread_begin (dr := []) (dp := []) hb (s.noConflict_nil h)
  rw [State.foldl_eq_modThread F g _ hb.nodup fun z u hu _ ht => hF z u hu (by rw [ht, hth, if_pos hu])]
  have hv := State.thread_foldl_modThread s.cur.threads hb.nodup g (s.begin h [] [])
  have hp : ∀ u ∈ s.cur.threads, (s.begin h [] []).present u = true := fun u hu => by
    rw [(s.onlyThreads_begin h [] []).present]
    exact State.present_of_seated (hb.seated u hu)
  refine State.moves_of hb (fun u _ th => g u th)
    ((s.onlyThreads_begin h [] []).trans (State.onlyThreads_foldl _ (fun s _ => s.onlyThreads_modThread ..) _ _))
    (fun u hu => by rw [hv, if_neg fun hx => hu hx.1, hth, if_neg hu]) (fun u hu => ?_) (fun u hu => ?_)
  · rw [hv, if_pos ⟨hu, hp u hu⟩, hth, if_pos hu]
  · rw [hv, if_pos ⟨hu, hp u hu⟩, hth, if_pos hu]
    exact hg u hu

/-- An instruction that does nothing but go on. -/
theorem State.nop_moves {s : State} {h : Hd} (hb : s.Bundled) :
    Moves s h (.next ((s.begin h [] []).settle false)) fun _ _ th => th := by
  have hth := State.thread_begin (dr := []) (dp := []) hb (s.noConflict_nil h)
  exact State.moves_of hb (fun _ _ th => th) (s.onlyThreads_begin h [] []) (fun u hu => by rw [hth, if_neg hu])
    (fun u hu => by rw [hth, if_pos hu]) fun u hu => by
      rw [hth, if_pos hu]
      exact hb.clear u hu

/-- After an instruction that files the bundle (R253): its threads are filed. -/
theorem State.files_of {s z : State} (hb : s.Bundled) (hr : s.OnlyRegs z) (hh : ∀ w, (z.wave w).halted = (s.wave w).halted)
    (ht : ∀ u ∈ s.cur.threads, (z.thread u).trapQ = none) : s.Files (z.settle true) := by
  have hcur : z.cur = s.cur := by rw [hr.rest]
  have hpart : ∀ p, z.part p = s.part p := by
    intro p
    rw [hr.rest]
    rfl
  have hbin : (z.part s.pid).bins.get s.cur.bin {} = s.bin := by
    rw [hpart]
    rfl
  have hth := hb.bin
  have hpid : s.cur.core * 4 + s.cur.part = s.pid := rfl
  have hno : (s.bin.threads.any fun t => (z.thread t).trapQ.isSome) = false := by
    rw [hth]
    simp only [List.any_eq_false]
    intro u hu
    simp [ht u hu]
  have hne : s.bin.threads.isEmpty = false := by
    rw [hth]
    simpa using hb.some_
  have key : z.settle true = z.fileBin s.pid s.cur.bin := by
    simp only [State.settle, hcur, hpid, hbin, hno, hne, Bool.false_eq_true, if_false, Bool.true_or, if_true]
  have hseat : ∀ u, z.seated u = s.seated u := by
    intro u
    have := hr.present u
    simp only [State.present] at this
    simp only [State.seated, this]
  obtain ⟨h1, h2⟩ := State.fileBin_spec (s := z) (pid := s.pid) (bin := s.cur.bin) (ts := s.cur.threads)
    (by rw [hbin]; exact hth) (fun u hu => by rw [hseat]; exact hb.seated u hu) hb.here
  rw [key]
  refine ⟨by rw [h1, hpart], ?_⟩
  rw [h2, hpart]
  have hcr : ∀ u : TId, z.core u.core = s.core u.core := by
    intro u
    rw [hr.rest]
    rfl
  simp only [hh, hcr]

/-- Threads in lane order are the same threads. -/
theorem mem_insertLane {t u : TId} {l : List TId} : u ∈ insertLane t l ↔ u = t ∨ u ∈ l := by
  induction l with
  | nil => simp [insertLane]
  | cons a l ih =>
    simp only [insertLane]
    split
    · simp
    · simp [ih, or_left_comm]

theorem mem_laneOrder {u : TId} {l : List TId} : u ∈ laneOrder l ↔ u ∈ l := by
  induction l with
  | nil => simp [laneOrder]
  | cons a l ih =>
    have : laneOrder (a :: l) = insertLane a (laneOrder l) := rfl
    rw [this, mem_insertLane, ih, List.mem_cons]

theorem nodup_insertLane {t : TId} {l : List TId} (h : t ∉ l) (hn : l.Nodup) : (insertLane t l).Nodup := by
  induction l with
  | nil => simp [insertLane]
  | cons a l ih =>
    simp only [insertLane]
    split
    · exact List.nodup_cons.2 ⟨h, hn⟩
    · simp only [List.nodup_cons] at hn
      refine List.nodup_cons.2 ⟨?_, ih (fun hx => h (List.mem_cons_of_mem _ hx)) hn.2⟩
      rw [mem_insertLane]
      rintro (hx | hx)
      · exact h (hx ▸ List.mem_cons_self ..)
      · exact hn.1 hx

theorem nodup_laneOrder {l : List TId} (hn : l.Nodup) : (laneOrder l).Nodup := by
  induction l with
  | nil => exact List.nodup_nil
  | cons a l ih =>
    simp only [List.nodup_cons] at hn
    have : laneOrder (a :: l) = insertLane a (laneOrder l) := rfl
    rw [this]
    exact nodup_insertLane (fun h => hn.1 (mem_laneOrder.1 h)) (ih hn.2)

theorem State.eachThread_moves {s : State} {h : Hd} {f : State → TId → Thread → Thread} (hb : s.Bundled)
    (hf : ∀ u ∈ s.active h, ∀ th, (f s u th).trapQ = th.trapQ) :
    Moves s h (.next (s.eachThread h f)) fun u act th => if act then f s u th else th := by
  simp only [State.eachThread, State.acting_begin hb (s.noConflict_nil h)]
  exact State.fold_moves hb _ (f s) _ (hb.nodup.sublist List.filter_sublist) (fun _ => Iff.rfl)
    (fun u hu => (hf u hu _).trans (hb.clear u (State.active_sub hu))) fun _ _ _ _ _ => rfl

/-! Traps -/

/-- `t` differs from `s` in threads and the count of free values alone. -/
structure State.OnlyTraps (s t : State) : Prop where
  rest    : t = { s with waves := t.waves, freeCtr := t.freeCtr }
  waves   : ∀ w, t.wave w = { s.wave w with threads := (t.wave w).threads }
  present : ∀ u, t.present u = s.present u
  find    : ∀ w, (t.waves.find? w).isSome = (s.waves.find? w).isSome

theorem State.OnlyThreads.traps {s t : State} (h : s.OnlyThreads t) : s.OnlyTraps t where
  rest := by
    have := h.rest
    rw [this]
  waves := h.waves
  present := h.present
  find := h.find

theorem State.OnlyTraps.trans {s t z : State} (h : s.OnlyTraps t) (k : t.OnlyTraps z) : s.OnlyTraps z where
  rest := by rw [k.rest, h.rest]
  waves w := by rw [k.waves, h.waves]
  present u := (k.present u).trans (h.present u)
  find w := (k.find w).trans (h.find w)

theorem Config.freeByte_or_one (n : Nat) : (Config.freeByte n ||| 1).getLsbD 0 = true := by
  rw [BitVec.getLsbD_or]
  simp

/-- A thread with a trap to take and no result to come takes it. -/
theorem State.enterDue_spec {s : State} {u : TId} {d : TrapDue} (hp : s.present u = true) (hq : (s.thread u).trapQ = some d)
    (hw : (s.thread u).windows = []) (hh : (s.thread u).hand = none) (hc : (s.ctxOf u).handler ≠ 0) :
    s.OnlyTraps (s.enterDue u) ∧ (∀ v, v ≠ u → (s.enterDue u).thread v = s.thread v) ∧
      Thread.Entered (s.thread u) ((s.enterDue u).thread u) u.lane d.trap d.tpc (BitVec.ofNat 64 (s.ctxOf u).handler) := by
  have hc' : ((s.ctxOf u).handler == 0) = false := by simpa using hc
  have key : s.enterDue u = ({ s with freeCtr := s.freeCtr + 1 } : State).modThread u fun th =>
      { th with
        hand := some (handlerOf d.trap d.tpc u.lane s.freeCtr)
        pc := BitVec.ofNat 64 (s.ctxOf u).handler
        st := .ready
        trapQ := none
        pend := none
        block := none
        grant := false } := by
    simp only [State.enterDue, hq, hw, List.isEmpty_nil, if_true, State.enter, hh, Option.isSome_none, Bool.false_eq_true, if_false,
      hc', State.free]
  rw [key]
  have h0 : s.OnlyTraps { s with freeCtr := s.freeCtr + 1 } := ⟨rfl, fun _ => rfl, fun _ => rfl, fun _ => rfl⟩
  refine ⟨h0.trans (State.onlyThreads_modThread ..).traps, ?_, ?_⟩
  · intro v hv
    rw [State.thread_modThread, if_neg fun h => hv h.1]
    rfl
  · rw [State.thread_modThread, if_pos ⟨rfl, hp⟩]
    refine ⟨rfl, _, rfl, rfl, rfl, rfl, rfl, ?_⟩
    exact Config.freeByte_or_one _

theorem State.enterDue_foldl (us : List TId) (hn : us.Nodup) (s : State)
    (hu : ∀ u ∈ us, s.present u = true ∧ (∃ d, (s.thread u).trapQ = some d) ∧ (s.thread u).windows = [] ∧
      (s.thread u).hand = none ∧ (s.ctxOf u).handler ≠ 0) :
    s.OnlyTraps (us.foldl (fun z u => z.enterDue u) s) ∧
      (∀ v, v ∉ us → (us.foldl (fun z u => z.enterDue u) s).thread v = s.thread v) ∧
      ∀ u ∈ us, ∀ d, (s.thread u).trapQ = some d →
        Thread.Entered (s.thread u) ((us.foldl (fun z u => z.enterDue u) s).thread u) u.lane d.trap d.tpc
          (BitVec.ofNat 64 (s.ctxOf u).handler) := by
  induction us generalizing s with
  | nil => exact ⟨(State.OnlyThreads.refl s).traps, fun _ _ => rfl, fun _ h => by simp at h⟩
  | cons u us ih =>
    simp only [List.nodup_cons] at hn
    obtain ⟨hp, ⟨d, hq⟩, hw, hh, hc⟩ := hu u (List.mem_cons_self ..)
    obtain ⟨e1, e2, e3⟩ := State.enterDue_spec hp hq hw hh hc
    have hctx : ∀ v, (s.enterDue u).ctxOf v = s.ctxOf v := by
      intro v
      simp only [State.ctxOf]
      rw [e1.waves]
      rw [e1.rest]
      rfl
    obtain ⟨i1, i2, i3⟩ := ih hn.2 (s.enterDue u) (fun v hv => by
      have hne : v ≠ u := fun h => hn.1 (h ▸ hv)
      rw [e1.present, e2 v hne, hctx]
      exact hu v (List.mem_cons_of_mem _ hv))
    rw [List.foldl_cons]
    refine ⟨e1.trans i1, ?_, ?_⟩
    · intro v hv
      rw [i2 v fun h => hv (List.mem_cons_of_mem _ h), e2 v fun h => hv (h ▸ List.mem_cons_self ..)]
    · intro v hv dv hqv
      by_cases hvu : v = u
      · subst hvu
        rw [i2 v hn.1]
        rw [hq] at hqv
        cases hqv
        exact e3
      · have hm : v ∈ us := by
          rcases List.mem_cons.1 hv with h | h
          · exact absurd h hvu
          · exact h
        have := i3 v hm dv (by rw [e2 v hvu]; exact hqv)
        rw [e2 v hvu, hctx] at this
        exact this

/-- An instruction that raises a trap in each active thread. -/
theorem State.raise_traps {s : State} {h : Hd} (tr : TId → Trap) (hb : s.Bundled) (ht : s.CanTrap h) (hne : s.active h ≠ [])
    (half : Bool) :
    Traps s h (.next (((s.acting (s.begin h [] []) h).foldl (fun z u => z.raise u (tr u) s.cur.pc) (s.begin h [] [])).settle half)) tr := by
  have hc : ∀ u ∈ s.active h, (s.thread u).conflict [] [] = none := by
    intro u _
    simp [Thread.conflict, List.findSome?_eq_none_iff]
  have hth := State.thread_begin (dr := []) (dp := []) hb hc
  have hnd : (s.active h).Nodup := hb.nodup.sublist List.filter_sublist
  rw [State.acting_begin hb hc]
  let s1 := s.begin h [] []
  let g (u : TId) (th : Thread) : Thread := th.addTrap ⟨tr u, (tr u).code.tpc s.cur.pc, th.llSeq⟩
  let z := (s.active h).foldl (fun z u => z.modThread u (g u)) s1
  have hzr : (s.active h).foldl (fun z u => z.raise u (tr u) s.cur.pc) s1 = z := rfl
  have h0 : s.OnlyThreads s1 := s.onlyThreads_begin h [] []
  have h1 : s.OnlyThreads z := h0.trans (State.onlyThreads_foldl _ (fun s _ => s.onlyThreads_modThread ..) _ _)
  have hv : ∀ v, z.thread v = if v ∈ s.active h then g v ((s.thread v).stepped s.cur.pc)
      else if v ∈ s.cur.threads then (s.thread v).stepped s.cur.pc else s.thread v := by
    intro v
    have := State.thread_foldl_modThread (s.active h) hnd g s1 v
    rw [show z.thread v = _ from this, hth]
    by_cases ha : v ∈ s.active h
    · have hm := State.active_sub ha
      have hp : s1.present v = true := by
        rw [h0.present]
        exact State.present_of_seated (hb.seated v hm)
      simp [ha, hp, hm]
    · simp [ha]
  have hg : ∀ u ∈ s.active h, g u ((s.thread u).stepped s.cur.pc) =
      { (s.thread u) with
        pc := s.cur.pc + 8, windows := [], counted := false
        trapQ := some ⟨tr u, (tr u).code.tpc s.cur.pc, (s.thread u).llSeq⟩ } := by
    intro u hu
    have hcl := hb.clear u (State.active_sub hu)
    have hw := (ht u hu).2.2
    simp only [g, Thread.addTrap, Thread.close, Thread.stepped, Thread.countWindows, hcl, hw, List.map_nil, ite_self]
  have hcur : z.cur = s.cur := by rw [h1.rest]
  have hpart : ∀ p, z.part p = s.part p := by
    intro p
    rw [h1.rest]
    rfl
  have hbin : ((z.part s.pid).bins.get s.cur.bin {}).threads = s.cur.threads := by
    rw [hpart]
    exact hb.bin
  obtain ⟨a, ha⟩ := List.exists_mem_of_ne_nil _ hne
  have hany : (s.cur.threads.any fun t => (z.thread t).trapQ.isSome) = true := by
    rw [List.any_eq_true]
    refine ⟨a, State.active_sub ha, ?_⟩
    rw [hv, if_pos ha, hg a ha]
    rfl
  have hfil : s.cur.threads.filter (fun t => (z.thread t).trapQ.isSome) = s.active h := by
    unfold State.active
    apply List.filter_congr
    intro u hu
    rw [hv]
    by_cases hact : u ∈ s.active h
    · rw [if_pos hact, hg u hact]
      simp only [State.active, List.mem_filter] at hact
      simp [hact.2]
    · rw [if_neg hact, if_pos hu]
      have : ¬ (s.thread u).guard h = true := fun hx => hact (List.mem_filter.2 ⟨hu, hx⟩)
      simp only [Thread.stepped, hb.clear u hu, Option.isSome_none]
      exact (Bool.eq_false_iff.2 this).symm
  have hemp : ((s.active h).all fun t => (z.thread t).windows.isEmpty) = true := by
    rw [List.all_eq_true]
    intro u hu
    rw [hv, if_pos hu, hg u hu]
    rfl
  have hset : z.settle half = (((s.active h).foldl (fun z u => z.enterDue u) z).fileBin s.pid s.cur.bin) := by
    have hpid : s.cur.core * 4 + s.cur.part = s.pid := rfl
    simp only [State.settle, hcur, hpid, hbin, hany, if_true, State.settleTraps, hfil, hemp]
  have hctx : ∀ v, z.ctxOf v = s.ctxOf v := by
    intro v
    simp only [State.ctxOf]
    rw [h1.waves, h1.rest]
    rfl
  obtain ⟨e1, e2, e3⟩ := State.enterDue_foldl (s.active h) hnd z (fun u hu => by
    refine ⟨?_, ?_, ?_, ?_, ?_⟩
    · rw [h1.present]
      exact State.present_of_seated (hb.seated u (State.active_sub hu))
    · rw [hv, if_pos hu, hg u hu]
      exact ⟨_, rfl⟩
    · rw [hv, if_pos hu, hg u hu]
    · rw [hv, if_pos hu, hg u hu]
      exact (ht u hu).2.1
    · rw [hctx]
      exact (ht u hu).1)
  let y := (s.active h).foldl (fun z u => z.enterDue u) z
  have hy : s.OnlyTraps y := h1.traps.trans e1
  have hyp : ∀ p, y.part p = s.part p := by
    intro p
    rw [hy.rest]
    rfl
  have hseat : ∀ u, y.seated u = s.seated u := by
    intro u
    have := hy.present u
    simp only [State.present] at this
    simp only [State.seated, this]
  have hfs := State.fileBin_spec (s := y) (pid := s.pid) (bin := s.cur.bin) (ts := s.cur.threads)
    (by rw [hyp]; exact hb.bin) (fun u hu => by rw [hseat]; exact hb.seated u hu) hb.here
  have hob := State.onlyBins_fileBin (s := y) (pid := s.pid) (bin := s.cur.bin) (fun u hu => by
    rw [hyp] at hu
    exact hb.here u (hb.bin ▸ hu))
  have hwf : ∀ w, (y.fileBin s.pid s.cur.bin).wave w = y.wave w := by
    intro w
    rw [hob.rest]
    rfl
  have htf : ∀ u, (y.fileBin s.pid s.cur.bin).thread u = y.thread u := by
    intro u
    simp only [State.thread, hwf]
  rw [hzr, hset]
  refine ⟨y.fileBin s.pid s.cur.bin, rfl, ⟨?_, ?_, ?_, ?_, ?_⟩, ?_, ?_, ?_, ⟨?_, ?_⟩, ?_, ?_⟩
  · rw [hob.rest, hy.rest]
  · intro w
    rw [hwf, hy.waves]
  · intro u hu
    have hna : u ∉ s.active h := fun hx => hu (State.active_sub hx)
    rw [htf, show y.thread u = z.thread u from e2 u hna, hv, if_neg hna, if_neg hu]
  · intro p hp
    rw [hob.parts p hp, hyp]
  · rw [hob.here, hyp]
  · rw [hob.rest, hy.rest]
  · rw [hob.rest, hy.rest]
  · intro w
    rw [hwf, hy.waves]
  · rw [hfs.1, hyp]
  · rw [hfs.2, hyp]
    have hh : ∀ u : TId, (y.wave u.w).halted = (s.wave u.w).halted := by
      intro u
      rw [hy.waves]
    have hcr : ∀ u : TId, y.core u.core = s.core u.core := by
      intro u
      rw [hy.rest]
      rfl
    simp only [hh, hcr]
  · intro u hu
    have := e3 u hu ⟨tr u, (tr u).code.tpc s.cur.pc, (s.thread u).llSeq⟩ (by rw [hv, if_pos hu, hg u hu])
    rw [hctx] at this
    obtain ⟨r, x, hx⟩ := this
    rw [htf]
    refine ⟨?_, x, hx⟩
    rw [hv, if_pos hu, hg u hu] at r
    have hw := (ht u hu).2.2
    rw [show y.thread u = _ from r, ← hw]
  · intro u hu hna
    rw [htf, show y.thread u = z.thread u from e2 u hna, hv, if_neg hna, if_pos hu]

end Sys2Proof.Machine
end

