-- ==== Sys2Proof/Tests/Slice0.lean ====
section
/-!
SUPPORT. The model's own tests: ill-formed words and instructions, words written out from the encoding tables of the spec,
single steps on a small machine, and for every statement concrete states and operands that meet its hypotheses.
-/
set_option maxRecDepth 100000

namespace Sys2Proof.Tests

open Sys2Proof.Machine

/-! Decoding -/

/-- No guard; the guard !p5; the guard p3 with a lookahead of 6. -/
def h : Hd := ⟨false, 0, 0⟩
def g : Hd := ⟨true, 5, 0⟩
def l : Hd := ⟨false, 3, 6⟩

/-- The words decode to the instructions, which encode to them. -/
def decodes (ws : List (Nat × Instr)) : Bool :=
  ws.all fun x => decide (decodeTableWord 64 x.1 = some x.2) && encode x.2 == x.1

/-- Words of R71 and R72, their fields laid out by R40, R44, R46 and R68. -/
theorem test_decode_immediates : decodes [
    (0x0086E4007FFFFFFB, .movi g 200 (-5)),
    (0x010003800000FFFF, .movh h 7 65535),
    (0x0180068680000001, .iaddImm h 13 13 1),
    (0x0231808140000000, .imulImm l 1 2 (-1073741824)),
    (0x028001823FFFFFFF, .andImm h 3 4 1073741823),
    (0x030002837FFFFFFF, .orImm h 5 6 (-1)),
    (0x03807F84800000AA, .xorImm h 255 9 170),
    (0x040005058000001F, .shlImm h 10 11 31),
    (0x0486860680000001, .shrImm g 12 13 1),
    (0x0500070780000010, .sarImm h 14 15 16)] = true := by decide

/-- Words of R71 and R72, their fields laid out by R40, R44, R46 and R68. -/
theorem test_decode_integer_1 : decodes [
    (0x080008088926500A, .iadd h (some ⟨.rotate, false, 4, 5⟩) 16 17 18 true .s32),
    (0x0880010203591007, .isub h (some ⟨.butterfly, true, 5, 17⟩) 2 4 6 false .z64),
    (0x0900008101800000, .imin h none 1 2 3 .s8),
    (0x0986808101F23005, .imax g (some ⟨.broadcast, true, 2, 3⟩) 1 2 3 .z16),
    (0x0A00008100591009, .iabs h (some ⟨.butterfly, true, 5, 17⟩) 1 2 true .s16),
    (0x0A80020300000003, .ineg h none 4 6 false .s64),
    (0x0B31808101800006, .imul l none 1 2 3 .z32),
    (0x0BB1808101A65004, .imulh l (some ⟨.rotate, false, 4, 5⟩) 1 2 3 .z8),
    (0x0C00008101800642, .isum h none 1 2 3 200 .s32),
    (0x0CB1808101F23022, .imad l (some ⟨.broadcast, true, 2, 3⟩) 1 2 3 4 .s32),
    (0x0D00010203000047, .isad h none 2 4 6 8 .z64),
    (0x0DB1808101800002, .idiv l none 1 2 3 .s32),
    (0x0E31810203000003, .irem l none 2 4 6 .s64),
    (0x0E8001020300003F, .lea h none 2 4 6 31 true)] = true := by decide

/-- Words of R71 and R72, their fields laid out by R40, R44, R46 and R68. -/
theorem test_decode_integer_2 : decodes [
    (0x0F0000810180002E, .iset h none 1 2 3 .ge .z32),
    (0x0F80008101A6500E, .sel h (some ⟨.rotate, false, 4, 5⟩) 1 2 3 false true 6)] = true := by decide

/-- Words of R71 and R72, their fields laid out by R40, R44, R46 and R68. -/
theorem test_decode_logic_1 : decodes [
    (0x1000010203000001, .and h none 2 4 6 true),
    (0x1080010203000001, .or h none 2 4 6 true),
    (0x1100010203000001, .xor h none 2 4 6 true),
    (0x1180010203000001, .andn h none 2 4 6 true),
    (0x1200048400000000, .not h none 9 8 false),
    (0x1280010203A65001, .shl h (some ⟨.rotate, false, 4, 5⟩) 2 4 7 true),
    (0x1300010203A65001, .shr h (some ⟨.rotate, false, 4, 5⟩) 2 4 7 true),
    (0x1380010203A65001, .sar h (some ⟨.rotate, false, 4, 5⟩) 2 4 7 true),
    (0x1400010203A65001, .rol h (some ⟨.rotate, false, 4, 5⟩) 2 4 7 true),
    (0x1480018200000001, .popc h none 3 4 true),
    (0x1500018200000001, .clz h none 3 4 true),
    (0x1586818280723000, .brev g (some ⟨.broadcast, true, 2, 3⟩) 3 5 false),
    (0x1600008101800006, .bfe h none 1 2 3 .z32),
    (0x1680010202800041, .bfi h none 2 4 5 8 true)] = true := by decide

/-- Words of R71 and R72, their fields laid out by R40, R44, R46 and R68. -/
theorem test_decode_logic_2 : decodes [
    (0x1700008100591000, .mov h (some ⟨.butterfly, true, 5, 17⟩) 1 2 false),
    (0x1800038404800012, .pset h none 7 8 9 .lt .s32),
    (0x1880008101800001, .pand h 1 2 3 true false),
    (0x1900008101800002, .por h 1 2 3 false true),
    (0x1980020283000003, .pxor h 4 5 6 true true),
    (0x1A00030380000001, .pnot h 6 7 true)] = true := by decide

/-- Words of R71 and R72, their fields laid out by R40, R44, R46 and R68. -/
theorem test_decode_floats_1 : decodes [
    (0x2031808101800002, .fadd l none 1 2 3 .rp),
    (0x20B1808101800002, .fsub l none 1 2 3 .rp),
    (0x2131808101800002, .fmul l none 1 2 3 .rp),
    (0x21B1808101A65023, .ffma l (some ⟨.rotate, false, 4, 5⟩) 1 2 3 4 .rm),
    (0x2231808101800000, .fmin l none 1 2 3),
    (0x22B1808101800000, .fmax l none 1 2 3),
    (0x2331828101800006, .fset l none 5 2 3 .unord),
    (0x23B1808100000001, .frnd l none 1 2 .rz),
    (0x2431808100000000, .fclass l none 1 2),
    (0x24B1808101800001, .fdiv l none 1 2 3 .rz),
    (0x2531808100000003, .frcp l none 1 2 .rm),
    (0x25B1808100000003, .frsq l none 1 2 .rm),
    (0x2631808100000003, .fsqrt l none 1 2 .rm),
    (0x26B1808100000000, .fexp2 l none 1 2)] = true := by decide

/-- Words of R71 and R72, their fields laid out by R40, R44, R46 and R68. -/
theorem test_decode_floats_2 : decodes [
    (0x2731808100000000, .flog2 l none 1 2),
    (0x27B1808100000000, .fsin l none 1 2),
    (0x2831808100000000, .fcos l none 1 2),
    (0x28B1808101800000, .hadd2 l none 1 2 3 .rn),
    (0x2931808101800002, .hmul2 l none 1 2 3 .rp),
    (0x29B18081018007F0, .hfma2 l none 1 2 3 254 .rn),
    (0x2A31808101800000, .hmax2 l none 1 2 3),
    (0x2AB1810203000001, .dadd l none 2 4 6 .rz),
    (0x2B31810203000003, .dmul l none 2 4 6 .rm),
    (0x2BB1810203000040, .dfma l none 2 4 6 8 .rn),
    (0x2C31818203000007, .dset l none 3 4 6 .ord)] = true := by decide

/-- Words of R71 and R72, their fields laid out by R40, R44, R46 and R68. -/
theorem test_decode_conversions_1 : decodes [
    (0x3031810280000119, .cvt l 2 5 .f64 (.int .s16) .rz),
    (0x30B18081000000BE, .cvtbx l 1 2 11 .bx8 .rm),
    (0x313180810000001B, .cvtres l 1 2 11 true),
    (0x31B180810180004C, .cvtmxEnc l 1 2 3 9 .rp),
    (0x31B1808101800001, .cvtmxDec l 1 2 3 .rn),
    (0x3200000200000000, .rngseed h 4),
    (0x32B1828000000000, .rng l 5),
    (0x3331830000000000, .rngf l 6),
    (0x3380000400000000, .rngskip h 8),
    (0x3400010000000005, .clkrd h 2 (.cls 3)),
    (0x3480020000000000, .tstamp h 4),
    (0x38318081018002A2, .lget l 1 2 3 4 .above 5),
    (0x38B180810000001A, .pqry l 1 2 3 .same),
    (0x393180810000001B, .peers l 1 2 3 true)] = true := by decide

/-- Words of R71 and R72, their fields laid out by R40, R44, R46 and R68. -/
theorem test_decode_conversions_2 : decodes [
    (0x39B181020000019D, .lfold l 2 4 3 .xor .z64),
    (0x3A3180810000021A, .scan l 1 2 3 true false .f32),
    (0x3AB18081000000BF, .xlp l 1 2 11 15),
    (0x3B0000010000000E, .xlpl h 2 14),
    (0x3BB180810000001A, .xpose l 1 2 3 2),
    (0x3C31808100000099, .unpk l 1 2 3 1 true),
    (0x3CB180810000001B, .packx l 1 2 3 3)] = true := by decide

/-- Words of R71 and R72, their fields laid out by R40, R44, R46 and R68. -/
theorem test_decode_accesses_1 : decodes [
    (0x403182030040028E, .ld l 4 6 (-2048) ⟨.keep, true, .device, .b128⟩),
    (0x40800183003FF9AA, .st h 3 6 2047 ⟨.stream, true, .system, .z16⟩),
    (0x4131810280008005, .lds l 2 5 16 ⟨.default, false, .thread, .b64⟩),
    (0x41800182807FE004, .sts h 3 5 (-4) ⟨.default, false, .thread, .b32⟩),
    (0x4231818300004203, .ldc l 3 6 8 .keep .s16),
    (0x4280000300004101, .pref h 6 8 .stream .s8),
    (0x43000003007FC002, .cctl h 6 (-8) .wbinv),
    (0x43B1810304002767, .atom l 2 6 8 4 .cas .acqRel .system .s64),
    (0x44000003040004D8, .red h 6 8 0 .inc .release .cluster .z32),
    (0x448000000000001D, .fence h .seqCst .system),
    (0x4500000000000081, .qfence h 129),
    (0x45800001800000F8, .barArrive h 3 31),
    (0x4580007F80000729, .barWait h 5 7),
    (0x458000018000022A, .barArrwait h 3 5 2)] = true := by decide

/-- Words of R71 and R72, their fields laid out by R40, R44, R46 and R68. -/
theorem test_decode_accesses_2 : decodes [
    (0x4600000180000028, .barinit h 3 5),
    (0x46800203047FC31B, .waitu h 4 6 8 (-8) .allBits true 3),
    (0x470000020000003F, .fpush h 4 31 true),
    (0x4780028000000011, .fpop h 5 17 false),
    (0x4800000000000049, .bankcfg h 9 .fifo),
    (0x4880000000000000, .kpass h)] = true := by decide

/-- Words of R71 and R72, their fields laid out by R40, R44, R46 and R68. -/
theorem test_decode_tiles_1 : decodes [
    (0x5000078200000000, .tcfg h 15 4),
    (0x5080020780000000, .tcfgrd h 4 15),
    (0x5100018300000001, .tld h 3 6 true),
    (0x5180018304000000, .tldw h 3 6 8 false),
    (0x5200000301800001, .tst h 6 3 true),
    (0x5280018000000001, .tzero h 3 true),
    (0x5300000300000000, .tprof h 6),
    (0x5380008101800014, .tmma h 1 2 3 4 true false),
    (0x5400008101800024, .tmmas h 1 2 3 4 false true),
    (0x5480008100000014, .trowsum h 1 2 4 true),
    (0x5500008100000004, .tcolsum h 1 2 4 false),
    (0x55B1838100000158, .tdrain l 7 2 0 5 .f32 .registers),
    (0x5580000103000172, .tdrain h 0 2 6 5 .bx8 .memory),
    (0x56000001830002E1, .tdraina h 3 6 11 .f64 true)] = true := by decide

/-- Words of R71 and R72, their fields laid out by R40, R44, R46 and R68. -/
theorem test_decode_tiles_2 : decodes [
    (0x5680000183000001, .taccsv h 3 6 true),
    (0x5700018300000000, .taccld h 3 6),
    (0x5780030180000000, .tchk h 6 3)] = true := by decide

/-- Words of R71 and R72, their fields laid out by R40, R44, R46 and R68. -/
theorem test_decode_control_1 : decodes [
    (0x600680007FFFFFFD, .bra g (-3)),
    (0x6080000300000000, .brx h 6),
    (0x610000003FFFFFFF, .call h 1073741823),
    (0x6180000400000000, .callx h 8),
    (0x6200000000000000, .ret h),
    (0x6286800000000000, .reform g),
    (0x6300058000000000, .join h 11),
    (0x6380020000000000, .leave h 4),
    (0x6400018100001388, .waitm h 3 2 5000),
    (0x648001E400000001, .kmov h 3 200 .kv),
    (0x6480640180000002, .kmov h 200 3 .vk),
    (0x6500008101800000, .kand h 1 2 3),
    (0x6580008101800000, .kor h 1 2 3),
    (0x6600008101800000, .kandn h 1 2 3)] = true := by decide

/-- Words of R71 and R72, their fields laid out by R40, R44, R46 and R68. -/
theorem test_decode_control_2 : decodes [
    (0x6680320580000000, .kpop h 100 11),
    (0x6700000080000003, .loop h 1 3),
    (0x678000007FFFFFFC, .lend h (-4)),
    (0x6806800000000000, .exit g),
    (0x68800000000000FF, .trap h 255),
    (0x6900000000000000, .bkpt h),
    (0x6980000000000000, .nop h),
    (0x7000023380000001, .srd h 4 0x67 true),
    (0x7080200280000000, .swr h 0x40 5 false),
    (0x710000000000FFFF, .ecall h 65535),
    (0x7180000000000000, .tret h),
    (0x7200000000000000, .ifence h),
    (0x7280000300000000, .tlbinv h 6 .page),
    (0x7280000000000002, .tlbinv h 0 .all)] = true := by decide

/-- Words of R71 and R72, their fields laid out by R40, R44, R46 and R68. -/
theorem test_decode_control_3 : decodes [
    (0x7300000480000000, .bbmark h 9),
    (0x7386800000000000, .halt g)] = true := by decide

/-- Dual words of R74, laid out by R56. -/
theorem test_decode_halves : decodes [
    (0x8402048509060BA6, .dualWord ⟨.iadd true false, 4, 9, 0⟩ ⟨.isub false true, 6, 11, 5⟩),
    (0x850204830B060BA2, .dualWord ⟨.imin true, 4, 9, 0⟩ ⟨.imax false, 6, 11, 5⟩),
    (0x860204800D060BA0, .dualWord ⟨.and, 4, 9, 0⟩ ⟨.or, 6, 11, 5⟩),
    (0x870204800F060BA0, .dualWord ⟨.xor, 4, 9, 0⟩ ⟨.andn, 6, 11, 5⟩),
    (0x8802048011060BA0, .dualWord ⟨.shl, 4, 9, 0⟩ ⟨.shr, 6, 11, 5⟩),
    (0x8902048014060BA6, .dualWord ⟨.sar, 4, 9, 0⟩ ⟨.imul true, 6, 11, 5⟩),
    (0x8C02048119060BA3, .dualWord ⟨.fadd .rp, 4, 9, 0⟩ ⟨.fmul .rm, 6, 11, 5⟩),
    (0x8D0204801B060BA0, .dualWord ⟨.fmin, 4, 9, 0⟩ ⟨.fmax, 6, 11, 5⟩),
    (0x8E0204809D060BA0, .dualWord ⟨.hadd2 .rz, 4, 9, 0⟩ ⟨.hmul2 .rn, 6, 11, 5⟩),
    (0x89828190200A0843, .dualWord ⟨.mov, 5, 3, 1⟩ ⟨.ld .s16, 10, 8, 2⟩),
    (0x8982819021080A42, .dualWord ⟨.mov, 5, 3, 1⟩ ⟨.st .z16, 8, 10, 2⟩),
    (0x89828190220A0844, .dualWord ⟨.mov, 5, 3, 1⟩ ⟨.lds .b32, 10, 8, 2⟩),
    (0x8982819023080A40, .dualWord ⟨.mov, 5, 3, 1⟩ ⟨.sts .z8, 8, 10, 2⟩),
    (0x8080007013050300, .dualWord ⟨.nop, 0, 0, 7⟩ ⟨.mov, 5, 3, 0⟩)] = true := by decide

/-! Ill-formed terms and words: one for each check of WellFormed, which the check refuses -/

/-- The counts of a kernel with 32 vector registers, 4 tiles and 2 accumulators. -/
def c32 : Counts := { regs := 32, tiles := 4, accs := 2, handler := false }

/-- Every one of these is refused for that kernel. -/
def refused (l : List Instr) : Bool := l.all fun i => !i.wf c32

/-- R42, R43, R69: single registers, pairs and quadruples outside the declared count or misaligned. -/
theorem test_ill_vectors : refused [
    .movi h 32 0, .movh h 254 0, .andImm h 3 32 0, .iadd h none 3 4 32 false .s32, .iadd h none 3 4 6 false .s64,
    .iadd h none 4 255 6 false .s64, .imul h none 2 4 31 .s64, .ineg h none 3 4 false .s64, .imad h none 2 4 6 33 .s32,
    .lea h none 3 4 6 0 true, .iset h none 3 4 6 .eq .s64, .sel h none 3 4 5 true false 1, .andn h none 2 4 5 true,
    .shl h none 4 6 32 true, .brev h none 3 4 true, .popc h none 3 5 true, .bfe h none 4 6 40 .s64,
    .bfi h none 4 6 7 9 true] = true := by decide

/-- R42, R43, R69: the same for the float, conversion and special-register opcodes. -/
theorem test_ill_vectors_float : refused [
    .fadd h none 40 2 3 .rn, .ffma h none 1 2 3 40 .rn, .fmin h none 1 40 3, .frnd h none 1 40 .rn, .fclass h none 40 1,
    .dadd h none 1 2 4 .rn, .dfma h none 2 4 6 7 .rn, .dset h none 1 2 5 .eq, .cvt h 3 4 .f64 .f32 .rn,
    .cvtres h 40 1 0 false, .cvtmxDec h 1 2 40 .rn, .rngseed h 3, .rng h 40, .tstamp h 3, .clkrd h 5 .cyc, .srd h 3 4 true,
    .bbmark h 40, .swr h 4 3 true] = true := by decide

/-- R42, R43, R69: the same for the memory and control opcodes. -/
theorem test_ill_vectors_memory : refused [
    .ld h 3 5 0 ⟨.default, false, .thread, .b32⟩, .ld h 3 4 0 ⟨.default, false, .thread, .b64⟩,
    .st h 6 4 0 ⟨.default, false, .thread, .b128⟩, .lds h 40 1 0 ⟨.default, false, .thread, .b32⟩, .ldc h 2 3 0 .default .b32,
    .pref h 3 0 .default .b32, .cctl h 3 0 .wb, .atom h 2 4 7 0 .cas .relaxed .wave .s32, .atom h 2 4 6 0 .cas .relaxed .wave .s64,
    .red h 5 2 0 .add .relaxed .wave .s32, .barArrive h 40 1, .waitu h 2 4 6 0 .eq true 1, .waitu h 2 4 7 0 .eq false 1,
    .fpush h 3 1 true, .fpop h 3 1 true, .brx h 40, .callx h 40, .loop h 40 0, .tlbinv h 3 .page] = true := by decide

/-- R42, R72: predicates, lane masks, tiles, accumulators and special registers outside their ranges. -/
theorem test_ill_classes : refused [
    .pset h none 8 1 2 .eq .s32, .pand h 1 8 2 false false, .pnot h 8 1 false, .fset h none 8 1 2 .eq, .pqry h 8 1 0 .every,
    .waitm h 8 2 5, .join h 12, .leave h 12, .kmov h 12 1 .kk, .kmov h 1 12 .vk, .kand h 1 2 12, .kpop h 1 12, .peers h 1 2 12 false,
    .lfold h 1 2 12 .add .s32, .xlp h 1 2 12 3, .cvtbx h 1 2 12 .bx3 .rn, .tcfg h 4 1, .tld h 4 2 false, .tldw h 1 2 5 false,
    .tzero h 2 true, .tzero h 4 false, .tmma h 2 1 1 0 false false, .trowsum h 1 4 0 false, .tdrain h 1 2 0 0 .s32 .registers,
    .tdraina h 1 3 0 .s32 false, .tchk h 1 2, .tprof h 3, .taccsv h 1 3 false, .srd h 1 6 false, .swr h 0x16 1 false]
    = true := by decide

/-- R44, R72, R73, R152: immediates, sizes and codes that FN does not define. -/
theorem test_ill_fields : refused [
    .movi h 1 1073741824, .movi h 1 (-1073741825), .movh h 1 65536, .iaddImm h 1 1 1073741824, .shlImm h 1 1 32,
    .iabs h none 1 2 false .z32, .lea h none 1 2 3 32 false, .iset h none 1 2 3 .unord .s32, .pset h none 1 2 3 .ord .s32,
    .sel h none 1 2 3 false false 8, .bfe h none 1 2 3 .s8, .cvt h 1 2 .f32 .f32 .rn, .cvtres h 1 2 12 false,
    .clkrd h 2 (.cls 4), .lget h 1 2 3 0 .atLane 8, .lfold h 1 2 0 .and .f32, .xlp h 1 2 0 16, .xlpl h 1 16, .xpose h 1 2 0 3,
    .unpk h 1 2 0 4 false, .packx h 1 2 0 4, .barArrive h 1 32, .barWait h 32 1, .barArrwait h 1 2 8, .qfence h 0, .qfence h 256,
    .fpush h 1 32 false, .bankcfg h 32 .cache, .bra h 1073741824, .waitm h 1 2 0, .trap h 256, .ecall h 65536,
    .tlbinv h 2 .all] = true := by decide

/-- R68, R331, R333, R338, R220: offsets, orders, types and address fields of the memory opcodes. -/
theorem test_ill_memory : refused [
    .ld h 1 2 2048 ⟨.default, false, .thread, .b32⟩, .st h 1 2 (-2049) ⟨.default, false, .thread, .b32⟩,
    .ld h 1 2 0 ⟨.default, false, .wave, .b32⟩, .st h 1 2 0 ⟨.default, false, .thread, .s8⟩,
    .sts h 1 2 0 ⟨.default, false, .thread, .s16⟩, .pref h 2 2048 .default .b32, .cctl h 2 (-2049) .inv,
    .ldc h 1 2 2048 .default .b32, .atom h 1 2 3 0 .addF32 .relaxed .wave .z32, .atom h 1 2 3 2048 .add .relaxed .wave .s32,
    .red h 2 3 0 .exch .relaxed .wave .s32, .red h 2 4 0 .cas .relaxed .wave .s32, .red h 2 3 0 .add .acquire .wave .s32,
    .waitu h 1 2 4 2048 .eq false 1, .waitu h 1 2 4 0 .eq false 8, .tdrain h 1 1 2 0 .s32 .registers,
    .tdrain h 1 1 2 0 .s32 .memory] = true := by decide

/-- R41, R50, R46, R49: the guard !p0 and a ninth predicate, a lookahead count that does not fit or stands on a short opcode, and the
modifiers: on an unread source, the segment sizes 0 and 6, an argument outside its segment. -/
theorem test_ill_guard_and_modifier : refused [
    .nop ⟨false, 8, 0⟩, .nop ⟨true, 0, 0⟩, .idiv ⟨false, 0, 16⟩ none 1 2 3 .s32, .nop ⟨false, 0, 1⟩,
    .not h (some ⟨.rotate, false, 5, 1⟩) 1 2 false, .iadd h (some ⟨.rotate, false, 0, 0⟩) 1 2 3 false .s32,
    .iadd h (some ⟨.rotate, false, 6, 0⟩) 1 2 3 false .s32, .iadd h (some ⟨.butterfly, true, 2, 4⟩) 1 2 3 false .s32] = true := by decide

/-- R57, R74, R132: the pairing rules, types that a half does not take, an encoder whose destination is its SB; and a machine step is
no instruction. -/
theorem test_ill_pairing : refused [
    .dualWord ⟨.iadd false false, 4, 9, 0⟩ ⟨.mov, 8, 3, 0⟩, .dualWord ⟨.iadd false false, 4, 8, 0⟩ ⟨.mov, 5, 12, 0⟩,
    .dualWord ⟨.mov, 4, 9, 0⟩ ⟨.mov, 6, 4, 0⟩, .dualWord ⟨.mov, 6, 4, 0⟩ ⟨.mov, 4, 9, 0⟩,
    .dualWord ⟨.ld .b32, 5, 2, 0⟩ ⟨.sts .b32, 12, 11, 0⟩, .dualWord ⟨.mov, 40, 9, 0⟩ ⟨.nop, 0, 0, 0⟩,
    .dualWord ⟨.nop, 1, 0, 0⟩ ⟨.mov, 6, 3, 0⟩, .dualWord ⟨.ld .b64, 6, 4, 0⟩ ⟨.nop, 0, 0, 0⟩, .dualWord ⟨.st .s8, 4, 6, 0⟩ ⟨.nop, 0, 0, 0⟩,
    .dualWord ⟨.mov, 4, 9, 8⟩ ⟨.nop, 0, 0, 0⟩, .cvtmxEnc h 1 2 1 0 .rn, .coreCycle 0] = true := by decide

/-- R69: v0 to v3 are members in handler mode whatever the header declares. -/
theorem test_handler_members :
    (Instr.mov h none 1 3 false).wf { c32 with regs := 0, handler := true } = true ∧
      (Instr.mov h none 1 4 false).wf { c32 with regs := 0, handler := true } = false ∧
      (Instr.mov h none 1 3 false).wf { c32 with regs := 0 } = false := by decide

/-- R59: words refused with each of the cause codes; R57 for the last. -/
theorem test_refused_words :
    [0xC000000000000000, 0x6A00000000000000, 0x5780030180000001, 0x6984000000000000, 0x6986800080000000, 0x0800008101800800,
      0x6988000000000000, 0x8402048509080BA6, 0x31B180810080004C].map (fun w => match decodeWord c32 w with | .ok _ => 0 | .error e => e.cause)
    = [1, 2, 3, 4, 5, 6, 7, 8, 9] := by decide
/-! A small machine: context 1 with a handler, one workgroup of a launch, one wave of two threads in a bundle -/

/-- The leaf that maps 0x1000 to the physical page 0x2000, and that of the code at 0x4000. -/
def leaves : List TlbEntry := [⟨1, 1, 0, 0x20C7⟩, ⟨1, 4, 0, 0x30C7⟩]

/-- A thread at the bundle's address, with predicate p1 true. -/
def th : Thread := { pc := 0x4000, preds := 3 }

/-- A wave's threads: these, and exited ones. -/
def lanes (l : List Thread) : List Thread := l ++ List.replicate (32 - l.length) { th with st := .exited }

def u0 : TId := ⟨0, 0⟩
def u1 : TId := ⟨0, 1⟩

/-- v1 and v2 hold small numbers, v3 a number for each lane, v4 and v5 the address 0x1008, v6 the code offset 8, mask k1 both
lanes. -/
def wave0 : Wave :=
  { tag := 1, launch := 0, wg := 0, idx := 0, wid := 5, threads := lanes [th, th], masks := [(1, 3)]
    regs := [(1, .uniform 7), (2, .uniform 0xFFFFFFFD), (3, .affine 5 1), (4, .uniform 0x1008), (6, .uniform 8)] }

def launch0 : Launch :=
  { tag := 1, rcb := 0x1100, record := 0x1200, khdr := 0x3C00, args := 0, gx := 1, gy := 1, gz := 1, stackz := 0
    stackbase := 0, ordwin := 0, serial := false, np := 1, tpw := 2
    hdr := { codesz := 64, regs := 32, tiles := 4, accs := 2, scratch := 4096, s := 1, f := 1, profile := 3 }
    st := .admitted, admitted := 1 }

def wg0 : Wg :=
  { launch := 0, cluster := 0, member := 0, grid := 0, lin := 0, core := 0, pids := [0], waves := [0], banks := [7, 9] }

/-- The machine with a bundle of the threads `us`, of the wave `w`. -/
def machine (w : Wave) (us : List TId) : State :=
  { cur := { core := 0, part := 0, bin := 0, threads := us, pc := 0x4000 }
    stlb := leaves
    cores := [(0, { tlb := leaves, phase := 1, len := 8
                    banks := [(7, { mode := .scratch, owner := some (0, 0) }), (9, { mode := .fifo, owner := some (0, 1) })] })]
    parts := [(0, { active := [0], bins := [(0, { st := .bundle, key := 0x4000, wg := 0, threads := us })] })]
    waves := [(0, w)]
    wgs := [(0, wg0)]
    launches := [(0, launch0)]
    ctxs := [(1, { desc := 0x8000, handler := 0x5000 })] }

/-- Both threads in the bundle; the first alone, the other exited. -/
def both : State := machine wave0 [u0, u1]
def one : State := machine { wave0 with threads := lanes [th] } [u0]

/-! The conditions of the statements as tests -/

def bundled (s : State) : Bool :=
  !s.cur.threads.isEmpty && decide s.cur.threads.Nodup && s.cur.threads.all s.seated &&
    s.cur.threads.all (fun u => u.pid == s.pid) && s.cur.threads.all (fun u => (s.thread u).trapQ.isNone) &&
    s.bin.threads == s.cur.threads && s.cur.threads.all fun u => (s.thread u).hand.all fun x => x.v.length == 4

theorem bundled_of {s : State} (p : bundled s = true) : s.Bundled := by
  simp only [bundled, Bool.and_eq_true, Bool.not_eq_true', List.isEmpty_eq_false_iff, decide_eq_true_eq, List.all_eq_true,
    beq_iff_eq, Option.isNone_iff_eq_none] at p
  obtain ⟨⟨⟨⟨⟨⟨a, b⟩, c⟩, d⟩, e⟩, f⟩, g⟩ := p
  exact ⟨a, b, c, d, e, f, fun u m => by simpa using g u m⟩

def free (s : State) (h : Hd) (dr dp : List Nat) : Bool :=
  (s.active h).all (fun u => ((s.thread u).conflict dr dp).isNone) &&
    s.waves.all (fun e => e.2.threads.all fun t => t.windows.all fun x => x.regs.all fun v => !dr.contains v.1) &&
    (s.active h).all fun u => dr.all fun r => (s.wave u.w).shape r == .general

theorem free_of {s : State} {h : Hd} {dr dp : List Nat} (p : free s h dr dp = true) : s.Free h dr dp := by
  simp only [free, Bool.and_eq_true, List.all_eq_true, Bool.not_eq_true', beq_iff_eq, Option.isNone_iff_eq_none] at p
  obtain ⟨⟨a, b⟩, c⟩ := p
  exact ⟨a, fun e m _ t i x j v k => by simpa using b e m t i x j v k, c⟩

def canTrap (s : State) (h : Hd) : Bool :=
  (s.active h).all fun u => (s.ctxOf u).handler != 0 && (s.thread u).hand.isNone && (s.thread u).windows.isEmpty

theorem canTrap_of {s : State} {h : Hd} (p : canTrap s h = true) : s.CanTrap h := by
  simp only [canTrap, Bool.and_eq_true, List.all_eq_true, bne_iff_ne, List.isEmpty_iff, Option.isNone_iff_eq_none] at p
  exact fun u m => ⟨(p u m).1.1, (p u m).1.2, (p u m).2⟩

def lowest (s : State) (h : Hd) (l : TId) : Bool :=
  (s.active h).contains l && (s.active h).all fun u => u == l || decide (l.lane < u.lane) || (l.lane == u.lane && decide (l.w < u.w))

theorem lowest_of {s : State} {h : Hd} {l : TId} (p : lowest s h l = true) : s.Lowest h l := by
  simp only [lowest, Bool.and_eq_true, List.all_eq_true, List.contains_iff_mem, Bool.or_eq_true, beq_iff_eq, decide_eq_true_eq] at p
  refine ⟨p.1, fun u m n => ?_⟩
  rcases p.2 u m with (a | a) | a
  · exact absurd a n
  · exact .inl a
  · exact .inr a

theorem test_both_bundled : both.Bundled := bundled_of (by decide)
theorem test_one_bundled : one.Bundled := bundled_of (by decide)

/-! Single steps: the effect of an instruction on the small machine, the results worked out from the rules -/

def ran (i : Instr) (s : State := both) : State :=
  match exec i s with
  | .next t => t
  | _ => { s with now := 999999999 }

/-- The machine of one thread whose registers hold `v`. -/
def holding (v : List (Nat × Word)) : State :=
  machine { wave0 with threads := lanes [th], regs := v.map fun x => (x.1, .uniform x.2) } [u0]

/-- What register `d` of the first thread holds, or will hold when the open window commits. -/
def result (v : List (Nat × Word)) (i : Instr) (d : Nat := 10) : Nat :=
  let t := ran i (holding v)
  match (t.thread u0).windows with
  | w :: _ => ((w.regs.find? fun x => x.1 == d).map fun x => x.2.toNat).getD 0
  | [] => (t.rd u0 d).toNat

/-- R111's example: MOVH and OR place 0x89ABCDEF; MOVI sign-extends. -/
theorem test_constants :
    [result [] (.movh h 10 0x89AB), result [(10, 0x89AB0000)] (.orImm h 10 10 0xCDEF), result [] (.movi h 10 (-1))]
      = [0x89AB0000, 0x89ABCDEF, 0xFFFFFFFF] := by decide

/-- R117's table: IADD.s8 with and without saturation, ISUB.z32.sat, IMUL and IMULH. -/
theorem test_integer_borderlines :
    [result [(1, 100), (2, 80)] (.iadd h none 10 1 2 false .s8), result [(1, 100), (2, 80)] (.iadd h none 10 1 2 true .s8),
      result [(1, 3), (2, 5)] (.isub h none 10 1 2 true .z32), result [(1, 0x80000000), (2, 2)] (.imul h none 10 1 2 .s32),
      result [(1, 0x80000000), (2, 2)] (.imulh h none 10 1 2 .s32)] = [0xFFFFFFB4, 0x7F, 0, 0, 0xFFFFFFFF] := by decide

/-- R117's table and R113: division truncates towards zero, by zero, and of the most negative number by -1. -/
theorem test_division :
    [result [(1, 0xFFFFFFF9), (2, 2)] (.idiv h none 10 1 2 .s32), result [(1, 0xFFFFFFF9), (2, 2)] (.irem h none 10 1 2 .s32),
      result [(1, 9)] (.idiv h none 10 1 2 .z32), result [(1, 9)] (.irem h none 10 1 2 .z32),
      result [(1, 0x80000000), (2, 0xFFFFFFFF)] (.idiv h none 10 1 2 .s32),
      result [(1, 0x80000000), (2, 0xFFFFFFFF)] (.irem h none 10 1 2 .s32)]
      = [0xFFFFFFFD, 0xFFFFFFFF, 0xFFFFFFFF, 9, 0x80000000, 0] := by decide

/-- R119's table: BFE and BFI. -/
theorem test_bit_fields :
    [result [(1, 0xB70), (2, 0x404)] (.bfe h none 10 1 2 .z32), result [(1, 0xB70), (2, 0x504)] (.bfe h none 10 1 2 .s32),
      result [(1, 0xB70), (2, 0x3C1C)] (.bfe h none 10 1 2 .s32),
      result [(1, 5), (2, 0x308), (3, 0xFFFFFFFF)] (.bfi h none 10 1 2 3 false)] = [7, 0xFFFFFFF7, 0, 0xFFFFFDFF] := by decide

/-- R118: shifts by the width and more, a rotate, and the counts of an empty word. -/
theorem test_logic :
    [result [(1, 0x80000001), (2, 32)] (.shl h none 10 1 2 false), result [(1, 0x80000001), (2, 40)] (.sar h none 10 1 2 false),
      result [(1, 0x80000001), (2, 33)] (.rol h none 10 1 2 false), result [(1, 0x80000001), (2, 31)] (.shr h none 10 1 2 false),
      result [] (.clz h none 10 1 false), result [(1, 0xF0F0), (2, 0xFF)] (.andn h none 10 1 2 false),
      result [(1, 1)] (.brev h none 10 1 false), result [(1, 0xF0F0)] (.popc h none 10 1 false), result [(1, 5)] (.not h none 10 1 false)]
      = [0, 0xFFFFFFFF, 3, 1, 32, 0xF000, 0x80000000, 8, 0xFFFFFFFA] := by decide

/-- R112, R114, R115, R117: minimum, absolute value, multiply-add, sum of differences, address and selection. -/
theorem test_integer_others :
    [result [(1, 0xFFFFFFFF), (2, 1)] (.imin h none 10 1 2 .z32), result [(1, 0xFFFFFFFF), (2, 1)] (.imax h none 10 1 2 .s32),
      result [(1, 0x80)] (.iabs h none 10 1 true .s8), result [(1, 0x80)] (.ineg h none 10 1 false .s8),
      result [(1, 3), (2, 4), (3, 5)] (.imad h none 10 1 2 3 .s32), result [(1, 3), (2, 4), (3, 5)] (.isum h none 10 1 2 3 .s32),
      result [(1, 3), (2, 7), (3, 5)] (.isad h none 10 1 2 3 .s32), result [(1, 100), (2, 3)] (.lea h none 10 1 2 4 false),
      result [(1, 1), (2, 2)] (.iset h none 10 1 2 .lt .s32), result [(1, 1), (2, 2)] (.sel h none 10 1 2 false true 1)]
      = [1, 1, 0x7F, 0xFFFFFF80, 17, 12, 9, 148, 0xFFFFFFFF, 2] := by decide

/-- R69: a 64-bit sum carries from the first register of the pair into the second. -/
theorem test_pair :
    ((ran (.iadd h none 10 2 4 false .z64) (holding [(2, 0xFFFFFFFF), (4, 1), (5, 6)])).rd u0 11).toNat = 7 := by decide

/-- R41: a guard that is false at a thread leaves its registers, and every thread moves on. -/
theorem test_guard :
    let t := ran (.movi ⟨true, 1, 0⟩ 10 5)
    t.rd u0 10 = 0 ∧ (t.thread u0).pc = 0x4008 ∧ (t.thread u1).pc = 0x4008 := by decide

/-- R47: a rotate by one within segments of two exchanges the lanes' values of source A. -/
theorem test_modifier :
    let t := ran (.mov h (some ⟨.rotate, true, 1, 1⟩) 10 3 false)
    t.rd u0 10 = 6 ∧ t.rd u1 10 = 5 := by decide

/-- R84, R85, R121: 1 + 2^-24 by each rounding mode; 1 / 3; 2^0.5. -/
theorem test_float :
    [result [(1, 0x3F800000), (2, 0x33800000)] (.fadd h none 10 1 2 .rn), result [(1, 0x3F800000), (2, 0x33800000)] (.fadd h none 10 1 2 .rp),
      result [(1, 0x3F800000), (2, 0xB3800000)] (.fadd h none 10 1 2 .rz), result [(1, 0x3F800000), (2, 0x40400000)] (.fdiv h none 10 1 2 .rn),
      result [(1, 0x40000000)] (.fsqrt h none 10 1 .rn), result [(1, 0x40000000), (2, 0x40400000), (3, 0xC0C00000)] (.ffma h none 10 1 2 3 .rn)]
      = [0x3F800000, 0x3F800001, 0x3F7FFFFF, 0x3EAAAAAB, 0x3FB504F3, 0] := by decide

/-- R130: conversions round, saturate and take the low lane of a pair. -/
theorem test_conversion :
    [result [(1, 0x4F800000)] (.cvt h 10 1 (.int .s32) .f32 .rn), result [(1, 0x3FC00000)] (.cvt h 10 1 (.int .s32) .f32 .rn),
      result [(1, 0xFFFFFFFF)] (.cvt h 10 1 .f32 (.int .s32) .rn)] = [0x7FFFFFFF, 2, 0xBF800000] := by decide

/-- R120, R126: predicates of comparisons and of predicates. -/
theorem test_predicates :
    ((ran (.pset h none 2 1 6 .lt .s32)).thread u0).pred 2 = true ∧ ((ran (.fset h none 2 1 6 .gt)).thread u0).windows.length = 1 ∧
      ((ran (.pand h 2 1 0 true false)).thread u0).pred 2 = false ∧ ((ran (.pnot h 2 1 true)).thread u0).pred 2 = true := by decide

/-- R247, R248, R250: the targets of a branch, a call and an indexed branch. -/
theorem test_control :
    ((ran (.bra h (-2))).thread u0).pc = 0x3FF0 ∧ ((ran (.call h 3)).thread u0).pc = 0x4018 ∧
      ((ran (.brx h 4) (holding [(4, 0x10)])).thread u0).pc = 0x4010 := by decide

/-- R258, R259, R260: a thread exits; a trap enters the handler; a NOP moves on. -/
theorem test_ends :
    ((ran (.exit h)).thread u1).st = .exited ∧ ((ran (.trap h 7)).thread u0).pc = 0x5000 ∧ ((ran (.nop h)).thread u1).pc = 0x4008 := by decide

/-- R239: JOIN sets the bits of the active lanes. -/
theorem test_masks :
    (ran (.join h 2)).wave 0 |>.masks.any fun x => x == (2, 3) := by decide

/-- R332, R333, R338: a store, a load's window and an atomic sum at the mapped page. -/
theorem test_memory :
    (ran (.st h 3 4 0 ⟨.default, false, .thread, .b32⟩) one).mem = [⟨0x2008, 5⟩] ∧
      result [(1, 7), (4, 0x1008), (5, 0)] (.ld h 10 4 0 ⟨.default, false, .thread, .b32⟩) = 0 ∧
      (ran (.red h 4 3 0 .add .relaxed .device .s32) one).mem = [⟨0x2008, 5⟩] := by decide
/-! The hypotheses of the statements are met -/

/-- IntegerResults to PairAndDoubleResults, ReadResults: single registers, pairs, v255, predicates and p0. -/
theorem meets_results : both.Bundled ∧ both.Free h (dests false 10) [] ∧ both.Free h (dests true 10) [] ∧
    both.Free h (dests false 255) [] ∧ both.Free h [] [2] ∧ both.Free h [] [0] ∧
    (∀ u ∈ both.active h, (both.thread u).conflict (dests true 10) [] = none) ∧
    (∀ u ∈ both.active h, (both.thread u).conflict [] [2] = none) :=
  ⟨bundled_of (by decide), free_of (by decide), free_of (by decide), free_of (by decide), free_of (by decide), free_of (by decide),
    by decide, by decide⟩

/-- The same with an open window that the results leave alone, and a guard that one of the threads fails. -/
theorem meets_results_guarded :
    let w : Window := { pc := 0x3FF8, half := 0, seq := 0, remaining := 3, closed := false, order := 0, dests := [20], pdests := [], regs := [(20, 1)]
                        preds := [], ready := some 9, checked := false, shapeFail := none, fail := none, pend := none }
    let s := machine { wave0 with threads := lanes [{ th with windows := [w], llSeq := 1 }, { th with preds := 1 }] } [u0, u1]
    let k : Hd := ⟨false, 1, 2⟩
    s.Bundled ∧ s.active k = [u0] ∧ s.Free k (dests true 10) [2] ∧ ∀ u ∈ s.active k, (s.thread u).conflict (dests true 10) [2] = none :=
  ⟨bundled_of (by decide), by decide, free_of (by decide), by decide⟩

/-- IntegerTypes: at a bound, below and above the range of a narrow type. -/
theorem meets_IntegerTypes : intMin 8 true ≤ -128 ∧ (-128 : Int) ≤ intMax 8 true ∧ (-129 : Int) < intMin 8 true ∧ intMax 8 true < 128 ∧
    IT.wide .s8 = false := by decide

/-- ConversionResults and the tile statements: a profile of two primary moduli and a redundant one. -/
def prof0 : Profile :=
  { grouping := 0
    chans := [⟨1, 0, 0, 509⟩, ⟨1, 0, 1, 503⟩] ++ List.replicate 9 ⟨0, 0, 0, 0⟩ ++ [⟨2, 0, 0, 511⟩] }

def withProfile (s : State) : State := s.modCtx 1 fun c => { c with prof := some prof0, gen := 1 }

theorem meets_ConversionResults :
    let s := withProfile both
    s.Bundled ∧ (∀ u ∈ s.active h, (s.thread u).conflict (dests false 10) [] = none) ∧
      (s.ctxOf (s.cur.threads.headD default)).prof = some prof0 ∧
      cvtresOk (some prof0) s.mapout (s.counts (s.cur.threads.headD default)) 2 11 = true :=
  ⟨bundled_of (by decide), by decide, by decide, by decide⟩

/-- BranchEffects: legal targets, room on the stack, and entries to return to. -/
theorem meets_BranchEffects :
    let s := machine { wave0 with threads := lanes [{ th with calls := [⟨0x4008, 0⟩] }, { th with calls := [⟨0x4010, 0⟩] }] } [u0, u1]
    s.Bundled ∧ (∀ u ∈ s.active h, (s.rd u 6).toNat % 8 = 0 ∧ (s.rd u 6).toNat < (s.launchOf u).hdr.codesz) ∧
      (∀ u ∈ s.active h, (s.thread u).calls.length < 8) ∧ ∀ u ∈ s.active h, (s.thread u).calls ≠ [] :=
  ⟨bundled_of (by decide), by decide, by decide, by decide⟩

/-- LoopEffects: a count, a zero count on a full stack, and a loop that the LEND closes. -/
theorem meets_LoopEffects :
    let full := { th with loops := List.replicate 4 ⟨0x4008, 0x4020, 2⟩ }
    let s := machine { wave0 with threads := lanes [full, full] } [u0, u1]
    let z := machine { wave0 with threads := lanes [{ th with loops := [⟨0x3FF0, 0x4000, 2⟩] }, { th with loops := [⟨0x3FF0, 0x4000, 1⟩] }] } [u0, u1]
    (∀ u ∈ both.active h, 0 ≤ signedOf 32 (both.rd u 1).toNat ∧ (both.thread u).loops.length < 4) ∧
      s.Bundled ∧ (∀ u ∈ s.active h, signedOf 32 (s.rd u 8).toNat = 0) ∧ z.Bundled ∧
      ∀ u ∈ z.active h, z.frameDepth u < (z.thread u).loops.length ∧ ((z.thread u).loops.headD default).last = z.cur.pc ∧
        ((z.thread u).loops.headD default).head = z.cur.pc + BitVec.ofInt 64 (8 * (-2)) :=
  ⟨by decide, bundled_of (by decide), by decide, bundled_of (by decide), by decide⟩

/-- TrapEffects: threads that can trap, and for BRX a target past the code in both and one that is not aligned in the higher lane
alone. -/
theorem meets_TrapEffects :
    let s := machine { wave0 with regs := [(7, .affine 0xFFFFFFFF 1), (8, .uniform 64)] } [u0, u1]
    let z := machine { wave0 with regs := [(7, .affine 8 1)] } [u0, u1]
    both.Bundled ∧ both.CanTrap h ∧ both.active h ≠ [] ∧ both.debug = 0 ∧
      (s.Bundled ∧ s.CanTrap h ∧ (s.launchOf u0).hdr.codesz ≤ (s.rd u0 8).toNat) ∧
      (z.Bundled ∧ z.CanTrap h ∧ u1 ∈ z.active h ∧ (z.rd u1 7).toNat % 8 ≠ 0 ∧
        ∀ u ∈ z.active h, u ≠ u1 → (u.lane < u1.lane ∨ (u.lane = u1.lane ∧ u.w < u1.w)) →
          (z.rd u 7).toNat % 8 = 0 ∧ (z.rd u 7).toNat < (z.launchOf u).hdr.codesz) :=
  ⟨bundled_of (by decide), canTrap_of (by decide), by decide, by decide,
    ⟨bundled_of (by decide), canTrap_of (by decide), by decide⟩, bundled_of (by decide), canTrap_of (by decide), by decide, by decide,
    by decide⟩

/-- A thread in handler mode, by a trap with cause code `c`. -/
def handled (c : Word) : Thread := { th with hand := some { v := [0, 0, c, 0], preds := 1, tcause := c, tpc := 0x4010, trec := [0, 0, 0, 0] } }

/-- ReturnEffects. -/
theorem meets_ReturnEffects :
    let s := machine { wave0 with threads := lanes [handled 20, handled 48] } [u0, u1]
    s.Bundled ∧ ∀ u ∈ s.active h, ∃ x, (s.thread u).hand = some x ∧ x.tcause ≠ 49 :=
  ⟨bundled_of (by decide), fun u m => by
    have e : u = u0 ∨ u = u1 := by simpa [State.active, machine, u0, u1] using (List.mem_filter.1 m).1
    rcases e with rfl | rfl
    · exact ⟨_, rfl, by decide⟩
    · exact ⟨_, rfl, by decide⟩⟩

/-- MaskEffects and the masks of ThreadEnds: no thread waits on the mask. -/
theorem meets_MaskEffects : both.Bundled ∧ both.Quiet h 1 ∧ both.Quiet h 11 ∧
    ∀ w, both.acts h w = true → (⟨w, 0⟩ : TId) ∈ both.active h ∧ ∀ u ∈ both.active h, u.w = w → 0 ≤ u.lane :=
  ⟨bundled_of (by decide), by unfold State.Quiet; decide, by unfold State.Quiet; decide, fun w a => by
    have e : w = 0 := by
      obtain ⟨u, m, e⟩ := List.any_eq_true.1 a
      have : u = u0 ∨ u = u1 := by simpa [both, machine, u0, u1] using (List.mem_filter.1 m).1
      rcases this with rfl | rfl <;> simpa [u0, u1] using (beq_iff_eq.1 e).symm
    subst e
    exact ⟨by decide, fun _ _ _ => Nat.zero_le _⟩⟩

/-- MaskWaits: no member of mask 2; and a member of mask 1 whose other member has not arrived. -/
theorem meets_MaskWaits :
    let s := machine wave0 [u0]
    (both.Bundled ∧ both.Free h [] [3] ∧ ∀ u ∈ both.active h, both.isMember u 2 = false) ∧
      s.Bundled ∧ s.Free h [] [3] ∧ s.active h = s.cur.threads ∧ (∀ u ∈ s.active h, s.isMember u 1 = true) ∧
      ∀ u ∈ s.active h, ∃ i, i < 32 ∧ ((s.wave u.w).mask 1).getLsbD i = true ∧ ⟨u.w, i⟩ ∉ s.cur.threads ∧
        ((s.wave u.w).thread i).st ≠ .exited ∧ ((s.wave u.w).thread i).mwait = none :=
  ⟨⟨bundled_of (by decide), free_of (by decide), by decide⟩, bundled_of (by decide), free_of (by decide), by decide, by decide, by decide⟩

/-- ThreadEnds: an EXIT where another thread of the wave lives on, and a HALT of a SAVE handler. -/
theorem meets_ThreadEnds :
    let s := machine wave0 [u0]
    let z := machine { wave0 with threads := lanes [handled 48, th] } [u0]
    s.Bundled ∧ (∀ u ∈ s.active h, (s.launchOf u).hdr.determ = false ∧ (∀ b, (s.barrier u b).arrived = []) ∧
        ∃ i, i < (s.wave u.w).threads.length ∧ ((s.wave u.w).thread i).st ≠ .exited ∧ ⟨u.w, i⟩ ∉ s.active h) ∧
      (∀ k, s.Quiet h k) ∧ z.Bundled ∧ ∀ u ∈ z.active h, ∃ x, (z.thread u).hand = some x ∧ x.tcause = 48 := by
  refine ⟨bundled_of (by decide), fun u m => ?_, fun k u m => ?_, bundled_of (by decide), fun u m => ?_⟩
  · have e : u = u0 := by simpa [machine] using (List.mem_filter.1 m).1
    subst e
    refine ⟨by decide, fun b => ?_, 1, by decide, by decide, by decide⟩
    unfold State.barrier
    split <;> rfl
  · have e : u = u0 := by simpa [machine] using (List.mem_filter.1 m).1
    subst e
    refine ⟨?_, by decide, by decide⟩
    have : ∀ i, i < 32 → ((machine wave0 [u0]).wave u0.w |>.thread i).mwait = none := by decide
    simp only [State.maskWaiters, List.map_eq_nil_iff, List.filter_eq_nil_iff, List.mem_range]
    intro i hi
    rw [this i hi]
    simp
  · have e : u = u0 := by simpa [machine] using (List.mem_filter.1 m).1
    subst e
    exact ⟨_, rfl, by decide⟩
/-- RegisterWrites and SystemEffects: the lowest of two active lanes; values that set a clearing bit, that do not, and the last
checking counter. -/
theorem meets_RegisterWrites : both.Bundled ∧ both.Lowest h u0 ∧ (both.rd u0 1).toNat.testBit 1 = true ∧
    (both.rd u0 3).toNat.testBit 1 = false ∧ (11 < 12) :=
  ⟨bundled_of (by decide), lowest_of (by decide), by decide, by decide, by decide⟩

theorem meets_SystemEffects : both.Bundled ∧ both.Lowest h u0 ∧ (both.core both.cur.core).wcb = [] ∧ both.bbr.bbmen = true ∧
    both.bbr.frozen = false ∧ (∀ u ∈ both.active h, u.w = u0.w) ∧
    (∃ e ∈ (both.core 0).tlb, (both.active h).any fun u =>
      e.tag == (both.wave u.w).tag && e.vpn == (both.rd64 u 4).toNat / 4096 / 2 ^ e.log) ∧
    ({ both with bbr := { both.bbr with bbmen := false } } : State).bbr.bbmen = false :=
  ⟨bundled_of (by decide), lowest_of (by decide), by decide, by decide, by decide, by decide, by decide, by decide⟩

/-- LaneResults and the block conversions: the bundle holds every member of mask 1, and an exited lane is none. -/
theorem meets_LaneResults :
    let s := machine { wave0 with threads := lanes [th, th, { th with st := .exited }], masks := [(1, 3)] } [u0, u1]
    s.Bundled ∧ (∀ u ∈ s.cur.threads, u.w = 0 ∧ (s.thread u).st ≠ .exited) ∧
      (∀ n, n < 32 → (⟨0, n⟩ : TId) ∈ s.cur.threads ∨ ((s.wave 0).thread n).st = .exited ∨ ((s.wave 0).mask 1).getLsbD n = false) ∧
      (∀ u ∈ s.cur.threads, ((s.wave 0).mask 1).getLsbD u.lane = true) ∧ (s.wave 0).sessions = [] ∧
      (∀ u ∈ s.active h, (s.thread u).conflict [10, 12] [2] = none) ∧ (∀ r ∈ [10, 12], (s.wave 0).shape r = .general) :=
  ⟨bundled_of (by decide), by decide, by decide, by decide, by decide, by decide, by decide⟩

/-- BlockResults: XLPL on a pattern that is the identity. -/
theorem meets_BlockResults : both.Bundled ∧ ∀ w, ((both.wave w).pattern 15).length = 32 := by
  refine ⟨bundled_of (by decide), fun w => ?_⟩
  cases w with
  | zero => decide
  | succ n => rfl

/-! Accesses -/

/-- The active thread's access to 0x1008 finds the physical address 0x2008. -/
theorem reaches_plain (acc : AccType) (n : Nat) (p : n = 1 ∨ n = 2 ∨ n = 4 ∨ n = 8) (q : acc = .read ∨ acc = .write ∨ acc = .atomic) :
    one.Reaches u0 acc 0x1008 n 0x2008 := by
  rcases p with rfl | rfl | rfl | rfl <;> rcases q with rfl | rfl | rfl <;>
    exact ⟨by decide, by decide, ⟨0x20C7, by decide, by decide, by decide⟩, by decide, by decide, by decide, by decide, by decide, by decide⟩

/-- The end of a line: 16 bytes at 0x1070. -/
theorem reaches_end (acc : AccType) (q : acc = .read ∨ acc = .write) : one.Reaches u0 acc 0x1070 16 0x2070 := by
  rcases q with rfl | rfl <;>
    exact ⟨by decide, by decide, ⟨0x20C7, by decide, by decide, by decide⟩, by decide, by decide, by decide, by decide, by decide, by decide⟩

/-- LoadEffects: a word and the last 16 bytes of a line; no constant line, and one that the launch holds. -/
theorem meets_LoadEffects :
    let f : MemForm := ⟨.default, false, .thread, .b32⟩
    let e : MemForm := ⟨.keep, true, .system, .b128⟩
    let held := one.modCore 0 fun c => { c with consts := [(0x40, 0, List.replicate 128 0)] }
    one.Bundled ∧ one.active h = [u0] ∧ one.Reaches u0 .read (one.rd64 u0 4 + BitVec.ofInt 64 0).toNat f.mt.bytes 0x2008 ∧
      one.Reaches u0 .read (one.rd64 u0 4 + BitVec.ofInt 64 104).toNat e.mt.bytes 0x2070 ∧
      (one.thread u0).conflict (loadDests 10 f.mt) [] = none ∧ (one.thread u0).conflict (loadDests 12 e.mt) [] = none ∧
      (one.core u0.core).consts.find? (fun e => e.1 == 0x2008 / 128 && e.2.1 == (one.wave u0.w).launch) = none ∧
      held.Bundled ∧ held.active h = [u0] ∧
      held.Reaches u0 .read (held.rd64 u0 4 + BitVec.ofInt 64 0).toNat f.mt.bytes 0x2008 ∧
      (∀ i, i < 128 → (Memory.byte [] (0x2008 / 128 * 128 + i)) = (List.replicate 128 (0 : Byte)).getD i 0) ∧
      (held.core u0.core).consts.find? (fun e => e.1 == 0x2008 / 128 && e.2.1 == (held.wave u0.w).launch) =
        some (0x2008 / 128, (held.wave u0.w).launch, List.replicate 128 0) :=
  ⟨bundled_of (by decide), by decide, reaches_plain _ _ (by decide) (by decide), reaches_end _ (by decide), by decide, by decide, by decide,
    bundled_of (by decide), by decide,
    ⟨by decide, by decide, ⟨0x20C7, by decide, by decide, by decide⟩, by decide, by decide, by decide, by decide, by decide, by decide⟩,
    by decide, by decide⟩

/-- StoreEffects, plain and releasing. -/
theorem meets_StoreEffects :
    let f : MemForm := ⟨.default, true, .device, .b64⟩
    let e : MemForm := ⟨.default, false, .thread, .b128⟩
    one.Bundled ∧ one.active h = [u0] ∧ one.Reaches u0 .write (one.rd64 u0 4 + BitVec.ofInt 64 0).toNat f.mt.bytes 0x2008 ∧
      one.Reaches u0 .write (one.rd64 u0 4 + BitVec.ofInt 64 104).toNat e.mt.bytes 0x2070 ∧ one.memOk = true :=
  ⟨bundled_of (by decide), by decide, reaches_plain _ _ (by decide) (by decide), reaches_end _ (by decide), by decide⟩

/-- AtomicEffects, narrow and wide. -/
theorem meets_AtomicEffects : one.Bundled ∧ one.active h = [u0] ∧
    one.Reaches u0 .atomic (one.rd64 u0 4 + BitVec.ofInt 64 0).toNat AT.z32.bytes 0x2008 ∧
    one.Reaches u0 .atomic (one.rd64 u0 4 + BitVec.ofInt 64 0).toNat AT.s64.bytes 0x2008 ∧ one.memOk = true ∧
    (one.thread u0).conflict (dests AT.z32.wide 10) [] = none ∧ (one.thread u0).conflict (dests AT.s64.wide 10) [] = none :=
  ⟨bundled_of (by decide), by decide, reaches_plain _ _ (by decide) (by decide), reaches_plain _ _ (by decide) (by decide), by decide,
    by decide, by decide⟩

/-- ScratchEffects: the first word of logical bank 0, and the last 16 bytes of the kernel's scratchpad. -/
theorem meets_ScratchEffects :
    one.Bundled ∧ one.active h = [u0] ∧ one.Banked u0 (wrapNat 32 ((one.rd u0 20).toNat + 0)) 4 0 7 0 ∧
      one.Banked u0 (wrapNat 32 ((one.rd u0 4).toNat + -24)) 16 0 7 0xFF0 ∧ Memory.wf (one.bank 0 7).bytes = true ∧
      (one.thread u0).conflict (loadDests 10 .b32) [] = none :=
  ⟨bundled_of (by decide), by decide,
    ⟨by decide, by decide, ⟨0, wg0, by decide, by decide, by decide, by decide, by decide⟩, by decide, by decide, by decide, by decide, by decide⟩,
    ⟨by decide, by decide, ⟨0, wg0, by decide, by decide, by decide, by decide, by decide⟩, by decide, by decide, by decide, by decide, by decide⟩,
    by decide, by decide⟩

/-- CacheEffects. -/
theorem meets_CacheEffects : one.Bundled ∧ one.active h = [u0] ∧
    one.xlat (some u0.core) (one.wave u0.w).tag (one.privileged u0) .read (one.rd64 u0 4 + BitVec.ofInt 64 0).toNat = .ok 0x2008 0x20C7 ∧
    (∀ e ∈ one.watches, e.pa / 128 ≠ 0x2008 / 128) ∧ deviceMem 0x2008 = true :=
  ⟨bundled_of (by decide), by decide, by decide, by decide, by decide⟩
/-! Order and waiting -/

/-- A queue whose head runs. -/
def issuer0 : Issuer := { tag := 1, wid := 5, wg := 0, wave := 0, launch := 0, priv := false, epoch := 0, clock := 0, vec := [], phase := 0 }
def cmd0 : QCmd :=
  { engine := 0, ecmd := [0x0000000000000103, 0x1000, 0x1080, 16], seq := 1, issuer := issuer0, pre := .none, lines := [], begun := true
    refused := none }

/-- FenceEffects: fences; QFENCE behind running commands and on empty queues; KPASS outside a deterministic launch and in one. -/
theorem meets_FenceEffects :
    let busy := one.modCore 0 fun c => { c with queues := (List.range 8).map fun q => (q, [.cmd cmd0]) }
    let s := machine { wave0 with threads := lanes [{ th with grant := true }, { th with grant := true }] } [u0, u1]
    let d := s.modLaunch 0 fun l => { l with hdr := { l.hdr with determ := true }, key := some 1 }
    (one.Bundled ∧ one.active h = [u0] ∧ (one.thread u0).readRels = [] ∧ (one.core u0.core).wcb = [] ∧ one.scFences = [] ∧
      ∀ q, q < 8 → one.queue u0.core q = []) ∧
    (busy.Bundled ∧ busy.active h = [u0] ∧ ∀ q, q < 8 → ∃ c es, busy.queue u0.core q = .cmd c :: es ∧ c.begun = true) ∧
    (∀ u ∈ both.active h, (both.launchOf u).hdr.determ = false) ∧
    d.Bundled ∧ d.active h ≠ [] ∧ (∀ u ∈ d.cur.threads, u.w = 0 ∧ (d.thread u).grant = true) ∧
      (∀ i, i < 32 → ⟨0, i⟩ ∉ d.cur.threads → (d.thread ⟨0, i⟩).grant = false) ∧
      (d.launch (d.wave 0).launch).hdr.determ = true ∧ (d.launch (d.wave 0).launch).key ≠ some (d.lid 0) :=
  ⟨⟨bundled_of (by decide), by decide, by decide, by decide, by decide, by decide⟩,
    ⟨bundled_of (by decide), by decide, fun q a => ⟨cmd0, [], by
      have : ∀ q, q < 8 → (one.modCore 0 fun c => { c with queues := (List.range 8).map fun q => (q, [.cmd cmd0]) }).queue u0.core q =
        .cmd cmd0 :: [] := by decide
      exact this q a, rfl⟩⟩,
    by decide, bundled_of (by decide), by decide, by decide, by decide, by decide, by decide⟩

/-- The machine `one` with barrier `b` of its workgroup, and the thread's ticket. -/
def barred (b : Nat) (v : Barrier) (t : Option Word) : State :=
  (one.modWg 0 fun g => { g with bars := [(b, v)] }).modThread u0 fun th => { th with tickets := (t.map fun p => (b, p)).toList }

/-- BarrierEffects: an arrival below the target, at it, and of the last thread; waits with the present and with a past ticket;
BARINIT. -/
theorem meets_BarrierEffects :
    let count (s : State) (b : Nat) : Nat := (s.barrier u0 b).count + max 1 ((s.rd u0 1).toNat % 2 ^ 16)
    let s := barred 23 { target := 9, count := 1 } none
    let z := barred 0 { target := 8, count := 1 } (some 0)
    let a := barred 3 { } none
    let w := barred 3 { phase := 4 } (some 3)
    (s.Bundled ∧ s.active h = [u0] ∧ 23 < 24 ∧ (s.launchOf u0).hdr.determ = false ∧ (s.barrier u0 23).target ≠ 0 ∧
      count s 23 < (s.barrier u0 23).target ∧ (s.thread u0).conflict [] [2] = none ∧ (s.thread u0).bwait = none) ∧
    (z.Bundled ∧ z.active h = [u0] ∧ (z.launchOf u0).hdr.determ = false ∧ (z.barrier u0 0).target ≠ 0 ∧
      (z.barrier u0 0).target ≤ count z 0 ∧ z.barWaiters u0 0 = [] ∧ (z.thread u0).ticket 0 = some (z.barrier u0 0).phase ∧
      (z.thread u0).conflict [] [2] = none ∧ (z.thread u0).bwait = none) ∧
    (a.Bundled ∧ a.active h = [u0] ∧ (a.launchOf u0).hdr.determ = false ∧ (a.barrier u0 3).target = 0 ∧ (a.thread u0).ticket 3 = none ∧
      (∀ i ∈ a.scopeIds [(a.wave u0.w).wg], i ∈ (a.barrier u0 3).arrived ∨ i = a.logical u0) ∧ a.barWaiters u0 3 = [] ∧
      (a.rd u0 1).toNat < 2 ^ 16 ∧ (a.wgs.find? (a.wave u0.w).wg).isSome = true) ∧
    (w.Bundled ∧ w.active h = [u0] ∧ (w.launchOf u0).hdr.determ = false ∧ (w.thread u0).ticket 3 = some 3 ∧ 3 ≠ (w.barrier u0 3).phase ∧
      (∀ d ∈ (w.barrier u0 3).done, d.1 ≠ (3 : Word).toNat) ∧ (w.thread u0).conflict [] [2] = none ∧ (w.thread u0).bwait = none) :=
  ⟨⟨bundled_of (by decide), by decide, by decide, by decide, by decide, by decide, by decide, by decide⟩,
    ⟨bundled_of (by decide), by decide, by decide, by decide, by decide, by decide, by decide, by decide, by decide⟩,
    ⟨bundled_of (by decide), by decide, by decide, by decide, by decide, by decide, by decide, by decide, by decide⟩,
    bundled_of (by decide), by decide, by decide, by decide, by decide, by decide, by decide, by decide⟩

/-- WatchEffects: the operand in v24 and the limit in v25: a comparison that holds, one that does not, with D zero, finite and
without a deadline. -/
theorem meets_WatchEffects :
    let s (D : Word) : State := machine { wave0 with threads := lanes [th, { th with st := .exited }], regs := wave0.regs ++ [(25, .uniform D)] } [u0]
    let ok (s : State) : Prop := s.Bundled ∧ s.active h = [u0] ∧ s.Free h (dests false 10) [2] ∧ (s.thread u0).readRels = [] ∧
      s.Reaches u0 .read (s.rd64 u0 4 + BitVec.ofInt 64 0).toNat 4 0x2008 ∧
      (s.watches.filter fun e => e.slice == sliceOf 0x2008 && e.spill.isNone && e.reserved == false).length < 240
    (ok (s 0) ∧ ok (s 7) ∧ ok (s 0xFFFFFFFF)) ∧
      CM.holds .eq false (BitVec.ofNat 64 (littleEndian (s 0).mem 0x2008 4)) (BitVec.ofNat 64 ((s 0).rd u0 24).toNat) = true ∧
      CM.holds .ne false (BitVec.ofNat 64 (littleEndian (s 7).mem 0x2008 4)) (BitVec.ofNat 64 ((s 7).rd u0 24).toNat) = false ∧
      ((s 0).rd u0 25).toNat = 0 ∧ ((s 7).rd u0 25).toNat ≠ 0 ∧ ((s 0xFFFFFFFF).rd u0 25).toNat = 0xFFFFFFFF := by
  refine ⟨⟨?_, ?_, ?_⟩, by decide, by decide, by decide, by decide, by decide⟩ <;>
    exact ⟨bundled_of (by decide), by decide, free_of (by decide), by decide,
      ⟨by decide, by decide, ⟨0x20C7, by decide, by decide, by decide⟩, by decide, by decide, by decide, by decide, by decide, by decide⟩,
      by decide⟩

/-- BankEffects: a FIFO with room and with enough words, a bank that switches, one that has the mode and one that has another. -/
theorem meets_BankEffects :
    let s := both.modBank 0 9 fun b => { b with fifo := [1, 2, 3, 4] }
    let z := both.modBank 0 9 fun b => { b with switching := some .cache }
    (s.Bundled ∧ s.active h ≠ [] ∧ s.bankOf 1 = some 9 ∧ (s.bank 0 9).switching = none ∧ (s.bank 0 9).mode = .fifo ∧
      (s.bank 0 9).waits = [] ∧ s.Free h (dests true 10) [] ∧ 2 * (laneOrder (s.active h)).length ≤ (s.bank 0 9).fifo.length ∧
      (s.bank 0 9).fifo.length + 4 ≤ 8192) ∧
    (z.Bundled ∧ z.active h ≠ [] ∧ z.bankOf 1 = some 9 ∧ (z.bank 0 9).switching = some .cache) ∧
    both.bankOf 0 = some 7 ∧ (both.bank 0 7).switching = none ∧ (both.bank 0 7).mode = .scratch ∧ (both.bank 0 7).waits = [] ∧
      ∀ e ∈ (both.bank 0 7).pend, e.2 = 0 :=
  ⟨⟨bundled_of (by decide), by decide, by decide, by decide, by decide, by decide, free_of (by decide), by decide, by decide⟩,
    ⟨bundled_of (by decide), by decide, by decide, by decide⟩, by decide, by decide, by decide, by decide, by decide⟩

/-! Tile instructions -/

/-- Tile control registers t0 and t1 of 2 rows and 32 columns of 8-bit elements, and accumulators configured for the profile. -/
def alloc0 : Alloc :=
  { tcs := [(0, [0x00200202, 0, 128, 0]), (1, [0x00202002, 0, 128, 0]), (5, [0x00200200, 0, 128, 0])]
    accs := [(0, { gen := 1, rows := 2, cols := 32 }), (1, { gen := 1, rows := 2, cols := 32, sat := true })] }
def tiled (s : State) : State := (withProfile s).modPart 0 fun p => { p with allocs := [(0, alloc0)] }

/-- TileEffects: operations that pass, and one whose window is illegal and traps. -/
theorem meets_TileEffects :
    let s := tiled (machine { wave0 with regs := wave0.regs ++
      [(8, .uniform 0x00100010), (9, .uniform 0x03030020), (11, .uniform 1)] } [u0, u1])
    s.Bundled ∧ s.Lowest h u0 ∧ s.TilesKept u0.pid ∧ s.CanTrap h ∧ s.CanTrap ⟨false, 0, 0⟩ ∧
      (s.tileView u0).illegal (.tldw h 5 4 8 false) = true ∧
      (∀ i ∈ ([.tld h 0 4 false, .tldw h 0 4 8 false, .tst h 4 0 true, .tzero h 1 true, .taccsv h 1 4 false, .taccld h 1 4] : List Instr),
        (s.tileView u0).illegal i = false) ∧ (s.launchOf u0).hdr.determ = false ∧
      (s.tileView u0).check (.tld h 0 4 false) (s.rd64 u0 4) [] = none ∧
      (s.tileView u0).check (.tldw h 0 4 8 false) (s.rd64 u0 4) [s.rd u0 8, s.rd u0 9, s.rd u0 10, s.rd u0 11] = none ∧
      (s.tileView u0).check (.tldw h 0 4 12 false) (s.rd64 u0 4) [s.rd u0 12, s.rd u0 13, s.rd u0 14, s.rd u0 15] ≠ none ∧
      (s.tileView u0).check (.tst h 4 0 true) (s.rd64 u0 4) [] = none ∧ (s.tileView u0).check (.tzero h 1 true) 0 [] = none ∧
      (s.tileView u0).check (.taccsv h 1 4 false) (s.rd64 u0 4) [] = none ∧
      (s.tileView u0).check (.taccld h 1 4) (s.rd64 u0 4) [] = none ∧
      (∀ u ∈ s.active h, u.w = 0) ∧ ((s.alloc s.pid (s.wave 0).wg).tc 3).length = 4 :=
  ⟨bundled_of (by decide), lowest_of (by decide), by unfold State.TilesKept; decide, canTrap_of (by decide), canTrap_of (by decide), by decide,
    by decide, by decide, by decide, by decide, by decide, by decide, by decide, by decide, by decide, by decide, by decide⟩

/-- MatrixEffects: multiplications, sums and drains that pass, and a multiplication that traps in both threads. -/
theorem meets_MatrixEffects :
    let s := tiled both
    let passes (i : Instr) (addr : TId → DWord) : Prop :=
      (∀ u ∈ s.cur.threads, s.drainRange u i = none) ∧
        ∀ u ∈ s.active h, (s.thread u).conflict (s.matrixDests u0 i) [] = none ∧ (s.tileView u).check i (addr u) [] = none
    (s.Bundled ∧ (∀ u ∈ s.cur.threads, (s.wave u.w).wg = 0 ∧ s.isMember u 1 = true ∧ (s.thread u).grant = false) ∧
      (∀ u ∈ s.required (.alloc s.pid 0) 1, u ∈ s.cur.threads) ∧ (s.alloc s.pid 0).sessions = [] ∧
      (∀ u ∈ s.cur.threads, (s.launchOf u).hdr.determ = false ∧ (s.ctxOf u).computing = false) ∧
      (u0 ∈ s.active h ∧ ∀ u ∈ s.active h, u ≠ u0 → u0.w < u.w ∨ (u0.w = u.w ∧ u0.lane < u.lane)) ∧ s.TilesKept s.pid) ∧
    (passes (.tmma h 0 0 1 1 false false) (fun _ => 0) ∧ passes (.tmmas h 1 0 1 1 false false) (fun _ => 0) ∧
      passes (.trowsum h 0 0 1 false) (fun _ => 0) ∧ passes (.tcolsum h 1 0 1 false) (fun _ => 0) ∧
      passes (.tdrain h 10 0 0 1 .s32 .registers) (fun _ => 0) ∧ passes (.tdrain h 0 0 4 1 .bx8 .memory) (fun u => s.rd64 u 4) ∧
      passes (.tdraina h 0 4 1 .s32 true) (fun u => s.rd64 u 4)) ∧
    (s.active h = s.cur.threads ∧ s.CanTrap h ∧ (∀ u ∈ s.cur.threads, s.drainRange u (.tmma h 1 0 1 1 false false) = none) ∧
      ∀ u ∈ s.active h, (s.tileView u).check (.tmma h 1 0 1 1 false false) 0 [] = some illegal9) :=
  ⟨⟨bundled_of (by decide), by decide, by decide, by decide, by decide, by decide, by unfold State.TilesKept; decide⟩,
    ⟨⟨by decide, by decide⟩, ⟨by decide, by decide⟩, ⟨by decide, by decide⟩, ⟨by decide, by decide⟩, ⟨by decide, by decide⟩,
      ⟨by decide, by decide⟩, by decide, by decide⟩,
    by decide, canTrap_of (by decide), by decide, by decide⟩

/-- HoldingEffects: a descriptor at a multiple of 64, and TCHK without and with a drain in tile order. -/
def op0 (i : Instr) : TileOp :=
  { id := 1, wg := 0, t := u0, pc := 0x4000, instr := i, addr := 0x1000, desc := [], tcs := [], accs := [], prof := some prof0, recvs := []
    priv := false, time := 0, cycle := 0, header := false, late := false, ahead := false, st := .queued, refused := none, result := none }

theorem meets_HoldingEffects :
    let s := tiled (machine { wave0 with regs := [(4, .uniform 0x1040)] } [u0, u1])
    let z := s.modPart 0 fun p => { p with tileQ := [op0 (.tdraina h 0 4 1 .s32 true)] }
    let drains (s : State) := (s.part u0.pid).tileQ.filter fun o => o.wg == (s.wave u0.w).wg && o.instr.isDrain && o.instr.matrixAcc? == some 0
    s.Bundled ∧ s.Lowest h u0 ∧ (s.rd64 u0 4).toNat % 64 = 0 ∧ (s.ctxs.find? (s.wave u0.w).tag).isSome = true ∧
      (s.ctx (s.wave u0.w).tag).loads = [] ∧ (∀ e ∈ s.parts, e.2.tileQ = []) ∧ (∀ e ∈ s.wgs, e.2.imgTiles = []) ∧ s.begunCmds = [] ∧
      (s.tileView u0).check (.tchk h 10 0) 0 [] = none ∧
      s.Free h [10] [] ∧ drains s = [] ∧
      z.Bundled ∧ z.Lowest h u0 ∧ (z.tileView u0).check (.tchk h 10 0) 0 [] = none ∧ z.Free h [10] [] ∧ drains z ≠ [] :=
  ⟨bundled_of (by decide), lowest_of (by decide), by decide, by decide, by decide, by decide, by decide, by decide, by decide, free_of (by decide), by decide,
    bundled_of (by decide), lowest_of (by decide), by decide, free_of (by decide), by decide⟩

/-- DualWordEffects: two computing halves, and one of each kind of access. -/
theorem meets_DualWordEffects :
    let i : Half := ⟨.imul false, 10, 3, 1⟩
    let s : Half := ⟨.iadd false false, 11, 2, 0⟩
    both.Bundled ∧ both.Free ⟨false, 0, 0⟩ (i.writes ++ s.writes) [] ∧ i.isMem = false ∧ s.isMem = false ∧
      one.Bundled ∧ one.cur.threads = [u0] ∧ one.memOk = true ∧ (one.thread u0).pred 1 = true ∧ (one.thread u0).pred 0 = true ∧
      (Half.isMem ⟨.ld .b32, 13, 4, 0⟩ && s.isMem) = false ∧
      one.Free ⟨false, 0, 0⟩ (Half.writes ⟨.ld .b32, 13, 4, 0⟩ ++ s.writes) [] ∧
      one.Reaches u0 .read (one.rd64 u0 4).toNat 4 0x2008 ∧ (one.thread u0).conflict (loadDests 13 .b32) [] = none ∧
      one.Reaches u0 .write (one.rd64 u0 4).toNat 1 0x2008 ∧
      one.Banked u0 (one.rd u0 6).toNat 4 0 7 8 ∧ Memory.wf (one.bank 0 7).bytes = true :=
  ⟨bundled_of (by decide), free_of (by decide), by decide, by decide, bundled_of (by decide), by decide, by decide, by decide, by decide,
    by decide, free_of (by decide), reaches_plain _ _ (by decide) (by decide), by decide, reaches_plain _ _ (by decide) (by decide),
    ⟨by decide, by decide, ⟨0, wg0, by decide, by decide, by decide, by decide, by decide⟩, by decide, by decide, by decide, by decide, by decide⟩,
    by decide⟩
/-! The steps of tile order -/

/-- TileResults: TZERO, a multiplication, and the sums, with one format's control. -/
theorem meets_TileResults :
    let ca : List Word := [0x00200202, 0, 128, 0]
    let cb : List Word := [0x00202002, 0, 128, 0]
    let o := { op0 (.tmma h 0 0 1 1 false false) with tcs := [ca, cb] }
    let p := { op0 (.tcolsum h 0 0 1 false) with tcs := [ca] }
    (op0 (.tzero h 3 false)).instr = .tzero h 3 false ∧ (op0 (.tzero h 1 true)).instr = .tzero h 1 true ∧
      (o.prof = some prof0 ∧ o.tcs = [ca, cb] ∧ tcRows ca ≤ 64 ∧ tcRows cb ≤ 64 ∧ o.instr = .tmma h 0 0 1 1 false false ∧ tcCols ca = tcCols cb) ∧
      (p.prof = some prof0 ∧ p.tcs = [ca] ∧ tcRows ca ≤ 64 ∧ tcCols ca ≤ 64 ∧ p.instr = .tcolsum h 0 0 1 false) ∧
      (11, (⟨2, 0, 0, 511⟩ : Chan)) ∈ prof0.group 0 ∧
      (((tiled both).alloc 0 0).acc 0).planes.get 11 (List.replicate 4096 0) = List.replicate 4096 0 := by
  refine ⟨rfl, rfl, ⟨rfl, rfl, by decide, by decide, rfl, by decide⟩, ⟨rfl, rfl, by decide, by decide, rfl⟩, by decide, rfl⟩

/-- The machine with a tile order. -/
def ordered (q : List TileOp) : State := (tiled both).modPart 0 fun p => { p with tileQ := q }

/-- A drain that has started, with what it found, and one that has read nothing. -/
def drain0 : TileOp := { op0 (.tdrain h 10 0 0 1 .s32 .registers) with recvs := [u0, u1], st := .started, result := some (0x100, 5, [3, 3]) }

/-- TileSteps, tile order: an operation behind another that starts, a header that is read, an end, and a drain's completion. -/
theorem meets_TileSteps :
    let a := { op0 (.tzero h 3 false) with st := .started }
    let b := { op0 (.tzero h 1 true) with id := 2 }
    let c := { op0 (.taccld h 0 4) with id := 3, header := true }
    let s := ordered [a, b]
    let z := ordered [c]
    let d := ordered [drain0]
    let r : State := s.modAcc 0 0 1 fun c => { c with planes := [], flags := 0, status := 0 }
    ((s.part 0).tileQ = [a] ++ b :: [] ∧ b.id = 2 ∧ (∀ e ∈ [a], e.id ≠ 2) ∧ s.TilesKept 0 ∧ b.begun = false ∧ b.header = false ∧ b.isProf = false ∧
      s.tileStopped b = false ∧ (∀ e ∈ [a], TileOp.after e b = false) ∧ s.upsets = [] ∧
      (s.runTile b).toOption = some (r, 1) ∧ (r.part 0).tileQ = [a] ++ b :: [] ∧ r.parkedOn (fun q => q == Park.tile 2) = [] ∧
      (∀ e ∈ s.ctxs, e.2.loads = [])) ∧
    ((z.part 0).tileQ = [] ++ c :: [] ∧ z.TilesKept 0 ∧ c.header = true ∧ c.t.pid = 0 ∧ z.tileStopped c = false ∧
      (z.tileJudge c false false [(c.addr.toNat, 64)]).isOk = true ∧ (z.tileGet c false c.addr.toNat 64).2.parts = z.parts) ∧
    ((d.part 0).tileQ = [] ++ drain0 :: [] ∧ drain0.result = some (0x100, 5, [3, 3]) ∧ drain0.instr.matrixAcc? = some 0 ∧
      d.errcfg.toNat % 2 ^ 24 ≠ 0 ∧ ({ d with errcfg := 0 } : State).errcfg.toNat % 2 ^ 24 = 0 ∧
      (∀ e ∈ d.waves, ∀ th ∈ e.2.threads, th.block = none) ∧
      ∀ u ∈ drain0.recvs, d.seated u = true ∧ ∀ x ∈ (d.thread u).windows, ∀ v ∈ x.regs, (d.wave u.w).shape v.1 = .general) := by
  unfold State.TilesKept
  exact ⟨⟨by decide, by decide, by decide, by decide, by decide, by decide, by decide, by decide, by decide, by decide, by decide, by decide,
      by decide, by decide⟩, ⟨by decide, by decide, by decide, by decide, by decide, by decide, by decide⟩,
    by decide, by decide, by decide, by decide, by decide, by decide, by decide⟩

/-- A profile's descriptor at 0x1040. -/
def describedMem : Memory :=
  [⟨0x2044, 0xFD⟩, ⟨0x2045, 0x81⟩, ⟨0x2048, 0xF7⟩, ⟨0x2049, 0x83⟩, ⟨0x2070, 0xFF⟩, ⟨0x2071, 0x01⟩, ⟨0x2072, 0x01⟩]
def tprofOp : TileOp := { op0 (.tprof h 4) with addr := 0x1040 }
def load0 : ProfLoad := { pid := 0, op := 1, addr := 0x1040, since := 0, begun := false, page := none, found := none }
def described (l : ProfLoad) : State :=
  { (ordered [tprofOp]).modCtx 1 fun c => { c with loads := [l], prof := none } with mem := describedMem }

/-- TileSteps, the load of a profile: the descriptor passes; the profile is ready. -/
theorem meets_TileSteps_profile :
    let s := described load0
    let l : ProfLoad := { load0 with begun := true, found := some prof0 }
    let z := described l
    ((s.ctxs.find? 1).isSome = true ∧ (s.part load0.pid).tileQ = [tprofOp] ∧ tprofOp.id = load0.op ∧ (s.ctx 1).loads = load0 :: [] ∧
      load0.begun = false ∧ load0.page = none ∧ (∀ e ∈ s.parts, ∀ x ∈ e.2.tileQ, x.isProf = true) ∧ (∀ e ∈ s.wgs, e.2.imgTiles = []) ∧
      s.begunCmds = [] ∧ (s.tileJudge tprofOp false false [(load0.addr.toNat, 64)]).isOk = true ∧
      (s.tileGet tprofOp false load0.addr.toNat 64).2.ctxs = s.ctxs ∧
      (checkProfile (s.tileGet tprofOp false load0.addr.toNat 64).1 (s.tileGet tprofOp false load0.addr.toNat 64).2.mapout).toOption = some prof0) ∧
    (z.ctxs.find? 1).isSome = true ∧ (z.part l.pid).tileQ = [tprofOp] ∧ (z.ctx 1).loads = [l] ∧ l.found = some prof0 ∧
      (∀ e ∈ z.parts, ∀ a ∈ e.2.allocs, a.2.sessions = []) ∧ (∀ e ∈ z.cores, e.2.queues = []) ∧
      ∀ e ∈ (z.part tprofOp.t.pid).bins, ∀ u ∈ e.2.threads, z.seated u = true ∧ (z.thread u).trapQ = none :=
  ⟨⟨by decide, by decide, by decide, by decide, by decide, by decide, by decide, by decide, by decide, by decide, by decide, by decide⟩,
    by decide, by decide, by decide, by decide, by decide, by decide, by decide⟩
/-! The core cycle -/

/-- A core with nothing on it, in a part of its cycle. -/
def bare (phase : Nat) : State := { cores := [(2, { phase := phase, len := 8 })] }
/-- The small machine between cycles, its bundle ready with a NOP in a core that is about to issue. -/
def waiting (age : Nat) : State :=
  let s : State := (both.modCore 0 fun c => { c with phase := 4, cyc := 1000 }).modPart 0 fun p =>
    { p with bins := p.bins.map fun e => (e.1, { e.2 with ready := some (1000 - age) }) }
  { s with now := 8, mem := [⟨0x3006, 0x80⟩, ⟨0x3007, 0x69⟩] }

/-- CycleSteps: an idle core in each part of its cycle, and one whose only ready bundle issues. -/
theorem meets_CycleSteps :
    let idle (s : State) : Prop := (∀ e ∈ s.waves, coreOf e.1 ≠ 2) ∧ (∀ e ∈ (s.core 2).queues, e.2 = []) ∧
      ∀ k, k < 4 → (s.part (2 * 4 + k)).bins = [] ∧ (s.part (2 * 4 + k)).queue = [] ∧ (s.part (2 * 4 + k)).filings = [] ∧
        ∀ e ∈ (s.part (2 * 4 + k)).allocs, e.2.sessions = []
    let s := waiting 9
    (∀ p ∈ [0, 1, 2, 3, 4], idle (bare p) ∧ (bare p).upsets = [] ∧ (∀ e ∈ (bare p).ctxs, e.2.fqwait = []) ∧
      ((bare p).core 2).phase = p ∧ ((bare p).core 2).alarmAt = none ∧ ((bare p).core 2).forced = none ∧ (bare p).cands 2 = []) ∧
      s.upsets = [] ∧ (∀ e ∈ s.ctxs, e.2.fqwait = []) ∧ (s.core 0).phase = 4 ∧ (s.core 0).forced = none ∧
      s.cands 0 = [⟨0, 0, some 0, 9⟩] ∧ s.mayIssue 0 0 = true ∧
        ∀ u ∈ ((s.part (0 * 4 + 0)).bins.get 0 {}).threads, u.w ∈ (s.part (0 * 4 + 0)).active := by
  refine ⟨by decide, by decide, by decide, by decide, by decide, by decide, by decide, by decide⟩

/-- ClockSteps: the state of CycleSteps with a bundle of each age, a thread in the queue behind full bins, and a droop state. -/
theorem meets_ClockSteps :
    let P := ((waiting 64).modPart 0 fun p => { p with bins := (List.range 16).map fun n => (n, { st := .bundle }), queue := [(u1, 3)] }).part 0
    let d (x : Droop) : State := both.modCore 0 fun c => { c with droop := x }
    (waiting 63).cands 0 = [⟨0, 0, some 0, 63⟩] ∧ (waiting 64).cands 0 = [⟨0, 0, some 0, 64⟩] ∧
      (P.held = [] ∧ (∀ b, b < 16 → (P.bins.get b {}).st ≠ .filling) ∧ P.queue = (u1, 3) :: []) ∧
      ((d .stretch).core 0).droop = .stretch ∧ ((d .half).core 0).droop = .half := by decide
/-! Registers, results and the ends of waits -/

/-- RegisterSteps: a fatal device and one that is not; a patrol field that stays; a context window in and out of recovery, and one whose
command runs. -/
theorem meets_RegisterSteps :
    let f : State := { both with fatal := true }
    let r : State := { both with mg := { both.mg with recovery := true } }
    let run : State := { both with cwrun := some ⟨77, .destroy 3⟩ }
    (run.cwrun ≠ none ∧ run.mg.recovery = false ∧ both.cwrun = none) ∧ f.fatal = true ∧ both.fatal = false ∧ r.fatal = false ∧ r.mg.recovery = true ∧ both.mg.recovery = false ∧ 11 < 12 ∧ 3 < 4 ∧
      (0x000A0000FFFFFFFF : DWord).toNat / 2 ^ 48 % 256 = both.errcfg.toNat / 2 ^ 48 % 256 := by decide

/-- A window whose result came before this cycle: v20, p2 and p3. -/
def late : Window :=
  { pc := 0x3FF8, half := 0, seq := 3, remaining := 0, closed := true, order := 1, dests := [20, 21], pdests := [2, 3], regs := [(20, 0xABCD), (21, 7)]
    preds := [(2, true), (3, false)], ready := some 0, checked := true, shapeFail := none, fail := none, pend := none }
def closing : State := machine { wave0 with threads := lanes [{ th with windows := [{ late with seq := 1, closed := false, order := 0, ready := none }, late], llSeq := 4 }, th] } [u0, u1]

/-- CommitSteps: one result that is due, beside a window that stays open. -/
theorem meets_CommitSteps :
    let s := closing
    s.dueCommits (0 * 4 + 0) (s.core 0).cyc.toNat = [⟨u0, late⟩] ∧ s.seated u0 = true ∧ (s.thread u0).hand = none ∧
      late.fail = none ∧ late.shapeFail = none ∧ (∀ v ∈ late.regs, (s.wave u0.w).shape v.1 = .general) ∧ (s.part (0 * 4 + 0)).unionFail = [] ∧
      ∀ e ∈ s.waves, ∀ th ∈ e.2.threads, th.trapQ = none ∧ ∀ y ∈ th.windows, y.pend = none := by decide

/-- A session of mask 1 with both threads of the small machine, its signers waiting. -/
def session0 : Session :=
  { id := 7, k := 1, pc := 0x4000, instr := .nop h, signers := [⟨u0, true, [7]⟩, ⟨u1, false, [7]⟩], expiry := some 3, held := false }
def signing : State := machine { wave0 with threads := lanes [{ th with st := .maskwait }, { th with st := .maskwait }], sessions := [session0] } []

/-- TimeoutSteps: a WAITM and a BAR whose time is over, and a session of two signers. -/
theorem meets_TimeoutSteps :
    let s := machine { wave0 with threads := lanes [{ th with st := .maskwait, mwait := some ⟨1, 2, 5⟩ },
      { th with st := .barrier 3, bwait := some ⟨1, some 4, false⟩ }] } []
    let z := signing
    (0 : Nat) < 4 ∧ (0 : Nat) < 24 ∧ (s.seated u0 = true ∧ (s.wave u0.w).halted = false ∧ (s.thread u0).mwait = some ⟨1, 2, 5⟩) ∧
      (s.seated u1 = true ∧ (s.wave u1.w).halted = false ∧ (s.thread u1).mwait = none ∧ (s.thread u1).st = .barrier 3 ∧
        (s.thread u1).bwait = some ⟨1, some 4, false⟩) ∧
      z.findSession (0 * 4 + 0) 7 = some (.wave 0, session0) ∧ session0.held = false ∧ (session0.signers.map (·.t)).Nodup ∧
      ∀ g ∈ session0.signers, z.seated g.t = true ∧ (z.ctxOf g.t).handler ≠ 0 ∧ (z.thread g.t).hand = none ∧
        (z.thread g.t).windows = [] ∧ (z.thread g.t).trapQ = none := by decide

/-- A watch of the first thread, of the word at PA 0x2008, and the thread as its WAITU left it. -/
def watch0 : Watch :=
  { id := 4, slice := sliceOf 0x2008, reserved := false, spill := none, pa := 0x2008, wide := true, cm := .eq, y := 9, deadline := some 1600
    waiter := .wave 1 5 1, st := .armed, snaps := [], chk := false }
def watched (e : Watch) : State :=
  { machine { wave0 with threads := lanes [{ th with st := .watching, wdest := some ⟨20, true, 2, 0x4000, 0x1008⟩ }, th] } [] with
    watches := [e], now := 1608, mem := [⟨0x2008, 0x78⟩, ⟨0x2009, 0x56⟩, ⟨0x200F, 0x12⟩] }

/-- No launch of the small machine is deterministic. -/
theorem plain_launch (l : Nat) : (Tab.get [(0, launch0)] l default).hdr.determ = false := by
  unfold Tab.get Tab.find?
  by_cases e : 0 = l
  · subst e; rfl
  · simp [e]; rfl

/-- WatchSteps: a deadline in the table and in the spill area; the wakes; an entry that may be armed. -/
theorem meets_WatchSteps :
    let s := watched watch0
    let p : Watch := { watch0 with spill := some 3, slice := 5 }
    let z : State := { watched p with mem := (watched p).mem.write ((s.ctx 1).wspill + 96) p.image }
    let ends (e : Watch) (ok : Bool) (x : DWord) : Prop := ∃ w i d,
      let y := watched e
      y.watches.find? (·.id == 4) = some e ∧ e.waiter = .wave 1 5 1 ∧ y.waveOf 1 5 = some w ∧
      (∀ j, j < 32 → (1 : Word).getLsbD j = decide (j = i)) ∧ y.seated ⟨w, i⟩ = true ∧ (y.wave w).halted = false ∧ e.spill = none ∧
      y.arming = [] ∧ e.snaps = [] ∧ e.chk = false ∧ e.st = (if ok then .satisfied x else .deadline x none) ∧
      (y.thread ⟨w, i⟩).st = .watching ∧ (y.thread ⟨w, i⟩).wdest = some d ∧ (y.thread ⟨w, i⟩).hand = none ∧
      (y.thread ⟨w, i⟩).readRels = [] ∧ ∀ r ∈ dests d.wide d.dest, (y.wave w).shape r = .general
    let a : Watch := { watch0 with waiter := .faultEntry 1 3, reserved := true, deadline := none, slice := 77 }
    let r : State := { both with arming := [a] }
    (∀ l, (s.launch l).hdr.determ = false) ∧ (∀ l, (z.launch l).hdr.determ = false) ∧
      (s.watches.find? (·.id == 4) = some watch0 ∧ watch0.st = .armed ∧ watch0.spill = none) ∧
      (watch0.chk = false ∧ p.chk = false ∧ (z.watches.filter fun e => e.slice == 5 && e.spill.isSome) = [p] ∧ z.entryNow p = some p ∧
        p.st = .armed ∧ (∃ d, p.deadline = some d ∧ d < z.now) ∧ z.upsets = [] ∧ z.poison = [] ∧
        ∀ x ∈ z.watches, x.pa / 128 ∉ linesOf ((z.ctx 1).wspill + 32 * 3) 32) ∧
      ends { watch0 with st := .satisfied 9 } true 9 ∧ ends { watch0 with st := .deadline 8 none } false 8 ∧ both.arming = [] ∧
      r.arming = [a] ∧ (∀ t r, a.waiter ≠ .region t r) ∧ a.spill = none ∧ a.deadline = none ∧
      CM.holds a.cm a.wide (BitVec.ofNat 64 (littleEndian r.mem a.pa (if a.wide then 8 else 4))) a.y = false ∧
      (r.watches.filter fun x => x.slice == sliceOf a.pa && x.spill.isNone && x.reserved == true).length < 16 := by
  refine ⟨fun l => plain_launch l, fun l => plain_launch l, by decide,
    ⟨by decide, by decide, by decide, by decide, by decide, ⟨1600, by decide, by decide⟩, by decide, by decide, by decide⟩, ⟨0, 0, ⟨20, true, 2, 0x4000, 0x1008⟩, ?_⟩, ⟨0, 0, ⟨20, true, 2, 0x4000, 0x1008⟩, ?_⟩,
    by decide, by decide, fun _ _ => by simp, by decide, by decide, by decide, by decide⟩
  · refine ⟨by decide, by decide, by decide, by decide, by decide, by decide, by decide, by decide, by decide, by decide, by decide, by decide,
      by decide, by decide, by decide, by decide⟩
  · refine ⟨by decide, by decide, by decide, by decide, by decide, by decide, by decide, by decide, by decide, by decide, by decide, by decide,
      by decide, by decide, by decide, by decide⟩
/-! Faults, regions, data and engines -/

/-- A fetch that waits for the page 0x9000, whose fault has entry 3. -/
def fetch0 : Access :=
  { scratch := false, const := false, addr := 0x9000, size := 8, kind := .fetch, scope := .thread, acq := false, rel := false, pc := 0x9000
    half := 0 }
def faulted : State :=
  (machine { wave0 with threads := lanes [{ th with st := .parked (.fault 9), pend := some fetch0, pc := 0x9000 }, th] } []).modCtx 1 fun c =>
    { c with fqn := 8, fqbase := 0x7000, pages := [⟨9, some 3⟩, ⟨10, some 4⟩] }

/-- The root region of context 1: its block at 0x1080, its anchor at 0x1008. -/
def region0 : Region := { anchor := 0x1008, enable := true, watched := true, linked := true }
def anchored : State :=
  let s : State := (both.modCtx 1 fun c => { c with root := 0x1080, regions := [(0x1080, region0)] })
  { s with
    mem := [⟨0x2098, 0x08⟩, ⟨0x2099, 0x10⟩, ⟨0x20A8, 0x80⟩], now := 99
    watches := [{ watch0 with reserved := true, waiter := .region 1 0x1080, cm := .ne, y := 0, st := .satisfied 6, deadline := none }] }

/-- ResponseSteps. -/
theorem meets_ResponseSteps :
    let s := faulted
    let z := anchored
    let e : Watch := { watch0 with reserved := true, waiter := .region 1 0x1080, cm := .ne, y := 0, st := .satisfied 6, deadline := none }
    ((∀ e ∈ s.watches, e.waiter ≠ .faultEntry 1 3) ∧ (s.ctx 1).pages.find? (fun p => p.entry == some 3) = some ⟨9, some 3⟩ ∧
      littleEndian s.mem ((s.ctx 1).fqbase + 32 * (3 % (s.ctx 1).fqn) + 24) 1 ≠ 2 ∧ s.pageWaiters 1 9 = [u0] ∧ s.seated u0 = true ∧
      (s.wave u0.w).halted = false ∧ (s.thread u0).pend = some fetch0 ∧ fetch0.kind = .fetch ∧
      (∀ e ∈ s.wgs, e.2.image = [] ∧ e.2.imgTiles = []) ∧ (∀ e ∈ s.parts, e.2.tileQ = []) ∧ (∀ e ∈ s.cores, e.2.qhold = [] ∧ e.2.queues = []) ∧
      ∀ e ∈ s.ctxs, e.2.loads = [] ∧ e.2.fqwait = []) ∧
    z.watches.find? (fun e => e.waiter == .region 1 0x1080 && e.st != .armed) = some e ∧ e.st = .satisfied 6 ∧ e.spill = none ∧
      z.arming = [] ∧ (z.ctx 1).regions.find? 0x1080 = some region0 ∧ z.upsets = [] ∧ z.poison = [] ∧
      ∃ y r, ({ z with watches := z.watches.filter (·.id != e.id) }.modRegion 1 0x1080 fun r => { r with watched := false, held := false }).readRegion
          1 0x1080 region0.parent = (0, y) ∧ (y.ctx 1).regions = [(0x1080, r)] ∧ r.parent ≠ 0x1080 ∧ r.child = 0 ∧ r.cursor = 0 ∧ r.lqhead = 0 ∧ r.st < 2 := by
  refine ⟨by decide, by decide, by decide, by decide, by decide, by decide, by decide, by decide, ?_⟩
  exact ⟨(({ anchored with watches := anchored.watches.filter (·.id != 4) }.modRegion 1 0x1080 fun r => { r with watched := false, held := false }).readRegion
    1 0x1080 0).2, { region0 with watched := false }, Prod.ext (by decide) rfl, by decide, by decide, by decide, by decide, by decide,
    by decide⟩
/-- The small machine with pending counts in bank 7, and with the wave's command words written. -/
def lined (n : Nat) : State := both.modBank 0 7 fun b => { b with pend := [(3, n), (9, 1)] }
def commanded (written : BitVec 4) : State :=
  let s := both.modWave 0 fun w => { w with ewin := { ecmd := [0x0000000000000001, 0x1000, 0x1080, 16], written := written, seq := 4 } }
  s.modCore 0 fun c => { c with queues := [(2, [.cmd cmd0])] }

/-- DataSteps: a line with more to come, one with no more; a bank that switches; command words that are not all written, an
invalid command, and one that joins a queue. -/
theorem meets_DataSteps :
    let quiet (s : State) : Prop := s.parkedOn (fun _ => true) = [] ∧ ∀ e ∈ s.parts, e.2.tileQ = []
    let z := both.modBank 0 7 fun b => { b with switching := some .cache }
    let valid (v : DWord) : Prop := v.toNat / 2 ^ 8 = 0 ∧ v.getLsbD 3 = false ∧ v.toNat / 16 < 5
    let s := commanded 15
    let c := s.egoCmd u0 0x42 (s.wave 0).ewin.ecmd ((s.wave 0).ewin.seq + 1)
    (((lined 2).bank 0 7).pend.get 3 0 - 1 ≠ 0 ∧ ((lined 1).bank 0 7).pend.get 3 0 - 1 = 0 ∧ quiet (lined 1) ∧ ((lined 1).bank 0 7).switching = none) ∧
      ((z.bank 0 7).switching = some .cache ∧ (∀ e ∈ (z.bank 0 7).pend, e.2 = 0) ∧ quiet z ∧ (z.bank 0 7).waits = [] ∧ (z.bank 0 7).later = []) ∧
      (0 * 96 + 0 * 24 + 0 = 0 ∧ (s.waves.find? 0).isSome = true ∧ (s.thread u0).pend = none) ∧ ((commanded 7).wave 0).ewin.written ≠ 15 ∧
      (s.wave 0).ewin.written = 15 ∧ ¬valid 0x50 ∧ valid 0x42 ∧ isAperture c.a1 = false ∧ (s.core 0).wcb = [] ∧
      (∃ c es, s.queue 0 (0x42 % 8) = .cmd c :: es ∧ c.begun = true) ∧ ∀ k, k < 8 → k ≠ 0x42 % 8 → s.queue 0 k = [] := by
  refine ⟨by decide, by decide, by decide, by decide, by decide, by decide, by decide, by decide, by decide, ⟨cmd0, [], by decide, by decide⟩, by decide⟩

/-- A completion record in the aperture of the small machine's scratchpad bank. -/
def cmd1 (engine : Nat) (ecmd : List DWord) : QCmd := { cmd0 with engine := engine, ecmd := ecmd }
def queued (c : QCmd) : State := both.modCore 0 fun x => { x with queues := [(2, [.cmd c])] }

/-! Engine commands: their words, with blocks at 0x1400, sources at 0x1800, destinations at 0x1A00, and completion records at
0x1C00, all in the page 0x1000 -/

def engCmd (engine opc a0 a1 p : Nat) : QCmd :=
  { cmd0 with engine := engine, ecmd := [opc * 2 ^ 56 + a0, a1, p, 0x1C00].map (BitVec.ofNat 64), issuer := { issuer0 with priv := true } }

/-- The small machine with a command at the head of queue 2 of core 0, and bytes of memory at ascending addresses. -/
def engined (c : QCmd) (ms : List (Nat × List Nat)) : State :=
  let s : State := (withProfile both).modCore 0 fun x => { x with queues := [(2, [.cmd c])] }
  { s with
    books := [⟨5, List.range 16⟩], coll := [(3, (1, 0))]
    mem := ms.flatMap fun x => (x.2.zipIdx.filter (·.1 != 0)).map fun b => ⟨0x1000 + x.1 + b.2, BitVec.ofNat 8 b.1⟩ }

/-- Two rows of four bytes, 8 and 4 apart, and two indices, one of them out of range. -/
def rows2 (indexed : Bool) : List (Nat × List Nat) :=
  [(0x1400, [2, 0, 0, 0, 4, 0, 0, 0, 8, 0, 0, 0, 4, 0, 0, 0] ++ if indexed then [0, 0x16, 0, 0, 0, 0, 0, 0, 3, 0, 0, 0, 1] else []),
    (0x1600, [2, 0, 0, 0, 7]), (0x1800, [1, 2, 3, 4, 5, 6, 7, 8, 9, 10, 11, 12, 13, 14, 15, 16, 17, 18, 19, 20, 21, 22])]

/-- A row of two elements, 1.0 and -1.5 in BF16, anchor -7, group 0. -/
def convert (words : List Nat) : List (Nat × List Nat) :=
  [(0x1400, [1, 0, 0, 0, 2, 0, 0, 0, 8, 0, 0, 0, 8, 0, 0, 0, 0xF9, 0xFF, 0, 0]), (0x1800, words)]

/-- A grey page of one pixel: tables with one code each, a difference of 0 and an end of block. -/
def jpeg1 : List Nat :=
  [0xFF, 0xD8, 0xFF, 0xDB, 0, 67, 0] ++ List.replicate 64 1 ++ [0xFF, 0xC0, 0, 11, 8, 0, 1, 0, 1, 1, 1, 0x11, 0, 0xFF, 0xC4, 0, 20, 0] ++
    1 :: List.replicate 15 0 ++ [0, 0xFF, 0xC4, 0, 20, 0x10] ++ 1 :: List.replicate 15 0 ++ [0, 0xFF, 0xDA, 0, 8, 1, 1, 0, 0, 63, 0, 0x3F, 0xFF, 0xD9]

def decoded (n w h : Nat) (bytes : List Nat) : List (Nat × List Nat) :=
  [(0x1400, [n, 0, 0, 0, w, 0, h, 0, 0, 0, 1, 0, 1, 0, 0, 0, 8]), (0x1800, bytes)]

/-- A sector of one line, of two words 7 and zeros, under the codebook of generation 5. -/
def sector0 : List (Nat × List Nat) := [(0x1800, [0x40, 2, 0, 5, 9, 0, 0, 0, 7])]

def okay {α : Type} (x : Eng α) : Bool := match x with | .ok _ => true | .error _ => false

theorem of_okay {α : Type} {x : Eng α} (h : okay x = true) : ∃ e, x = .ok e := by
  cases x with
  | ok e => exact ⟨e, rfl⟩
  | error _ => exact absurd h (by simp [okay])

/-- The result of a command's engine, with its writes allowed. -/
def finishes (s : State) (c : QCmd) (f : Eng EngEnd) : Bool :=
  match f with
  | .ok e => okay (s.engCheck c.issuer e.writes)
  | .error _ => false

theorem of_finishes {s : State} {c : QCmd} {f : Eng EngEnd} (h : finishes s c f = true) :
    ∃ e, f = .ok e ∧ s.engCheck c.issuer e.writes = .ok () := by
  cases f with
  | ok e => obtain ⟨x, h⟩ := of_okay (x := s.engCheck c.issuer e.writes) h; exact ⟨e, rfl, h⟩
  | error _ => exact absurd h (by simp [finishes])

/-- A command is at the head of its queue, its record may be written, and the words of its window pass. -/
def heads (s : State) (c : QCmd) (own : List (Nat × Bool)) : Prop :=
  s.headCmd 0 2 = some c ∧ s.upsets = [] ∧ c.cra % 32 = 0 ∧ okay (s.engCheck c.issuer [(c.cra, List.replicate 32 0)]) = true ∧
    c.refused = none ∧ c.windowBad own = none ∧ s.suspended c = false

/-- EngineSteps: a COPY out of a scratchpad that is in shadow storage. -/
theorem meets_EngineSteps_suspended :
    let c := engCmd 0 1 apertureBase 0x1A00 7
    let s : State := { engined c [] with wgs := [(0, { wg0 with st := .shadow })] }
    s.headCmd 0 2 = some c ∧ c.engine = 0 ∧ c.opc = 1 ∧ okay (s.engCheck c.issuer [(c.cra, List.replicate 32 0)]) = true ∧ s.suspended c = true := by
  decide

/-- EngineSteps: each engine's commands run; a length of 0 is refused; a group is not valid; a record in the scratchpad. -/
theorem meets_EngineSteps :
    let lo (n : Nat) : Nat := n % 2 ^ 32
    let hi (n : Nat) : Nat := n / 2 ^ 32 % 2 ^ 32
    let own (c : QCmd) : List (Nat × Bool) :=
      let len := c.p % 2 ^ 40
      match c.engine, c.opc with
      | 0, 1 => [(2, c.p / 2 ^ 40 % 2 ^ 24 != 0), (4, len == 0), (6, reachesWindow [(c.a0, len), (c.a1, len)])]
      | 0, 5 => [(4, c.a0 == 0), (6, reachesWindow [(c.a1, c.a0)])]
      | 2, _ => [(6, isAperture c.a1)]
      | 3, 1 => [(4, lo c.p % 4096 != 0), (5, c.a0 % 4096 != 0 || c.a1 % 4096 != 0),
        (6, isAperture c.a1 || reachesWindow [(c.a0, lo c.p)])]
      | 3, 2 => [(4, hi c.p == 0), (5, c.a0 % 128 != 0), (6, reachesWindow [(c.a0, 128 * hi c.p), (c.a1, lo c.p)])]
      | 4, _ => [(4, c.subst != 0)]
      | _, _ => []
    let runs (c : QCmd) (ms : List (Nat × List Nat)) (f : State → QCmd → Eng EngEnd) : Prop :=
      heads (engined c ms) c (own c) ∧ finishes (engined c ms) c (f (engined c ms) c) = true
    runs (engCmd 0 1 0x1800 0x1A00 7) (rows2 false) copyCmd ∧ (engCmd 0 1 0x1800 0x1A00 0).windowBad (own (engCmd 0 1 0x1800 0x1A00 0)) = some 4 ∧
      runs (engCmd 0 2 0x1800 0x1A00 0x1400) (rows2 false) (cmd2D false false) ∧
      runs (engCmd 0 3 0x1800 0x1A00 0x1400) (rows2 true) (cmd2D true false) ∧
      runs (engCmd 0 4 0x1800 0x1A00 0x1400) (rows2 true) (cmd2D false true) ∧
      runs (engCmd 0 5 11 0x1A00 0x1122334455667788) [] fillCmd ∧
      runs (engCmd 1 1 0x1800 0x1A00 0x1400) (convert [0x80, 0x3F, 0xC0, 0xBF]) convresCmd ∧
      runs (engCmd 1 2 0x1800 0x1A00 0x1400) (convert [1, 0, 2, 0, 0, 0, 0, 0, 1, 0, 2]) convbinCmd ∧
      runs (engCmd 2 1 0x1800 0x1A00 0x1400) (decoded jpeg1.length 0 0 jpeg1) decjpegCmd ∧
      runs (engCmd 2 2 0x1800 0x1A00 0x1400) (decoded 5 8 2 [0xC0, 1, 0, 0x10, 1]) decg4Cmd ∧
      runs (engCmd 3 1 0x1000 0x1000 (5 * 2 ^ 32)) [] zcompCmd ∧
      runs (engCmd 3 2 0x1800 0x1A00 (2 ^ 32 + 128)) sector0 zexpCmd ∧
      runs (engCmd 3 3 0x1880 0 9) (rows2 false) zbookCmd ∧
      runs (engCmd 4 1 0x1800 0x1A00 0x1400) [(0x1400, [2, 0, 0, 0, 0, 0, 3])] (nreduceCmd [(0, 4, [1, 2, 3, 4, 5, 6, 7, 8])] 0) ∧
      ((engined (engCmd 3 3 0x1880 0 9) (rows2 false)).genClash 9 = false ∧ (engCmd 3 3 0x1880 0 9).issuer.priv = true) ∧
      (let c := engCmd 4 2 0x1800 0 0x1400
       let s := engined c [(0x1400, [2, 0, 0, 0, 0, 0, 4])]
       heads s c (own c) ∧ (match nmcastCmd 0 s c with | .error (.status 12 1) => True | _ => False)) ∧
      (let c : QCmd := { engCmd 0 1 0 0 0 with ecmd := [0, 0, 0, BitVec.ofNat 64 (apertureBase + 96)] }
       let s := (engined c []).modBank 0 7 fun b => { b with bytes := [⟨95, 4⟩, ⟨100, 4⟩, ⟨128, 7⟩] }
       (s.engPlace c.issuer .engineWrite c.cra 8).toOption = some (.bank 0 7 96) ∧ 96 % 32 = 0 ∧ isAperture c.cra = true ∧ c.accumulates = false ∧
         Memory.wf (s.bank 0 7).bytes = true ∧ (s.engPlace c.issuer .engineWrite (c.cra + 8) 24).toOption = some (.bank 0 7 (96 + 8))) := by
  refine ⟨?_, by decide, ?_, ?_, ?_, ?_, ?_, ?_, ?_, ?_, ?_, ?_, ?_, ?_, ⟨by decide, by decide⟩, ?_, ?_⟩
  all_goals first
    | exact ⟨⟨by decide, by decide, by decide, by decide, by decide, by decide, by decide⟩, by decide⟩
    | exact ⟨⟨by decide, by decide, by decide, by decide, by decide, by decide, by decide⟩, trivial⟩
    | exact ⟨by decide, by decide, by decide, by decide, by decide, by decide⟩
/-! The host, the fabric and contexts -/

/-- An entry of the write-combining buffer that is old enough, and requests to peers and of peers. -/
def entry0 : WcEntry := { tag := 1, peer := 6, line := 64, bytes := [(3, 0xAB)], since := 5, waves := [0, 7] }
def request0 : Remote := { dst := 6, seq := 9, op := .store 0x2000 [], tries := 7, core := 0, tag := 1, by_ := none, waves := [0, 96] }
def linked : State :=
  let s : State := both.modCore 0 fun c => { c with wcb := [{ entry0 with line := 65, since := 900 }, entry0] }
  { s with
    now := 10005, remotes := [{ request0 with seq := 8 }, request0], seqs := [(6, 0xFFFFFFFF)]
    sources := [(4, { next := 30, cache := [(29, [1, 2])] }), (5, { next := 30 })]
    mem := [⟨0x2000, 1⟩, ⟨0x207F, 9⟩, ⟨0x2080, 4⟩], fclock := { base := 1000 }, endpoint := 2, master := some 3 }

theorem plain_of {s : State} {pa n : Nat} (p : (s.memOk && deviceMem pa && decide (0 < n ∧ pa % 128 + n ≤ 128) && s.upsets.isEmpty &&
    !s.poison.contains (pa / 128) && s.watches.all fun e => e.pa / 128 != pa / 128) = true) : s.PlainLine pa n := by
  simp only [Bool.and_eq_true, List.all_eq_true, bne_iff_ne, Bool.not_eq_true', decide_eq_true_eq, List.isEmpty_iff] at p
  obtain ⟨⟨⟨⟨⟨a, b⟩, c⟩, d⟩, e⟩, f⟩ := p
  exact ⟨a, ⟨b, c⟩, ⟨d, e⟩, f⟩

/-- HostAndFabricSteps: the last bytes of a line; bytes at the ends of the gap; a link that is down; an entry that drains and none
that does; a request that is next, one that came before; an offset above and below; a request without and with a reply. -/
theorem meets_HostAndFabricSteps :
    let s := linked
    let d : State := { s with linkUp := false }
    let due (e : WcEntry) : Bool := e.peer == 6 && e.line == 64 && decide (e.since + 10000 ≤ s.now)
    let x (k : Nat) : Source := s.sources.get k {}
    let mine (k : Nat) (r : Remote) : Bool := r.dst == 6 && r.seq == k
    (s.linkUp = true ∧ s.fatal = false ∧ (∀ e ∈ s.ctxs, e.2.fqwait = []) ∧ s.PlainLine 0x207C [1, 2, 3, (4 : Byte)].length) ∧ s.upsets = [] ∧
      (2 ^ 39 - 4 + 4 ≤ 2 ^ 39 ∧ (2 ^ 41 ≤ 2 ^ 42 - 4 ∧ 2 ^ 42 - 4 + 4 ≤ 2 ^ 42) ∧ 2 ^ 39 ≤ 2 ^ 41 - 4 ∧ 2 ^ 41 - 4 + 4 ≤ 2 ^ 41) ∧
      d.linkUp = false ∧
      ((s.core 0).wcb.filter due = [entry0] ∧ s.unacked 6 < 256 ∧ entry0.waves.Nodup ∧
        (both.core 0).wcb.filter due = []) ∧
      ((x 4).cum = none ∧ (x 4).early = [] ∧ (x 4).cache.find? 29 = some [1, 2] ∧ (x 4).cache.find? 30 = none ∧ 30 = (x 4).next ∧
        (x 4).next < 2 ^ 32 ∧ s.PlainLine 0x2078 8 ∧ AT.bytes .s64 = 8) ∧
      (s.remotes.find? (mine 77) = none ∧ s.remotes.find? (mine 9) = some request0 ∧ request0.by_ = none ∧ request0.waves.Nodup ∧
        (∀ w ∈ request0.waves, w < 100000) ∧ request0.tries < 8 ∧ s.parkedOn (· == Park.room) = []) ∧
      s.master ≠ some s.endpoint ∧ s.fsyncs.Pairwise (·.1 < ·.1) ∧ ((1001 : DWord) - s.offset s.now).toNat < 2 ^ 63 ∧ ¬((999 : DWord) - s.offset s.now).toNat < 2 ^ 63 :=
  ⟨⟨by decide, by decide, by decide, plain_of (by decide)⟩, by decide, by decide, by decide, by decide,
    ⟨by decide, by decide, by decide, by decide, by decide, by decide, plain_of (by decide), by decide⟩, by decide, by decide, by decide, by decide, by decide⟩

/-- A descriptor at 0x9000: a root table at 0x30000, a handler, no save slots, a fault queue of 16 entries at 0x40000. -/
def contexts (ctxs : Tab Ctx) (ptroot : Nat) : State :=
  let put (m : Memory) (a n : Nat) : Memory := m.write a (bytesOfWord 8 n)
  { both with
    ctxs := ctxs
    mem := put (put (put (put (put (put [] 0x9000 ptroot) 0x9008 0x5000) 0x9030 0x40000) 0x9038 16) 0x9040 77) 0x9050 1 }

/-- The root region's block at 0x1080 with an anchor of value 6, which the block has as consumed. -/
def rooted : State :=
  { both with mem := [⟨0x2008, 6⟩, ⟨0x2098, 0x08⟩, ⟨0x2099, 0x10⟩, ⟨0x20A8, 0x80⟩, ⟨0x20C8, 6⟩] }

/-- ContextSteps: descriptors that are misplaced, bad and good, with every context in use and with the first free; a context that is
none; a root; a workgroup that runs; a launch that is not admitted. -/
theorem meets_ContextSteps :
    let bad := contexts [] 0x30001
    let full := contexts ((List.range 255).map fun k => (k + 1, { desc := 0 })) 0x30000
    let s := contexts [(1, { desc := 0 }), (3, { desc := 0 })] 0x30000
    let d (s : State) : List Nat := (List.range 16).map fun n => littleEndian s.mem (0x9000 + 8 * n) 8
    let gated : State := { s with mg := { s.mg with power := 2 } }
    let back : State := { s with mg := { s.mg with life := 3 } }
    let z := rooted
    let y := both.modLaunch 0 fun l => { l with st := .posted }
    let k : State := { y with wgs := [] }
    let w := (z.readWords 1 0x1080 16).getD []
    (s.mg.recovery = false ∧ 2 ≤ gated.mg.power ∧ back.mg.life = 3 ∧ s.mg.power < 2 ∧ s.mg.life ≠ 3 ∧ 0x9001 % 128 ≠ 0 ∧
      deviceMem (2 ^ 41 - 128) = false) ∧
      (0x9000 % 128 = 0 ∧ bad.PlainLine (0x9000 + 64) 8 ∧ descBad (d bad) = true) ∧
      (full.PlainLine (0x9000 + 64) 8 ∧ descBad (d full) = false ∧ ∀ k, 0 < k → k < 256 → (full.ctxs.find? k).isSome = true) ∧
      (s.PlainLine (0x9000 + 64) 8 ∧ descBad (d s) = false ∧ s.ctxs.find? 2 = none ∧ ∀ j, 0 < j → j < 2 → (s.ctxs.find? j).isSome = true) ∧
      s.ctxs.find? 2 = none ∧ (both.ctxs.find? 1).isSome = true ∧
      ((z.ctx 1).root ≠ 0x1080 ∧ z.watches ++ z.arming = [] ∧ z.readWords 1 0x1080 16 = some w ∧ 0x1080 % 128 = 0 ∧ rcbBad true w = false ∧
        z.anchorAt 1 (adr w 3) = some 0x2008 ∧ w.getD 9 0 = littleEndian z.mem 0x2008 8 ∧ sliceOf 0x2008 < 64 ∧
        z.tableUsed (sliceOf 0x2008) true < 16 ∧ (0x1080 : Nat) ≠ 0 ∧ z.launchesOf 1 0x1080 = [] ∧ w.getD 7 0 % 256 ≠ 1 ∧ w.getD 8 0 = 0) ∧
      (both.launchAt 1 0x1200 = some 0 ∧ both.wgOf 0 0 = some (0, wg0) ∧ both.wgs.find? 0 = some wg0 ∧ wg0.st = .resident) ∧
      both.launchAt 1 0x1300 = none ∧ 0x1200 ≠ 0 ∧ k.launchAt 1 0x1200 = some 0 ∧
      k.launches.find? 0 = some { launch0 with st := .posted } ∧ ∀ e ∈ k.wgs, e.2.launch ≠ 0 := by
  refine ⟨by decide, ⟨by decide, plain_of (by decide), by decide⟩, ⟨plain_of (by decide), by decide, fun k a b => ?_⟩,
    ⟨plain_of (by decide), by decide, by decide, fun j a b => ?_⟩, by decide, by decide, by decide, by decide, by decide, by decide, by decide,
    by decide, by decide⟩
  · have : ∀ k, k < 256 → 0 < k → ((contexts ((List.range 255).map fun k => (k + 1, { desc := 0 })) 0x30000).ctxs.find? k).isSome = true := by
      decide
    exact this k b a
  · have : ∀ j, j < 2 → 0 < j → ((contexts [(1, { desc := 0 }), (3, { desc := 0 })] 0x30000).ctxs.find? j).isSome = true := by decide
    exact this j b a
/-! Workgroups and power -/

/-- The small machine with its workgroup in a state, and its threads. -/
def grouped (st : WgState) (ths : List Thread) : State :=
  let s : State := machine { wave0 with threads := lanes ths } []
  { s with wgs := [(0, { wg0 with st := st })] }

/-- A record at 0x1200 and a header at 0x1400: one workgroup of 2 threads, 32 registers, 4 tiles, 2 accumulators, a scratchpad
bank and a FIFO. -/
def launchMem : Memory :=
  [⟨0x2209, 0x14⟩, ⟨0x2218, 1⟩, ⟨0x221A, 1⟩, ⟨0x221C, 1⟩, ⟨0x2220, 2⟩, ⟨0x2400, 1⟩, ⟨0x2404, 64⟩, ⟨0x240C, 32⟩, ⟨0x240D, 4⟩, ⟨0x240E, 2⟩,
    ⟨0x240F, 3⟩, ⟨0x2411, 0x10⟩, ⟨0x2414, 1⟩, ⟨0x2415, 1⟩, ⟨0x2416, 1⟩, ⟨0x2417, 1⟩, ⟨0x2418, 1⟩]

/-- The small machine with a launch in its region's queue and none of its workgroups admitted. -/
def posted : State :=
  let s : State := both.modCtx 1 fun c => { c with root := 0x1100, regions := [(0x1100, { anchor := 0x1008, enable := true, st := 1, queue := [0] })] }
  let s : State := { s with waves := [], wgs := [], parts := [], cores := [], launches := [], now := 40, mem := launchMem }
  { s with launches := [(0, (s.checkRecord 1 0x1100 0x1200 (s.readWords 1 0x1200 8)).2)] }

theorem keyed_of {s : State} (p : ((s.waves.all fun e => s.waves.find? e.1 == some e.2) && (s.wgs.all fun e => s.wgs.find? e.1 == some e.2) &&
    s.launches.all fun e => s.launches.find? e.1 == some e.2) = true) : s.Keyed := by
  simp only [Bool.and_eq_true, List.all_eq_true, beq_iff_eq] at p
  exact ⟨p.1.1, p.1.2, p.2⟩

theorem still_of {s : State} (p : (s.remotes.isEmpty && (s.cores.all fun e => e.2.wcb.isEmpty && e.2.qhold.isEmpty && e.2.queues.all fun q => q.2.isEmpty) &&
    (s.parts.all fun e => e.2.tileQ.isEmpty) && s.watches.isEmpty && s.arming.isEmpty && s.upsets.isEmpty && s.poison.isEmpty) = true) : s.Still := by
  simp only [Bool.and_eq_true, List.all_eq_true, List.isEmpty_iff] at p
  obtain ⟨⟨⟨⟨⟨⟨a, b⟩, c⟩, d⟩, e⟩, f⟩, g⟩ := p
  exact ⟨⟨a, fun e m => ⟨(b e m).1.1, (b e m).1.2, (b e m).2⟩⟩, c, ⟨d, e⟩, f, g⟩

/-- WorkgroupSteps: one state for each step. -/
theorem meets_WorkgroupSteps :
    let ready : List Thread := [th, th]
    let halted : List Thread := [{ th with st := .halted }, { th with st := .halted }]
    let quiet (s : State) : Prop := s.Keyed ∧ s.Still ∧ (s.launch 0).hdr.determ = false ∧ (∀ e ∈ s.waves, e.2.wg = 0 → e.2.launch = 0) ∧
      (∀ e ∈ s.waves, e.2.draining = false ∧ ∀ th ∈ e.2.threads, th.st = .exited ∨ (th.st = .ready ∧ th.trapQ = none ∧ th.pend = none)) ∧
      (s.ctx (s.launch 0).tag).regions.find? (s.launch 0).rcb = none
    let G (st : WgState) : Wg := { wg0 with st := st }
    let h := (grouped (.halting 5) ready).modCore 0 fun c => { c with cyc := 5 }
    let q := { h with wgs := [(0, { G (.halting 5) with copies := [(0, 0)] })] }
    let v := grouped (.saving 2) halted
    let d := (grouped .resident []).modWave 0 fun w => { w with draining := true }
    let f := { grouped .resident [] with wgs := [(0, { wg0 with gone := [0] })] }
    let c := grouped .finished []
    let idle : State := { posted with mg := { posted.mg with emergency := true } }
    let K := posted.launch 0
    (h.Keyed ∧ h.Still ∧ h.wgs.find? 0 = some (G (.halting 5)) ∧ (G (.halting 5)).needBanks = false ∧
      (∀ p ∈ (G (.halting 5)).pids, (h.part p).shadow = none) ∧
      (∀ e ∈ h.waves, e.2.wg = 0 → e.2.sessions = [] ∧ (h.alloc (pidOf e.1) 0).sessions = []) ∧
      (∀ u ∈ h.threadsOf 0, (h.thread u).st = .ready ∧ (h.thread u).windows = [] ∧ (h.thread u).block = none) ∧
      (G (.halting 5)).pids ≠ [] ∧ (G (.halting 5)).copies = [] ∧ (G (.halting 5)).copied = [] ∧
      (∀ e ∈ h.waves, e.2.wg = 0 → e.2.lastIssue + 5 ≤ (h.core (coreOf e.1)).cyc.toNat) ∧
      (q.Keyed ∧ q.Still ∧ q.wgs.find? 0 = some { G (.halting 5) with copies := [(0, 0)] } ∧ (G (.halting 5)).pids.Nodup ∧
        (G (.halting 5)).image = [] ∧ [((0 : Nat), (0 : Nat))].map (·.1) = (G (.halting 5)).pids ∧ (∀ c ∈ [((0 : Nat), (0 : Nat))], c.2 ≤ q.now) ∧
        ∀ e ∈ q.waves, e.2.wg = 0 → pidOf e.1 ∈ (G (.halting 5)).pids)) ∧
      (both.Keyed ∧ both.Still ∧ both.wgs.find? 0 = some wg0 ∧ (∀ since, wg0.st ≠ .halting since) ∧ wg0.st ≠ .debugged) ∧
      (v.Keyed ∧ v.Still ∧ v.wgs.find? 0 = some (G (.saving 2)) ∧ (∀ u ∈ v.threadsOf 0, (v.thread u).st = .halted) ∧ (G (.saving 2)).imgCmds = []) ∧
      (quiet (grouped .reloading ready) ∧ (G .reloading).imgTiles = []) ∧
      (quiet (grouped (.restoring 2) ready) ∧ (grouped (.restoring 2) ready).placesOf 0 ≠ [] ∧ (G (.restoring 2)).image = [] ∧
        (G (.restoring 2)).imgCmds = []) ∧
      (d.Keyed ∧ d.Still ∧ (d.waves.find? 0).isSome = true ∧ (d.wave 0).wg = 0 ∧ (d.wave 0).draining = true ∧ (∀ th ∈ (d.wave 0).threads, th.st = .exited) ∧ (d.wave 0).acks = 0 ∧
        (d.wave 0).launch = wg0.launch) ∧
      (both.wave 0).draining = false ∧
      (f.Keyed ∧ f.Still ∧ f.wgs.find? 0 = some { wg0 with gone := [0] } ∧ [(0 : Nat)].length = (f.launch wg0.launch).wpw) ∧
      (c.Keyed ∧ c.Still ∧ c.wgs.find? 0 = some (G .finished) ∧ (G .finished).closed = false ∧ ∀ e ∈ c.wgs, e.2.imgCmds = []) ∧
      (idle.Keyed ∧ idle.Still ∧ idle.mg.emergency = true ∧ both.nextOnes = []) ∧
      posted.Keyed ∧ posted.Still ∧ posted.mg.emergency = false ∧ posted.fatal = false ∧ posted.mg.power < 2 ∧
        (∃ k, posted.nextOnes = [(k, .fresh 0)]) ∧ (posted.launches.find? 0).isSome = true ∧ 0 < K.np ∧ K.admitted = 0 ∧
        posted.checkRecord K.tag K.rcb K.record (posted.readWords K.tag K.record 8) = (0, { K with since := posted.now }) ∧
        K.hdr.determ = false ∧ posted.pathFits K K.members (posted.needs K) = true ∧
        posted.coresFor K K.members (List.range 18) = some [(0, [0])] := by
  refine ⟨⟨keyed_of (by decide), still_of (by decide), by decide, by decide, by decide, by decide, by decide, by decide, by decide, by decide,
      by decide, keyed_of (by decide), still_of (by decide), by decide⟩,
    ⟨keyed_of (by decide), still_of (by decide), by decide, fun _ => by simp [wg0], by decide⟩,
    ⟨keyed_of (by decide), still_of (by decide), by decide, by decide, by decide⟩,
    ⟨⟨keyed_of (by decide), still_of (by decide), by decide, by decide, by decide, by decide⟩, by decide⟩,
    ⟨⟨keyed_of (by decide), still_of (by decide), by decide, by decide, by decide, by decide⟩, by decide, by decide, by decide⟩,
    ⟨keyed_of (by decide), still_of (by decide), by decide, by decide, by decide, by decide, by decide⟩, by decide,
    ⟨keyed_of (by decide), still_of (by decide), by decide, by decide⟩,
    ⟨keyed_of (by decide), still_of (by decide), by decide, by decide⟩,
    ⟨keyed_of (by decide), still_of (by decide), by decide, by decide⟩,
    keyed_of (by decide), still_of (by decide), by decide, by decide, by decide, ⟨(posted.nextOnes.head!).1, by decide⟩, by decide, by decide,
    by decide, by decide, by decide, by decide, by decide⟩

/-- PowerSteps: a group with and without a workgroup, one that slews and one that does not; a measurement; an emergency and none,
with and without a context to kill; readings; no loss; a frozen record and one that is not; a device that may idle. -/
theorem meets_PowerSteps :
    let busy (s : State) (group : Nat) : Prop :=
      (s.groups.get group {}).st = 1 ∨ (∃ e ∈ s.wgs, e.2.core / 8 = group ∧ (e.2.holds = true ∨ e.2.st = .shadow ∨ e.2.banks ≠ [])) ∨
        ∃ x ∈ s.reserved, x.2.1 / 8 = group
    let slew : State := { both with groups := [(3, { st := 1 })] }
    let e : State := { both with mg := { both.mg with emergency := true } }
    let z : State := { both with bbr := { both.bbr with frozen := true } }
    let cold (s : State) : Prop := s.mg.power = 0 ∧ s.fatal = false ∧ (∀ e ∈ s.wgs, e.2.holds = false ∧ e.2.st ≠ .shadow) ∧
      ∀ c ∈ s.cores, ∀ q ∈ c.2.queues, q.2 = []
    let n : State := { both with now := 400000 }
    ({ both with now := 400001 } : State).now % 200000 ≠ 0 ∧ (n.now % 200000 = 0 ∧ n.wgs.find? 0 = some wg0 ∧ wg0.di < 1) ∧
    ((both.therms.get 4 {}).next ≤ both.now ∧ ({ both with therms := [(4, { next := both.now + 1 })] } : State).now < both.now + 1) ∧
    both.upsets = [] ∧ busy both 0 ∧ ¬busy both 3 ∧ (both.groups.get 3 {}).st ≠ 1 ∧ (slew.groups.get 3 {}).st = 1 ∧
      (both.wgs.find? 0 = some wg0 ∧ wg0.over = false ∧ wg0.overuse < 2) ∧
      e.mg.emergency = true ∧ both.mg.emergency = false ∧ both.powerTarget = some 1 ∧ posted.powerTarget = none ∧
      (both.launches.find? 0 = some launch0 ∧ launch0.tag = 1 ∧ launch0.st = .admitted) ∧
      ((919 : Int) < 8 * (both.mg.tcrit : Int)) ∧ both.losses = [] ∧ z.bbr.frozen = true ∧ both.bbr.frozen = false ∧
      (both.mg.power = 0 ∨ both.fatal = true) ∧ ({ both with fatal := true } : State).fatal = true ∧ cold posted := by
  refine ⟨by decide, by decide, by decide, by decide, .inr (.inl ⟨(0, wg0), by decide, by decide⟩), ?_, by decide, by decide, by decide, by decide, by decide, by decide, by decide,
    by decide, by decide, by decide, by decide, by decide, by decide, by decide, by decide⟩
  rintro (h | ⟨e, m, h, -⟩ | ⟨x, m, -⟩)
  · exact absurd h (by decide)
  · rw [show both.wgs = [(0, wg0)] from rfl] at m
    rw [List.mem_singleton.1 m] at h
    exact absurd h (by decide)
  · rw [show both.reserved = [] by decide] at m
    exact absurd m (by simp)

/-! The Dusia port -/

/-- A device that has an identity key and an owner, and a nonce that the last CHALLENGE gave. -/
def keyed : State :=
  { both with
    now := 4242, mg := { both.mg with ident := true, owner := [9], life := 1, nonce := some (List.replicate 32 7), prev := some (5, 0x81, [0, 1]) }
    bbr := { ring := [(0, ⟨4, 1, 0, 5, 0, [1, 2]⟩), (1, ⟨9, 2, 0, 5, 0, []⟩)], wptr := 2, events := 2 } }

theorem hears_of {s : State} {seq : Nat} (p : (!s.fatal && decide (s.mg.power ≠ 3 ∧ s.mg.recovery = false) &&
    s.mg.run.isNone && s.mg.prev.all fun x => x.1 != seq) = true) : s.Hears seq := by
  simp only [Bool.and_eq_true, Bool.not_eq_true', decide_eq_true_eq, Option.all_eq_true, bne_iff_ne, Option.isNone_iff_eq_none] at p
  exact ⟨⟨p.1.1.1, p.1.1.2⟩, p.1.2, fun q c bs h => p.2 _ h⟩

/-- DusiaReports: a device that is fatal, a frame that comes again, and the reports in each debug mode, with a workgroup that is
halted for the debugger and without. -/
theorem meets_DusiaReports :
    let f : State := { keyed with fatal := true }
    let b : State := { keyed with mg := { keyed.mg with ident := false } }
    let x : State := { keyed with mg := { keyed.mg with exp := [1, 2, 3] } }
    let o : State := { keyed with debug := 1 }
    let h : State := { keyed with debug := 2 }
    let g : State := { grouped .debugged [{ th with st := .halted }, { th with st := .halted }] with debug := 2 }
    let G : Wg := { wg0 with st := .debugged }
    let r (t : Nat) : State := { keyed with mg := { keyed.mg with run := some (t, 0x81, 4, [0]) } }
    ((r 4243).mg.run = some (4243, 0x81, 4, [0]) ∧ (r 4243).now < 4243 ∧ (r 4242).mg.run = some (4242, 0x81, 4, [0]) ∧ 4242 ≤ (r 4242).now) ∧
    (f.fatal = true ∧ keyed.fatal = false ∧ keyed.mg.run = none ∧ keyed.mg.power ≠ 3 ∧ keyed.mg.recovery = false ∧ keyed.mg.prev = some (5, 0x81, [0, 1])) ∧
      keyed.Hears 6 ∧ b.Hears 6 ∧ x.Hears 6 ∧ [(4 : Byte)] ≠ [] ∧ 4095 < 2 ^ 32 ∧ (List.replicate 32 (7 : Byte)).length = 32 ∧
      b.mg.ident = false ∧ keyed.mg.ident = true ∧ keyed.bbr.stored = none ∧ 1 < (2 : Byte).toNat ∧ keyed.mg.exp = [] ∧ x.mg.exp ≠ [] ∧
      (keyed.debug = 0 ∧ 143 < 144 ∧ 3 < 4 ∧ 23 < 24 ∧ 31 < 32 ∧ 254 < 255) ∧ (o.Hears 6 ∧ o.debug = 1) ∧
      (h.Hears 6 ∧ h.debug = 2 ∧ ¬((h.wg (h.wave 0).wg).st = .debugged ∧ (h.waves.find? 0).isSome = true)) ∧
      (g.Hears 6 ∧ g.debug = 2 ∧ (g.wg (g.wave 0).wg).st = .debugged ∧ (g.waves.find? 0).isSome = true ∧ (g.wave 0).shape 3 = .general ∧
        (g.thread u0).hand = none) ∧
      (∀ e ∈ keyed.wgs, e.2.st ≠ .debugged) ∧
      g.Keyed ∧ g.Still ∧ (∀ e ∈ g.wgs, e.2.st = .debugged ↔ e.1 = 0) ∧ g.wgs.find? 0 = some G ∧ (g.launch G.launch).hdr.determ = false ∧
        (∀ e ∈ g.waves, e.2.wg = 0 → e.2.launch = G.launch) ∧
        (∀ e ∈ g.waves, e.2.draining = false ∧ ∀ th ∈ e.2.threads, th.st = .exited ∨ (th.st = .halted ∧ th.trapQ = none ∧ th.pend = none)) ∧
        (g.ctx (g.launch G.launch).tag).regions.find? (g.launch G.launch).rcb = none ∧ g.threadsOf 0 = [u0, u1] ∧ g.seated u0 = true :=
  ⟨by decide, by decide, hears_of (by decide), hears_of (by decide), hears_of (by decide), by decide, by decide, by decide, by decide, by decide,
    by decide, by decide, by decide, by decide, by decide, ⟨hears_of (by decide), by decide⟩, ⟨hears_of (by decide), by decide, by decide⟩,
    ⟨hears_of (by decide), by decide, by decide, by decide, by decide, by decide⟩, by decide, keyed_of (by decide), still_of (by decide),
    by decide, by decide, by decide, by decide, by decide, by decide, by decide, by decide⟩

/-- DusiaCommands: each lifecycle state, power states, a map-out that is there and one that is not, and sound and unsound
thresholds and budgets. -/
theorem meets_DusiaCommands :
    let life (n : Nat) : State := { keyed with mg := { keyed.mg with life := n } }
    let gated : State := { keyed with mg := { keyed.mg with power := 2 } }
    let sum (gs : Tab Group) (f : Group → Nat) : Nat := gs.foldl (fun n x => n + f x.2) 0
    let groups (g e i : Nat) : Tab Group := keyed.groups.put g { keyed.groups.get g {} with ebud := e, ibud := i }
    keyed.Hears 6 ∧ keyed.mg.nonce = some (List.replicate 32 7) ∧ (List.replicate 4627 (0 : Byte)).length = 4627 ∧
      (List.replicate 4626 (0 : Byte)).length < 4627 ∧
      (∀ n, n < 4 → (life n).Hears 6 ∧ (life n).mg.nonce = some (List.replicate 32 7) ∧ (life n).mg.life = n ∧ (life n).mg.moves = none) ∧
      ((0 : Byte).toNat < 3 ∧ (1 : Byte).toNat < 3 ∧ (2 : Byte).toNat < 3) ∧ (keyed.mg.power = 0 ∧ keyed.mg.power ≠ 2 ∧ keyed.ctxs ≠ []) ∧
      gated.Hears 6 ∧ (17 < 256 ∧ 0 < 2 ^ 32) ∧ sum (groups 17 0 0) (·.ebud) ≤ Config.energyLimit ∧
      sum (groups 17 0 0) (·.ibud) ≤ Config.currentLimit ∧ (18 < 256 ∧ ¬18 < 18) ∧
      (12 ≤ (12 : Byte).toNat ∧ (11 : Byte).toNat < 12 ∧ keyed.mapNext.getLsbD 11 = false ∧ ({ keyed with mapNext := 0x800 } : State).mapNext.getLsbD 11 = true) ∧
      ¬((115 : Byte).toNat ≤ (95 : Byte).toNat ∨ 125 < (115 : Byte).toNat) ∧ 125 < (126 : Byte).toNat ∧
      (3 < 4 ∧ [(1 : Byte)].length ≤ 2 ^ 26) := by
  refine ⟨hears_of (by decide), by decide, List.length_replicate, by rw [List.length_replicate]; decide, fun n a => ?_, by decide, by decide,
    hears_of (by decide), by decide, Nat.zero_le _, Nat.zero_le _, by decide, by decide, by decide, by decide, by decide⟩
  exact ⟨hears_of (by rfl), rfl, rfl, rfl⟩
/-! The machine -/

/-- The small machine about to issue its bundle: the word of IADDI v10, v10, 1 at the bundle's address. -/
def issuing : State :=
  { both with
    todo := [.issue 0 0 0, .event .admission]
    mem := [⟨0x3000, 0x01⟩, ⟨0x3004, 0x05⟩, ⟨0x3005, 0x05⟩, ⟨0x3006, 0x80⟩, ⟨0x3007, 0x01⟩] }

/-- The small machine about to issue a QFENCE of queue 0, which is full. -/
def crowded : State :=
  { (issuing.setQueue 0 0 (List.replicate 64 (.fence 1 0))) with mem := [⟨0x3000, 0x01⟩, ⟨0x3007, 0x45⟩] }

/-- StepRunsInstruction: a bundle that issues, one whose queue has no room, an event, an event that is due, a core's boundary, and nothing to do. -/
theorem meets_StepRunsInstruction :
    let s := issuing
    let b := (s.part 0).bins.get 0 {}
    let w := 0x0180050500000001
    let d : State := State.reset
    let c : State := { agenda := [⟨1, .admission⟩] }
    let f : State := { fatal := true }
    let q := crowded
    (s.todo = .issue 0 0 0 :: [.event .admission] ∧ b.threads ≠ [] ∧ (∀ u ∈ b.threads, u.core = 0 ∧ (s.thread u).pc = b.key ∧
        (∃ pte, s.xlat (some 0) (s.wave u.w).tag (s.privileged u) .fetch b.key.toNat = .ok 0x3000 pte) ∧
        ((s.core 0).icache.find? fun e => e.1 == (s.wave u.w).tag && e.2.1 == b.key.toNat) = none ∧
        (decodeWord (s.counts u) w).toOption = some (.iaddImm h 10 10 1) ∧
        ((.iaddImm h 10 10 1 : Instr).privReg? = none ∨ s.privileged u = true) ∧
        (s.thread u).windows = [] ∧ (s.thread u).trapQ = none ∧ (s.wave u.w).tileFault = none) ∧
      s.lineBad (0x3000 / 128) = false ∧ littleEndian s.mem 0x3000 8 = w) ∧
      ({ s with todo := [.event .admission] }.withBundle 0 0 0).roomFor (.iaddImm h 10 10 1) = true ∧
      (q.todo = .issue 0 0 0 :: [.event .admission] ∧ ((q.part 0).bins.get 0 {}).threads = b.threads ∧
        (∀ u ∈ b.threads, u.core = 0 ∧ (q.thread u).pc = b.key ∧
          (∃ pte, q.xlat (some 0) (q.wave u.w).tag (q.privileged u) .fetch b.key.toNat = .ok 0x3000 pte) ∧
          ((q.core 0).icache.find? fun e => e.1 == (q.wave u.w).tag && e.2.1 == b.key.toNat) = none ∧
          (decodeWord (q.counts u) 0x4500000000000001).toOption = some (.qfence h 1) ∧
          (q.thread u).windows = [] ∧ (q.thread u).trapQ = none ∧ (q.wave u.w).tileFault = none) ∧
        q.lineBad (0x3000 / 128) = false ∧ littleEndian q.mem 0x3000 8 = 0x4500000000000001 ∧
        ({ q with todo := [.event .admission] }.withBundle 0 0 0).roomFor (.qfence h 1) = false) ∧
      { s with todo := [.event .admission] }.todo = .event .admission :: [] ∧
      (d.todo = [] ∧ d.agenda = ⟨0, .coldReset⟩ :: [] ∧ ∀ c t, c < Config.cores → d.boundary c = some t → 0 ≤ t) ∧
      (c.todo = [] ∧ 0 < Config.cores ∧ c.boundary 0 = some 0 ∧ (∀ d ∈ c.agenda.head?, 0 < d.time) ∧
        ∀ e u, e < Config.cores → c.boundary e = some u → 0 < u ∨ (0 = u ∧ 0 ≤ e)) ∧
      (f.todo = [] ∧ f.agenda = [] ∧ ∀ c, c < Config.cores → f.boundary c = none) := by
  refine ⟨⟨by decide, by decide, ?_, by decide, by decide⟩, by decide, ⟨by decide, by decide, ?_, by decide, by decide, by decide⟩, by decide,
    ⟨by decide, by decide, fun _ _ _ _ => Nat.zero_le _⟩, ⟨by decide, by decide, by decide, by decide, fun e u _ _ => by omega⟩, by decide,
    by decide, fun _ _ => rfl⟩
  · intro u m
    have e : u = u0 ∨ u = u1 := by simpa [issuing, both, machine, State.part, Tab.get, Tab.find?, u0, u1] using m
    rcases e with rfl | rfl
    · exact ⟨by decide, by decide, ⟨0x30C7, by decide⟩, by decide, by decide, by decide, by decide, by decide, by decide⟩
    · exact ⟨by decide, by decide, ⟨0x30C7, by decide⟩, by decide, by decide, by decide, by decide, by decide, by decide⟩
  · intro u m
    have e : u = u0 ∨ u = u1 := by simpa [issuing, both, machine, State.part, Tab.get, Tab.find?, u0, u1] using m
    rcases e with rfl | rfl
    · exact ⟨by decide, by decide, ⟨0x30C7, by decide⟩, by decide, by decide, by decide, by decide, by decide⟩
    · exact ⟨by decide, by decide, ⟨0x30C7, by decide⟩, by decide, by decide, by decide, by decide, by decide⟩

/-- DecodeEncode: instructions with every field at an end of its range. -/
theorem meets_DecodeEncode : (Instr.iaddImm ⟨true, 7, 0⟩ 255 255 (-(2 ^ 30))).wf Counts.max = true ∧
    (Instr.movi ⟨false, 0, 0⟩ 0 (2 ^ 30 - 1)).wf Counts.max = true := by decide

/-- EncodeDecode: a word below 2^64 that decodes. -/
theorem meets_EncodeDecode : 0x0180068680000001 < 2 ^ 64 ∧ (decodeWord Counts.max 0x0180068680000001).toOption = some (.iaddImm h 13 13 1) := by
  decide

/-- MemoryInvariant: a state whose memory has the canonical form, and whose step answers a next state. -/
theorem meets_MemoryInvariant : issuing.memOk = true ∧ (match step issuing with | .next t => t.memOk | _ => false) = true := by decide
end Sys2Proof.Tests
end

section
/-!
PROOF. The tile instructions that a bundle performs once, and TCFG: into tile order, or a trap of every thread that takes it.
-/
namespace Sys2Proof.Machine

/-! The lowest active lane -/

/-- The least thread of some threads comes first in lane order. -/
theorem laneOrder_eq_cons {l : TId} {us : List TId} (hm : l ∈ us)
    (hmin : ∀ u ∈ us, u ≠ l → l.lane < u.lane ∨ (l.lane = u.lane ∧ l.w < u.w)) : ∃ ts, laneOrder us = l :: ts := by
  induction us with
  | nil => simp at hm
  | cons a us ih =>
    have hcons : laneOrder (a :: us) = insertLane a (laneOrder us) := rfl
    by_cases ha : a = l
    · subst ha
      cases hx : laneOrder us with
      | nil => exact ⟨[], by rw [hcons, hx, insertLane]⟩
      | cons x xs =>
        have hxu : x ∈ a :: us := List.mem_cons_of_mem _ (mem_laneOrder.1 (hx ▸ List.mem_cons_self ..))
        rw [hcons, hx, insertLane]
        split
        · exact ⟨_, rfl⟩
        · rename_i hlt
          by_cases hxa : x = a
          · exact ⟨_, by rw [hxa]⟩
          · exact absurd (hmin x hxu hxa) (by simpa using hlt)
    · have hlu : l ∈ us := (List.mem_cons.1 hm).resolve_left fun h => ha h.symm
      obtain ⟨ts, hts⟩ := ih hlu fun u hu => hmin u (List.mem_cons_of_mem _ hu)
      have hal := hmin a (List.mem_cons_self ..) ha
      have hnot : (decide (a.lane < l.lane) || (a.lane == l.lane && decide (a.w < l.w))) = false := by
        simp only [Bool.or_eq_false_iff, decide_eq_false_iff_not, Bool.and_eq_false_iff, beq_eq_false_iff_ne]
        omega
      exact ⟨insertLane a ts, by rw [hcons, hts, insertLane, hnot]; rfl⟩

theorem State.Lowest.laneOrder_eq {s : State} {h : Hd} {l : TId} (hl : s.Lowest h l) : ∃ ts, laneOrder (s.active h) = l :: ts :=
  laneOrder_eq_cons hl.1 hl.2

/-! Traps of a whole bundle -/

/-- Every thread of the bundle is active under p0. -/
theorem State.active_unguarded (s : State) : s.active ⟨false, 0, 0⟩ = s.cur.threads :=
  List.filter_eq_self.2 fun _ _ => rfl

/-- A bundle whose threads have changed by themselves, and taken traps, is filed. -/
theorem State.fileBin_files {s y : State} (hb : s.Bundled) (hy : s.OnlyTraps y)
    (ho : ∀ u, u ∉ s.cur.threads → y.thread u = s.thread u) :
    s.Ran (y.fileBin s.pid s.cur.bin) ∧ s.Files (y.fileBin s.pid s.cur.bin) ∧
      y.OnlyBins (y.fileBin s.pid s.cur.bin) s.pid := by
  have hpart : ∀ p, y.part p = s.part p := fun p => by rw [hy.rest]; rfl
  have hbin : ((y.part s.pid).bins.get s.cur.bin {}).threads = s.cur.threads := by rw [hpart]; exact hb.bin
  have hseat : ∀ u, y.seated u = s.seated u := fun u => by
    have hp := hy.present u
    simp only [State.present] at hp
    simp only [State.seated, hp]
  have hon := State.onlyBins_fileBin (s := y) (pid := s.pid) (bin := s.cur.bin) fun u hu => hb.here u (hbin ▸ hu)
  obtain ⟨hbins, hfilings⟩ := State.fileBin_spec hbin (fun u hu => by rw [hseat]; exact hb.seated u hu) hb.here
  have hwave : ∀ w, (y.fileBin s.pid s.cur.bin).wave w = y.wave w := fun w => by rw [hon.rest]; rfl
  have hhalt : ∀ u : TId, (y.wave u.w).halted = (s.wave u.w).halted := fun u => by rw [hy.waves]
  have hcore : ∀ u : TId, y.core u.core = s.core u.core := fun u => by rw [hy.rest]; rfl
  refine ⟨⟨by rw [hon.rest, hy.rest], fun w => by rw [hwave, hy.waves], fun u hu => ?_,
    fun p hp => by rw [hon.parts p hp, hpart], by rw [hon.here, hpart]⟩, ⟨by rw [hbins, hpart], ?_⟩, hon⟩
  · rw [← ho u hu, State.thread, hwave, State.thread]
  · rw [hfilings, hpart]
    simp only [hhalt, hcore]

/-- In `z`, which differs from `s` in the bundle's threads alone, the active threads have the trap `tr` to take, and the others
have gone on. `State.raise_traps` speaks of raises in the bundle's order after the issue; the tile instructions raise in lane order,
and for check 9 of R59 before the issue. -/
structure State.Raised (s z : State) (h : Hd) (tr : Trap) : Prop where
  only : s.OnlyThreads z
  out  : ∀ u, u ∉ s.cur.threads → z.thread u = s.thread u
  idle : ∀ u ∈ s.cur.threads, u ∉ s.active h → z.thread u = (s.thread u).stepped s.cur.pc
  act  : ∀ u ∈ s.active h, ∃ pc c, z.thread u =
    { s.thread u with pc := pc, counted := c, trapQ := some ⟨tr, tr.code.tpc s.cur.pc, (s.thread u).llSeq⟩ }

/-- The threads `l`, the active ones, raise a trap in a state that differs from `s` in the issue at most. -/
theorem State.raised_foldl {s s1 : State} {h : Hd} {l : List TId} (tr : Trap) (hb : s.Bundled) (ht : s.CanTrap h)
    (hn : l.Nodup) (hl : ∀ u, u ∈ l ↔ u ∈ s.active h) (h1 : s.OnlyThreads s1)
    (hout : ∀ u, u ∉ s.cur.threads → s1.thread u = s.thread u)
    (hidle : ∀ u ∈ s.cur.threads, u ∉ s.active h → s1.thread u = (s.thread u).stepped s.cur.pc)
    (hact : ∀ u ∈ s.active h, ∃ pc c, s1.thread u = { s.thread u with pc := pc, counted := c }) :
    s.Raised (l.foldl (fun z u => z.raise u tr s.cur.pc) s1) h tr := by
  have hfold := State.thread_foldl_modThread l hn (fun _ th => th.addTrap ⟨tr, tr.code.tpc s.cur.pc, th.llSeq⟩) s1
  have hsame : ∀ v, v ∉ s.active h → (l.foldl (fun z u => z.raise u tr s.cur.pc) s1).thread v = s1.thread v := fun v hv =>
    (hfold v).trans (if_neg fun hx => hv ((hl v).1 hx.1))
  refine ⟨h1.trans (State.onlyThreads_foldl _ (fun s _ => s.onlyThreads_modThread ..) _ _),
    fun u hu => (hsame u fun hx => hu (State.active_sub hx)).trans (hout u hu),
    fun u hu hna => (hsame u hna).trans (hidle u hu hna), fun u hu => ?_⟩
  obtain ⟨pc, c, hc⟩ := hact u hu
  obtain ⟨-, -, hwindows⟩ := ht u hu
  have hp : s1.present u = true := (h1.present u).trans (State.present_of_seated (hb.seated u (State.active_sub hu)))
  refine ⟨pc, c, (hfold u).trans ?_⟩
  rw [if_pos ⟨(hl u).2 hu, hp⟩, hc]
  simp only [Thread.addTrap, Thread.close, hb.clear u (State.active_sub hu), hwindows, List.map_nil]

/-- The bundle's threads with a trap to take are the active ones. -/
theorem State.Raised.trapped_eq {s z : State} {h : Hd} {tr : Trap} (hz : s.Raised z h tr) (hb : s.Bundled) :
    s.cur.threads.filter (fun u => (z.thread u).trapQ.isSome) = s.active h := by
  refine List.filter_congr fun u hu => ?_
  by_cases ha : u ∈ s.active h
  · obtain ⟨pc, c, hc⟩ := hz.act u ha
    rw [hc, (List.mem_filter.1 ha).2]
    rfl
  · have hg : ¬ (s.thread u).guard h = true := fun hg => ha (List.mem_filter.2 ⟨hu, hg⟩)
    rw [hz.idle u hu ha, Bool.eq_false_iff.2 hg]
    simp [Thread.stepped, hb.clear u hu]

/-- They take it at once, and the bundle is filed. -/
theorem State.Raised.settle_eq {s z : State} {h : Hd} {tr : Trap} (hz : s.Raised z h tr) (hb : s.Bundled) (ht : s.CanTrap h)
    (hne : s.active h ≠ []) (half : Bool) :
    z.settle half = ((s.active h).foldl (fun z u => z.enterDue u) z).fileBin s.pid s.cur.bin := by
  have hcur : z.cur = s.cur := by rw [hz.only.rest]
  have hpid : s.cur.core * 4 + s.cur.part = s.pid := rfl
  have hbin : ((z.part s.pid).bins.get s.cur.bin {}).threads = s.cur.threads := by
    rw [show z.part s.pid = s.part s.pid by rw [hz.only.rest]; rfl]
    exact hb.bin
  have hany : (s.cur.threads.any fun u => (z.thread u).trapQ.isSome) = true := by
    obtain ⟨a, ha⟩ := List.exists_mem_of_ne_nil _ (hz.trapped_eq hb ▸ hne)
    exact List.any_eq_true.2 ⟨a, (List.mem_filter.1 ha).1, (List.mem_filter.1 ha).2⟩
  have hall : ((s.active h).all fun u => (z.thread u).windows.isEmpty) = true := List.all_eq_true.2 fun u hu => by
    obtain ⟨pc, c, hc⟩ := hz.act u hu
    obtain ⟨-, -, hwindows⟩ := ht u hu
    simp [hc, hwindows]
  simp only [State.settle, hcur, hpid, hbin, hany, if_true, State.settleTraps, hz.trapped_eq hb, hall]

/-- A bundle whose active threads have raised a trap, once it settles. -/
theorem State.Raised.traps {s z : State} {h : Hd} {tr : Trap} (hz : s.Raised z h tr) (hb : s.Bundled) (ht : s.CanTrap h)
    (hne : s.active h ≠ []) (half : Bool) : Traps s h (.next (z.settle half)) fun _ => tr := by
  have hctx : ∀ u, z.ctxOf u = s.ctxOf u := fun u => by
    simp only [State.ctxOf]
    rw [hz.only.waves, hz.only.rest]
    rfl
  rw [hz.settle_eq hb ht hne half]
  obtain ⟨hy, hstay, hin⟩ := State.enterDue_foldl (s.active h) (hb.nodup.sublist List.filter_sublist) z fun u hu => by
    obtain ⟨pc, c, hc⟩ := hz.act u hu
    obtain ⟨hhandler, hhand, hwindows⟩ := ht u hu
    rw [hz.only.present, hctx, hc]
    exact ⟨State.present_of_seated (hb.seated u (State.active_sub hu)), ⟨_, rfl⟩, hwindows, hhand, hhandler⟩
  generalize (s.active h).foldl (fun z u => z.enterDue u) z = y at hy hstay hin ⊢
  have hsy : s.OnlyTraps y := hz.only.traps.trans hy
  obtain ⟨hran, hfiles, hon⟩ := State.fileBin_files hb hsy fun u hu =>
    (hstay u fun hx => hu (State.active_sub hx)).trans (hz.out u hu)
  have hwave : ∀ w, (y.fileBin s.pid s.cur.bin).wave w = y.wave w := fun w => by rw [hon.rest]; rfl
  have hthread : ∀ u, (y.fileBin s.pid s.cur.bin).thread u = y.thread u := fun u => by rw [State.thread, hwave, State.thread]
  refine ⟨_, rfl, hran, by rw [hon.rest, hsy.rest], by rw [hon.rest, hsy.rest], fun w => by rw [hwave, hsy.waves], hfiles,
    fun u hu => ?_, fun u hu hna => by rw [hthread, hstay u hna, hz.idle u hu hna]⟩
  obtain ⟨pc, c, hc⟩ := hz.act u hu
  obtain ⟨hrest, hhand⟩ := hin u hu _ (by rw [hc])
  rw [hc, hctx] at hrest
  exact ⟨by rw [hthread]; exact hrest, by rw [hthread]; exact hhand⟩

/-! The issue -/

theorem State.issued_begin {s : State} (h : Hd) (hb : s.Bundled) : s.Issued ((s.begin h [] []).settle false) := by
  obtain ⟨t, he, hran, hstays, hdelays, hfree, hids, hregs, hsteps⟩ := State.nop_moves (h := h) hb
  cases he
  exact ⟨hran, hstays, ⟨hdelays, hfree, hids⟩, hregs, hsteps⟩

/-- The active threads raise a trap once the bundle has gone on. -/
theorem State.raised_begin {s : State} {h : Hd} {l : List TId} (tr : Trap) (hb : s.Bundled) (ht : s.CanTrap h) (hn : l.Nodup)
    (hl : ∀ u, u ∈ l ↔ u ∈ s.active h) :
    s.Raised (l.foldl (fun z u => z.raise u tr s.cur.pc) (s.begin h [] [])) h tr := by
  have hth := State.thread_begin (dr := []) (dp := []) hb (s.noConflict_nil h)
  refine State.raised_foldl tr hb ht hn hl (s.onlyThreads_begin h [] []) (fun u hu => by rw [hth, if_neg hu])
    (fun u hu _ => by rw [hth, if_pos hu]) fun u hu => ⟨s.cur.pc + 8, false, ?_⟩
  obtain ⟨-, -, hwindows⟩ := ht u hu
  rw [hth, if_pos (State.active_sub hu)]
  simp [Thread.stepped, Thread.countWindows, hwindows]

/-- Every thread of a bundle raises a trap that is found before its guard is asked. -/
theorem State.raised_all {s : State} (tr : Trap) (hb : s.Bundled) (ht : s.CanTrap ⟨false, 0, 0⟩) :
    s.Raised (s.cur.threads.foldl (fun z u => z.raise u tr s.cur.pc) s) ⟨false, 0, 0⟩ tr := by
  refine State.raised_foldl tr hb ht hb.nodup (fun u => by rw [s.active_unguarded]) (.refl s) (fun _ _ => rfl)
    (fun u hu hna => ?_) fun u _ => ⟨(s.thread u).pc, (s.thread u).counted, rfl⟩
  rw [s.active_unguarded] at hna
  exact absurd hu hna

/-! Tile operations and allocations of one partition -/

/-- `t` differs from `z` in the fresh numbers, the steps to come, and in partition `pid` in tile order and the allocations. -/
structure State.Retiled (z t : State) (pid n : Nat) (d : List Todo) (q : List TileOp) (as : Tab Alloc) : Prop where
  rest  : t = { z with ids := n, todo := d, parts := t.parts }
  parts : ∀ p, p ≠ pid → t.part p = z.part p
  here  : t.part pid = { z.part pid with tileQ := q, allocs := as }

section
variable {z t y : State} {pid n m : Nat} {d e : List Todo} {q r : List TileOp} {as bs : Tab Alloc}

theorem State.Retiled.refl (z : State) (pid : Nat) :
    z.Retiled z pid z.ids z.todo (z.part pid).tileQ (z.part pid).allocs := ⟨rfl, fun _ _ => rfl, rfl⟩

theorem State.Retiled.trans (k : z.Retiled t pid n d q as) (j : t.Retiled y pid m e r bs) : z.Retiled y pid m e r bs where
  rest := by rw [j.rest, k.rest]
  parts p hp := (j.parts p hp).trans (k.parts p hp)
  here := by rw [j.here, k.here]

theorem State.retiled_modAlloc (z : State) (pid g : Nat) (f : Alloc → Alloc) :
    z.Retiled (z.modAlloc pid g f) pid z.ids z.todo (z.part pid).tileQ ((z.part pid).allocs.put g (f (z.alloc pid g))) where
  rest := rfl
  parts p hp := by rw [State.modAlloc, State.part_modPart, if_neg hp]
  here := by rw [State.modAlloc, State.part_modPart, if_pos rfl]; rfl

theorem State.Retiled.wave (k : z.Retiled t pid n d q as) (w : Nat) : t.wave w = z.wave w := by rw [k.rest]; rfl
theorem State.Retiled.thread (k : z.Retiled t pid n d q as) (u : TId) : t.thread u = z.thread u := by rw [k.rest]; rfl

theorem State.Retiled.bins (k : z.Retiled t pid n d q as) (p : Nat) : (t.part p).bins = (z.part p).bins := by
  by_cases hp : p = pid
  · rw [hp, k.here]
  · rw [k.parts p hp]

/-- An update of a partition that neither reads nor writes tile order and allocations. -/
theorem State.Retiled.modPart (k : z.Retiled t pid n d q as) (p : Nat) (f : Part → Part)
    (hf : ∀ x q as, f { x with tileQ := q, allocs := as } = { f x with tileQ := q, allocs := as }) :
    (z.modPart p f).Retiled (t.modPart p f) pid n d q as where
  rest := by
    simp only [State.modPart, State.setPart]
    rw [k.rest]
  parts j hj := by
    simp only [State.part_modPart, k.parts j hj]
    split
    · rename_i hjp
      rw [← hjp, k.parts j hj]
    · rfl
  here := by
    simp only [State.part_modPart, k.here]
    split
    · rename_i hp
      rw [← hp, k.here, hf]
    · rfl

theorem State.Retiled.file (k : z.Retiled t pid n d q as) (u : TId) (g : Nat) :
    (z.file u g).Retiled (t.file u g) pid n d q as := by
  have hwaves : t.waves = z.waves := by rw [k.rest]
  have hcore : t.core u.core = z.core u.core := by rw [k.rest]; rfl
  unfold State.file
  rw [hwaves, k.wave, hcore]
  split
  · exact k
  · exact k.modPart _ _ fun _ _ _ => rfl

theorem State.Retiled.fileBin (k : z.Retiled t pid n d q as) (p bin : Nat) :
    (z.fileBin p bin).Retiled (t.fileBin p bin) pid n d q as := by
  have hfold : ∀ (us : List TId) {z t : State}, z.Retiled t pid n d q as →
      (us.foldl (fun s u => s.file u 2) z).Retiled (us.foldl (fun s u => s.file u 2) t) pid n d q as := by
    intro us
    induction us with
    | nil => exact fun k => k
    | cons u us ih => exact fun k => ih (k.file u 2)
  unfold State.fileBin
  rw [k.bins]
  exact hfold _ (k.modPart _ _ fun _ _ _ => rfl)

/-- A bundle without a trap settles alike. -/
theorem State.Retiled.settle (k : z.Retiled t pid n d q as)
    (hno : ∀ u ∈ ((z.part (z.cur.core * 4 + z.cur.part)).bins.get z.cur.bin {}).threads, (z.thread u).trapQ = none) (b : Bool) :
    (z.settle b).Retiled (t.settle b) pid n d q as := by
  have hcur : t.cur = z.cur := by rw [k.rest]
  have hany : (((z.part (z.cur.core * 4 + z.cur.part)).bins.get z.cur.bin {}).threads.any fun u => (z.thread u).trapQ.isSome) =
      false := List.any_eq_false.2 fun u hu => by simp [hno u hu]
  simp only [State.settle, hcur, k.bins, k.thread, hany, Bool.false_eq_true, if_false]
  split
  · exact k.modPart _ _ fun _ _ _ => rfl
  · split
    · exact k.fileBin _ _
    · exact k.modPart _ _ fun _ _ _ => rfl

end

/-- The same for the issue of an instruction without destinations. -/
theorem State.Retiled.settle_begin {s t : State} {h : Hd} {pid n : Nat} {d : List Todo} {q : List TileOp} {as : Tab Alloc}
    (k : (s.begin h [] []).Retiled t pid n d q as) (hb : s.Bundled) :
    ((s.begin h [] []).settle false).Retiled (t.settle false) pid n d q as := by
  have hrest := (s.onlyThreads_begin h [] []).rest
  refine k.settle (fun u hu => ?_) false
  have hu' : u ∈ s.cur.threads := by
    rw [hrest] at hu
    rw [← hb.bin]
    exact hu
  rw [State.thread_begin hb (s.noConflict_nil h), if_pos hu']
  exact hb.clear u hu'

/-! Into tile order -/

/-- The first step of an operation in tile order. -/
def TileOp.firstStep (o : TileOp) : Instr :=
  if o.header then .taccldHeader o.t.core (o.t.pid % 4) o.id else .tileOperationStart o.t.core (o.t.pid % 4) o.id

/-- Tile order with one operation more (R208, R436). -/
def TileOp.joins (o : TileOp) (q : List TileOp) : List TileOp :=
  if o.ahead then q.filter (fun e => e.begun || e.ahead) ++ o :: q.filter (fun e => !(e.begun || e.ahead)) else q ++ [o]

/-- The allocations once an operation has acted on the control state, where none holds it back (R216). -/
def State.allocsAfter (s : State) (o : TileOp) : Tab Alloc :=
  let c := s.ctx (s.launch (s.wg o.wg).launch).tag
  if o.late then (s.part o.t.pid).allocs
  else (s.part o.t.pid).allocs.put o.wg ((s.alloc o.t.pid o.wg).control o.instr o.tcs c.gen.toNat c.prof)

theorem State.queued_iff {s z t : State} {o : TileOp} :
    s.Queued z t o ↔
      z.Retiled t o.t.pid (o.id + 1) (.event o.firstStep :: s.todo) (o.joins (s.part o.t.pid).tileQ) (s.allocsAfter o) :=
  ⟨fun ⟨hrest, hparts, hhere⟩ => ⟨hrest, hparts, hhere⟩, fun ⟨hrest, hparts, hhere⟩ => ⟨hrest, hparts, hhere⟩⟩

/-- Where every operation before the first TPROF has acted on the control state, none is still to act. -/
theorem State.controlLate_of_kept {s : State} {pid : Nat} (hk : s.TilesKept pid) : s.controlLate pid = s := by
  have hnone : ((s.part pid).tileQ.takeWhile fun o => !o.isProf).filter (·.late) = [] :=
    List.filter_eq_nil_iff.2 fun o ho => by simp [hk o ho]
  rw [State.controlLate, hnone, List.foldl_nil]

theorem State.retiled_actControl (z : State) (pid : Nat) (o : TileOp) :
    let c := z.ctx (z.launch (z.wg o.wg).launch).tag
    z.Retiled (z.actControl pid o) pid z.ids z.todo (z.part pid).tileQ
      ((z.part pid).allocs.put o.wg ((z.alloc pid o.wg).control o.instr o.tcs c.gen.toNat c.prof)) := by
  intro c
  exact z.retiled_modAlloc pid o.wg fun a => a.control o.instr o.tcs c.gen.toNat c.prof

/-- An operation stands in tile order, with the next fresh number gone. -/
def State.withTile (s : State) (o : TileOp) : State :=
  State.modPart { s with ids := s.ids + 1 } o.t.pid fun p => { p with tileQ := o.joins p.tileQ }

theorem State.retiled_withTile (s : State) (o : TileOp) :
    s.Retiled (s.withTile o) o.t.pid (s.ids + 1) s.todo (o.joins (s.part o.t.pid).tileQ) (s.part o.t.pid).allocs :=
  ⟨rfl, fun _ hp => (State.part_modPart ..).trans (if_neg hp), (State.part_modPart ..).trans (if_pos rfl)⟩

/-- The operation has acted on the control state, unless a TPROF holds it back. -/
theorem State.retiled_acted (s : State) (o : TileOp) :
    s.Retiled (if o.late then s.withTile o else (s.withTile o).actControl o.t.pid o) o.t.pid (s.ids + 1) s.todo
      (o.joins (s.part o.t.pid).tileQ) (s.allocsAfter o) := by
  have hq := s.retiled_withTile o
  rw [State.allocsAfter]
  split
  · exact hq
  · have hact := hq.trans ((s.withTile o).retiled_actControl o.t.pid o)
    rw [State.alloc, hq.here] at hact
    exact hact

/-- How an operation enters tile order where none before it is still to act. -/
theorem State.enqueueTile_eq {s : State} {u : TId} (i : Instr) (addr : DWord) (desc : List Word) (recvs : List TId)
    (hk : s.TilesKept u.pid) :
    (s.enqueueTile u s.cur.pc i addr desc recvs).2 =
      let o := s.tileOp u i addr desc recvs s.ids
      (if o.late then s.withTile o else (s.withTile o).actControl o.t.pid o).push [o.firstStep] := by
  have hlate : State.controlLate { s with ids := s.ids + 1 } u.pid = { s with ids := s.ids + 1 } := State.controlLate_of_kept hk
  have hsave : State.inSave { s with ids := s.ids + 1 } u = s.inSave u := rfl
  have hpart : State.part { s with ids := s.ids + 1 } u.pid = s.part u.pid := rfl
  unfold State.enqueueTile
  rcases Bool.eq_false_or_eq_true (!s.inSave u && (s.part u.pid).tileQ.any TileOp.isProf) with hl | hl
  · simp only [State.newId, hlate, hsave, hpart, List.partition_eq_filter_filter, State.tileOp, hl, if_true]
    rfl
  · simp only [State.newId, hlate, hsave, hpart, List.partition_eq_filter_filter, State.tileOp, hl, Bool.false_eq_true, if_false]
    rfl

/-- An instruction's operation enters tile order: the state after it, field by field. -/
theorem State.queued_enqueueTile {s : State} {u : TId} (i : Instr) (addr : DWord) (desc : List Word) (recvs : List TId)
    (hk : s.TilesKept u.pid) :
    s.Queued s (s.enqueueTile u s.cur.pc i addr desc recvs).2 (s.tileOp u i addr desc recvs s.ids) := by
  rw [State.queued_iff, State.enqueueTile_eq i addr desc recvs hk]
  have hacted := s.retiled_acted (s.tileOp u i addr desc recvs s.ids)
  exact ⟨by rw [State.push, hacted.rest]; rfl, hacted.parts, hacted.here⟩

/-- The issue changes nothing that an operation takes with it. -/
theorem State.tileOp_begin {s : State} {h : Hd} {u : TId} (i : Instr) (addr : DWord) (desc : List Word) (recvs : List TId)
    (hb : s.Bundled) :
    (s.begin h [] []).tileOp u i addr desc recvs s.ids = s.tileOp u i addr desc recvs s.ids := by
  have hon := s.onlyThreads_begin h [] []
  have hhand : ((s.begin h [] []).thread u).hand = (s.thread u).hand := by
    rw [State.thread_begin hb (s.noConflict_nil h)]
    split <;> rfl
  have hwg : ((s.begin h [] []).wave u.w).wg = (s.wave u.w).wg := by rw [hon.waves]
  have htag : ((s.begin h [] []).wave u.w).tag = (s.wave u.w).tag := by rw [hon.waves]
  simp only [State.tileOp, State.inSave, State.privileged, State.ctxOf, State.cycOf, hhand, hwg, htag]
  rw [hon.rest]
  rfl

/-- The operation of an instruction without destinations enters tile order with its issue. -/
theorem State.queued_begin {s : State} {h : Hd} {u : TId} (i : Instr) (addr : DWord) (desc : List Word) (hb : s.Bundled)
    (hk : s.TilesKept u.pid) :
    s.Queued ((s.begin h [] []).settle false) (((s.begin h [] []).enqueueTile u s.cur.pc i addr desc []).2.settle false)
      (s.tileOp u i addr desc [] s.ids) := by
  have hon := (s.onlyThreads_begin h [] []).rest
  have hq := State.queued_enqueueTile (s := s.begin h [] []) i addr desc [] (u := u) (by rw [hon]; exact hk)
  rw [State.queued_iff] at hq ⊢
  have hcur : (s.begin h [] []).cur = s.cur := by rw [hon]
  have hids : (s.begin h [] []).ids = s.ids := by rw [hon]
  rw [hcur, hids, State.tileOp_begin i addr desc [] hb] at hq
  have hset := hq.settle_begin hb
  generalize s.tileOp u i addr desc [] s.ids = o at hset ⊢
  have htodo : (s.begin h [] []).todo = s.todo := by rw [hon]
  have hpart : (s.begin h [] []).part o.t.pid = s.part o.t.pid := by rw [hon]; rfl
  have hallocs : (s.begin h [] []).allocsAfter o = s.allocsAfter o := by rw [hon]; rfl
  rw [htodo, hpart, hallocs] at hset
  exact hset

/-! Tile instructions that a bundle performs once -/

/-- A raise leaves the issuing bundle as it is. -/
theorem State.foldl_raise_cur (tr : Trap) (us : List TId) (z : State) :
    us.foldl (fun z u => z.raise u tr z.cur.pc) z = us.foldl (fun y u => y.raise u tr z.cur.pc) z := by
  induction us generalizing z with
  | nil => rfl
  | cons u us ih => exact ih (z.raise u tr z.cur.pc)

theorem State.gate_nil (s : State) (turn : Bool) : s.gate [] turn = s := by
  simp [State.gate]

/-- What a tile instruction that the bundle performs once does with the operands of the thread `l` (R75, R204, R211). -/
def State.PerformedOnce (s : State) (h : Hd) (l : TId) (i : Instr) (addr : DWord) (desc : List Word) : Prop :=
  ((s.tileView (s.cur.threads.headD default)).illegal i = true → s.CanTrap ⟨false, 0, 0⟩ →
    Traps s ⟨false, 0, 0⟩ (exec i s) fun _ => illegal9) ∧
  ((s.tileView (s.cur.threads.headD default)).illegal i = false →
    ((s.tileView l).check i addr desc = none →
      ((s.launchOf l).hdr.determ = true → s.tileOrderedAt l s.cur.pc i addr desc = false) →
        ∃ z t, s.Issued z ∧ exec i s = .next t ∧ s.Queued z t (s.tileOp l i addr desc [] s.ids)) ∧
    ∀ tr, (s.tileView l).check i addr desc = some tr → s.CanTrap h → Traps s h (exec i s) fun _ => tr)

section
variable {s : State} {h : Hd} {l : TId} {i : Instr} {addr : State → TId → DWord} {desc : State → TId → List Word}

/-- A legal instruction that does not wait for the keystone goes by the checks of its lowest active lane. -/
theorem State.tileOnce_legal (hb : s.Bundled) (hl : s.Lowest h l)
    (hi : (s.tileView (s.cur.threads.headD default)).illegal i = false)
    (hgo : (s.tileView l).check i (addr s l) (desc s l) = none → (s.launchOf l).hdr.determ = true →
      s.tileOrderedAt l s.cur.pc i (addr s l) (desc s l) = false) :
    ((s.tileView l).check i (addr s l) (desc s l) = none → s.tileOnce h i addr desc =
      ((s.begin h [] []).enqueueTile l s.cur.pc i (addr s l) (desc s l) []).2.settle false) ∧
    ∀ tr, (s.tileView l).check i (addr s l) (desc s l) = some tr → s.tileOnce h i addr desc =
      ((laneOrder (s.active h)).foldl (fun z u => z.raise u tr s.cur.pc) (s.begin h [] [])).settle false := by
  obtain ⟨ts, hts⟩ := hl.laneOrder_eq
  have hneeds : ((laneOrder (s.active h)).head?.toList.filter fun u => (s.launchOf u).hdr.determ &&
      ((s.tileView u).check i (addr s u) (desc s u)).isNone && s.tileOrderedAt u s.cur.pc i (addr s u) (desc s u)) = [] := by
    rw [hts, List.head?_cons, Option.toList_some, List.filter_eq_nil_iff]
    intro u hu
    rw [List.mem_singleton.1 hu]
    simp only [Bool.and_eq_true, Option.isNone_iff_eq_none]
    rintro ⟨⟨hdeterm, hnone⟩, hord⟩
    exact Bool.false_ne_true ((hgo hnone hdeterm).symm.trans hord)
  have hcur : (s.begin h [] []).cur = s.cur := by rw [(s.onlyThreads_begin h [] []).rest]
  simp only [State.tileOnce, hi, Bool.false_eq_true, if_false, hneeds, State.gate_nil, State.acting_begin hb (s.noConflict_nil h)]
  rw [hts]
  exact ⟨fun hc => by simp only [hc], fun tr hc => by simp only [hc, State.foldl_raise_cur, hcur]⟩

theorem State.performedOnce_of_tileOnce (he : exec i s = .next (s.tileOnce h i addr desc)) (hb : s.Bundled) (hl : s.Lowest h l)
    (hk : s.TilesKept l.pid) : s.PerformedOnce h l i (addr s l) (desc s l) := by
  rw [State.PerformedOnce, he]
  refine ⟨fun hi ht => ?_, fun hi => ⟨fun hc hgo => ?_, fun tr hc ht => ?_⟩⟩
  · rw [State.tileOnce, if_pos hi]
    exact (State.raised_all illegal9 hb ht).traps hb ht (s.active_unguarded.symm ▸ hb.some_) false
  · rw [(State.tileOnce_legal hb hl hi fun _ => hgo).1 hc]
    exact ⟨_, _, State.issued_begin h hb, rfl, State.queued_begin i _ _ hb hk⟩
  · rw [(State.tileOnce_legal hb hl hi fun hn => by simp [hn] at hc).2 tr hc]
    exact (State.raised_begin tr hb ht (nodup_laneOrder (hb.nodup.sublist List.filter_sublist)) fun _ => mem_laneOrder).traps hb ht
      (List.ne_nil_of_mem hl.1) false

end

/-! TCFG -/

/-- The word of one lane in a tile control register (R212). -/
def Alloc.setTc (x : Alloc) (n i : Nat) (v : Word) : Alloc := { x with tcs := x.tcs.put n ((x.tc n).set i v) }

theorem Alloc.tc_setTc (x : Alloc) (n m i : Nat) (v : Word) :
    (x.setTc n i v).tc m = if m = n then (x.tc n).set i v else x.tc m := Tab.get_put ..

/-- Tile control registers after words of some lanes, each by its own thread. -/
theorem Alloc.foldl_setTc (ts : List TId) (n : Nat) (f : TId → Word) (x : Alloc) (hx : (x.tc n).length = 4) :
    let y := ts.foldl (fun y u => y.setTc n u.lane (f u)) x
    y = { x with tcs := y.tcs } ∧ (∀ m, m ≠ n → y.tc m = x.tc m) ∧ (y.tc n).length = 4 ∧
      ∀ i w, i < 4 → (∀ u ∈ ts, u.w = w) → (y.tc n).getD i 0 = if ⟨w, i⟩ ∈ ts then f ⟨w, i⟩ else (x.tc n).getD i 0 := by
  induction ts generalizing x with
  | nil => exact ⟨rfl, fun _ _ => rfl, hx, fun _ _ _ _ => by simp⟩
  | cons u ts ih =>
    have hn : (x.setTc n u.lane (f u)).tc n = (x.tc n).set u.lane (f u) := by rw [Alloc.tc_setTc, if_pos rfl]
    obtain ⟨hrest, hother, hlen, hword⟩ := ih (x.setTc n u.lane (f u)) (by rw [hn, List.length_set, hx])
    refine ⟨hrest, fun m hm => (hother m hm).trans (by rw [Alloc.tc_setTc, if_neg hm]), hlen, fun i w hi hw => ?_⟩
    rw [List.foldl_cons, hword i w hi fun v hv => hw v (List.mem_cons_of_mem _ hv), hn]
    obtain ⟨k, j⟩ := u
    obtain rfl : k = w := hw ⟨k, j⟩ (List.mem_cons_self ..)
    by_cases hmem : (⟨k, i⟩ : TId) ∈ ts
    · simp [hmem]
    · by_cases hij : i = j
      · subst hij
        simp [hmem, hx, hi]
      · simp [hmem, hij, Ne.symm hij]

/-- Threads of one wave that write words of a tile control register change that of their workgroup's allocation alone. -/
theorem State.retiled_foldl_setTc (ts : List TId) (n w pid : Nat) (f : TId → Word) (z : State) (hw : ∀ u ∈ ts, u.w = w)
    (hp : ∀ u ∈ ts, u.pid = pid) :
    ∃ as : Tab Alloc,
      z.Retiled (ts.foldl (fun z u => z.modAlloc u.pid (z.wave u.w).wg fun x => x.setTc n u.lane (f u)) z) pid z.ids z.todo
        (z.part pid).tileQ as ∧
      (∀ g, g ≠ (z.wave w).wg → as.get g {} = z.alloc pid g) ∧
      as.get (z.wave w).wg {} = ts.foldl (fun x u => x.setTc n u.lane (f u)) (z.alloc pid (z.wave w).wg) := by
  induction ts generalizing z with
  | nil => exact ⟨_, .refl z pid, fun _ _ => rfl, rfl⟩
  | cons u ts ih =>
    have h1 := z.retiled_modAlloc pid (z.wave w).wg fun x => x.setTc n u.lane (f u)
    obtain ⟨as, has, hother, hself⟩ := ih (z.modAlloc pid (z.wave w).wg fun x => x.setTc n u.lane (f u))
      (fun v hv => hw v (List.mem_cons_of_mem _ hv)) fun v hv => hp v (List.mem_cons_of_mem _ hv)
    rw [List.foldl_cons, List.foldl_cons, hp u (List.mem_cons_self ..), hw u (List.mem_cons_self ..)]
    have hget : ∀ g, State.alloc (z.modAlloc pid (z.wave w).wg fun x => x.setTc n u.lane (f u)) pid g =
        if g = (z.wave w).wg then (z.alloc pid g).setTc n u.lane (f u) else z.alloc pid g := fun g => by
      rw [State.alloc, h1.here, Tab.get_put]
      split
      · rename_i hg
        rw [hg]
      · rfl
    rw [h1.wave] at hother hself
    have hq : (State.part (z.modAlloc pid (z.wave w).wg fun x => x.setTc n u.lane (f u)) pid).tileQ = (z.part pid).tileQ := by
      rw [h1.here]
    refine ⟨as, ?_, fun g hg => by rw [hother g hg, hget, if_neg hg], by rw [hself, hget, if_pos rfl]⟩
    rw [hq] at has
    exact h1.trans has

/-- TCFG: the active threads of the four low lanes write their words in the allocation of their wave's workgroup (R212). -/
theorem State.exec_tcfg {s : State} {h : Hd} {n a w : Nat} (hb : s.Bundled) (hw : ∀ u ∈ s.active h, u.w = w) :
    ∃ z t as, s.Issued z ∧ exec (.tcfg h n a) s = .next t ∧ z.Retiled t s.pid z.ids z.todo (z.part s.pid).tileQ as ∧
      (∀ g, g ≠ (s.wave w).wg → as.get g {} = s.alloc s.pid g) ∧
      as.get (s.wave w).wg {} = ((laneOrder (s.active h)).filter fun u => u.lane < 4).foldl
        (fun x u => x.setTc n u.lane (s.rd u a)) (s.alloc s.pid (s.wave w).wg) := by
  have hon := s.onlyThreads_begin h [] []
  have hact : ∀ u ∈ (laneOrder (s.active h)).filter fun u => u.lane < 4, u ∈ s.active h :=
    fun u hu => mem_laneOrder.1 (List.mem_filter.1 hu).1
  obtain ⟨as, has, hother, hself⟩ := State.retiled_foldl_setTc ((laneOrder (s.active h)).filter fun u => u.lane < 4) n w s.pid
    (fun u => s.rd u a) (s.begin h [] []) (fun u hu => hw u (hact u hu)) fun u hu => hb.here u (State.active_sub (hact u hu))
  have hwg : ((s.begin h [] []).wave w).wg = (s.wave w).wg := by rw [hon.waves]
  have hpart : (s.begin h [] []).part s.pid = s.part s.pid := by rw [hon.rest]; rfl
  have halloc : ∀ g, (s.begin h [] []).alloc s.pid g = s.alloc s.pid g := fun g => by rw [State.alloc, hpart, State.alloc]
  simp only [hwg, halloc] at hother hself
  have hset := has.settle_begin hb
  have hz := State.issued_begin h hb
  have hids : (s.begin h [] []).ids = ((s.begin h [] []).settle false).ids := by rw [hz.same.2.2, hon.rest]
  have htodo : (s.begin h [] []).todo = ((s.begin h [] []).settle false).todo := by rw [hz.ran.rest, hon.rest]
  have htiles : ((s.begin h [] []).part s.pid).tileQ = (((s.begin h [] []).settle false).part s.pid).tileQ := by
    rw [hpart, hz.ran.here]
  rw [← State.acting_begin hb (s.noConflict_nil h), hids, htodo, htiles] at hset
  exact ⟨_, _, as, hz, rfl, hset, hother, hself⟩

/-- Settles O34: the tile instructions go by the checks of the lowest active lane, which see the control state behind a waiting
TPROF as log 85 has it; TCFG is a fold over the active threads of the four low lanes. -/
theorem tileEffects : Obligations.TileEffects := by
  intro s h n a b smem acc l hb hl hk all once
  have one : ∀ (i : Instr) (addr : State → TId → DWord) (desc : State → TId → List Word),
      exec i s = .next (s.tileOnce h i addr desc) → once i (addr s l) (desc s l) := by
    intro i addr desc he
    obtain ⟨hillegal, hlegal⟩ := State.performedOnce_of_tileOnce he hb hl hk
    refine ⟨hillegal, fun hi => ?_⟩
    obtain ⟨hnone, hsome⟩ := hlegal hi
    split
    · exact hnone ‹_›
    · exact hsome _ ‹_›
  refine ⟨one _ (fun s u => s.rd64 u a) (fun _ _ => []) rfl,
    one _ (fun s u => s.rd64 u a) (fun s u => (List.range 4).map fun k => s.rd u (b + k)) rfl,
    one _ (fun s u => s.rd64 u a) (fun _ _ => []) rfl, one _ (fun _ _ => 0) (fun _ _ => []) rfl,
    one _ (fun s u => s.rd64 u a) (fun _ _ => []) rfl, one _ (fun s u => s.rd64 u a) (fun _ _ => []) rfl, ?_⟩
  intro w hw A hA
  obtain ⟨z, t, as, hz, he, ht, hother, hself⟩ := State.exec_tcfg (n := n) (a := a) hb hw
  have halloc : ∀ g, t.alloc s.pid g = as.get g {} := fun g => by rw [State.alloc, ht.here]
  obtain ⟨hrest, htcs, hlen, hword⟩ :=
    Alloc.foldl_setTc ((laneOrder (s.active h)).filter fun u => u.lane < 4) n (fun u => s.rd u a) A hA
  refine ⟨z, t, hz, he, ht.rest, ht.parts, by rw [ht.here], fun g hg => (halloc g).trans (hother g hg), ?_⟩
  rw [halloc, hself]
  refine ⟨hrest, htcs, hlen, fun i hi => ?_⟩
  rw [hword i w hi fun u hu => hw u (mem_laneOrder.1 (List.mem_filter.1 hu).1)]
  simp only [List.mem_filter, mem_laneOrder, hi, decide_true, and_true]

end Sys2Proof.Machine
end

section
/-!
PROOF. Arithmetic of binary32, BF16 and binary64, and the conversions of one lane: the results that their windows hold.
-/
namespace Sys2Proof

/-- The lowest field of a number (R12). -/
theorem fld_zero (w n : Nat) : fld w 0 n = w % 2 ^ n := by
  rw [fld, Nat.pow_zero, Nat.div_one]

namespace Machine

/-! Instructions of one format -/

section
variable {s : State} {h : Hd} {m : Option LaneMod} {n d a b c : Nat} {i : Instr}

theorem givesLater_of_float1 {op : Nat → Nat} (hx : exec i s = .next (s.float1 h m (.fixed n) d a op))
    (hl : (Latency.fixed n).long = true) : GivesLater s h n false d i fun u => op (s.numA m u false a) :=
  givesLater_of_compute hx hl fun _ => rfl

theorem givesLater_of_float2 {op : Nat → Nat → Nat} (hx : exec i s = .next (s.float2 h m (.fixed n) d a b op))
    (hl : (Latency.fixed n).long = true) :
    GivesLater s h n false d i fun u => op (s.numA m u false a) (s.numB m u false b) :=
  givesLater_of_compute hx hl fun _ => rfl

theorem givesLater_of_float3 {op : Nat → Nat → Nat → Nat} (hx : exec i s = .next (s.float3 h m (.fixed n) d a b c op))
    (hl : (Latency.fixed n).long = true) :
    GivesLater s h n false d i fun u => op (s.numA m u false a) (s.numB m u false b) (s.num u false c) :=
  givesLater_of_compute hx hl fun _ => rfl

theorem givesLater_of_double2 {op : Nat → Nat → Nat} (hx : exec i s = .next (s.double2 h m d a b op)) :
    GivesLater s h 6 true d i fun u => op (s.numA m u true a) (s.numB m u true b) :=
  givesLater_of_compute hx rfl fun _ => rfl

end

/-- Settles O6: each instruction is its operation on the operands' bits, in a window of 4 cycles. -/
theorem floatResults : Obligations.FloatResults := by
  intro s h m d a b c p r cc A B C
  exact ⟨givesLater_of_float2 (op := fmt32.addBits r) rfl rfl, givesLater_of_float2 (op := fmt32.subBits r) rfl rfl,
    givesLater_of_float2 (op := fmt32.mulBits r) rfl rfl, givesLater_of_float3 (op := fmt32.fmaBits r) rfl rfl,
    givesLater_of_float2 (op := fmt32.pick false) rfl rfl, givesLater_of_float2 (op := fmt32.pick true) rfl rfl,
    tellsLater_of_compute rfl rfl fun _ => rfl, givesLater_of_float1 (op := frndBits r) rfl rfl,
    givesLater_of_float1 (op := fclassBits) rfl rfl⟩

/-! Pairs of BF16 -/

theorem halves2_eq (op : Nat → Nat → Nat) (a b : Nat) :
    halves2 op a b = op (a % 2 ^ 16) (b % 2 ^ 16) + op (a / 2 ^ 16 % 2 ^ 16) (b / 2 ^ 16 % 2 ^ 16) * 2 ^ 16 := by
  rw [halves2, fld_zero, fld_zero, fld, fld]

theorem halves3_eq (op : Nat → Nat → Nat → Nat) (a b c : Nat) :
    halves3 op a b c = op (a % 2 ^ 16) (b % 2 ^ 16) (c % 2 ^ 16) +
      op (a / 2 ^ 16 % 2 ^ 16) (b / 2 ^ 16 % 2 ^ 16) (c / 2 ^ 16 % 2 ^ 16) * 2 ^ 16 := by
  rw [halves3, fld_zero, fld_zero, fld_zero, fld, fld, fld]

section
variable {s : State} {h : Hd} {m : Option LaneMod} {d a b c : Nat} {i : Instr}

theorem givesLater_of_halves2 {op : Nat → Nat → Nat} (hx : exec i s = .next (s.float2 h m (.fixed 4) d a b (halves2 op))) :
    GivesLater s h 4 false d i fun u =>
      op (s.numA m u false a % 2 ^ 16) (s.numB m u false b % 2 ^ 16) +
        op (s.numA m u false a / 2 ^ 16 % 2 ^ 16) (s.numB m u false b / 2 ^ 16 % 2 ^ 16) * 2 ^ 16 := by
  simp only [← halves2_eq]
  exact givesLater_of_float2 hx rfl

theorem givesLater_of_halves3 {op : Nat → Nat → Nat → Nat}
    (hx : exec i s = .next (s.float3 h m (.fixed 4) d a b c (halves3 op))) :
    GivesLater s h 4 false d i fun u =>
      op (s.numA m u false a % 2 ^ 16) (s.numB m u false b % 2 ^ 16) (s.num u false c % 2 ^ 16) +
        op (s.numA m u false a / 2 ^ 16 % 2 ^ 16) (s.numB m u false b / 2 ^ 16 % 2 ^ 16)
          (s.num u false c / 2 ^ 16 % 2 ^ 16) * 2 ^ 16 := by
  simp only [← halves3_eq]
  exact givesLater_of_float3 hx rfl

end

/-- Settles O8: the BF16 instructions are an operation on each half of the operands; those of binary64 take 6 cycles. -/
theorem pairAndDoubleResults : Obligations.PairAndDoubleResults := by
  intro s h m d a b c p r cc A B C lo hi X Y Z
  exact ⟨givesLater_of_halves2 (op := fmt16.addBits r) rfl, givesLater_of_halves2 (op := fmt16.mulBits r) rfl,
    givesLater_of_halves3 (op := fmt16.fmaBits r) rfl, givesLater_of_halves2 (op := fmt16.pick true) rfl,
    givesLater_of_double2 (op := fmt64.addBits r) rfl, givesLater_of_double2 (op := fmt64.mulBits r) rfl,
    givesLater_of_compute rfl rfl fun _ => rfl, tellsLater_of_compute rfl rfl fun _ => rfl⟩

/-! Conversions -/

/-- CVTRES under a profile that passes check 9 of R59 computes; it raises no trap (R133). -/
theorem exec_cvtres {s : State} {h : Hd} {d a ch : Nat} {signed : Bool} {p : Profile}
    (hp : (s.ctxOf (s.cur.threads.headD default)).prof = some p)
    (hok : cvtresOk (some p) s.mapout (s.counts (s.cur.threads.headD default)) a ch = true) :
    exec (.cvtres h d a ch signed) s = .next (s.compute h (.fixed 4) (dests false d) [] fun s u =>
      let n := s.num u (p.grouping != 2) a
      let x : Int := if signed then signedOf (if p.grouping != 2 then 64 else 32) n else n
      { regs := putNum false d (residue x (p.chans.getD ch default).mod) }) := by
  have hx : exec (.cvtres h d a ch signed) s = execCvtres h d a ch signed s := rfl
  rw [hx, execCvtres]
  simp only [hp, hok, Bool.not_true, Bool.false_eq_true, if_false]
  rfl

/-- Settles O11: for CVTRES by `exec_cvtres`, which takes the branch of a profile that passes its checks. -/
theorem conversionResults : Obligations.ConversionResults := by
  intro s h d a b ch dty sty r signed
  refine ⟨givesLater_of_compute rfl rfl fun _ => rfl, givesLater_of_compute rfl rfl fun u => ?_,
    fun p hp hok => givesLater_of_compute (exec_cvtres hp hok) rfl fun _ => rfl⟩
  rw [fld_zero]

end Machine
end Sys2Proof
end

section
/-!
PROOF. The integer types: a result and what it reads back as are one residue modulo 2^w (R77, R78), and words of w bits are
these residues.
-/
namespace Sys2Proof
open Machine

/-! Two's complement -/

/-- The reading of `n` bits is that of the bit vector of the low `n` bits. -/
theorem signedOf_eq_toInt {n : Nat} (hn : 0 < n) (u : Nat) : signedOf n u = (BitVec.ofNat n u).toInt := by
  obtain ⟨k, rfl⟩ : ∃ k, n = k + 1 := ⟨n - 1, by omega⟩
  have hk : 2 * (u % 2 ^ (k + 1)) < 2 ^ (k + 1) ↔ u % 2 ^ (k + 1) < 2 ^ k := by omega
  simp only [signedOf, BitVec.toInt_eq_toNat_cond, BitVec.toNat_ofNat, Nat.add_sub_cancel, hk]

theorem signedOf_toNat {w : Nat} (hw : 0 < w) (a : BitVec w) : signedOf w a.toNat = a.toInt := by
  rw [signedOf_eq_toInt hw, BitVec.ofNat_toNat, BitVec.setWidth_eq]

theorem ofNat_wrapNat (w : Nat) (x : Int) : BitVec.ofNat w (wrapNat w x) = BitVec.ofInt w x :=
  BitVec.eq_of_toNat_eq (by rw [BitVec.toNat_ofNat, BitVec.toNat_ofInt, Nat.mod_eq_of_lt (wrapNat_lt w x), wrapNat])

/-! The range of an integer type -/

namespace IT

/-- `x` lies in the range of the type (R78). -/
def Holds (t : IT) (x : Int) : Prop := intMin t.width t.signed ≤ x ∧ x ≤ intMax t.width t.signed

theorem width_pos (t : IT) : 0 < t.width := by
  cases t <;> decide

theorem width_of_narrow {t : IT} (ht : t.wide = false) : t.width ≤ 32 := by
  revert ht
  cases t <;> decide

/-- A range holds 2^w numbers. -/
theorem intMax_eq (t : IT) : intMax t.width t.signed = intMin t.width t.signed + (2 ^ t.width : Nat) - 1 := by
  cases t <;> decide

theorem holds_intMin (t : IT) : t.Holds (intMin t.width t.signed) := by
  have hpos := Nat.two_pow_pos t.width
  exact ⟨Int.le_refl _, by rw [intMax_eq]; omega⟩

theorem holds_intMax (t : IT) : t.Holds (intMax t.width t.signed) := ⟨t.holds_intMin.2, Int.le_refl _⟩

/-- A number of the range is known by its residue. -/
theorem Holds.eq_of_emod {t : IT} {x y : Int} (hx : t.Holds x) (hy : t.Holds y)
    (h : x % (2 ^ t.width : Nat) = y % (2 ^ t.width : Nat)) : x = y := by
  obtain ⟨hx1, hx2⟩ := hx
  obtain ⟨hy1, hy2⟩ := hy
  rw [intMax_eq] at hx2 hy2
  generalize 2 ^ t.width = m at *
  have hdvd : (m : Int) ∣ x - y := Int.dvd_of_emod_eq_zero (Int.emod_eq_emod_iff_emod_sub_eq_zero.1 h)
  exact Int.sub_eq_zero.1 (Int.eq_zero_of_dvd_of_natAbs_lt_natAbs hdvd (by omega))

theorem holds_read (t : IT) (n : Nat) : t.Holds (t.read n) := by
  unfold Holds read intMin intMax
  cases t.signed
  · have hlt := Nat.mod_lt n (Nat.two_pow_pos t.width)
    simp only [Bool.false_eq_true, if_false]
    omega
  · have hlo := (BitVec.ofNat t.width n).le_toInt
    have hhi := (BitVec.ofNat t.width n).toInt_lt
    simp only [if_true, signedOf_eq_toInt t.width_pos]
    push_cast
    omega

theorem read_emod (t : IT) (n : Nat) : t.read n % (2 ^ t.width : Nat) = (n : Int) % (2 ^ t.width : Nat) := by
  unfold read
  split
  · rw [signedOf_emod, Int.natCast_emod]
  · rw [Int.natCast_emod, Int.emod_emod_of_dvd _ (Int.dvd_refl _)]

/-- A number of the range reads back from as many bits as the type has, or more. -/
theorem Holds.read_wrapNat {t : IT} {x : Int} (hx : t.Holds x) {k : Nat} (hk : t.width ≤ k) : t.read (wrapNat k x) = x := by
  have hdvd : ((2 ^ t.width : Nat) : Int) ∣ (2 ^ k : Nat) := Int.natCast_dvd_natCast.2 (Nat.pow_dvd_pow 2 hk)
  exact (t.holds_read _).eq_of_emod hx (by rw [read_emod, wrapNat_cast, Int.emod_emod_of_dvd x hdvd])

/-! Results -/

/-- The number that a type wraps: the exact one, or with `.sat` the clamped one (R78). -/
def kept (t : IT) (sat : Bool) (x : Int) : Int := if sat then clampInt t.width t.signed x else x

theorem kept_of_holds {t : IT} {sat : Bool} {x : Int} (hx : t.Holds x) : t.kept sat x = x := by
  obtain ⟨hlo, hhi⟩ := hx
  rw [kept, clampInt, Int.min_eq_right hhi, Int.max_eq_right hlo, ite_self]

theorem kept_below {t : IT} {x : Int} (hx : x < intMin t.width t.signed) : t.kept true x = intMin t.width t.signed :=
  Int.max_eq_left (Int.le_trans (Int.min_le_right ..) (Int.le_of_lt hx))

theorem kept_above {t : IT} {x : Int} (hx : intMax t.width t.signed < x) : t.kept true x = intMax t.width t.signed := by
  have h : t.kept true x = max (intMin t.width t.signed) (min (intMax t.width t.signed) x) := rfl
  rw [h, Int.min_eq_left (Int.le_of_lt hx), Int.max_eq_right t.holds_intMin.2]

theorem result_of_wide {t : IT} (ht : t.wide = true) (sat : Bool) (x : Int) :
    t.result sat x = wrapNat t.width (t.kept sat x) :=
  if_pos ht

/-- A narrow result is extended to a word: it is the word of the number that its `w` bits read as (R77). -/
theorem result_of_narrow {t : IT} (ht : t.wide = false) (sat : Bool) (x : Int) :
    t.result sat x = wrapNat 32 (t.read (wrapNat t.width (t.kept sat x))) := by
  have h : t.result sat x = if t.signed then wrapNat 32 (signedOf t.width (wrapNat t.width (t.kept sat x)))
      else wrapNat t.width (t.kept sat x) := if_neg (ht ▸ Bool.false_ne_true)
  rw [h, read]
  split
  · rfl
  · have hlt := wrapNat_lt t.width (t.kept sat x)
    have hword := Nat.pow_le_pow_right (n := 2) (by decide) (width_of_narrow ht)
    rw [wrapNat_natCast, Nat.mod_eq_of_lt hlt, Nat.mod_eq_of_lt (Nat.lt_of_lt_of_le hlt hword)]

/-- A result is the number kept, as a residue modulo 2^w. -/
theorem result_emod (t : IT) (sat : Bool) (x : Int) :
    (t.result sat x : Int) % (2 ^ t.width : Nat) = t.kept sat x % (2 ^ t.width : Nat) := by
  have hwrap : (wrapNat t.width (t.kept sat x) : Int) % (2 ^ t.width : Nat) = t.kept sat x % (2 ^ t.width : Nat) := by
    rw [wrapNat_cast, Int.emod_emod_of_dvd _ (Int.dvd_refl _)]
  cases ht : t.wide with
  | true => rw [result_of_wide ht, hwrap]
  | false =>
    have hdvd : ((2 ^ t.width : Nat) : Int) ∣ (2 ^ 32 : Nat) :=
      Int.natCast_dvd_natCast.2 (Nat.pow_dvd_pow 2 (width_of_narrow ht))
    rw [result_of_narrow ht, wrapNat_cast, Int.emod_emod_of_dvd _ hdvd, read_emod, hwrap]

theorem read_result_emod (t : IT) (sat : Bool) (x : Int) :
    t.read (t.result sat x) % (2 ^ t.width : Nat) = t.kept sat x % (2 ^ t.width : Nat) := by
  rw [read_emod, result_emod]

/-- A number kept that the type holds is what the result reads back as. -/
theorem read_result_of_kept {t : IT} {sat : Bool} {x y : Int} (hk : t.kept sat x = y) (hy : t.Holds y) :
    t.read (t.result sat x) = y :=
  (t.holds_read _).eq_of_emod hy (by rw [read_result_emod, hk])

/-! Narrow results -/

/-- The type of 32 bits with the same sign. -/
def word (t : IT) : IT := if t.signed then .s32 else .z32

theorem Holds.word {t : IT} {x : Int} (ht : t.wide = false) (hx : t.Holds x) : t.word.Holds x := by
  obtain ⟨hlo, hhi⟩ := hx
  have hmin : intMin t.word.width t.word.signed ≤ intMin t.width t.signed := by
    revert ht
    cases t <;> decide
  have hmax : intMax t.width t.signed ≤ intMax t.word.width t.word.signed := by
    revert ht
    cases t <;> decide
  exact ⟨Int.le_trans hmin hlo, Int.le_trans hhi hmax⟩

/-- A narrow result reads alike as a word and as its own type. -/
theorem word_read_result {t : IT} (ht : t.wide = false) (sat : Bool) (x : Int) :
    t.word.read (t.result sat x) = t.read (t.result sat x) := by
  have hz := t.holds_read (wrapNat t.width (t.kept sat x))
  have hwidth : t.word.width ≤ 32 := by
    cases t <;> decide
  rw [result_of_narrow ht, hz.read_wrapNat (width_of_narrow ht), (hz.word ht).read_wrapNat hwidth]

theorem word_read {t : IT} {n : Nat} (hn : n < 2 ^ 32) : t.word.read n = if t.signed then signedOf 32 n else (n : Int) := by
  unfold word
  cases t.signed with
  | true => rfl
  | false => exact congrArg Int.ofNat (Nat.mod_eq_of_lt hn)

end IT

/-- Settles O9: a result and the number kept are one residue, and the type holds one number of each residue. -/
theorem integerTypes : Obligations.IntegerTypes := by
  intro t sat x lo hi
  refine ⟨fun hlo hhi => IT.read_result_of_kept (IT.kept_of_holds ⟨hlo, hhi⟩) ⟨hlo, hhi⟩,
    ⟨(t.holds_read _).1, (t.holds_read _).2, t.read_result_emod false x⟩,
    fun hx => IT.read_result_of_kept (IT.kept_below hx) t.holds_intMin,
    fun hx => IT.read_result_of_kept (IT.kept_above hx) t.holds_intMax, fun ht => ?_⟩
  have hlt : t.result sat x < 2 ^ 32 := IT.result_of_narrow ht sat x ▸ wrapNat_lt ..
  exact ⟨hlt, (IT.word_read hlt).symm.trans (IT.word_read_result ht sat x)⟩

end Sys2Proof
end

section
/-!
PROOF. Sums, products and shifts on words: binary arithmetic modulo 2^w (R77, R78, R118).
-/
namespace Sys2Proof
open Machine

/-! Integer results as words -/

/-- Without `.sat` a result is the word of the exact number. -/
theorem IT.ofNat_result (t : IT) (x : Int) : BitVec.ofNat t.width (t.result false x) = BitVec.ofInt t.width x := by
  have h : ((t.result false x % 2 ^ t.width : Nat) : Int) = x % (2 ^ t.width : Nat) := by
    rw [Int.natCast_emod, t.result_emod]
    rfl
  apply BitVec.eq_of_toNat_eq
  rw [BitVec.toNat_ofNat, BitVec.toNat_ofInt, ← h, Int.toNat_natCast]

/-- The number that a word reads as has that word. -/
theorem IT.ofInt_read (t : IT) (a : BitVec t.width) : BitVec.ofInt t.width (t.read a.toNat) = a := by
  apply BitVec.eq_of_toNat_eq
  rw [BitVec.toNat_ofInt, t.read_emod, ← Int.natCast_emod, Int.toNat_natCast, Nat.mod_eq_of_lt a.isLt]

theorem IT.result_arithmetic (t : IT) (a b c : BitVec t.width) :
    let A := t.read a.toNat
    let B := t.read b.toNat
    BitVec.ofNat t.width (t.result false (A + B)) = a + b ∧ BitVec.ofNat t.width (t.result false (A - B)) = a - b ∧
    BitVec.ofNat t.width (t.result false (A * B)) = a * b ∧
    BitVec.ofNat t.width (t.result false (A * B + t.read c.toNat)) = a * b + c ∧
    BitVec.ofNat t.width (t.result false (-A)) = -a := by
  simp only [IT.ofNat_result, Int.sub_eq_add_neg, BitVec.sub_eq_add_neg, BitVec.ofInt_add, BitVec.ofInt_mul, BitVec.ofInt_neg,
    IT.ofInt_read, and_self]

/-! Shifts -/

/-- From `k` places on, a right shift of a number of `k` bits and a sign gives the sign alone. -/
theorem ediv_two_pow_min (n : Nat) {z : Int} {k : Nat} (hlo : -(2 ^ k : Nat) ≤ z) (hhi : z < (2 ^ k : Nat)) :
    z / (2 ^ min n k : Nat) = z / (2 ^ n : Nat) := by
  rcases Nat.le_total n k with hn | hn
  · rw [Nat.min_eq_left hn]
  · have hpow : 2 ^ k ≤ 2 ^ n := Nat.pow_le_pow_right (by decide) hn
    rw [Nat.min_eq_right hn]
    rcases Int.lt_or_le z 0 with hz | hz
    · rw [Int.ediv_eq_neg_one_of_neg_of_le hz (by omega), Int.ediv_eq_neg_one_of_neg_of_le hz (by omega)]
    · rw [Int.ediv_eq_zero_of_lt hz hhi, Int.ediv_eq_zero_of_lt hz (by omega)]

section
variable {w : Nat} (a : BitVec w) (n : Nat)

theorem ofNat_shlBits : BitVec.ofNat w (shlBits w a.toNat n) = a <<< n := by
  unfold shlBits
  split
  · rw [BitVec.shiftLeft_eq_zero ‹_›]
  · apply BitVec.eq_of_toNat_eq
    rw [BitVec.toNat_ofNat, Nat.mod_mod, BitVec.toNat_shiftLeft, Nat.shiftLeft_eq]

theorem ofNat_shrBits : BitVec.ofNat w (shrBits w a.toNat n) = a >>> n := by
  unfold shrBits
  split
  · rw [BitVec.ushiftRight_eq_zero ‹_›]
  · apply BitVec.eq_of_toNat_eq
    rw [BitVec.toNat_ofNat, BitVec.toNat_ushiftRight, Nat.shiftRight_eq_div_pow,
      Nat.mod_eq_of_lt (Nat.lt_of_le_of_lt (Nat.div_le_self ..) a.isLt)]

theorem ofNat_sarBits (hw : 0 < w) : BitVec.ofNat w (sarBits w a.toNat n) = a.sshiftRight n := by
  have hlo := a.le_toInt
  have hhi := a.toInt_lt
  rw [sarBits, ofNat_wrapNat, signedOf_toNat hw, Int.fdiv_eq_ediv_of_nonneg _ (Int.natCast_nonneg _),
    ediv_two_pow_min n (by exact_mod_cast hlo) (by exact_mod_cast hhi), BitVec.sshiftRight_eq, Int.shiftRight_eq_div_pow]

/-- The two parts of a rotation have no bit in common, so that their sum is their union. -/
theorem ofNat_rolBits : BitVec.ofNat w (rolBits w a.toNat n) = a.rotateLeft n := by
  have hdisjoint : a <<< (n % w) &&& a >>> (w - n % w) = 0#w := by
    ext i hi
    have hlt := Nat.mod_lt n (Nat.zero_lt_of_lt hi)
    rcases Nat.lt_or_ge i (n % w) with h | h
    · simp only [BitVec.getElem_and, BitVec.getElem_shiftLeft, h, decide_true, Bool.not_true, Bool.false_and, BitVec.getElem_zero]
    · simp only [BitVec.getElem_and, BitVec.getElem_ushiftRight, BitVec.getLsbD_of_ge a (w - n % w + i) (by omega), Bool.and_false,
        BitVec.getElem_zero]
  rw [BitVec.rotateLeft_def, ← BitVec.add_eq_or_of_and_eq_zero _ _ hdisjoint]
  apply BitVec.eq_of_toNat_eq
  rw [rolBits, BitVec.toNat_ofNat, Nat.mod_mod, BitVec.toNat_add, BitVec.toNat_shiftLeft, BitVec.toNat_ushiftRight,
    Nat.shiftLeft_eq, Nat.shiftRight_eq_div_pow, Nat.mod_add_mod]

theorem ofNat_complement : BitVec.ofNat w (2 ^ w - 1 - a.toNat) = ~~~a := by
  have hlt := a.isLt
  apply BitVec.eq_of_toNat_eq
  rw [BitVec.toNat_ofNat, BitVec.toNat_not, Nat.mod_eq_of_lt (by omega)]

end

/-- Settles O10: results are words of exact numbers, and the word of a sum or a product is that of the words. -/
theorem wordArithmetic : Obligations.WordArithmetic := by
  refine ⟨?_, ?_, fun w hw a n => ?_⟩
  · rintro t (rfl | rfl) a b c
    · exact IT.result_arithmetic .s32 a b c
    · exact IT.result_arithmetic .z32 a b c
  · rintro t (rfl | rfl) a b c
    · exact IT.result_arithmetic .s64 a b c
    · exact IT.result_arithmetic .z64 a b c
  · have hpos : 0 < w := by omega
    exact ⟨ofNat_shlBits a n, ofNat_shrBits a n, ofNat_sarBits a n hpos, ofNat_rolBits a n, ofNat_complement a⟩

end Sys2Proof
end

section
/-!
PROOF. Integer arithmetic, bitwise instructions, shifts, comparisons and predicate logic: the results written at once, and
those in windows.
-/
namespace Sys2Proof.Machine

/-! Instructions of one integer type -/

section
variable {s : State} {h : Hd} {m : Option LaneMod} {n d a b c : Nat} {sat : Bool} {t : IT} {i : Instr}

theorem gives_of_int1 {op : Int → Int} (hx : exec i s = .next (s.int1 h m d a sat t op)) :
    Gives s h t.wide d i fun u => t.result sat (op (t.read (s.numA m u t.wide a))) :=
  gives_of_compute hx fun _ => rfl

theorem gives_of_int2 {op : Int → Int → Int} (hx : exec i s = .next (s.int2 h m .short d a b sat t op)) :
    Gives s h t.wide d i fun u =>
      t.result sat (op (t.read (s.numA m u t.wide a)) (t.read (s.numB m u t.wide b))) :=
  gives_of_compute hx fun _ => rfl

theorem gives_of_int3 {op : Int → Int → Int → Int} (hx : exec i s = .next (s.int3 h m .short d a b c t op)) :
    Gives s h t.wide d i fun u =>
      t.result false (op (t.read (s.numA m u t.wide a)) (t.read (s.numB m u t.wide b)) (t.read (s.num u t.wide c))) :=
  gives_of_compute hx fun _ => rfl

theorem gives_of_intImm {op : Int → Int} (hx : exec i s = .next (s.intImm h .short d a op)) :
    Gives s h false d i fun u => wrapNat 32 (op (signedOf 32 (s.num u false a))) :=
  gives_of_compute hx fun _ => by rw [IT.result_s32]; rfl

theorem givesLater_of_int2 {op : Int → Int → Int} (hx : exec i s = .next (s.int2 h m (.fixed n) d a b false t op))
    (hl : (Latency.fixed n).long = true) :
    GivesLater s h n t.wide d i fun u =>
      t.result false (op (t.read (s.numA m u t.wide a)) (t.read (s.numB m u t.wide b))) :=
  givesLater_of_compute hx hl fun _ => rfl

theorem givesLater_of_int3 {op : Int → Int → Int → Int}
    (hx : exec i s = .next (s.int3 h m (.fixed n) d a b c t op)) (hl : (Latency.fixed n).long = true) :
    GivesLater s h n t.wide d i fun u =>
      t.result false (op (t.read (s.numA m u t.wide a)) (t.read (s.numB m u t.wide b)) (t.read (s.num u t.wide c))) :=
  givesLater_of_compute hx hl fun _ => rfl

theorem givesLater_of_intImm {op : Int → Int} (hx : exec i s = .next (s.intImm h (.fixed n) d a op))
    (hl : (Latency.fixed n).long = true) :
    GivesLater s h n false d i fun u => wrapNat 32 (op (signedOf 32 (s.num u false a))) :=
  givesLater_of_compute hx hl fun _ => by rw [IT.result_s32]; rfl

end

/-- Settles O1: each instruction is its operation on the exact values, and writes the word of the type at once. -/
theorem integerResults : Obligations.IntegerResults := by
  intro s h m d a b c sh p high imm sat w neg t cc A B C
  exact ⟨gives_of_compute rfl fun _ => rfl, gives_of_compute rfl fun _ => rfl, gives_of_compute rfl fun _ => rfl,
    gives_of_intImm (op := fun x => x + imm) rfl, gives_of_int2 (op := fun x y => x + y) rfl,
    gives_of_int2 (op := fun x y => x - y) rfl, gives_of_int2 (op := fun x y => min x y) rfl,
    gives_of_int2 (op := fun x y => max x y) rfl, gives_of_int1 (op := fun x => x.natAbs) rfl,
    gives_of_int1 (op := fun x => -x) rfl, gives_of_int3 (op := fun x y z => x + y + z) rfl,
    gives_of_int3 (op := fun x y z => (x - y).natAbs + z) rfl, gives_of_compute rfl fun _ => rfl,
    gives_of_compute rfl fun _ => rfl, gives_of_compute rfl fun _ => rfl⟩

/-! Quotients and remainders -/

theorem divInt_eq (w : Nat) (signed : Bool) (x y : Int) :
    divInt w signed x y = if y = 0 then (if signed then -1 else ((2 ^ w - 1 : Nat) : Int)) else x.tdiv y := by
  simp only [divInt, beq_iff_eq]

theorem remInt_eq (x y : Int) : remInt x y = if y = 0 then x else x.tmod y := by
  simp only [remInt, beq_iff_eq]

theorem divLatency_long (t : IT) : (divLatency t).long = true := by
  cases t <;> rfl

/-- Settles O2: the operations of the exact values of R112 to R114 and R116, with the latencies of R71. -/
theorem integerResultsLater : Obligations.IntegerResultsLater := by
  intro s h m d a b c imm t A B C
  refine ⟨givesLater_of_intImm (op := fun x => x * imm) rfl rfl, givesLater_of_int2 (op := fun x y => x * y) rfl rfl,
    givesLater_of_int2 (op := fun x y => (x * y).fdiv (2 ^ t.width : Nat)) rfl rfl,
    givesLater_of_int3 (op := fun x y z => x * y + z) rfl rfl, ?_, ?_⟩
  · simp only [← divInt_eq]
    exact givesLater_of_int2 (op := divInt t.width t.signed) rfl (divLatency_long t)
  · simp only [← remInt_eq]
    exact givesLater_of_int2 (op := remInt) rfl (divLatency_long t)

/-! Bitwise instructions and shifts -/

section
variable {s : State} {h : Hd} {m : Option LaneMod} {d a b : Nat} {w v : Bool} {i : Instr}

theorem gives_of_bits1 {op : Nat → Nat} (hx : exec i s = .next (s.bits1 h m d a w v op)) :
    Gives s h v d i fun u => op (s.numA m u w a) :=
  gives_of_compute hx fun _ => rfl

theorem gives_of_bits2 {op : Nat → Nat → Nat} (hx : exec i s = .next (s.bits2 h m d a b w op)) :
    Gives s h w d i fun u => op (s.numA m u w a) (s.numB m u w b) :=
  gives_of_compute hx fun _ => rfl

theorem gives_of_bitsImm {op : Nat → Nat} (hx : exec i s = .next (s.bitsImm h d a op)) :
    Gives s h false d i fun u => op (s.num u false a) :=
  gives_of_compute hx fun _ => rfl

theorem gives_of_shift {op : Nat → Nat → Nat} (hx : exec i s = .next (s.shift h m d a b w op)) :
    Gives s h w d i fun u => op (s.numA m u w a) (s.numB m u false b) :=
  gives_of_compute hx fun _ => rfl

end

theorem clzBits_eq (w a : Nat) : clzBits w a = if a = 0 then w else w - 1 - Nat.log2 a := by
  simp only [clzBits, beq_iff_eq]

/-- Settles O3: each instruction is its operation on the sources' bits, written at once. -/
theorem bitwiseResults : Obligations.BitwiseResults := by
  intro s h m d a b c imm w t A B
  refine ⟨gives_of_bitsImm (op := fun x => x &&& wrapNat 32 imm) rfl, gives_of_bitsImm (op := fun x => x ||| wrapNat 32 imm) rfl,
    gives_of_bitsImm (op := fun x => x ^^^ wrapNat 32 imm) rfl, gives_of_bits2 (op := fun x y => x &&& y) rfl,
    gives_of_bits2 (op := fun x y => x ||| y) rfl, gives_of_bits2 (op := fun x y => x ^^^ y) rfl,
    gives_of_bits2 (op := fun x y => x &&& (2 ^ 64 - 1 - y)) rfl, gives_of_bits1 (op := fun x => 2 ^ wbits w - 1 - x) rfl,
    gives_of_bits1 (op := fun x => popBits x (wbits w)) rfl, ?_, gives_of_bits1 (op := fun x => revBits x (wbits w)) rfl,
    gives_of_compute rfl fun _ => rfl, gives_of_compute rfl fun _ => rfl⟩
  simp only [← clzBits_eq]
  exact gives_of_bits1 rfl

/-- Settles O4: each instruction is its shift of the source's bits, written at once. -/
theorem shiftResults : Obligations.ShiftResults := by
  intro s h m d a b n w A N K
  exact ⟨gives_of_bitsImm (op := fun x => shlBits 32 x n) rfl, gives_of_bitsImm (op := fun x => shrBits 32 x n) rfl,
    gives_of_bitsImm (op := fun x => sarBits 32 x n) rfl, gives_of_shift (op := shlBits (wbits w)) rfl,
    gives_of_shift (op := shrBits (wbits w)) rfl, gives_of_shift (op := sarBits (wbits w)) rfl,
    gives_of_shift (op := rolBits (wbits w)) rfl⟩

/-! Predicates -/

theorem tells_of_predOp {s : State} {h : Hd} {p a b : Nat} {na nb : Bool} {i : Instr} {op : Bool → Bool → Bool}
    (hx : exec i s = .next (s.predOp h p a b na nb op)) :
    Tells s h p i fun u => op ((s.thread u).pred a != na) ((s.thread u).pred b != nb) :=
  tells_of_compute hx fun _ => rfl

/-- Settles O5: each instruction is its test or its operation on truths; that p0 stays is part of `Tells`. -/
theorem predicateResults : Obligations.PredicateResults := by
  intro s h m p a b na nb t cc X Y
  exact ⟨tells_of_compute rfl fun _ => rfl, tells_of_predOp (op := fun x y => x && y) rfl,
    tells_of_predOp (op := fun x y => x || y) rfl, tells_of_predOp (op := fun x y => x != y) rfl,
    tells_of_compute rfl fun _ => rfl⟩

/-! Functions of binary32 -/

/-- Settles O7: each instruction is its function of the operands' bits, in a window after the cycles of R71. -/
theorem functionResults : Obligations.FunctionResults := by
  intro s h m d a b r A B
  exact ⟨givesLater_of_float2 (op := fun x y => fmt32.div r (fmt32.read x) (fmt32.read y)) rfl rfl,
    givesLater_of_float1 (op := fun x => fmt32.div r (Fl.ofInt 1) (fmt32.read x)) rfl rfl,
    givesLater_of_float1 (op := fun x => fmt32.rsqrt r (fmt32.read x)) rfl rfl,
    givesLater_of_float1 (op := fun x => fmt32.sqrt r (fmt32.read x)) rfl rfl,
    givesLater_of_float1 (op := fexp2Bits) rfl rfl, givesLater_of_float1 (op := flog2Bits) rfl rfl,
    givesLater_of_float1 (op := ftrigBits false) rfl rfl, givesLater_of_float1 (op := ftrigBits true) rfl rfl⟩

end Sys2Proof.Machine
end

section
/-!
PROOF. Random numbers: what the instructions do to a thread's generator, and the words that they give.
-/
namespace Sys2Proof.Machine

/-- A generator goes through the four words of a block, then to the next block (R134, R135). -/
theorem Thread.drawn_eq (th : Thread) : th.drawn =
    { th with rngI := if th.rngI = 3 then 0 else th.rngI + 1, rngB := if th.rngI = 3 then th.rngB + 1 else th.rngB } := by
  simp only [Thread.drawn, beq_iff_eq]
  split <;> rfl

/-- A generator that moves on leaves the thread's traps and windows alone. -/
theorem Thread.drawn_keeps (th : Thread) :
    th.drawn.trapQ = th.trapQ ∧ th.drawn.llSeq = th.llSeq ∧ th.drawn.windows = th.windows := by
  rw [Thread.drawn_eq]
  exact ⟨rfl, rfl, rfl⟩

/-- The instructions that set the place of a generator write no result. -/
theorem State.reseed_moves {s : State} {h : Hd} {f : TId → Thread → Thread} (hb : s.Bundled)
    (hf : ∀ u th, (f u th).trapQ = th.trapQ) :
    Moves s h (.next (s.reseed h f)) fun u act th => if act then f u th else th :=
  State.eachThread_moves (f := fun _ => f) hb fun u _ => hf u

/-- A word drawn: the generators have moved on, and the windows hold what `f` makes of the words from before. -/
theorem State.random_opens {s : State} {h : Hd} {d : Nat} {f : Nat → Nat} (hb : s.Bundled)
    (hc : ∀ u ∈ s.active h, (s.thread u).conflict [d] [] = none) :
    Opens s h 6 [d] [] (.next (s.random h d f)) (fun u => { regs := putNum false d (f (s.draw u)) }) Thread.drawn := by
  let s1 := s.begin h [d] []
  have h1 : s.OnlyThreads s1 := s.onlyThreads_begin h [d] []
  have hth := State.thread_begin hb hc
  simp only [State.random, State.acting_begin hb hc]
  refine State.deliver_opens _ Thread.drawn hb rfl
    (h1.trans (State.onlyThreads_foldl _ (fun z _ => z.onlyThreads_modThread ..) _ _)) (fun v => ?_) Thread.drawn_keeps
  have hfold := State.thread_foldl_modThread (s.active h) (hb.nodup.sublist List.filter_sublist) (fun _ => Thread.drawn) s1 v
  rw [hfold]
  by_cases ha : v ∈ s.active h
  · have hv := State.active_sub ha
    rw [if_pos ⟨ha, (h1.present v).trans (State.present_of_seated (hb.seated v hv))⟩, if_pos ha, hth, if_pos hv]
  · rw [if_neg fun hx => ha hx.1, if_neg ha, hth]

/-- Settles O13: by `State.reseed_moves` and `State.random_opens`; a discarded word opens no window, and moves the generator all
the same. -/
theorem randomResults : Obligations.RandomResults := by
  intro s h d a hb drawn word
  have hdrawn : drawn = Thread.drawn := funext fun th => th.drawn_eq.symm
  refine ⟨State.reseed_moves hb fun _ _ => rfl, State.reseed_moves hb fun _ _ => rfl, fun hc => ?_⟩
  rw [hdrawn]
  exact ⟨State.random_opens (f := id) hb hc,
    State.random_opens (f := fun n => fmt32.round .rn (.num false (n / 2 ^ 8) (-24))) hb hc⟩

end Sys2Proof.Machine
end

section
/-!
PROOF. The block conversions: a counterexample in a state whose bundle names a partition that no core has.
-/
namespace Sys2Proof.Machine

/-- A bundle of one thread of core 1, said to issue on core 0 as partition 4 (a core has the partitions 0 to 3): the number on the
device is that of partition 0 of core 1, and core 1 has completed one core cycle more than core 0. -/
def strayBundle : State :=
  { cores := [(1, { cyc := 1 })]
    parts := [(4, { bins := [(0, { threads := [⟨96, 0⟩] })] })]
    waves := [(96, { threads := [{}], masks := [(0, 1)] })]
    cur := { core := 0, part := 4, bin := 0, threads := [⟨96, 0⟩] } }

theorem strayBundle_bundled : strayBundle.Bundled where
  some_ := by decide
  nodup := by decide
  seated := by decide
  here := by decide
  clear := by decide
  bin := by decide
  banks := by decide

/-- The core cycles for which the windows of a thread hold their results, after an instruction. -/
def readiness (u : TId) : Host.Outcome State Fault Refusal → List (Option Nat)
  | .next t => (t.thread u).windows.map (·.ready)
  | _ => []

theorem readiness_cvtbx :
    readiness ⟨96, 0⟩ (exec (.cvtbx ⟨false, 0, 0⟩ 0 0 0 .bx3 .rn) strayBundle) = [some 7] := by
  decide

/-- Refutes O24: no premise keeps `cur.part` below 4, the number of a core's partitions, so that `cur.core` need not be the core of
the wave. In `strayBundle` CVTBX is performed at once, and its 6 core cycles (R145) are counted from the cycle of the wave's core,
core 1: the result comes at core cycle 7. The statement counts them from the cycle of `cur.core`, core 0. -/
theorem not_blockResults : ¬ Obligations.BlockResults := by
  intro hall
  obtain ⟨hcvtbx, -, -⟩ := hall strayBundle ⟨false, 0, 0⟩ 0 0 0 0 96 0 .bx3 .rn
  obtain ⟨t, ht, -, -, -, -, -, hthreads⟩ := hcvtbx strayBundle_bundled (by decide) (by decide) (by decide) (by decide)
    (by decide) (by decide)
  have hsix : readiness ⟨96, 0⟩ (.next t) = [some 6] :=
    congrArg (fun th => th.windows.map (·.ready)) (hthreads ⟨96, 0⟩ (by decide))
  rw [← ht, readiness_cvtbx] at hsix
  exact absurd hsix (by decide)

end Sys2Proof.Machine
end

section
/-!
PROOF. The cross-lane results: `strayBundle`, which refutes the block conversions, is a counterexample to these too.
-/
namespace Sys2Proof.Machine

/-- `Shares` has the one thread of `strayBundle` receive its results 6 core cycles after cycle 0 of core 0, whatever they are. -/
theorem Shares.readiness_strayBundle {i : Instr} {out : TId → Out}
    (hi : Shares strayBundle ⟨false, 0, 0⟩ 0 96 [0] [0] i out) : readiness ⟨96, 0⟩ (exec i strayBundle) = [some 6] := by
  obtain ⟨t, ht, -, -, -, -, -, hthreads⟩ := hi strayBundle_bundled (by decide) (by decide) (by decide) (by decide)
    (by decide) (by decide)
  rw [ht]
  exact congrArg (fun th => th.windows.map (·.ready)) (hthreads ⟨96, 0⟩ (by decide))

theorem readiness_lget :
    readiness ⟨96, 0⟩ (exec (.lget ⟨false, 0, 0⟩ 0 0 0 0 .atLane 0) strayBundle) = [some 7] := by
  decide

/-- Refutes O23: as for the block conversions, no premise keeps `cur.part` below 4, so that `cur.core` need not be the core of the
wave. In `strayBundle` LGET is performed at once, and its 6 core cycles (R145) are counted from the cycle of the wave's core, core 1:
the result comes at core cycle 7. The statement counts them from the cycle of `cur.core`, core 0. -/
theorem not_laneResults : ¬ Obligations.LaneResults := by
  intro hall
  obtain ⟨hlget, -⟩ := hall strayBundle ⟨false, 0, 0⟩ 0 0 0 0 96 0 0 0 .atLane .add .s32 false false false false
  have hsix := hlget.readiness_strayBundle
  rw [readiness_lget] at hsix
  exact absurd hsix (by decide)

end Sys2Proof.Machine
end

section
/-!
PROOF. Timeouts: threads that go on from WAITM and from a barrier, and signers of a withdrawn session, which enter their handlers.
-/
namespace Sys2Proof.Machine

/-! A wait that ends -/

theorem State.OnlyThreads.seated {s t : State} (h : s.OnlyThreads t) (u : TId) : t.seated u = s.seated u :=
  congrArg (· && decide (u.lane < 32)) (h.present u)

/-- A thread that is changed and released goes on, and is filed. -/
theorem State.resumes_release {s : State} {u : TId} (f : Thread → Thread) (hs : s.seated u = true)
    (hh : (s.wave u.w).halted = false) : s.Resumes ((s.modThread u f).release u) u f := by
  have hon : s.OnlyThreads ((s.modThread u f).modThread u fun th => { th with st := .ready }) :=
    (s.onlyThreads_modThread u f).trans (State.onlyThreads_modThread ..)
  have hthread : ∀ v, ((s.modThread u f).modThread u fun th => { th with st := .ready }).thread v =
      if v = u then { f (s.thread v) with st := .ready } else s.thread v := fun v => by
    rw [State.thread_modThread, State.present_modThread, State.thread_modThread]
    by_cases hv : v = u
    · rw [hv]
      simp only [State.present_of_seated hs, and_self, if_true]
    · simp only [hv, false_and, if_false]
  rw [State.release]
  generalize (s.modThread u f).modThread u (fun th => { th with st := .ready }) = z at hon hthread ⊢
  have hpart : ∀ p, z.part p = s.part p := fun p => by rw [hon.rest]; rfl
  have hcore : z.core u.core = s.core u.core := by rw [hon.rest]; rfl
  have hhalted : (z.wave u.w).halted = false := by rw [hon.waves]; exact hh
  rw [State.file_eq ((hon.seated u).trans hs), hhalted, if_neg Bool.false_ne_true]
  refine ⟨?_, hon.waves, fun v hv => (hthread v).trans (if_neg hv), (hthread u).trans (if_pos rfl), fun p hp => ?_, ?_⟩
  · rw [hon.rest]
    rfl
  · exact (State.part_modPart ..).trans ((if_neg hp).trans (hpart p))
  · rw [← hcore, ← hpart]
    exact (State.part_modPart ..).trans (if_pos rfl)

/-! Waiting threads that take a trap -/

/-- `t` differs from `s` in threads, in partitions and in the count of free values alone. -/
structure State.OnlyEntries (s t : State) : Prop where
  rest    : t = { s with waves := t.waves, parts := t.parts, freeCtr := t.freeCtr }
  waves   : ∀ w, t.wave w = { s.wave w with threads := (t.wave w).threads }
  present : ∀ u, t.present u = s.present u

theorem State.OnlyEntries.refl (s : State) : s.OnlyEntries s := ⟨rfl, fun _ => rfl, fun _ => rfl⟩

theorem State.OnlyEntries.trans {s t z : State} (h : s.OnlyEntries t) (k : t.OnlyEntries z) : s.OnlyEntries z where
  rest := by rw [k.rest, h.rest]
  waves w := by rw [k.waves, h.waves]
  present u := (k.present u).trans (h.present u)

theorem State.OnlyTraps.entries {s t : State} (h : s.OnlyTraps t) : s.OnlyEntries t where
  rest := by
    have hrest := h.rest
    rw [hrest]
  waves := h.waves
  present := h.present

theorem State.OnlyBins.entries {s t : State} {pid : Nat} (h : s.OnlyBins t pid) : s.OnlyEntries t where
  rest := by
    have hrest := h.rest
    rw [hrest]
  waves w := by rw [h.rest]; rfl
  present u := by rw [h.rest]; rfl

theorem State.onlyEntries_unfile (s : State) (u : TId) : s.OnlyEntries (s.unfile u) := ⟨rfl, fun _ => rfl, fun _ => rfl⟩

theorem State.OnlyEntries.ctxOf {s t : State} (h : s.OnlyEntries t) (u : TId) : t.ctxOf u = s.ctxOf u := by
  rw [State.ctxOf, State.ctxOf, h.waves, h.rest]
  rfl

theorem State.thread_file (s : State) (u v : TId) (g : Nat) : (s.file u g).thread v = s.thread v := by
  rw [State.thread, State.thread, (s.onlyBins_file u g).rest]
  rfl

/-- The thread can take a trap now (R429, R430, R510), and has none to take. -/
structure State.TakesTraps (s : State) (u : TId) : Prop where
  present : s.present u = true
  handler : (s.ctxOf u).handler ≠ 0
  hand    : (s.thread u).hand = none
  windows : (s.thread u).windows = []
  clear   : (s.thread u).trapQ = none

theorem State.TakesTraps.congr {s t : State} {u : TId} (hu : s.TakesTraps u) (h : s.OnlyEntries t)
    (ht : t.thread u = s.thread u) : t.TakesTraps u where
  present := (h.present u).trans hu.present
  handler := by rw [h.ctxOf]; exact hu.handler
  hand := by rw [ht]; exact hu.hand
  windows := by rw [ht]; exact hu.windows
  clear := by rw [ht]; exact hu.clear

/-- A thread that waits takes a trap at once. -/
theorem State.trapNow_spec {s : State} {u : TId} (tr : Trap) (pc : DWord) (hu : s.TakesTraps u) :
    s.OnlyEntries (s.trapNow u tr pc) ∧ (∀ v, v ≠ u → (s.trapNow u tr pc).thread v = s.thread v) ∧
      Thread.Entered (s.thread u) ((s.trapNow u tr pc).thread u) u.lane tr (tr.code.tpc pc)
        (BitVec.ofNat 64 (s.ctxOf u).handler) := by
  let z := (s.raise u tr pc).modThread u fun th => { th with st := .ready }
  have hz : s.OnlyThreads z := (s.onlyThreads_modThread ..).trans (State.onlyThreads_modThread ..)
  have hother : ∀ v, v ≠ u → z.thread v = s.thread v := fun v hv => by
    rw [State.thread_modThread, if_neg fun hx => hv hx.1, State.raise, State.thread_modThread, if_neg fun hx => hv hx.1]
  have hself : z.thread u =
      { s.thread u with st := .ready, trapQ := some ⟨tr, tr.code.tpc pc, (s.thread u).llSeq⟩ } := by
    rw [State.thread_modThread, State.raise, State.present_modThread, if_pos ⟨rfl, hu.present⟩, State.thread_modThread,
      if_pos ⟨rfl, hu.present⟩]
    simp only [Thread.addTrap, Thread.close, hu.clear, hu.windows, List.map_nil]
  have halone : s.trapNow u tr pc = ((z.unfile u).enterDue u).file u 3 := by
    show z.enterAlone u = _
    simp only [State.enterAlone, hself, hu.windows, List.isEmpty_nil, if_true]
  have hentries : s.OnlyEntries (z.unfile u) := hz.traps.entries.trans (z.onlyEntries_unfile u)
  have hunfiled : (z.unfile u).thread u = _ := hself
  obtain ⟨htraps, hstay, hentered⟩ := State.enterDue_spec (s := z.unfile u) (u := u) ((hentries.present u).trans hu.present)
    (by rw [hunfiled]) (by rw [hunfiled]; exact hu.windows) (by rw [hunfiled]; exact hu.hand)
    (by rw [hentries.ctxOf]; exact hu.handler)
  rw [halone]
  refine ⟨hentries.trans (htraps.entries.trans (State.onlyBins_file ..).entries),
    fun v hv => (State.thread_file ..).trans ((hstay v hv).trans (hother v hv)), ?_⟩
  rw [State.thread_file]
  obtain ⟨hrest, hhand⟩ := hentered
  rw [hunfiled, hentries.ctxOf] at hrest
  exact ⟨hrest, hhand⟩

/-- Threads that wait, each its trap. -/
theorem State.foldl_raiseAt (tr : Trap) (pc : DWord) (us : List TId) (hn : us.Nodup) (s : State) (hcur : s.cur.threads = [])
    (hu : ∀ u ∈ us, s.TakesTraps u) :
    s.OnlyEntries (us.foldl (fun z u => z.raiseAt pc u tr) s) ∧
      (∀ v, v ∉ us → (us.foldl (fun z u => z.raiseAt pc u tr) s).thread v = s.thread v) ∧
      ∀ u ∈ us, Thread.Entered (s.thread u) ((us.foldl (fun z u => z.raiseAt pc u tr) s).thread u) u.lane tr
        (tr.code.tpc pc) (BitVec.ofNat 64 (s.ctxOf u).handler) := by
  induction us generalizing s with
  | nil => exact ⟨.refl s, fun _ _ => rfl, fun _ h => absurd h List.not_mem_nil⟩
  | cons u us ih =>
    obtain ⟨hnot, hn'⟩ := List.nodup_cons.1 hn
    have hut := hu u (List.mem_cons_self ..)
    have hunfile := s.onlyEntries_unfile u
    obtain ⟨hentries, hstay, hentered⟩ := State.trapNow_spec tr pc (hut.congr hunfile rfl)
    have hat : s.raiseAt pc u tr = (s.unfile u).trapNow u tr pc := by
      simp [State.raiseAt, hcur]
    rw [← hat] at hentries hstay hentered
    have h1 := hunfile.trans hentries
    have hne : ∀ v ∈ us, v ≠ u := fun v hv hvu => hnot (hvu ▸ hv)
    obtain ⟨ientries, istay, ientered⟩ := ih hn' (s.raiseAt pc u tr) (by rw [h1.rest]; exact hcur) fun v hv =>
      (hu v (List.mem_cons_of_mem _ hv)).congr h1 (hstay v (hne v hv))
    rw [List.foldl_cons]
    refine ⟨h1.trans ientries, fun v hv => ?_, fun v hv => ?_⟩
    · rw [List.mem_cons, not_or] at hv
      exact (istay v hv.2).trans (hstay v hv.1)
    · rcases List.mem_cons.1 hv with rfl | hvus
      · rw [istay v hnot]
        exact hentered
      · have hv' := ientered v hvus
        rw [hstay v (hne v hvus), h1.ctxOf] at hv'
        exact hv'

/-! A session that is withdrawn -/

section
variable {s : State} {c : Cur} {core part id w : Nat} {x : Session} {xs : List Session}

/-- A session that is found belongs to a wave that is there. -/
theorem State.find_of_findSession {pid : Nat} (h : s.findSession pid id = some (.wave w, x)) : (s.waves.find? w).isSome := by
  obtain ⟨o, -, ho⟩ := List.exists_of_findSome?_eq_some h
  obtain ⟨y, hy, howner⟩ := Option.map_eq_some_iff.1 ho
  obtain ⟨rfl, rfl⟩ := Prod.mk.inj howner
  cases hfind : s.waves.find? w with
  | some _ => rfl
  | none =>
    have hnone : s.sessionsOf (.wave w) = [] := by
      rw [State.sessionsOf, State.wave, Tab.get, hfind]
      rfl
    rw [hnone, List.find?_nil] at hy
    exact nomatch hy

/-- The state with the sessions `xs` left to wave `w`, as the timeout in the partition of `c` leaves it before the traps. -/
def State.withdrawn (s : State) (c : Cur) (w : Nat) (xs : List Session) : State :=
  ({ s with cur := c } : State).setSessions (.wave w) xs

theorem State.wave_withdrawn (v : Nat) (hw : (s.waves.find? w).isSome) :
    (s.withdrawn c w xs).wave v = { s.wave v with sessions := if v = w then xs else (s.wave v).sessions } := by
  rw [State.withdrawn, State.setSessions, State.wave_modWave]
  by_cases hv : v = w
  · rw [if_pos ⟨hv, hv ▸ hw⟩, if_pos hv]
    rfl
  · rw [if_neg fun hx => hv hx.1, if_neg hv]
    rfl

theorem State.thread_withdrawn (u : TId) (hw : (s.waves.find? w).isSome) : (s.withdrawn c w xs).thread u = s.thread u := by
  rw [State.thread, State.wave_withdrawn _ hw]
  rfl

theorem State.ctxOf_withdrawn (u : TId) (hw : (s.waves.find? w).isSome) : (s.withdrawn c w xs).ctxOf u = s.ctxOf u := by
  rw [State.ctxOf, State.wave_withdrawn _ hw]
  rfl

theorem State.TakesTraps.withdrawn {u : TId} (hu : s.TakesTraps u) (hw : (s.waves.find? w).isSome) :
    (s.withdrawn c w xs).TakesTraps u where
  present := by
    rw [← hu.present, State.present, State.wave_withdrawn _ hw, State.withdrawn, State.setSessions, State.find_modWave,
      State.present]
  handler := by rw [State.ctxOf_withdrawn _ hw]; exact hu.handler
  hand := by rw [State.thread_withdrawn _ hw]; exact hu.hand
  windows := by rw [State.thread_withdrawn _ hw]; exact hu.windows
  clear := by rw [State.thread_withdrawn _ hw]; exact hu.clear

theorem State.exec_signTimeout (hx : s.findSession (core * 4 + part) id = some (.wave w, x)) (hheld : x.held = false) :
    exec (.signTimeout core part id) s = .next ((x.signers.map (·.t)).foldl
      (fun z u => z.raiseAt x.pc u (.general .signTimeout (reg := x.k)))
      (s.withdrawn { core := core, part := part } w ((s.wave w).sessions.filter (·.id != id)))) := by
  have he : exec (.signTimeout core part id) s = execSignTimeout core part id s := rfl
  have hf : State.findSession { s with cur := { core := core, part := part } } (core * 4 + part) id = some (.wave w, x) := hx
  rw [he, execSignTimeout, List.foldl_map]
  simp only [hf, hheld, Bool.false_eq_true, if_false]
  rfl

end

/-- Settles O44: a thread goes on by `State.resumes_release`; the signers of a session, none of them in a bundle, take their traps one
after the other. -/
theorem timeoutSteps : Obligations.TimeoutSteps := by
  intro s core part slot lane id _ _ u
  have hwaitm : exec (.waitmTimeout core part slot lane) s = .next (s.endMaskWait u false) := rfl
  have hbarrier : exec (.barrierRetryTimeout core part slot lane) s = execBarrierRetryTimeout core part slot lane s := rfl
  refine ⟨fun hs hh => ⟨fun m hm => ?_, fun hm => ?_, fun b x hst hb => ?_⟩, fun w x hx hheld hn hg => ?_⟩
  · rw [hwaitm, State.endMaskWait, hm]
    exact ⟨_, rfl, State.resumes_release _ hs hh⟩
  · rw [hwaitm, State.endMaskWait, hm]
  · rw [hbarrier, execBarrierRetryTimeout, show State.thread s ⟨(core * 4 + part) * 24 + slot, lane⟩ = s.thread u from rfl, hst, hb]
    exact ⟨_, rfl, State.resumes_release _ hs hh⟩
  · have hw := State.find_of_findSession hx
    have htakes : ∀ v ∈ x.signers.map (·.t), s.TakesTraps v := fun v hv => by
      obtain ⟨g, hgx, rfl⟩ := List.mem_map.1 hv
      obtain ⟨hseated, hhandler, hhand, hwindows, hclear⟩ := hg g hgx
      exact ⟨State.present_of_seated hseated, hhandler, hhand, hwindows, hclear⟩
    obtain ⟨honly, hstay, hentered⟩ := State.foldl_raiseAt (.general .signTimeout (reg := x.k)) x.pc _ hn
      (s.withdrawn { core := core, part := part } w ((s.wave w).sessions.filter (·.id != id))) rfl
      fun v hv => (htakes v hv).withdrawn hw
    rw [State.exec_signTimeout hx hheld]
    refine ⟨_, rfl, by rw [honly.rest]; rfl, fun v => by rw [honly.waves, State.wave_withdrawn v hw],
      fun v => by rw [honly.waves, State.wave_withdrawn v hw], fun g hgx => ?_, fun v hv => ?_⟩
    · have hgt := hentered g.t (List.mem_map_of_mem hgx)
      rw [State.thread_withdrawn _ hw, State.ctxOf_withdrawn _ hw] at hgt
      exact hgt
    · rw [hstay v (by simpa using hv), State.thread_withdrawn _ hw]

end Sys2Proof.Machine
end

section
/-!
PROOF. The matrix instructions: a counterexample in a state whose workgroup has no entry among the allocations of its partition.
-/
namespace Sys2Proof.Machine

/-- A TPROF of workgroup 1, which has not completed. -/
def waitingTprof : TileOp :=
  { id := 0, wg := 1, t := ⟨1, 0⟩, pc := 0, instr := .tprof ⟨false, 0, 0⟩ 0, addr := 0, desc := [], tcs := [], accs := [], prof := none
    recvs := [], priv := false, time := 0, cycle := 0, header := false, late := false, ahead := false, st := .queued, refused := none
    result := none }

/-- A bundle of the one member of mask 0 of workgroup 0, behind a TPROF in tile order. The partition has no allocation, so that the
tile control registers and the accumulators of the workgroup are those of reset, and a profile is loaded. -/
def unallocated : State :=
  { parts := [(0, { bins := [(0, { threads := [⟨0, 0⟩] })], tileQ := [waitingTprof] })]
    waves := [(0, { threads := [{}], masks := [(0, 1)] })]
    ctxs := [(0, { desc := 0, prof := some { grouping := 0, chans := [] } })]
    cur := { core := 0, part := 0, bin := 0, threads := [⟨0, 0⟩] } }

theorem unallocated_bundled : unallocated.Bundled where
  some_ := by decide
  nodup := by decide
  seated := by decide
  here := by decide
  clear := by decide
  bin := by decide
  banks := by decide

theorem unallocated_tilesKept : unallocated.TilesKept unallocated.pid := by
  unfold State.TilesKept
  decide

/-- The allocations of a partition after an instruction. -/
def allocations (pid : Nat) : Host.Outcome State Fault Refusal → Tab Alloc
  | .next t => (t.part pid).allocs
  | _ => []

theorem allocations_tmma : allocations 0 (exec (.tmma ⟨false, 0, 0⟩ 0 0 1 0 false false) unallocated) = [(0, {})] := by
  decide

/-- Refutes O35: no premise says that the partition has an entry for the workgroup among its allocations, which `State.createWg`
makes. In `unallocated`, which has none, the checks of R211 pass and TMMA enters tile order behind a TPROF; its session is opened in
the workgroup's allocation and closed there again (R205, R206), which leaves an entry. The statement has the allocations stay as they
were, since an operation behind a TPROF does not act on the control state (R216, log 85). -/
theorem not_matrixEffects : ¬ Obligations.MatrixEffects := by
  intro hall
  obtain ⟨⟨htmma, -⟩, -⟩ := hall unallocated ⟨false, 0, 0⟩ 0 0 0 1 0 0 0 false false false .s32 .registers ⟨0, 0⟩
    unallocated_bundled (by decide) (by decide) (by decide) (by decide) (by decide) unallocated_tilesKept
  obtain ⟨z, t, -, ht, hqueued, -, -⟩ := htmma (by decide) (by decide)
  have hnone : allocations 0 (.next t) = [] := congrArg Part.allocs (State.queued_iff.1 hqueued).here
  rw [← ht, allocations_tmma] at hnone
  exact List.cons_ne_nil _ _ hnone

end Sys2Proof.Machine
end
